-- ==== Sys2Proof/Word.lean ====
section
/-! DEFINITION. The machine's words and the plain records that commands and state share: host accesses, update
records, frame contents and events, under the spec's names. -/

namespace Sys2Proof

/-- A word: 32 bits in four byte lanes (00_scope, Conventions). -/
abbrev Word := BitVec 32

/-- A byte, and every 8-bit counter of the manual: seqs, generations, cycle numbers, turn counts. -/
abbrev Byte := BitVec 8

/-- A byte address of the host bus: R176 gives 0xFFFFFF as the highest. -/
abbrev Addr := BitVec 24

/-- A lane set: bit k is lane k (00_scope, Conventions; R192). -/
abbrev Lanes := BitVec 4

/-- A region id, 0..15. -/
abbrev RegionId := Fin 16

/-- A station id 0..14, or 15 for broadcast or none. -/
abbrev StationId := Fin 16

/-- A set of station ids: bit s is station s (R188, R191, R193). -/
abbrev StationSet := BitVec 16

/-- The three centre samples of one bit position; bit 0 is the first (R148). -/
abbrev Vote := BitVec 3

/-- The sixteen ids in ascending order. -/
def allIds : List (Fin 16) := [0, 1, 2, 3, 4, 5, 6, 7, 8, 9, 10, 11, 12, 13, 14, 15]

/-- An access at the host port or the memory port (R160, R161). -/
structure Access where
  addr : Addr
  write : Bool
  lanes : Lanes
  data : Word
  deriving DecidableEq, Repr

/-- An update record (R24). The bytes of lanes outside `lanes` are 0 in `data` and mean nothing. -/
structure UpdateRecord where
  offset : Byte
  lanes : Lanes
  data : Word
  deriving DecidableEq, Repr

/-- The four region states an ack entry can report (R62, R193). -/
inductive ReportedState where
  | unsynced
  | refreshing
  | settling
  | current
  deriving DecidableEq, Repr

/-- An ack entry of a YIELD (R62, R133). -/
structure AckEntry where
  region : RegionId
  generation : Byte
  appliedSeq : Byte
  state : ReportedState
  deriving DecidableEq, Repr

/-- A summary of a YIELD (R63, R133). -/
structure Summary where
  region : RegionId
  generation : Byte
  deriving DecidableEq, Repr

/-- The content of a DATA frame (R131). -/
structure DataFrame where
  region : RegionId
  generation : Byte
  seq : Byte
  records : List UpdateRecord
  deriving DecidableEq, Repr

/-- The content of a CHUNK frame (R132). `settle` is present exactly when the LAST flag is set. -/
structure ChunkFrame where
  region : RegionId
  generation : Byte
  targets : StationSet
  baseSeq : Byte
  index : Fin 16
  settle : Option Byte
  words : List Word
  deriving DecidableEq, Repr

/-- The content of a YIELD frame (R133). `roster` is present exactly when the roster flag is set. -/
structure YieldFrame where
  cycle : Byte
  roster : Option StationSet
  acks : List AckEntry
  summaries : List Summary
  deriving DecidableEq, Repr

/-- The four frame kinds by content (R128, R130 to R133). A POLL names its destination; the others go to 15. -/
inductive Frame where
  | poll (destination : StationId) (cycle budget : Byte)
  | data (content : DataFrame)
  | chunk (content : ChunkFrame)
  | yield (content : YieldFrame)
  deriving DecidableEq, Repr

/-- The faults of the echo check (R156). -/
inductive EchoFault where
  | mismatch
  | framing
  | contention
  deriving DecidableEq, Repr

/-- The event kinds (R192). -/
inductive EventKind where
  | escape
  | guardDrop
  | cbGuard
  | inboundOverrun
  | refreshBroken
  | wrongPublisher
  | crcError
  | frameError
  | noise
  | collision
  | lineReset
  | lineLost
  | stationLost
  | stationJoined
  | regionCurrent
  | regionUnsynced
  | cmdBusy
  deriving DecidableEq, Repr

/-- An event: kind and fields of 10.7, with the timestamp taken at its posting (R183). -/
structure Event where
  kind : EventKind
  region : RegionId
  station : StationId
  seq : Byte
  detail : BitVec 10
  stamp : Word
  deriving DecidableEq, Repr

end Sys2Proof
end

