-- ==== Sys2Proof/Syntax.lean ====
section
/-! DEFINITION. The commands of the part: one constructor for each row of spec/opcode_table.json, in the table's
order, with its operands. -/

namespace Sys2Proof

/-- A command: something the host, the memory, the line, a timer or a pin does to the part. -/
inductive Instr where
  /-- HOST_ACCESS: a host read or write is presented (R160, R162). -/
  | hostAccess (a : Access)
  /-- CONSUMER_INDEX_WRITE: the host writes the event consumer index word (R164, R185). -/
  | consumerIndexWrite (lanes : Lanes) (data : Word)
  /-- CB_WORD_WRITE: the host writes another host-owned word of the control block, by word index (R164). -/
  | cbWordWrite (word : Fin 172) (lanes : Lanes) (data : Word)
  /-- LOAD: the host writes the command word with code 1 (R173 to R175, R190). -/
  | load (region tag : Byte)
  /-- START: code 2 (R178). -/
  | start (region tag : Byte)
  /-- STOP: code 3 (R179). -/
  | stop (region tag : Byte)
  /-- FLUSH: code 4 (R38). -/
  | flush (region tag : Byte)
  /-- RESYNC: code 5 (R21). -/
  | resync (region tag : Byte)
  /-- BAD_COMMAND: any other code (R174). -/
  | badCommand (code region tag : Byte)
  /-- MEMORY_ACCESS_COMPLETE: the memory completes the access on the port (R168). -/
  | memoryAccessComplete
  /-- APPLY_START: the idle apply engine starts on the older slot (R79). -/
  | applyStart
  /-- AGENT_ACCESS_REQUEST: the agent chooses and requests its next access (R181). -/
  | agentAccessRequest
  /-- QUIET_INTERVAL_EXPIRY of one published region (R36). -/
  | quietIntervalExpiry (region : RegionId)
  /-- ESCAPE: the held write's hold limit expires (R44). -/
  | escape
  /-- LINE_LOST: the line-lost timer reaches its timeout (R125). -/
  | lineLost
  /-- REPLY_TIMEOUT (R115). -/
  | replyTimeout
  /-- TURN_SILENCE_TIMEOUT (R115). -/
  | turnSilenceTimeout
  /-- FRAME_COUNT_REACHED (R115). -/
  | frameCountReached
  /-- TURN_LAPSE (R122). -/
  | turnLapse
  /-- GAP (R136). -/
  | gap
  /-- TURNAROUND_GAP (R113). -/
  | turnaroundGap
  /-- POLL_PAUSE_END (R113). -/
  | pollPauseEnd
  /-- SILENCE_WAIT_END (R118). -/
  | silenceWaitEnd
  /-- BREAK_LOW_END (R155). -/
  | breakLowEnd
  /-- BREAK_HIGH_END (R155). -/
  | breakHighEnd
  /-- TRAILING_BIT_TIME_END (R154). -/
  | trailingBitTimeEnd
  /-- RECEIVER_ARMED (R147). -/
  | receiverArmed
  /-- CHARACTER_RECEIVED: the centre samples of bit positions 1, 2, … of the character (R148, R149). -/
  | characterReceived (samples : List Vote)
  /-- LOW_WATCH_RETURN (R152). -/
  | lowWatchReturn
  /-- BREAK_LENGTH_REACHED (R152). -/
  | breakLengthReached
  /-- LINE_RESET, with the low period in sample ticks (R153). -/
  | lineReset (lowTicks : Nat)
  /-- COLLISION, with the fault and the index of the character that failed (R156, R157). -/
  | collision (fault : EchoFault) (character : Byte)
  /-- FRAME_TRANSMIT_COMPLETE (R142). -/
  | frameTransmitComplete
  /-- POLL_RECEIVED: a good POLL addressed to this station (R121). -/
  | pollReceived (source : StationId) (cycle budget : Byte)
  /-- DATA_RECEIVED: a good DATA frame (R71). -/
  | dataReceived (source : StationId) (content : DataFrame)
  /-- CHUNK_RECEIVED: a good CHUNK frame (R16). -/
  | chunkReceived (source : StationId) (content : ChunkFrame)
  /-- YIELD_RECEIVED: a good YIELD frame (R139). -/
  | yieldReceived (source : StationId) (content : YieldFrame)
  /-- RESET_N_ASSERT (R171). -/
  | resetNAssert
  /-- RESET_N_DEASSERT, with the straps at the pins (R159, R172). -/
  | resetNDeassert (stn : StationId) (cba : Byte) (ald : Bool)
  /-- START_BIT_VOTE: the centre samples of the start bit after a falling edge (R148). -/
  | startBitVote (samples : Vote)
  deriving DecidableEq, Repr

end Sys2Proof
end

