-- ==== Sys2Proof/Decode.lean ====
section
/-! DEFINITION. The decoder of table words. No row of spec/opcode_table.json gives bits, so no word spells a
command: commands reach the part as accesses, characters and pin events. -/

namespace Sys2Proof

/-- The command that a word spells by the table's bits: none, since the table gives no row any bits. -/
def decodeTableWord (_nbits _w : Nat) : Option Instr := none

/-- The lane mask of a word: all bits of each lane of the set (R186). -/
def laneMask (l : Lanes) : Word :=
  (if l.getLsbD 0 then 0x000000FF#32 else 0) ||| (if l.getLsbD 1 then 0x0000FF00#32 else 0) |||
  (if l.getLsbD 2 then 0x00FF0000#32 else 0) ||| (if l.getLsbD 3 then 0xFF000000#32 else 0)

/-- A set of stations holds ids 0..14 (R1, R109, R137). -/
def stationSetWf (x : StationSet) : Bool := !x.getLsbD 15

end Sys2Proof
end

