-- ==== Sys2Proof/Config.lean ====
section
/-! DEFINITION. What the part fixes once (00_scope, Principal quantities) and the free values: the orders the manual
leaves open. A free value has no body, so no proof can rest on it. -/

namespace Sys2Proof.Config

/-- Update records in the pool of a station (R25). -/
def poolSize : Nat := 64

/-- Most retained batches of one published region (R26). -/
def retainedLimit : Nat := 4

/-- Staging slots (R69). -/
def slotCount : Nat := 2

/-- Most events on the pending list (R183). -/
def pendingEvents : Nat := 8

/-- Most unconsumed ring entries (R184). -/
def ringRoom : Nat := 31

/-- Configuration words that a LOAD reads (R175). -/
def loadWords : Nat := 68

/-- Words of the control block (R3). -/
def blockWords : Nat := 172

/-- Highest byte address of the host bus (R176). -/
def highestAddress : Nat := 0xFFFFFF

/-- Largest payload length a receiver accepts (R134). -/
def payloadLimit : Nat := 160

/-- Clean characters in a row that end a noisy spell (R150). -/
def cleanRun : Nat := 32

/-- REFCLK cycles in one microsecond (R182). -/
def refclkPerMicrosecond : Nat := 40

/-- FREE VALUE (log 9). The rank of region `r` among the regions whose events are posted together, at the model's
choice number `n`: R183 says "either may be first". -/
opaque postKey : Nat → Fin 16 → Nat

/-- FREE VALUE (log 25). The place that an event takes among the `m` events posted together with it, at choice number `n`:
R183 says "either may be first". -/
opaque eventPlace (n m : Nat) : Fin (m + 1)

/-- FREE VALUE (log 10). The rank of the `i`-th of the timers that expire in one REFCLK cycle, at choice number `n`. -/
opaque dueKey : Nat → Nat → Nat

end Sys2Proof.Config
end

