-- ==== Sys2Proof/Machine/State.lean ====
section
/-! DEFINITION. The state of the part, block by block as 00_scope (Block overview) divides it, as plain data; the
faults and refusals of a step; and the state after reset. -/

namespace Sys2Proof.Machine

/-- The top-level state (R172). `inReset` is the table's "RESET_N asserted". -/
inductive TopState where
  | inReset
  | unconfigured
  | loading
  | configured
  | running
  deriving DecidableEq, Repr

/-- The straps as sampled at the deassertion of RESET_N (R159). -/
structure Straps where
  stn : StationId
  cba : Byte
  ald : Bool
  deriving DecidableEq, Repr

/-- The bytes behind the memory port: rising addresses, no entry that an unlisted address would read as (log 7). -/
abbrev Memory := List Host.Cell

/-- REFCLK and what divides it: the microsecond timer (R182) and the sample tick (R145). `ticks` is the origin of the
line durations; `choices` is the model's own count that the free orders read (logs 9 and 25), and `due` its own list of the
commands that the present REFCLK cycle made due and that wait for their turn (log 10). -/
structure Clock where
  usPhase : Nat
  us : Word
  tickPhase : Nat
  ticks : Nat
  choices : Nat
  due : List Instr
  deriving DecidableEq, Repr

/-- The role of a descriptor (R1). -/
inductive Role where
  | off
  | publish
  | subscribe
  deriving DecidableEq, Repr

/-- The guard mode of a subscribed region (R1). -/
inductive GuardMode where
  | guarded
  | openMode
  deriving DecidableEq, Repr

/-- A region descriptor (R1). -/
structure Descriptor where
  base : Addr
  length : Nat
  role : Role
  publisher : StationId
  subscribers : StationSet
  guard : GuardMode
  batchLimit : Nat
  closeOffset : Option Byte
  quietInterval : Nat
  holdLimit : Nat
  deriving DecidableEq, Repr

/-- R1: a descriptor after RESET_N or a failed LOAD. -/
def Descriptor.reset : Descriptor :=
  { base := 0, length := 1, role := .off, publisher := 0, subscribers := 0, guard := .guarded, batchLimit := 16,
    closeOffset := none, quietInterval := 0, holdLimit := 4095 }

/-- A batch (R26). `seq` is absent while the batch is open. -/
structure Batch where
  region : RegionId
  seq : Option Byte
  records : List UpdateRecord
  sent : Bool
  lastTurn : Option Byte
  deriving DecidableEq, Repr

/-- The publisher's view of one subscriber (R50). -/
inductive AckState where
  | unknown
  | tracking (seq : Byte) (heard : Option Byte)
  | refreshWanted
  deriving DecidableEq, Repr

/-- A refresh pass in flight (R90). `serial` is the model's own: it says which pass a chunk belongs to (log 24). -/
structure Pass where
  targets : StationSet
  baseSeq : Option Byte
  chunkCount : Nat
  nextChunk : Nat
  sentCount : Nat
  settle : Option Byte
  serial : Nat
  deriving DecidableEq, Repr

/-- The states of a published region (R9). -/
inductive PubState where
  | off
  | suspended
  | live
  deriving DecidableEq, Repr

/-- A publisher region record (R9), with the end guard (R90) and the quiet measurement's start (R36). `epoch` is the
model's own count of the region's discards (R8): it says which of two batches of one seq a frame was made of (log 24). -/
structure PubRecord where
  state : PubState
  generation : Byte
  nextSeq : Byte
  lastReleased : Byte
  openBatch : Option Batch
  retained : List Batch
  closePending : Bool
  acks : List (StationId × AckState)
  pass : Option Pass
  pendingTargets : StationSet
  endGuard : Bool
  quiet : Option Word
  epoch : Nat
  deriving DecidableEq, Repr

/-- The states of a subscribed region (R15). -/
inductive SubState where
  | off
  | unsynced
  | refreshing
  | settling
  | current
  deriving DecidableEq, Repr

/-- A subscriber region record (R15). -/
structure SubRecord where
  state : SubState
  generation : Byte
  accepted : Byte
  applied : Byte
  baseSeq : Option Byte
  expected : Option Nat
  settle : Option Byte
  deriving DecidableEq, Repr

/-- R15: a subscriber region record after LOAD; R22 gives the same values after STOP. -/
def SubRecord.loaded : SubRecord :=
  { state := .off, generation := 0, accepted := 255, applied := 255, baseSeq := none, expected := none,
    settle := none }

/-- The record kept for a region, by its role (R9, R15). -/
inductive RegionRecord where
  | off
  | published (p : PubRecord)
  | subscribed (q : SubRecord)
  deriving DecidableEq, Repr

/-- One entry of the region table with its record (R1, R9, R15). -/
structure Region where
  desc : Descriptor
  record : RegionRecord
  deriving DecidableEq, Repr

/-- The conditions of the one host access (R160). -/
inductive HostCondition where
  | awaitingGrant
  | granted
  | captureHeld
  | fenceHeld
  deriving DecidableEq, Repr

/-- The host access in the part (R160). `result` is the data a granted read returns at its completion (R161). -/
structure HostAccess where
  access : Access
  condition : HostCondition
  result : Word
  deriving DecidableEq, Repr

/-- A completion returned to the host (R160): the access, and for a read the data of its lanes. -/
structure Reply where
  access : Access
  data : Word
  deriving DecidableEq, Repr

/-- The four requesters of the memory port (R161). -/
inductive Requester where
  | host
  | apply
  | snap
  | agent
  deriving DecidableEq, Repr

/-- The memory port (R161, R168). -/
inductive Port where
  | free
  | busy (requester : Requester) (access : Access)
  deriving DecidableEq, Repr

/-- The last grant (R168). -/
inductive LastGrant where
  | none
  | host
  | internal
  deriving DecidableEq, Repr

/-- The APPLY request. `keptBack` is R79's first request, waiting for a host access to be granted. -/
inductive ApplyRequest where
  | none
  | keptBack
  | waiting
  deriving DecidableEq, Repr

/-- The accesses of the agent (R181). `statusWord i` is the word of dirty mark i. -/
inductive AgentRequest where
  | loadRead
  | eventFirst
  | eventSecond
  | eventThird
  | statusWord (mark : Fin 38)
  | result
  deriving DecidableEq, Repr

/-- The memory path and arbiter (R160, R165, R168). HOST waits when `host` is AWAITING GRANT. -/
structure MemoryPath where
  host : Option HostAccess
  reply : Option Reply
  port : Port
  last : LastGrant
  apply : ApplyRequest
  snap : Bool
  agent : Option AgentRequest
  deriving DecidableEq, Repr

/-- The decisions of a captured write (R29). -/
inductive CaptureDecision where
  | merge
  | append
  | full
  | opening
  deriving DecidableEq, Repr

/-- The reasons of a capture hold (R42). -/
inductive HoldReason where
  | pool
  | limit
  deriving DecidableEq, Repr

/-- The claim of a captured write awaiting grant (R30). A record is claimed by every decision but MERGE. -/
structure Claim where
  region : RegionId
  offset : Byte
  decision : CaptureDecision
  deferred : Bool
  deriving DecidableEq, Repr

/-- The held write (R42). `since` is the microsecond stamp of its presentation, from which the hold timer counts. -/
structure HeldWrite where
  region : RegionId
  offset : Byte
  lanes : Lanes
  data : Word
  reason : HoldReason
  since : Word
  deriving DecidableEq, Repr

/-- The capture unit's station-wide state (R27, R30, R42). -/
structure Capture where
  sendQueue : List (RegionId × Byte)
  claim : Option Claim
  held : Option HeldWrite
  deriving DecidableEq, Repr

/-- An entry of the turn list (R49). `epoch` is that of the region when its batch was chosen, `serial` that of the pass
(log 24). -/
inductive TurnEntry where
  | first (region : RegionId) (seq : Byte) (epoch : Nat)
  | repeated (region : RegionId) (seq : Byte) (epoch : Nat)
  | chunk (region : RegionId) (index : Nat) (serial : Nat)
  deriving DecidableEq, Repr

/-- What kind of turn is open: the master's own turn, a member's turn, a probe reply (R48, R120). -/
inductive TurnKind where
  | own
  | member
  | probeReply
  deriving DecidableEq, Repr

/-- The open turn (R58, R122). `pollEnd` is the last stop bit of the POLL, in ticks. -/
structure Turn where
  kind : TurnKind
  budget : Nat
  cycle : Byte
  yieldHanded : Bool
  pollEnd : Nat
  deriving DecidableEq, Repr

/-- The delivery controller (R48, R49, R59, R60). -/
structure Delivery where
  ownTurn : Byte
  turnList : List TurnEntry
  roundRobin : RegionId
  kept : Option (RegionId × Byte)
  turn : Option Turn
  passSerial : Nat
  deriving DecidableEq, Repr

/-- The content of a staging slot, by kind (R69). -/
inductive SlotContent where
  | data (records : List UpdateRecord)
  | chunk (index : Fin 16) (last : Bool) (words : List Word)
  deriving DecidableEq, Repr

/-- An occupied staging slot (R69). -/
structure Slot where
  region : RegionId
  seq : Byte
  content : SlotContent
  inProgress : Bool
  deriving DecidableEq, Repr

/-- The inbound stage and apply engine (R69, R79, R83). The slots stand older first; `engine` is the position. -/
structure Inbound where
  slots : List Slot
  engine : Option Nat
  fence : Option RegionId
  deriving DecidableEq, Repr

/-- The frame receiver (R134): its state, with the receive buffer and the running CRC. -/
inductive FrameRx where
  | idle
  | receiving (buffer : List Byte) (crc : BitVec 16)
  | counting (count : Nat) (payload : Nat)
  deriving DecidableEq, Repr

/-- A frame to be sent, with what it belongs to: a CHUNK's pass by its serial (R99), a DATA frame's batch by the epoch of
its region (R8, R57); 0 for the other kinds (log 24). -/
structure TxFrame where
  frame : Frame
  serial : Nat
  deriving DecidableEq, Repr

/-- The assembly buffer (R140). While ASSEMBLING it holds the words the snapshot reader has read (R96). -/
inductive Assembly where
  | empty
  | assembling (region : RegionId) (index : Nat) (serial : Nat) (words : List Word)
  | complete (frame : TxFrame)
  deriving DecidableEq, Repr

/-- The frame unit (R136, R140, R144). -/
structure FrameUnit where
  rx : FrameRx
  heldFraming : Option Event
  assembly : Assembly
  lineBuf : Option TxFrame
  deriving DecidableEq, Repr

/-- The master's phases (R111). -/
inductive Phase where
  | detached
  | breaking
  | ownTurn
  | polling
  | probing
  | silenceWait
  | pause
  deriving DecidableEq, Repr

/-- The step the master takes when the present one and any break have ended (R113, R117, R118): a cycle start, the poll
list and after it the probe, or the pause. -/
inductive NextStep where
  | cycleStart
  | poll
  | pause
  deriving DecidableEq, Repr

/-- The member states (R120). -/
inductive MemberState where
  | detached
  | listening
  | enrolled
  | speaking
  deriving DecidableEq, Repr

/-- The line-lost timer (R125), with the microsecond stamp it runs from. -/
inductive LostTimer where
  | stopped
  | running (since : Word)
  | held
  | expired
  deriving DecidableEq, Repr

/-- The turnaround gap of the waiting step (R113, R122): counted from a tick, or passed before a frame was ready. -/
inductive GapState where
  | notAwaited
  | counting (since : Nat)
  | passed
  deriving DecidableEq, Repr

/-- A watched turn (R115). A timer that runs holds the tick it was started at. -/
structure Watch where
  station : StationId
  probe : Bool
  budget : Nat
  reply : Option Nat
  silence : Option Nat
  frames : Nat
  deriving DecidableEq, Repr

/-- The turn controller (R109 to R125). `roster` is the master's roster or a member's roster copy. -/
structure Turns where
  roster : StationSet
  phase : Phase
  cycle : Byte
  pollList : List StationId
  pollPos : Option Nat
  probePos : StationId
  misses : Vector Nat 16
  removals : StationSet
  additions : StationSet
  breakDue : Bool
  next : NextStep
  watch : Option Watch
  pauseFrom : Option Nat
  silenceFrom : Option Nat
  member : MemberState
  probeReply : Bool
  lastCycle : Byte
  lost : LostTimer
  gap : GapState
  lineLast : Nat
  deriving DecidableEq, Repr

/-- Parity of the line format (R145). -/
inductive Parity where
  | none
  | even
  | odd
  deriving DecidableEq, Repr

/-- The line format (R145). -/
structure LineFormat where
  divisor : Nat
  samplesPerBit : Nat
  parity : Parity
  twoStops : Bool
  deriving DecidableEq, Repr

/-- The line receiver (table of 8.3). CHARACTER keeps the start bit's samples; LOW WATCH keeps whether every data, lead
and parity bit of the character voted 0 (R152). -/
inductive LineRx where
  | off
  | arming
  | idle
  | character (start : Vote)
  | lowWatch (allZero : Bool)
  | inBreak
  | echo
  deriving DecidableEq, Repr

/-- The transmitter (R154). HOLDING says whether it is in the trailing bit time. -/
inductive LineTx where
  | off
  | idle
  | character
  | holding (trailing : Bool)
  | breakLow
  | breakHigh
  deriving DecidableEq, Repr

/-- What the receiver holds of LRX between sample ticks: the level at the latest tick; the run of ticks at 1, counted in
ARMING, LOW WATCH and BREAK (R147, R152, R153); the number of the latest sample, counted from the edge sample (R148); and
the centre samples taken of the bit positions not yet handed on, oldest first (R148, R149, R156). -/
structure Sampling where
  level : Bool
  ones : Nat
  sample : Option Nat
  centre : List Bool
  deriving DecidableEq, Repr

/-- The line unit (R145 to R158). `txSince` is the tick the transmitter entered its state at; `gapFrom` the last stop
bit from which the intra-frame gap is measured (R136); `fault` what the echo check has found in the character being sent,
with its index (R156, R157). `lrx` holds the levels of LRX at the sample ticks to come, first in first out: the line's own
doing, the model's own field (log 17). -/
structure Line where
  format : Option LineFormat
  rx : LineRx
  tx : LineTx
  txSince : Nat
  noisy : Bool
  clean : Nat
  gapFrom : Option Nat
  sampling : Sampling
  fault : Option (EchoFault × Byte)
  lrx : List Bool
  deriving DecidableEq, Repr

/-- The turn parameters and timeouts of the loaded configuration (R188). -/
structure TurnParams where
  budget : Nat
  missLimit : Nat
  turnaround : Nat
  lostMs : Nat
  reply : Nat
  silence : Nat
  pause : Nat
  deriving DecidableEq, Repr

/-- The result codes (R190). -/
inductive ResultCode where
  | done
  | badCommand
  | badArg
  | badState
  | loadError
  deriving DecidableEq, Repr

/-- The executing command (R173). `result` is present once reached; `prior` then holds the marks that precede the result
write (R181), fixed at the end of the step that reached it. -/
structure Executing where
  code : Byte
  tag : Byte
  result : Option ResultCode
  prior : Option (BitVec 38)
  deriving DecidableEq, Repr

/-- The next write of an event whose first write was granted (R184): false for the second, true for the third. -/
structure EventWrite where
  entry : BitVec 5
  event : Event
  third : Bool
  deriving DecidableEq, Repr

/-- The LOAD error codes (R189). -/
inductive LoadError where
  | none
  | badVersion
  | badStation
  | badLineFormat
  | badTurn
  | badTimeout
  | badField
  | badLength
  | badPlacement
  | badPublisher
  | badSubscribers
  | badCloseOffset
  | badBatchLimit
  | badHoldLimit
  | overlap
  deriving DecidableEq, Repr

/-- The control block agent (R173 to R185). Mark i stands for the word at offset 0x118 + 4 i. -/
structure Agent where
  executing : Option Executing
  loadWords : List Word
  loadError : LoadError
  errorIndex : Fin 16
  marks : BitVec 38
  events : List Event
  lost : BitVec 16
  producer : BitVec 5
  consumer : BitVec 5
  copy : Word
  writing : Option EventWrite
  written : BitVec 5
  attn : Bool
  deriving DecidableEq, Repr

/-- The state of the part, with the queue of commands that wait, first in first out. -/
structure State where
  pending : List Instr
  top : TopState
  straps : Straps
  mem : Memory
  clock : Clock
  regions : Vector Region 16
  path : MemoryPath
  cap : Capture
  del : Delivery
  inb : Inbound
  fu : FrameUnit
  tc : Turns
  line : Line
  params : TurnParams
  agent : Agent
  deriving DecidableEq, Repr

/-- What stops the machine. -/
inductive Fault where
  /-- Raised by the meanings of HOST_ACCESS, CONSUMER_INDEX_WRITE, CB_WORD_WRITE and the command writes when the host port
  already has an access outstanding. Safe: R160 says the processor presents its next access only after the part has
  completed the one before, and gives a second access no meaning (log 2). -/
  | hostAccessOutstanding
  deriving DecidableEq, Repr

/-- What the model declines. -/
inductive Refusal where
  /-- Raised by an arm of exec whose command has no meaning in this model yet. Safe: nothing is claimed of it. -/
  | notModelled (mnemonic : String)
  deriving DecidableEq, Repr

/-- R1: a region of the reset table. -/
def Region.reset : Region := { desc := Descriptor.reset, record := .off }

/-- The reset values of the straps before they are sampled (log 8). -/
def Straps.reset : Straps := { stn := 0, cba := 0, ald := false }

/-- The clock after reset (R182; log 8). -/
def Clock.reset : Clock := { usPhase := 0, us := 0, tickPhase := 0, ticks := 0, choices := 0, due := [] }

/-- The memory path after RESET_N (R168). -/
def MemoryPath.reset : MemoryPath :=
  { host := none, reply := none, port := .free, last := .none, apply := .none, snap := false, agent := none }

/-- The capture state after RESET_N (R46). -/
def Capture.reset : Capture := { sendQueue := [], claim := none, held := none }

/-- The delivery state after RESET_N (R65). -/
def Delivery.reset : Delivery :=
  { ownTurn := 0, turnList := [], roundRobin := 15, kept := none, turn := none, passSerial := 0 }

/-- The inbound stage after RESET_N (R88). -/
def Inbound.reset : Inbound := { slots := [], engine := none, fence := none }

/-- The frame unit after RESET_N (R144). -/
def FrameUnit.reset : FrameUnit := { rx := .idle, heldFraming := none, assembly := .empty, lineBuf := none }

/-- The turn controller after RESET_N (R109 to R111, R120, R125, R126; log 8). -/
def Turns.reset : Turns :=
  { roster := 0, phase := .detached, cycle := 0, pollList := [], pollPos := none, probePos := 14,
    misses := Vector.replicate 16 0, removals := 0, additions := 0, breakDue := false, next := .cycleStart,
    watch := none, pauseFrom := none, silenceFrom := none, member := .detached, probeReply := false,
    lastCycle := 0, lost := .stopped, gap := .notAwaited, lineLast := 0 }

/-- The receiver's sampling after RESET_N: LRX idle at 1, nothing counted (R159; log 8). -/
def Sampling.reset : Sampling := { level := true, ones := 0, sample := none, centre := [] }

/-- The line unit after RESET_N (R145, R147, R150, R154; log 8). -/
def Line.reset : Line :=
  { format := none, rx := .off, tx := .off, txSince := 0, noisy := false, clean := 0, gapFrom := none,
    sampling := Sampling.reset, fault := none, lrx := [] }

/-- The turn parameters before a LOAD (log 8). -/
def TurnParams.reset : TurnParams :=
  { budget := 0, missLimit := 0, turnaround := 0, lostMs := 0, reply := 0, silence := 0, pause := 0 }

/-- The agent after RESET_N (R180, R182 to R185). -/
def Agent.reset : Agent :=
  { executing := none, loadWords := [], loadError := .none, errorIndex := 0, marks := 0, events := [], lost := 0,
    producer := 0, consumer := 0, copy := 0, writing := none, written := 0, attn := false }

/-- The part right after reset: RESET_N asserted, every block at its RESET_N values, nothing listed in memory, no
command waiting (R1, R46, R65, R88, R109 to R111, R126, R144, R147, R150, R154, R168, R172, R180 to R185). -/
def State.reset : State :=
  { pending := [], top := .inReset, straps := Straps.reset, mem := [], clock := Clock.reset,
    regions := Vector.replicate 16 Region.reset, path := MemoryPath.reset, cap := Capture.reset,
    del := Delivery.reset, inb := Inbound.reset, fu := FrameUnit.reset, tc := Turns.reset, line := Line.reset,
    params := TurnParams.reset, agent := Agent.reset }

end Sys2Proof.Machine
end

