-- ==== Sys2Proof/Machine/Flags.lean ====
section
/-! DEFINITION. Comparisons, checks and votes: seq arithmetic (R6, R74), sets and lanes, the CRC (R129), the votes of a
character, its parity, framing and noise (R148 to R152), and the character format (R145, R146). -/

namespace Sys2Proof.Machine

/-- "a is at or past b" (00_scope, Sequence comparison; R6). -/
def atOrPast (a b : Byte) : Bool := decide ((a - b).toNat ≤ 127)

/-- "a is newer than b" (00_scope, Sequence comparison; R6). -/
def newer (a b : Byte) : Bool := decide (1 ≤ (a - b).toNat) && decide ((a - b).toNat ≤ 127)

/-- A seq lies in the window [a .. b] (R6). -/
def inWindow (x a b : Byte) : Bool := atOrPast x a && atOrPast b x

/-- The classes of a DATA frame's seq against accepted seq (R74). -/
inductive SeqClass where
  | inOrder
  | duplicate
  | gap
  deriving DecidableEq, Repr

/-- R74: d = (frame seq − accepted seq) mod 256. -/
def seqClass (seq accepted : Byte) : SeqClass :=
  let d := (seq - accepted).toNat
  if d = 1 then .inOrder else if d = 0 ∨ 129 ≤ d then .duplicate else .gap

/-- Membership in a station set. -/
def member (s : StationId) (x : StationSet) : Bool := x.getLsbD s.val

/-- The set of one station. -/
def only (s : StationId) : StationSet := 1#16 <<< s.val

/-- The set with a station put in. -/
def addStation (s : StationId) (x : StationSet) : StationSet := x ||| only s

/-- The set with a station taken out. -/
def dropStation (s : StationId) (x : StationSet) : StationSet := x &&& ~~~ only s

/-- The members of a set in ascending order. -/
def members (x : StationSet) : List StationId := allIds.filter fun s => member s x

/-- A word's bytes on the lanes of a set, 0 on the others. -/
def onLanes (l : Lanes) (w : Word) : Word := w &&& laneMask l

/-- The word whose lanes of the set come from `new` and whose other lanes come from `old` (R31, R80). -/
def mergeLanes (l : Lanes) (old new : Word) : Word := (old &&& ~~~ laneMask l) ||| (new &&& laneMask l)

/-- Lane k of a word (R186). -/
def laneByte (w : Word) (k : Nat) : Byte := w.extractLsb' (8 * k) 8

/-- The word of four lane bytes (R186). -/
def wordOfLanes (b0 b1 b2 b3 : Byte) : Word := b3 ++ b2 ++ b1 ++ b0

/-- One bit into the CRC register (R129). -/
def crcBit (crc : BitVec 16) (bit : Bool) : BitVec 16 :=
  if crc.getLsbD 15 != bit then (crc <<< 1) ^^^ 0x1021#16 else crc <<< 1

/-- One byte into the CRC register, bit 7 first (R129). -/
def crcByte (crc : BitVec 16) (b : Byte) : BitVec 16 :=
  [7, 6, 5, 4, 3, 2, 1, 0].foldl (fun c i => crcBit c (b.getLsbD i)) crc

/-- The CRC of a run of bytes (R129). -/
def crc16 (bytes : List Byte) : BitVec 16 := bytes.foldl crcByte 0xFFFF#16

/-- The majority of three centre samples (R148, R149). -/
def majority (v : Vote) : Bool :=
  (v.getLsbD 0 && v.getLsbD 1) || (v.getLsbD 0 && v.getLsbD 2) || (v.getLsbD 1 && v.getLsbD 2)

/-- A vote whose three samples agree (R149). -/
def unanimous (v : Vote) : Bool := v == 0#3 || v == 7#3

/-- Whether the line format has a parity bit (R146). -/
def hasParity (f : LineFormat) : Bool := decide (f.parity ≠ .none)

/-- The character time C in bit times (R145). -/
def charBits (f : LineFormat) : Nat := 11 + (if hasParity f then 1 else 0) + (if f.twoStops then 1 else 0)

/-- The bit position of the first stop bit (R146). -/
def stopPosition (f : LineFormat) : Nat := if hasParity f then 11 else 10

/-- Sample ticks in one character time. -/
def charTicks (f : LineFormat) : Nat := charBits f * f.samplesPerBit

/-- The break length in ticks from the edge sample (R153). -/
def breakTicks (f : LineFormat) : Nat := 2 * charBits f * f.samplesPerBit - f.samplesPerBit / 2

/-- The parity bit of a character (R146). -/
def parityBit (f : LineFormat) (b : Byte) (lead : Bool) : Bool :=
  let odd := ([0, 1, 2, 3, 4, 5, 6, 7].foldl (fun x i => x != b.getLsbD i) lead)
  match f.parity with
  | .none => true
  | .even => odd
  | .odd => !odd

/-- The level of bit position `p` of a character (R146). -/
def charLevel (f : LineFormat) (b : Byte) (lead : Bool) (p : Nat) : Bool :=
  if p = 0 then false
  else if p ≤ 8 then b.getLsbD (p - 1)
  else if p = 9 then lead
  else if p = 10 ∧ hasParity f then parityBit f b lead
  else true

/-- A character as voted (R149): what is handed to the frame unit, and what R150 and R152 need. -/
structure VotedChar where
  byte : Byte
  lead : Bool
  parityError : Bool
  framingError : Bool
  allZero : Bool
  firstNoisy : Option Nat
  deriving DecidableEq, Repr

/-- The samples of bit position `p`: the start bit's were taken by START_BIT_VOTE (R148, R149). -/
def votesAt (start : Vote) (samples : List Vote) (p : Nat) : Vote :=
  if p = 0 then start else samples.getD (p - 1) 7#3

/-- The voted data byte, positions 1..8, least significant bit first (R146, R149). -/
def votedByte (start : Vote) (samples : List Vote) : Byte :=
  [8, 7, 6, 5, 4, 3, 2, 1].foldl
    (fun b p => (b <<< 1) ||| (if majority (votesAt start samples p) then 1#8 else 0#8)) 0#8

/-- R149, R151, R152: the character that the votes give under a line format. -/
def voteChar (f : LineFormat) (start : Vote) (samples : List Vote) : VotedChar :=
  let bit := fun p => majority (votesAt start samples p)
  let byte := votedByte start samples
  let lead := bit 9
  let framing := !(bit (stopPosition f)) || (f.twoStops && !(bit (stopPosition f + 1)))
  let parity := hasParity f && (bit 10 != parityBit f byte lead)
  { byte := byte, lead := lead, parityError := parity && !framing, framingError := framing,
    allZero := byte == 0#8 && !lead && !(hasParity f && bit 10),
    firstNoisy := (List.range (charBits f)).find? fun p => !unanimous (votesAt start samples p) }

/-- The low period of a received break in whole character times, 2..255 (R153; log 13). -/
def lowPeriodDetail (f : LineFormat) (lowTicks : Nat) : Nat := max 2 (min 255 (lowTicks / charTicks f))

end Sys2Proof.Machine
end

