-- ==== Sys2Proof/Machine/Operands.lean ====
section
/-! DEFINITION. Every layout the part reads or writes: the configuration words and their checks (R176, R188, R189), the
command, result and index words (R190), the status words (R191), the event records (R192) and the frames (R128 to R137,
R187, R193). -/

namespace Sys2Proof.Machine

/-- The unsigned number in `n` bits of a word from bit `lo`. -/
def bits (w : Word) (lo n : Nat) : Nat := (w.extractLsb' lo n).toNat

/-- A number placed at bit `lo` of a word, cut to `n` bits. -/
def place (v lo n : Nat) : Word := BitVec.ofNat 32 ((v % 2 ^ n) <<< lo)

/-- A flag as a number. -/
def flag (b : Bool) : Nat := if b then 1 else 0

/-! ## Configuration (R188, R189) -/

/-- Configuration word `i` of those a LOAD read (R175). -/
def configWord (ws : List Word) (i : Nat) : Word := ws.getD i 0#32

/-- The line format word at 0x004 (R188). -/
def formatOf (ws : List Word) : LineFormat :=
  let w := configWord ws 1
  { divisor := bits w 0 12
    samplesPerBit := match bits w 12 2 with | 0 => 8 | 1 => 12 | _ => 16
    parity := match bits w 14 2 with | 1 => .even | 2 => .odd | _ => .none
    twoStops := decide (bits w 16 1 = 1) }

/-- The turn parameters at 0x008 and the timeouts at 0x00C (R188). -/
def paramsOf (ws : List Word) : TurnParams :=
  let w := configWord ws 2
  let v := configWord ws 3
  { budget := bits w 0 4, missLimit := bits w 4 3, turnaround := bits w 8 6, lostMs := bits w 16 8,
    reply := bits v 0 10, silence := bits v 10 10, pause := bits v 20 12 }

/-- Word `k` of descriptor `i` (R188). -/
def descWord (ws : List Word) (i k : Nat) : Word := configWord ws (4 + 4 * i + k)

/-- The role field of descriptor `i` as encoded (R188). -/
def roleCode (ws : List Word) (i : Nat) : Nat := bits (descWord ws i 1) 9 2

/-- Descriptor `i` (R188). -/
def descriptorOf (ws : List Word) (i : Nat) : Descriptor :=
  let w0 := descWord ws i 0
  let w1 := descWord ws i 1
  let w2 := descWord ws i 2
  let w3 := descWord ws i 3
  { base := w0.extractLsb' 0 24
    length := bits w1 0 9
    role := match roleCode ws i with | 1 => .publish | 2 => .subscribe | _ => .off
    publisher := Fin.ofNat 16 (bits w1 13 4)
    subscribers := w2.extractLsb' 0 16
    guard := if bits w1 11 2 = 1 then .openMode else .guarded
    batchLimit := bits w1 17 5
    closeOffset := if bits w2 24 1 = 1 then some (w2.extractLsb' 16 8) else none
    quietInterval := bits w3 0 16
    holdLimit := bits w3 16 12 }

/-- The byte address of the control block (R3, R159). -/
def blockBase (cba : Byte) : Nat := cba.toNat * 65536

/-- A failed check and its error code. -/
def failIf (bad : Bool) (e : LoadError) : Option LoadError := if bad then some e else none

/-- Step 6 of R176 for descriptor `i`, sub-steps a to i in order. -/
def checkDescriptor (stn : StationId) (ws : List Word) (i : Nat) : Option LoadError :=
  let d := descriptorOf ws i
  let placement :=
    failIf (!(decide (1 ≤ d.length) && decide (d.length ≤ 256))) .badLength <|>
    failIf (!(decide (d.base.toNat % 4 = 0) &&
      decide (d.base.toNat + 4 * d.length - 1 ≤ Config.highestAddress))) .badPlacement
  match roleCode ws i with
  | 0 => none
  | 1 =>
    placement <|>
    failIf (member 15 d.subscribers || member stn d.subscribers) .badSubscribers <|>
    failIf (d.closeOffset.any fun c => !decide (c.toNat < d.length)) .badCloseOffset <|>
    failIf (!(decide (1 ≤ d.batchLimit) && decide (d.batchLimit ≤ 16))) .badBatchLimit <|>
    failIf (!(decide (1 ≤ d.holdLimit) && decide (d.holdLimit ≤ 4095))) .badHoldLimit
  | 2 =>
    placement <|>
    failIf (decide (d.publisher = 15) || decide (d.publisher = stn)) .badPublisher <|>
    failIf (decide (2 ≤ bits (descWord ws i 1) 11 2)) .badField
  | _ => some .badField

/-- Two runs of bytes share a byte. -/
def runsOverlap (a la b lb : Nat) : Bool := decide (a < b + lb) && decide (b < a + la)

/-- Step 7 of R176 for descriptor `i`: against the control block, then against each valid descriptor below it. -/
def checkOverlap (cba : Byte) (ws : List Word) (i : Nat) : Option LoadError :=
  let d := descriptorOf ws i
  if d.role = .off then none
  else failIf (runsOverlap d.base.toNat (4 * d.length) (blockBase cba) (4 * Config.blockWords) ||
    (List.range i).any fun j =>
      let e := descriptorOf ws j
      decide (e.role ≠ .off) && runsOverlap d.base.toNat (4 * d.length) e.base.toNat (4 * e.length)) .overlap

/-- The first of the sixteen descriptors whose check fails, with its index. -/
def firstFailing (check : Nat → Option LoadError) : Option (LoadError × Fin 16) :=
  allIds.findSome? fun i => (check i.val).map fun e => (e, i)

/-- The checks of R176 in their order: none when the LOAD succeeds, else the error code and descriptor index. -/
def checkConfig (stn : StationId) (cba : Byte) (ws : List Word) : Option (LoadError × Fin 16) :=
  let f := formatOf ws
  let p := paramsOf ws
  let lineWord := configWord ws 1
  ((failIf (configWord ws 0 != 1#32) .badVersion <|>
    failIf (decide (stn = 15)) .badStation <|>
    failIf (decide (f.divisor < 2) || decide (bits lineWord 12 2 = 3) || decide (bits lineWord 14 2 = 3)) .badLineFormat <|>
    failIf (!(decide (1 ≤ p.budget) && decide (p.budget ≤ 8) && decide (1 ≤ p.missLimit) &&
      decide (2 ≤ p.turnaround) && decide (1 ≤ p.lostMs))) .badTurn <|>
    failIf (!(decide (16 ≤ p.reply) && decide (p.turnaround + 16 < p.reply) && decide (24 ≤ p.silence))) .badTimeout).map
      fun e => (e, 0)) <|>
  firstFailing (checkDescriptor stn ws) <|>
  firstFailing (checkOverlap cba ws)

/-! ## Codes (R189 to R192) -/

/-- The code of a LOAD error (R189). -/
def LoadError.code : LoadError → Nat
  | .none => 0
  | .badVersion => 1
  | .badStation => 2
  | .badLineFormat => 3
  | .badTurn => 4
  | .badTimeout => 5
  | .badField => 6
  | .badLength => 7
  | .badPlacement => 8
  | .badPublisher => 9
  | .badSubscribers => 10
  | .badCloseOffset => 11
  | .badBatchLimit => 12
  | .badHoldLimit => 13
  | .overlap => 14

/-- The code of a result (R190). -/
def ResultCode.code : ResultCode → Nat
  | .done => 1
  | .badCommand => 2
  | .badArg => 3
  | .badState => 4
  | .loadError => 5

/-- The code of a top-level state (R191). The part writes no status word while RESET_N is asserted. -/
def TopState.code : TopState → Nat
  | .inReset => 0
  | .unconfigured => 0
  | .loading => 1
  | .configured => 2
  | .running => 3

/-- The code of a master's phase (R191). -/
def Phase.code : Phase → Nat
  | .detached => 0
  | .breaking => 1
  | .ownTurn => 2
  | .polling => 3
  | .probing => 4
  | .silenceWait => 5
  | .pause => 6

/-- The code of a member's state (R191). -/
def MemberState.code : MemberState → Nat
  | .detached => 0
  | .listening => 8
  | .enrolled => 9
  | .speaking => 10

/-- The code of a published region's state (R191). -/
def PubState.code : PubState → Nat
  | .off => 0
  | .suspended => 1
  | .live => 2

/-- The code of a subscribed region's state (R191). -/
def SubState.code : SubState → Nat
  | .off => 0
  | .unsynced => 1
  | .refreshing => 2
  | .settling => 3
  | .current => 4

/-- The code of an event kind (R192). -/
def eventCode : EventKind → Nat
  | .escape => 1
  | .guardDrop => 2
  | .cbGuard => 3
  | .inboundOverrun => 4
  | .refreshBroken => 5
  | .wrongPublisher => 6
  | .crcError => 7
  | .frameError => 8
  | .noise => 9
  | .collision => 10
  | .lineReset => 11
  | .lineLost => 12
  | .stationLost => 13
  | .stationJoined => 14
  | .regionCurrent => 15
  | .regionUnsynced => 16
  | .cmdBusy => 17

/-- Word 0 of an event's ring entry (R192). -/
def eventWord0 (e : Event) : Word :=
  place (eventCode e.kind) 0 6 ||| place e.region.val 6 4 ||| place e.station.val 10 4 ||| place e.seq.toNat 14 8 |||
  place e.detail.toNat 22 10

/-- Word 1 of an event's ring entry (R192). -/
def eventWord1 (e : Event) : Word := e.stamp

/-- The result word (R190). -/
def resultWord (x : Executing) (r : ResultCode) : Word :=
  place x.tag.toNat 0 8 ||| place x.code.toNat 8 8 ||| place r.code 16 8

/-- The command word of a code, region argument and tag (R190). -/
def commandWord (code region tag : Byte) : Word :=
  place code.toNat 0 8 ||| place region.toNat 8 8 ||| place tag.toNat 16 8

/-- The command code of a command word (R190). -/
def commandCode (w : Word) : Byte := laneByte w 0

/-- The region argument of a command word (R190). -/
def commandRegion (w : Word) : Byte := laneByte w 1

/-- The tag of a command word (R190). -/
def commandTag (w : Word) : Byte := laneByte w 2

/-! ## Offsets of the control block (R164, R188, R190 to R192) -/

/-- Word index of the command word, offset 0x110. -/
def commandIndex : Nat := 68

/-- Word index of the result word, offset 0x114. -/
def resultIndex : Nat := 69

/-- Word index of the event consumer index, offset 0x118: the first word that can carry a dirty mark. -/
def consumerIndex : Nat := 70

/-- Word index of the first ring entry, offset 0x1B0. -/
def ringIndex : Nat := 108

/-- R164: host-owned are offsets 0x000 to 0x113 and 0x118. -/
def hostOwned (index : Nat) : Bool := decide (index ≤ commandIndex) || decide (index = consumerIndex)

/-- The dirty marks by the word they stand for: offset 0x118 + 4 × mark (R180). -/
def markConsumer : Fin 38 := 0
/-- The producer index word, 0x11C. -/
def markProducer : Fin 38 := 1
/-- The lost count word, 0x120. -/
def markLost : Fin 38 := 2
/-- The part state word, 0x124. -/
def markPart : Fin 38 := 3
/-- The roster set word, 0x128. -/
def markRoster : Fin 38 := 4
/-- The pool level word, 0x12C. -/
def markPool : Fin 38 := 5

/-! ## Frames (R128 to R133, R187, R193) -/

/-- The kind code of a frame (R128). -/
def frameKind : Frame → Nat
  | .poll _ _ _ => 1
  | .data _ => 2
  | .chunk _ => 3
  | .yield _ => 4

/-- The destination of a frame (R128). -/
def frameDestination : Frame → StationId
  | .poll d _ _ => d
  | .data _ => 15
  | .chunk _ => 15
  | .yield _ => 15

/-- The region a DATA or CHUNK frame names; 15 for the others (R157). -/
def frameRegion : Frame → RegionId
  | .poll _ _ _ => 15
  | .data d => d.region
  | .chunk c => c.region
  | .yield _ => 15

/-- A small number as a byte. -/
def byteOf (n : Nat) : Byte := BitVec.ofNat 8 n

/-- The high byte and the low byte of a station set or CRC, in sending order (R187). -/
def twoBytes (x : BitVec 16) : List Byte := [x.extractLsb' 8 8, x.extractLsb' 0 8]

/-- The lanes of a set in ascending order. -/
def laneList (l : Lanes) : List Nat := [0, 1, 2, 3].filter fun k => l.getLsbD k

/-- An update record's bytes (R131, R193). -/
def recordBytes (r : UpdateRecord) : List Byte :=
  r.offset :: r.lanes.zeroExtend 8 :: (laneList r.lanes).map (laneByte r.data)

/-- A chunk word's bytes, lane 0 first (R187). -/
def wordBytes (w : Word) : List Byte := [laneByte w 0, laneByte w 1, laneByte w 2, laneByte w 3]

/-- The state code of an ack entry (R193). -/
def reportedCode : ReportedState → Byte
  | .unsynced => 1
  | .refreshing => 2
  | .settling => 3
  | .current => 4

/-- An ack entry's bytes (R193). -/
def ackBytes (a : AckEntry) : List Byte := [byteOf a.region.val, a.generation, a.appliedSeq, reportedCode a.state]

/-- A summary's bytes (R193). -/
def summaryBytes (x : Summary) : List Byte := [byteOf x.region.val, x.generation]

/-- The payload of a frame (R130 to R133, R193). -/
def payloadOf : Frame → List Byte
  | .poll _ c b => [c, b]
  | .data d =>
    [byteOf d.region.val, d.generation, d.seq, byteOf d.records.length] ++ d.records.flatMap recordBytes
  | .chunk c =>
    [byteOf c.region.val, c.generation] ++ twoBytes c.targets ++
    [c.baseSeq, byteOf (c.index.val + 128 * flag c.settle.isSome)] ++ c.settle.toList ++
    [byteOf c.words.length] ++ c.words.flatMap wordBytes
  | .yield y =>
    [y.cycle, byteOf (flag y.roster.isSome), byteOf y.acks.length, byteOf y.summaries.length] ++
    (y.roster.elim [] twoBytes) ++ y.acks.flatMap ackBytes ++ y.summaries.flatMap summaryBytes

/-- Characters 0 to n + 2 of a frame (R128, R193). -/
def bodyOf (source : StationId) (f : Frame) : List Byte :=
  let p := payloadOf f
  [byteOf (16 * frameKind f + (frameDestination f).val), byteOf source.val, byteOf p.length] ++ p

/-- The data bytes of a frame's n + 5 characters, the CRC last (R128, R129). -/
def frameBytes (source : StationId) (f : Frame) : List Byte :=
  let b := bodyOf source f
  b ++ twoBytes (crc16 b)

/-- The lane bytes of a record, taken in ascending lane order, and what follows them (R131). -/
def takeLanes : List Nat → Word → List Byte → Option (Word × List Byte)
  | [], w, bs => some (w, bs)
  | _ :: _, _, [] => none
  | k :: ks, w, b :: bs => takeLanes ks (w ||| (b.zeroExtend 32 <<< (8 * k))) bs

/-- One update record and what follows it; none at an empty lane set or a short payload (R137). -/
def takeRecord : List Byte → Option (UpdateRecord × List Byte)
  | o :: l :: bs =>
    let lanes : Lanes := l.extractLsb' 0 4
    if lanes = 0#4 then none
    else (takeLanes (laneList lanes) 0#32 bs).map fun (w, rest) => ({ offset := o, lanes := lanes, data := w }, rest)
  | _ => none

/-- `n` update records, and what follows them (R137). -/
def takeRecords : Nat → List Byte → Option (List UpdateRecord × List Byte)
  | 0, bs => some ([], bs)
  | n + 1, bs =>
    match takeRecord bs with
    | none => none
    | some (r, rest) => (takeRecords n rest).map fun (rs, tail) => (r :: rs, tail)

/-- `n` chunk words, and what follows them (R137, R187). -/
def takeWords : Nat → List Byte → Option (List Word × List Byte)
  | 0, bs => some ([], bs)
  | n + 1, b0 :: b1 :: b2 :: b3 :: bs =>
    (takeWords n bs).map fun (ws, tail) => (wordOfLanes b0 b1 b2 b3 :: ws, tail)
  | _ + 1, _ => none

/-- A byte that names a region, 0..15 (R137). -/
def regionByte (b : Byte) : Option RegionId := if h : b.toNat < 16 then some ⟨b.toNat, h⟩ else none

/-- The state an ack entry's byte names (R193). -/
def reportedOf (b : Byte) : Option ReportedState :=
  if b = 1 then some .unsynced else if b = 2 then some .refreshing else if b = 3 then some .settling
  else if b = 4 then some .current else none

/-- One ack entry from its four bytes (R193). -/
def ackOf (r g q st : Byte) : Option AckEntry :=
  match regionByte r, reportedOf st with
  | some region, some state => some { region := region, generation := g, appliedSeq := q, state := state }
  | _, _ => none

/-- One summary from its two bytes (R193). -/
def summaryOf (r g : Byte) : Option Summary :=
  (regionByte r).map fun region => { region := region, generation := g }

/-- `n` ack entries, and what follows them (R137). -/
def takeAcks : Nat → List Byte → Option (List AckEntry × List Byte)
  | 0, bs => some ([], bs)
  | n + 1, r :: g :: q :: st :: bs =>
    match ackOf r g q st with
    | none => none
    | some a => (takeAcks n bs).map fun (as, tail) => (a :: as, tail)
  | _ + 1, _ => none

/-- `n` summaries, and what follows them (R137). -/
def takeSummaries : Nat → List Byte → Option (List Summary × List Byte)
  | 0, bs => some ([], bs)
  | n + 1, r :: g :: bs =>
    match summaryOf r g with
    | none => none
    | some x => (takeSummaries n bs).map fun (xs, tail) => (x :: xs, tail)
  | _ + 1, _ => none

/-- A value whose payload ends exactly where its fields do (R137, the length tests). -/
def whole {α : Type} : Option (α × List Byte) → Option α
  | some (a, []) => some a
  | _ => none

/-- A POLL's payload (R130, R137). -/
def pollContent (destination : StationId) : List Byte → Option Frame
  | [c, b] => if b.toNat ≤ 8 then some (.poll destination c b) else none
  | _ => none

/-- A DATA frame's payload (R131, R137). -/
def dataContent : List Byte → Option DataFrame
  | r :: g :: q :: n :: bs =>
    if 1 ≤ n.toNat ∧ n.toNat ≤ 16 then
      match regionByte r, whole (takeRecords n.toNat bs) with
      | some region, some rs => some { region := region, generation := g, seq := q, records := rs }
      | _, _ => none
    else none
  | _ => none

/-- A CHUNK frame's payload from the word count on, with the header fields given (R132, R137). -/
def chunkContentFrom (region : RegionId) (g : Byte) (targets : StationSet) (base : Byte) (index : Fin 16)
    (settle : Option Byte) : List Byte → Option ChunkFrame
  | n :: bs =>
    if 1 ≤ n.toNat ∧ n.toNat ≤ 16 then
      (whole (takeWords n.toNat bs)).map fun ws =>
        { region := region, generation := g, targets := targets, baseSeq := base, index := index, settle := settle,
          words := ws }
    else none
  | [] => none

/-- A CHUNK frame's payload (R132, R137, R193). -/
def chunkContent : List Byte → Option ChunkFrame
  | r :: g :: t1 :: t0 :: base :: x :: bs =>
    match regionByte r, regionByte (x &&& 0x7F#8) with
    | some region, some index =>
      if stationSetWf (t1 ++ t0) then
        if x.getLsbD 7 then
          match bs with
          | settle :: rest => chunkContentFrom region g (t1 ++ t0) base index (some settle) rest
          | [] => none
        else chunkContentFrom region g (t1 ++ t0) base index none bs
      else none
    | _, _ => none
  | _ => none

/-- A YIELD frame's payload after its roster section (R133, R137). -/
def yieldContentFrom (cycle : Byte) (roster : Option StationSet) (a s : Nat) (bs : List Byte) : Option YieldFrame :=
  match takeAcks a bs with
  | none => none
  | some (acks, rest) =>
    (whole (takeSummaries s rest)).map fun xs => { cycle := cycle, roster := roster, acks := acks, summaries := xs }

/-- A YIELD frame's payload (R133, R137, R193). -/
def yieldContent : List Byte → Option YieldFrame
  | c :: fl :: a :: s :: bs =>
    if a.toNat + s.toNat ≤ 16 then
      if fl.getLsbD 0 then
        match bs with
        | r1 :: r0 :: rest =>
          if stationSetWf (r1 ++ r0) then yieldContentFrom c (some (r1 ++ r0)) a.toNat s.toNat rest else none
        | _ => none
      else yieldContentFrom c none a.toNat s.toNat bs
    else none
  | _ => none

/-- The content of a frame whose CRC is good, by kind and destination; none is a content fault (R137). -/
def contentOf (kind : Nat) (destination : StationId) (payload : List Byte) : Option Frame :=
  match kind with
  | 1 => if destination = 15 then none else pollContent destination payload
  | 2 => if destination = 15 then (dataContent payload).map .data else none
  | 3 => if destination = 15 then (chunkContent payload).map .chunk else none
  | 4 => if destination = 15 then (yieldContent payload).map .yield else none
  | _ => none

/-- The kind code in character 0 (R193). -/
def kindOf (c0 : Byte) : Nat := (c0.extractLsb' 4 4).toNat

/-- The destination in character 0 (R193). -/
def destinationOf (c0 : Byte) : StationId := ⟨(c0.extractLsb' 0 4).toNat, (c0.extractLsb' 0 4).isLt⟩

/-- The source in character 1; its bits 7..4 are ignored (R187, R193). -/
def sourceOf (c1 : Byte) : StationId := ⟨(c1.extractLsb' 0 4).toNat, (c1.extractLsb' 0 4).isLt⟩

/-- The outcome of the whole-frame check (R137). -/
inductive FrameCheck where
  | good (source : StationId) (frame : Frame)
  | crcFault
  | contentFault
  deriving DecidableEq, Repr

/-- R137 on the n + 5 characters of a frame, with the CRC computed over characters 0 to n + 2. -/
def checkFrame (chars : List Byte) (crc : BitVec 16) : FrameCheck :=
  match chars with
  | c0 :: c1 :: n :: rest =>
    if rest.drop n.toNat = twoBytes crc then
      if sourceOf c1 = 15 then .contentFault
      else
        match contentOf (kindOf c0) (destinationOf c0) (rest.take n.toNat) with
        | some f => .good (sourceOf c1) f
        | none => .contentFault
    else .crcFault
  | _ => .crcFault

end Sys2Proof.Machine
end

