-- ==== Sys2Proof/Machine/Ops.lean ====
section
/-! DEFINITION. The shared operations: memory, the region table, the host access, the pool, event posting, and results of
commands. -/

namespace Sys2Proof.Machine

/-! ## Memory (R160, R161, R186; log 7) -/

/-- What an address that the memory does not list reads as (DESIGN CHOICE, unsafe; log 7). -/
def unlistedByte : Byte := 0#8

/-- The canonical form: addresses strictly rising from above `low`, within the host bus, and no entry that an unlisted
address would read as. -/
def memoryWfFrom : Nat → Memory → Bool
  | _, [] => true
  | low, (a, b) :: rest =>
    decide (low ≤ a) && decide (a ≤ Config.highestAddress) && b != unlistedByte && memoryWfFrom (a + 1) rest

/-- The memory is in its canonical form (log 7). -/
def Memory.wf (m : Memory) : Bool := memoryWfFrom 0 m

/-- The byte at an address. -/
def readByte : Memory → Nat → Byte
  | [], _ => unlistedByte
  | (a, b) :: rest, x => if a = x then b else readByte rest x

/-- An entry, or none where the byte is what an unlisted address reads as. -/
def cell (x : Nat) (v : Byte) : Memory := if v = unlistedByte then [] else [(x, v)]

/-- The memory with one byte written, in its canonical form. -/
def writeByte : Memory → Nat → Byte → Memory
  | [], x, v => cell x v
  | (a, b) :: rest, x, v =>
    if x < a then cell x v ++ (a, b) :: rest
    else if x = a then cell x v ++ rest
    else (a, b) :: writeByte rest x v

/-- The word at a word address (R186). -/
def readWord (m : Memory) (w : Nat) : Word :=
  wordOfLanes (readByte m w) (readByte m (w + 1)) (readByte m (w + 2)) (readByte m (w + 3))

/-- One lane of a write: lane k of the data to address w + k when the set holds k (R186). -/
def writeLane (m : Memory) (w : Nat) (l : Lanes) (d : Word) (k : Nat) : Memory :=
  if l.getLsbD k then writeByte m (w + k) (laneByte d k) else m

/-- The lanes of a set written at a word address (R160, R186). -/
def writeLanes (m : Memory) (w : Nat) (l : Lanes) (d : Word) : Memory :=
  writeLane (writeLane (writeLane (writeLane m w l d 0) w l d 1) w l d 2) w l d 3

/-- The word an access concerns: its byte address rounded down to a multiple of 4 (R3, R160). -/
def wordAddress (a : Addr) : Nat := a.toNat / 4 * 4

/-- The effect of a granted access on memory (R161). -/
def accessMemory (m : Memory) (a : Access) : Memory :=
  if a.write then writeLanes m (wordAddress a.addr) a.lanes a.data else m

/-- The data a granted read returns: the lanes of its set (R160, R161), the others 0 (log 38); a write has none. -/
def accessResult (m : Memory) (a : Access) : Word :=
  if a.write then 0#32 else onLanes a.lanes (readWord m (wordAddress a.addr))

/-- Byte address of word `index` of the control block (R3, R159). -/
def blockAddress (s : State) (index : Nat) : Nat := blockBase s.straps.cba + 4 * index

/-! ## Time -/

/-- The microsecond timer (R182). -/
def nowUs (s : State) : Word := s.clock.us

/-- The present sample tick (R145). -/
def nowTick (s : State) : Nat := s.clock.ticks

/-- The model's choice counter moves on, so that each free order is a fresh one (logs 9 and 25). -/
def useChoice (s : State) : State := { s with clock := { s.clock with choices := s.clock.choices + 1 } }

/-- An item put into a list that is ordered by a key. -/
def insertByKey {α : Type} (key : α → Nat) (x : α) : List α → List α
  | [] => [x]
  | y :: ys => if key x ≤ key y then x :: y :: ys else y :: insertByKey key x ys

/-- A list ordered by a key. -/
def sortByKey {α : Type} (key : α → Nat) : List α → List α
  | [] => []
  | x :: xs => insertByKey key x (sortByKey key xs)

/-- Regions in the free order of the events posted together (R183; log 9). -/
def freeOrder (s : State) (rs : List RegionId) : List RegionId := sortByKey (Config.postKey s.clock.choices) rs

/-! ## Roles of the station -/

/-- The station is the line master (R172). -/
def isMaster (s : State) : Bool := decide (s.straps.stn = 0)

/-- The part is RUNNING (R172). -/
def isRunning (s : State) : Bool := decide (s.top = .running)

/-! ## The region table -/

/-- The region of an id (R1). -/
def regionAt (s : State) (r : RegionId) : Region := s.regions.get r

/-- The descriptor of an id (R1). -/
def descAt (s : State) (r : RegionId) : Descriptor := (regionAt s r).desc

/-- The publisher region record of an id, when it is published here (R9). -/
def pubAt (s : State) (r : RegionId) : Option PubRecord :=
  match (regionAt s r).record with
  | .published p => some p
  | _ => none

/-- The subscriber region record of an id, when it is subscribed here (R15). -/
def subAt (s : State) (r : RegionId) : Option SubRecord :=
  match (regionAt s r).record with
  | .subscribed q => some q
  | _ => none

/-- The region of an id replaced. -/
def setRegion (s : State) (r : RegionId) (x : Region) : State := { s with regions := s.regions.set r.val x r.isLt }

/-- The publisher record of an id changed; nothing where the id is not published here. -/
def updPub (s : State) (r : RegionId) (f : PubRecord → PubRecord) : State :=
  match pubAt s r with
  | some p => setRegion s r { desc := descAt s r, record := .published (f p) }
  | none => s

/-- The subscriber record of an id changed; nothing where the id is not subscribed here. -/
def updSub (s : State) (r : RegionId) (f : SubRecord → SubRecord) : State :=
  match subAt s r with
  | some q => setRegion s r { desc := descAt s r, record := .subscribed (f q) }
  | none => s

/-- Every published region's record changed. -/
def updAllPubs (s : State) (f : PubRecord → PubRecord) : State := allIds.foldl (fun t r => updPub t r f) s

/-- Every subscribed region's record changed. -/
def updAllSubs (s : State) (f : SubRecord → SubRecord) : State := allIds.foldl (fun t r => updSub t r f) s

/-- A published region is LIVE (R9). -/
def isLive (s : State) (r : RegionId) : Bool := (pubAt s r).any fun p => decide (p.state = .live)

/-- What the region matcher finds for a word (R3). -/
inductive Hit where
  | block (index : Nat)
  | region (r : RegionId) (offset : Nat)
  | none
  deriving DecidableEq, Repr

/-- A word address lies in a valid region (R3). -/
def inRegion (d : Descriptor) (w : Nat) : Bool :=
  decide (d.role ≠ .off) && decide (d.base.toNat ≤ w) && decide (w < d.base.toNat + 4 * d.length)

/-- The region matcher on an address (R3). -/
def matchAddress (s : State) (a : Addr) : Hit :=
  let w := wordAddress a
  let b := blockBase s.straps.cba
  if b ≤ w ∧ w < b + 4 * Config.blockWords then .block ((w - b) / 4)
  else
    match allIds.find? fun r => inRegion (descAt s r) w with
    | some r => .region r ((w - (descAt s r).base.toNat) / 4)
    | none => .none

/-! ## The pool (R25) -/

/-- Records in a published region's batches. -/
def pubRecords (p : PubRecord) : Nat :=
  (p.openBatch.elim 0 fun b => b.records.length) + (p.retained.map fun b => b.records.length).sum

/-- Records of one region's batches. -/
def regionRecords (x : Region) : Nat :=
  match x.record with
  | .published p => pubRecords p
  | _ => 0

/-- Records a claim holds (R30). -/
def claimRecords (c : Option Claim) : Nat := c.elim 0 fun c => if c.decision = .merge then 0 else 1

/-- The pool level: records in batches and in a claim (R25, R47). -/
def poolLevel (s : State) : Nat := (allIds.map fun r => regionRecords (regionAt s r)).sum + claimRecords s.cap.claim

/-- A record of the pool is free (R25, R29). -/
def recordFree (s : State) : Bool := decide (poolLevel s < Config.poolSize)

/-! ## Events (R183, R184) -/

/-- The unconsumed count of the ring (R184). -/
def unconsumed (s : State) : Nat := (s.agent.producer - s.agent.consumer).toNat

/-- One more lost event, up to 65535 (R183). -/
def countLost (s : State) : State :=
  if s.agent.lost = 0xFFFF#16 then s else { s with agent := { s.agent with lost := s.agent.lost + 1 } }

/-- The posting of an event (R183). The stamp of `e` is taken here. -/
def post (s : State) (e : Event) : State :=
  if Config.pendingEvents ≤ s.agent.events.length ∨ Config.ringRoom ≤ unconsumed s then countLost s
  else { s with agent := { s.agent with events := s.agent.events ++ [{ e with stamp := nowUs s }] } }

/-- An event of a kind and its fields, before its posting. -/
def mkEvent (kind : EventKind) (region : RegionId) (station : StationId) (seq : Byte) (detail : Nat) : Event :=
  { kind := kind, region := region, station := station, seq := seq, detail := BitVec.ofNat 10 detail, stamp := 0 }

/-- The posting of an event together with those posted since the pending list held `n`: it takes a free place among them,
and where the list has no room for all of them the last is the one lost (R183; log 25). -/
def postAmong (n : Nat) (s : State) (e : Event) : State :=
  let m := s.agent.events.length - n
  if m = 0 ∨ Config.ringRoom ≤ unconsumed s then post s e
  else
    let k := n + (Config.eventPlace s.clock.choices m).val
    let l := s.agent.events.take k ++ { e with stamp := nowUs s } :: s.agent.events.drop k
    let t := useChoice (if Config.pendingEvents ≤ s.agent.events.length then countLost s else s)
    { t with agent := { t.agent with events := l.take Config.pendingEvents } }

/-- The posting of an event that is posted only in RUNNING (R138, R150, R153). -/
def postRunning (s : State) (e : Event) : State := if isRunning s then post s e else s

/-! ## The host access (R160, R167) -/

/-- The condition of the host access changed. -/
def setHostCondition (s : State) (c : HostCondition) : State :=
  { s with path := { s.path with host := s.path.host.map fun h => { h with condition := c } } }

/-- The host access awaits grant: the HOST request waits (R168). -/
def hostWaits (s : State) : Bool := s.path.host.any fun h => decide (h.condition = .awaitingGrant)

/-- The end of a capture hold: the write goes to the arbiter with its own lanes and data (R167). -/
def releaseHeld (s : State) : State := setHostCondition { s with cap := { s.cap with held := none } } .awaitingGrant

/-- The release of the access that the fence holds (R85, R167). -/
def releaseFenced (s : State) : State :=
  if s.path.host.any fun h => decide (h.condition = .fenceHeld) then setHostCondition s .awaitingGrant else s

/-! ## Results of commands (R174, R181) -/

/-- The executing command reaches its result (R181). -/
def reachResult (s : State) (r : ResultCode) : State :=
  { s with agent := { s.agent with executing := s.agent.executing.map fun x => { x with result := some r } } }

/-- A command is taken: it is executing (R173). -/
def beginCommand (s : State) (code tag : Byte) : State :=
  { s with agent := { s.agent with executing := some { code := code, tag := tag, result := none, prior := none } } }

/-! ## Line-lost timer (R125) -/

/-- A good frame or a lead character restarts the line-lost timer RUNNING from 0, HELD or EXPIRED as it may be; STOPPED
stays STOPPED until START (R121, R125). -/
def restartLost (s : State) : State :=
  match s.tc.lost with
  | .running _ => { s with tc := { s.tc with lost := .running (nowUs s) } }
  | .expired => { s with tc := { s.tc with lost := .running (nowUs s) } }
  | .held => { s with tc := { s.tc with lost := .running (nowUs s) } }
  | .stopped => s

end Sys2Proof.Machine
end

