-- ==== Sys2Proof/Machine/Status.lean ====
section
/-! DEFINITION. The status writer: the value of every status word (R23, R47, R127, R182, R191) and the dirty marks
(R180). -/

namespace Sys2Proof.Machine

/-- The last cycle number of the part state word (R127). -/
def lastCycleNumber (s : State) : Byte := if isMaster s then s.tc.cycle else s.tc.lastCycle

/-- The phase or member state field (R191). A member in a probe reply stays LISTENING. -/
def phaseField (s : State) : Nat := if isMaster s then s.tc.phase.code else s.tc.member.code

/-- The part state word (R182, R191). -/
def partStateWord (s : State) : Word :=
  place s.top.code 0 4 ||| place (phaseField s) 4 4 ||| place s.straps.stn.val 8 4 |||
  place (lastCycleNumber s).toNat 12 8 ||| place s.agent.loadError.code 20 4 ||| place s.agent.errorIndex.val 24 4

/-- The roster set word (R127, R191). -/
def rosterWord (s : State) : Word := place s.tc.roster.toNat 0 15

/-- The pool level word (R47, R191). -/
def poolWord (s : State) : Word :=
  place (poolLevel s) 0 7 |||
  match s.cap.held with
  | some h => place 1 8 1 ||| place h.region.val 9 4 ||| place (flag (decide (h.reason = .limit))) 13 1
  | none => 0#32

/-- The stations of the subscriber set in REFRESH-WANTED or pending for refresh, each counted once (R67, R108). -/
def waitingForRefresh (p : PubRecord) : Nat :=
  (p.acks.filter fun e => decide (e.2 = .refreshWanted) || member e.1 p.pendingTargets).length

/-- Word 0 of a region status entry (R23, R191). -/
def regionWord0 (x : Region) : Word :=
  match x.record with
  | .off => 0#32
  | .published p =>
    place 1 0 2 ||| place p.state.code 2 3 ||| place p.generation.toNat 8 8 ||| place p.nextSeq.toNat 16 8 |||
    place p.lastReleased.toNat 24 8
  | .subscribed q =>
    place 2 0 2 ||| place q.state.code 2 3 ||| place q.generation.toNat 8 8 ||| place q.accepted.toNat 16 8 |||
    place q.applied.toNat 24 8

/-- Word 1 of a region status entry (R23, R191). -/
def regionWord1 (x : Region) : Word :=
  match x.record with
  | .off => 0#32
  | .published p =>
    place p.retained.length 0 3 ||| place (flag p.openBatch.isSome) 3 1 ||| place (flag p.closePending) 4 1 |||
    place (waitingForRefresh p) 8 5
  | .subscribed q => place (q.settle.elim 0 BitVec.toNat) 0 8 ||| place (flag q.settle.isSome) 8 1

/-- The value the word of a dirty mark reports (R180). The consumer index reports the agent's copy (R177). -/
def statusValue (s : State) (m : Fin 38) : Word :=
  if m = markConsumer then s.agent.copy
  else if m = markProducer then s.agent.producer.zeroExtend 32
  else if m = markLost then s.agent.lost.zeroExtend 32
  else if m = markPart then partStateWord s
  else if m = markRoster then rosterWord s
  else if m = markPool then poolWord s
  else
    let r : RegionId := Fin.ofNat 16 ((m.val - 6) / 2)
    if (m.val - 6) % 2 = 0 then regionWord0 (regionAt s r) else regionWord1 (regionAt s r)

/-- The 38 marks in ascending offset. -/
def allMarks : List (Fin 38) := List.finRange 38

/-- One mark as a set. -/
def markBit (m : Fin 38) : BitVec 38 := 1#38 <<< m.val

/-- The marks whose reported value differs between two states. A host write of the consumer index sets no mark, and
only a LOAD marks that word (R180). -/
def changedMarks (s t : State) : BitVec 38 :=
  allMarks.foldl (fun b m => if m ≠ markConsumer ∧ statusValue s m ≠ statusValue t m then b ||| markBit m else b) 0#38

/-- A moment of a command's effect, from `s` to `t`: the words that it changes are marked, though a later moment changes
them back (R180; log 16). -/
def markChanges (s t : State) : State := { t with agent := { t.agent with marks := t.agent.marks ||| changedMarks s t } }

/-- The marks of a step with its effect from `s` to `t` and the grant that follows from `t` to `g`: what one of them
changed is marked though the other changes it back (R180; log 16). -/
def markStep (s t g : State) : State :=
  { g with agent := { g.agent with marks := g.agent.marks ||| (changedMarks s t ||| changedMarks t g) } }

/-- R181: the marks that stand when the executing command reaches its result precede the result write. -/
def fixPrior (t : State) : State :=
  match t.agent.executing with
  | some x =>
    match x.result, x.prior with
    | some _, none => { t with agent := { t.agent with executing := some { x with prior := some t.agent.marks } } }
    | _, _ => t
  | none => t

/-- The mark of lowest offset in a set (R181). -/
def lowestMark (b : BitVec 38) : Option (Fin 38) := allMarks.find? fun m => b.getLsbD m.val

/-- A mark cleared at the grant of its word, in the marks and among those that precede the result (R180, R181). -/
def clearMark (s : State) (m : Fin 38) : State :=
  { s with agent := { s.agent with
      marks := s.agent.marks &&& ~~~ markBit m
      executing := s.agent.executing.map fun x => { x with prior := x.prior.map fun b => b &&& ~~~ markBit m } } }

end Sys2Proof.Machine
end

