-- ==== Sys2Proof/Machine/Capture.lean ====
section
/-! DEFINITION. Write capture (spec 02): the decision, the claim and its grant, closes and close-pending, holds and
re-evaluation, discard and release. -/

namespace Sys2Proof.Machine

/-! ## Closing a batch (R34, R40) -/

/-- A claim of region `r` awaits grant (R30). -/
def claimOf (s : State) (r : RegionId) : Bool := s.cap.claim.any fun c => decide (c.region = r)

/-- R34 on the publisher record: the open batch takes next seq and joins the retained list. -/
def closeRecord (p : PubRecord) (b : Batch) : PubRecord :=
  { p with
    nextSeq := p.nextSeq + 1
    retained := p.retained ++ [{ b with seq := some p.nextSeq, sent := false }]
    openBatch := none
    quiet := none
    closePending := false }

/-- A close of region `r`'s open batch (R34). It is made only with a batch open and fewer than 4 retained. -/
def closeBatch (s : State) (r : RegionId) : State :=
  match pubAt s r with
  | some p =>
    match p.openBatch with
    | some b =>
      if p.retained.length < Config.retainedLimit then
        updPub { s with cap := { s.cap with sendQueue := s.cap.sendQueue ++ [(r, p.nextSeq)] } } r fun p => closeRecord p b
      else s
    | none => s
  | none => s

/-- A close that comes due is taken now, or sets close-pending with 4 batches retained (R34, R40). -/
def closeOrPend (s : State) (r : RegionId) : State :=
  match pubAt s r with
  | some p =>
    if p.openBatch.isNone then s
    else if p.retained.length < Config.retainedLimit then closeBatch s r
    else updPub s r fun p => { p with closePending := true }
  | none => s

/-- The deferred-close flag of the claim (R30). -/
def deferClose (s : State) : State :=
  { s with cap := { s.cap with claim := s.cap.claim.map fun c => { c with deferred := true } } }

/-- A close by the quiet interval, FLUSH or the end of a pass comes due: deferred while a claim of the region awaits
grant (R30; log 11), else taken or made pending. -/
def dueClose (s : State) (r : RegionId) : State := if claimOf s r then deferClose s else closeOrPend s r

/-! ## Deciding a write (R29) -/

/-- The outcomes of R29. `closeThenHold` is the row that closes the full batch at once and holds for want of a
record. -/
inductive CaptureOutcome where
  | captured (d : CaptureDecision)
  | hold (reason : HoldReason)
  | closeThenHold
  deriving DecidableEq, Repr

/-- The batch holds a record for a word (R29). -/
def holdsWord (b : Batch) (w : Byte) : Bool := b.records.any fun x => decide (x.offset = w)

/-- The table of R29, first row that applies. -/
def decideCapture (d : Descriptor) (p : PubRecord) (free : Bool) (w : Byte) : CaptureOutcome :=
  match p.openBatch with
  | some b =>
    if holdsWord b w then .captured .merge
    else if b.records.length < d.batchLimit then (if free then .captured .append else .hold .pool)
    else if p.retained.length < Config.retainedLimit then (if free then .captured .full else .closeThenHold)
    else .hold .limit
  | none => if free then .captured .opening else .hold .pool

/-- A captured write gets its claim and passes to the arbiter (R29, R30). -/
def captureClaim (s : State) (r : RegionId) (w : Byte) (d : CaptureDecision) : State :=
  setHostCondition
    { s with cap := { s.cap with
        claim := some { region := r, offset := w, decision := d, deferred := false }
        held := none } } .awaitingGrant

/-- The held write is kept, with its reason (R42, R43). -/
def captureHold (s : State) (h : HeldWrite) (reason : HoldReason) : State :=
  setHostCondition { s with cap := { s.cap with held := some { h with reason := reason } } } .captureHeld

/-- The outcome of R29 for a write, presented or re-evaluated, whose hold timer started at `h.since`. -/
def applyOutcome (s : State) (h : HeldWrite) : CaptureOutcome → State
  | .captured d => captureClaim s h.region h.offset d
  | .hold reason => captureHold s h reason
  | .closeThenHold => captureHold (closeBatch s h.region) h .pool

/-- The decision of a write to a LIVE published region (R29). -/
def decideWrite (s : State) (h : HeldWrite) : State :=
  match pubAt s h.region with
  | some p => applyOutcome s h (decideCapture (descAt s h.region) p (recordFree s) h.offset)
  | none => s

/-- The held write is decided again (R43). -/
def reevaluate (s : State) : State :=
  match s.cap.held with
  | some h => if isLive s h.region then decideWrite s h else s
  | none => s

/-! ## Discard (R8) and release (R41, R55) -/

/-- R8 on the publisher record. The region's epoch moves on: what was chosen before names no batch any more (log 24). -/
def discardRecord (p : PubRecord) : PubRecord :=
  { p with
    openBatch := none, retained := [], lastReleased := p.nextSeq - 1, closePending := false, quiet := none
    epoch := p.epoch + 1 }

/-- A discard of region `r` (R8). A claim of the region is dropped and its write goes on uncaptured (R30). -/
def discard (s : State) (r : RegionId) : State :=
  let t := updPub s r discardRecord
  { t with cap := { t.cap with
      sendQueue := t.cap.sendQueue.filter fun e => decide (e.1 ≠ r)
      claim := if claimOf t r then none else t.cap.claim } }

/-- R43: a held write of another region is decided again after a discard of region `r`. -/
def reevaluateAfterDiscard (s : State) (r : RegionId) : State :=
  if s.cap.held.any fun h => decide (h.region ≠ r) then reevaluate s else s

/-- R41, step 1: the oldest batch leaves the retained list, and last released becomes its seq. -/
def releaseRecord (p : PubRecord) : PubRecord :=
  match p.retained with
  | b :: rest => { p with retained := rest, lastReleased := b.seq.getD p.lastReleased }
  | [] => p

/-- R41: the capture side of a release of region `r`'s oldest batch. -/
def releaseOldest (s : State) (r : RegionId) : State :=
  let t := updPub s r releaseRecord
  let u := if (pubAt t r).any fun p => p.closePending then (if claimOf t r then deferClose t else closeBatch t r) else t
  reevaluate u

/-- A TRACKING entry's seq is at or past a batch's seq; the other entries hold nothing back (R55). -/
def ackAllows (seq : Byte) (a : AckState) : Bool :=
  match a with
  | .tracking q _ => atOrPast q seq
  | _ => true

/-- The release check finds region `r`'s oldest retained batch releasable (R55). -/
def releasable (s : State) (r : RegionId) : Bool :=
  match pubAt s r with
  | some p =>
    match p.retained with
    | b :: _ => decide (p.state = .live) && b.sent && p.acks.all fun e => ackAllows (b.seq.getD 0) e.2
    | [] => false
  | none => false

/-- R55: batches are released from the oldest until one fails the check. `n` bounds the chain. -/
def releaseChain : Nat → State → RegionId → State
  | 0, s, _ => s
  | n + 1, s, r => if releasable s r then releaseChain n (releaseOldest s r) r else s

/-- The release check of region `r` through its full chain (R55, R56). A batch that closes during the chain is unsent,
so no more batches can go than are retained at its start. -/
def releaseCheck (s : State) (r : RegionId) : State :=
  releaseChain ((pubAt s r).elim 0 fun p => p.retained.length) s r

/-- The release check of every LIVE published region, in ascending id (R54, R56). -/
def releaseCheckAll (s : State) : State := allIds.foldl releaseCheck s

/-! ## The grant of a captured write (R31 to R33) -/

/-- R31: the write's lanes and bytes merged into a record. -/
def mergeRecord (x : UpdateRecord) (l : Lanes) (d : Word) : UpdateRecord :=
  { x with lanes := x.lanes ||| l, data := mergeLanes l x.data d }

/-- R31: the record for the word takes the write; the others and their places are kept. -/
def mergeInto (b : Batch) (w : Byte) (l : Lanes) (d : Word) : Batch :=
  { b with records := b.records.map fun x => if x.offset = w then mergeRecord x l d else x }

/-- R32: a record filled with a write. -/
def filledRecord (w : Byte) (l : Lanes) (d : Word) : UpdateRecord := { offset := w, lanes := l, data := onLanes l d }

/-- R26, R32: a batch that opens with a write. -/
def openedBatch (r : RegionId) (w : Byte) (l : Lanes) (d : Word) : Batch :=
  { region := r, seq := none, records := [filledRecord w l d], sent := false, lastTurn := none }

/-- R33, step 2: the open batch with the write joined by the claim's decision (R31, R32). -/
def joinedBatch (c : Claim) (l : Lanes) (d : Word) (b : Option Batch) : Option Batch :=
  match c.decision with
  | .merge => b.map fun b => mergeInto b c.offset l d
  | .append => b.map fun b => { b with records := b.records ++ [filledRecord c.offset l d] }
  | .full => some (openedBatch c.region c.offset l d)
  | .opening => some (openedBatch c.region c.offset l d)

/-- R33, steps 2 and 3: the join, and the quiet measurement restarted when the region has a quiet interval (R36). -/
def joinWrite (s : State) (c : Claim) (a : Access) : State :=
  updPub s c.region fun p =>
    { p with
      openBatch := joinedBatch c a.lanes a.data p.openBatch
      quiet := if (descAt s c.region).quietInterval = 0 then none else some (nowUs s) }

/-- The claim ends at the grant, and the FULL close comes first (R33, step 1; R37). -/
def fullClose (s : State) (c : Claim) : State :=
  let t := { s with cap := { s.cap with claim := none } }
  if c.decision = .full then closeBatch t c.region else t

/-- R33: the grant of a captured write, in its order. -/
def grantCaptured (s : State) (c : Claim) (a : Access) : State :=
  let t := joinWrite (fullClose s c) c a
  if (descAt t c.region).closeOffset = some c.offset ∨ c.deferred then closeOrPend t c.region else t

end Sys2Proof.Machine
end

