-- ==== Sys2Proof/Machine/Sampling.lean ====
section
/-! DEFINITION. The sampling of LRX (spec 08, 8.3 and 8.5): where the centre samples of a bit position lie, the search for
a falling edge, the runs of ticks at 1, and the votes that the samples make. -/

namespace Sys2Proof.Machine

/-- The sample at which the start bit is voted: its third centre sample (R148). -/
def startSample (f : LineFormat) : Nat := f.samplesPerBit / 2 + 1

/-- The sample at which the last stop bit is voted, and with it the character is received (R149). -/
def lastSample (f : LineFormat) : Nat := (charBits f - 1) * f.samplesPerBit + f.samplesPerBit / 2 + 1

/-- Sample `j` is a centre sample of its bit position (R148). -/
def isCentre (f : LineFormat) (j : Nat) : Bool :=
  decide (f.samplesPerBit / 2 ≤ j % f.samplesPerBit + 1) && decide (j % f.samplesPerBit ≤ f.samplesPerBit / 2 + 1)

/-- Nothing is counted and no edge has been seen: a false start, or a state entered that begins its own count. -/
def Sampling.restart (p : Sampling) : Sampling := { p with ones := 0, sample := none, centre := [] }

/-- The number of the sample at which a receiver state is entered: at the start bit's vote, at the last stop bit's, or once
the low period has reached the break length (R148, R149, R152). -/
def entrySample (f : LineFormat) (x : LineRx) (sample : Option Nat) : Option Nat :=
  match x with
  | .character _ => some (startSample f)
  | .lowWatch _ => some (lastSample f)
  | .inBreak => some (max (breakTicks f) (sample.getD 0))
  | .off => none
  | .arming => none
  | .idle => none
  | .echo => none

/-- The sampling as a receiver state finds it at its entry (R147, R148, R152). -/
def samplingAt (f : Option LineFormat) (x : LineRx) (p : Sampling) : Sampling :=
  { p.restart with sample := f.bind fun f => entrySample f x p.sample }

/-- A run of consecutive ticks at 1, cleared by a tick that reads 0 (R147, R152, R153). -/
def runOfOnes (n : Nat) (level : Bool) : Nat := if level then n + 1 else 0

/-- One more sample: a centre sample is kept (R148, R149). -/
def nextSample (f : LineFormat) (p : Sampling) (j : Nat) (level : Bool) : Sampling :=
  { p with sample := some j, centre := if isCentre f j then p.centre ++ [level] else p.centre }

/-- A tick of the search for a start: a falling edge is sample 0, and the ticks that follow it are its samples (R148). -/
def seekStart (f : LineFormat) (p : Sampling) (level : Bool) : Sampling :=
  match p.sample with
  | some j => nextSample f p (j + 1) level
  | none => if p.level && !level then { p with sample := some 0, centre := [] } else p

/-- A tick of LOW WATCH or BREAK: the low period goes on being counted, and so does the run of ticks at 1 (R152, R153). -/
def watchLow (p : Sampling) (level : Bool) : Sampling :=
  { p with sample := p.sample.map fun j => j + 1, ones := runOfOnes p.ones level }

/-- The vote of three centre samples, the first in bit 0 (R148). -/
def voteOf (a b c : Bool) : Vote := BitVec.ofBool c ++ BitVec.ofBool b ++ BitVec.ofBool a

/-- The votes of a run of centre samples, three for each bit position (R148, R149). -/
def votesOf : List Bool → List Vote
  | a :: b :: c :: rest => voteOf a b c :: votesOf rest
  | _ => []

/-- The latest vote of a run of centre samples; with none taken the line stands at 1. -/
def latestVote (l : List Bool) : Vote := (votesOf l).getLastD 7#3

/-- The samples of bit positions 1 to 12 that CHARACTER_RECEIVED carries; a position that the line format lacks stands at
1 (R146, R149). -/
def charSamples (l : List Bool) : List Vote :=
  let v := votesOf l
  v ++ List.replicate (12 - v.length) 7#3

end Sys2Proof.Machine
end

