-- ==== Sys2Proof/Machine/Transmit.lean ====
section
/-! DEFINITION. The transmit side of the frame unit and the line unit: the two buffers (R140, R141), the start of a
transmission (R154), the pins LTX and LDE, and the withdrawal of a chunk in assembly (R102, R141). -/

namespace Sys2Proof.Machine

/-- The transmitter enters a state at the present tick (R154); the echo check begins anew (R156). The model's choice (log 37):
what begins between two sample ticks is counted from the tick before, so that its first bit is short by less than one tick. -/
def setTx (s : State) (x : LineTx) : State :=
  { s with line := { s.line with tx := x, txSince := nowTick s, fault := none } }

/-- The line receiver enters a state; its sampling is as the state finds it (R147, R148, R152). -/
def setLineRx (s : State) (x : LineRx) : State :=
  { s with line := { s.line with rx := x, sampling := samplingAt s.line.format x s.line.sampling } }

/-- The FRAME_ERROR FRAMING held back is posted (R136, R152, R154); it is posted only in RUNNING (R138). -/
def postHeldFraming (s : State) : State :=
  match s.fu.heldFraming with
  | some e => postRunning { s with fu := { s.fu with heldFraming := none } } e
  | none => s

/-- The FRAME_ERROR FRAMING held back is dropped (R153, R154). -/
def dropHeldFraming (s : State) : State := { s with fu := { s.fu with heldFraming := none } }

/-- The receiver enters ECHO from whatever state it is in (R154). The model's choice (log 26): a frame in reception whose
character in sampling is abandoned stays in reception with its gap not measured on. -/
def enterEcho (s : State) : State :=
  match s.line.rx with
  | .lowWatch _ => setLineRx (postHeldFraming s) .echo
  | .inBreak => setLineRx (dropHeldFraming s) .echo
  | _ => setLineRx s .echo

/-- The first start bit of a frame: LDE asserted, CHARACTER, the receiver in ECHO (R154). The model's choice (log 36): a search
for CONTENTION that a falling edge began in HOLDING, its start not voted yet, is abandoned. -/
def beginFrame (s : State) : State :=
  let t := setTx (enterEcho s) .character
  { t with tc := { t.tc with gap := .notAwaited } }

/-- A frame in the line buffer begins as the line allows: the first of a step once the turnaround gap has passed, a later
one at once (R140, R154). -/
def tryBegin (s : State) : State :=
  if s.fu.lineBuf.isNone then s
  else
    match s.line.tx with
    | .idle => if s.tc.gap = .passed then beginFrame s else s
    | .holding false => beginFrame s
    | _ => s

/-- The handover: a COMPLETE frame moves to an EMPTY line buffer and begins as the line allows (R140). -/
def handover (s : State) : State :=
  match s.fu.assembly, s.fu.lineBuf with
  | .complete f, none => tryBegin { s with fu := { s.fu with assembly := .empty, lineBuf := some f } }
  | _, _ => s

/-- A frame whose content is taken in one event is COMPLETE when it is handed for assembly (R141). -/
def assembleWhole (s : State) (f : Frame) (serial : Nat) : State :=
  { s with fu := { s.fu with assembly := .complete { frame := f, serial := serial } } }

/-- Both buffers become EMPTY, and the snapshot reader's request ends with its reads (R96, R143; at a STOP R168). That an abort
withdraws a SNAP request not yet granted, as no read in progress, is the model's choice (log 32). -/
def emptyBuffers (s : State) : State :=
  { s with fu := { s.fu with assembly := .empty, lineBuf := none }, path := { s.path with snap := false } }

/-- A chunk of region `r` still ASSEMBLING is withdrawn, and its entry leaves the turn list (R102, R141). The model's choice
(log 32): a SNAP request not yet granted is withdrawn with it. -/
def withdrawChunk (s : State) (r : RegionId) : State :=
  match s.fu.assembly with
  | .assembling q index serial _ =>
    if q = r then
      { s with
        fu := { s.fu with assembly := .empty }
        path := { s.path with snap := false }
        del := { s.del with turnList := s.del.turnList.filter fun e => decide (e ≠ .chunk q index serial) } }
    else s
  | _ => s

/-- A character or a break is on the line from this part (R154). -/
def onTheLine (s : State) : Bool :=
  match s.line.tx with
  | .off => false
  | .idle => false
  | .character => true
  | .holding _ => false
  | .breakLow => true
  | .breakHigh => true

/-- A character or break cut off now: the gap is counted from here, as from the last stop bit of a transmission that ends
(R113, R158; log 35). -/
def cutShort (s : State) : State := if onTheLine s then { s with tc := { s.tc with lineLast := nowTick s } } else s

/-- The part drives the line (R154). -/
def lde (s : State) : Bool :=
  match s.line.tx with
  | .off => false
  | .idle => false
  | .character => true
  | .holding _ => true
  | .breakLow => true
  | .breakHigh => true

/-- The level of bit `i` of a frame, counted over all its characters; 1 after the last one (R142, R146). -/
def frameLevel (f : LineFormat) (bytes : List Byte) (i : Nat) : Bool :=
  match bytes[i / charBits f]? with
  | some b => charLevel f b (decide (i / charBits f = 0)) (i % charBits f)
  | none => true

/-- The characters of a frame that the transmitter sends: all of them, or those through the one in which the echo check has
found a fault (R142, R157). -/
def charsSent (s : State) (x : TxFrame) : List Byte :=
  let bytes := frameBytes s.straps.stn x.frame
  s.line.fault.elim bytes fun k => bytes.take (k.2.toNat + 1)

/-- The sample ticks since the transmitter entered its state (R154, R156). -/
def txTicks (s : State) : Nat := nowTick s - s.line.txSince

/-- The level of LTX (R146, R154, R157, R159). -/
def ltx (s : State) : Bool :=
  match s.line.tx, s.line.format, s.fu.lineBuf with
  | .breakLow, _, _ => false
  | .character, some f, some x => frameLevel f (charsSent s x) (txTicks s / f.samplesPerBit)
  | _, _, _ => true

end Sys2Proof.Machine
end

