-- ==== Sys2Proof/Machine/Refresh.lean ====
section
/-! DEFINITION. The refresh engine at the publisher (spec 05): passes, chunks, the snapshot reader, the refresh close
and the settle seq, and the end of a pass. -/

namespace Sys2Proof.Machine

/-- The number of chunks of a region of `len` words (R95). -/
def chunkCount (len : Nat) : Nat := (len + 15) / 16

/-- The number of words of chunk `k` (R95). -/
def chunkWords (len k : Nat) : Nat := min 16 (len - 16 * k)

/-- The ack state of one station replaced; a station outside the subscriber set has no entry (R50). -/
def setAck (acks : List (StationId × AckState)) (st : StationId) (a : AckState) : List (StationId × AckState) :=
  acks.map fun e => if e.1 = st then (e.1, a) else e

/-- Every station of a set takes one ack state. -/
def setAcks (acks : List (StationId × AckState)) (x : StationSet) (a : AckState) : List (StationId × AckState) :=
  acks.map fun e => if member e.1 x then (e.1, a) else e

/-- The pass of region `r` ends early (R101, R102): its context becomes absent and a chunk of it still in assembly is
withdrawn. -/
def abandonPass (s : State) (r : RegionId) : State :=
  if (pubAt s r).any fun p => p.pass.isSome then
    withdrawChunk (updPub s r fun p => { p with pass := none }) r
  else s

/-- The pass context at a start or a restart (R93, step 1; R94, step 1), with its base seq (R93, step 2). -/
def passAtStart (p : PubRecord) (roster : StationSet) (count serial : Nat) : Pass :=
  let base := p.nextSeq - 1
  match p.pass with
  | some c =>
    { c with targets := c.targets ||| (p.pendingTargets &&& roster), baseSeq := some base, nextChunk := 1, settle := none }
  | none =>
    { targets := p.pendingTargets &&& roster, baseSeq := some base, chunkCount := count, nextChunk := 1, sentCount := 0,
      settle := none, serial := serial }

/-- R93 and R94, steps 1 to 3, on the publisher record. -/
def startRecord (p : PubRecord) (roster : StationSet) (count serial : Nat) : PubRecord :=
  let c := passAtStart p roster count serial
  { p with
    pass := some c
    pendingTargets := p.pendingTargets &&& ~~~ roster
    acks := setAcks p.acks c.targets (.tracking (p.nextSeq - 1) none) }

/-- A pass of region `r` starts or restarts (R93, R94, steps 1 to 3), with the release check that follows. -/
def startPass (s : State) (r : RegionId) : State :=
  let serial := s.del.passSerial
  let t := updPub s r fun p => startRecord p s.tc.roster (chunkCount (descAt s r).length) serial
  releaseCheck { t with del := { t.del with passSerial := serial + 1 } } r

/-- The reads of chunk `k` begin: ASSEMBLING, and the snapshot reader requests its first word (R93, step 4; R96). -/
def beginChunk (s : State) (r : RegionId) (k serial : Nat) : State :=
  { s with
    fu := { s.fu with assembly := .assembling r k serial [] }
    path := { s.path with snap := true } }

/-- The settle seq that R39's table gives. -/
def settleSeq (p : PubRecord) (claim : Option Claim) (r : RegionId) : Byte :=
  match claim with
  | some c =>
    if c.region = r then (if c.decision = .full then p.nextSeq + 1 else p.nextSeq)
    else if p.openBatch.isSome then p.nextSeq else p.nextSeq - 1
  | none => if p.openBatch.isSome then p.nextSeq else p.nextSeq - 1

/-- The refresh close at the completion of the last chunk's reads (R39, R98): the pass takes the settle seq. -/
def refreshClose (s : State) (r : RegionId) : State :=
  match pubAt s r with
  | some p =>
    let settle := settleSeq p s.cap.claim r
    updPub (dueClose s r) r fun p => { p with pass := p.pass.map fun c => { c with settle := some settle } }
  | none => s

/-- The CHUNK frame that the completed reads give (R97). -/
def chunkFrame (p : PubRecord) (c : Pass) (r : RegionId) (k : Nat) (words : List Word) : ChunkFrame :=
  { region := r, generation := p.generation, targets := c.targets, baseSeq := c.baseSeq.getD 0,
    index := Fin.ofNat 16 k, settle := if k + 1 = c.chunkCount then c.settle else none, words := words }

/-- The reads of chunk `k` are complete: the refresh close on the last chunk (R98), and the frame COMPLETE (R97). -/
def completeChunk (s : State) (r : RegionId) (k serial : Nat) (words : List Word) : State :=
  let last := (pubAt s r).any fun p => p.pass.any fun c => decide (k + 1 = c.chunkCount)
  let t := if last then refreshClose s r else s
  match pubAt t r with
  | some p =>
    match p.pass with
    | some c =>
      { t with fu := { t.fu with assembly := .complete { frame := .chunk (chunkFrame p c r k words), serial := serial } } }
    | none => t
  | none => t

/-- The byte address of word `k` of a region. -/
def regionWordAddress (d : Descriptor) (k : Nat) : Addr := d.base + BitVec.ofNat 24 (4 * k)

/-- The access of the snapshot reader's next read (R96). -/
def snapAccess (s : State) : Access :=
  match s.fu.assembly with
  | .assembling r k _ words =>
    { addr := regionWordAddress (descAt s r) (16 * k + words.length), write := false, lanes := 15#4, data := 0#32 }
  | _ => { addr := 0, write := false, lanes := 15#4, data := 0#32 }

/-- The grant of a SNAP read: the word joins the chunk, and the next read is requested or the chunk completes (R96). -/
def grantSnap (s : State) (word : Word) : State :=
  match s.fu.assembly with
  | .assembling r k serial words =>
    let ws := words ++ [word]
    if ws.length < chunkWords (descAt s r).length k then
      { s with fu := { s.fu with assembly := .assembling r k serial ws }, path := { s.path with snap := true } }
    else completeChunk { s with path := { s.path with snap := false } } r k serial ws
  | _ => { s with path := { s.path with snap := false } }

/-- R99 on the publisher record: one more chunk of the pass sent; with all sent the pass ends and the end guard is set. -/
def chunkSentRecord (p : PubRecord) (serial : Nat) : PubRecord :=
  match p.pass with
  | some c =>
    if c.serial = serial then
      if c.sentCount + 1 = c.chunkCount then { p with pass := none, endGuard := true }
      else { p with pass := some { c with sentCount := c.sentCount + 1 } }
    else p
  | none => p

/-- The transmission of a CHUNK frame completes (R99). -/
def chunkSent (s : State) (r : RegionId) (serial : Nat) : State :=
  releaseCheck (updPub s r fun p => chunkSentRecord p serial) r

/-- R100 on the publisher record: the pass is set back to the first chunk whose transmission did not complete. -/
def setBackRecord (turnList : List TurnEntry) (r : RegionId) (p : PubRecord) : PubRecord :=
  match p.pass with
  | some c =>
    if turnList.any fun e => match e with | .chunk q _ serial => decide (q = r) && decide (serial = c.serial) | _ => false then
      { p with pass := some { c with
          nextChunk := c.sentCount
          settle := none
          baseSeq := if c.sentCount = 0 then none else c.baseSeq } }
    else p
  | none => p

/-- R100 for every region. -/
def setBackPasses (s : State) : State :=
  allIds.foldl (fun t r => updPub t r (setBackRecord s.del.turnList r)) s

end Sys2Proof.Machine
end

