-- ==== Sys2Proof/Machine/Delivery.lean ====
section
/-! DEFINITION. The delivery controller (spec 03): ack entries and roster changes, the choice of the frames of a turn,
the own YIELD, the completion of DATA frames, and aborted turns. -/

namespace Sys2Proof.Machine

/-! ## Acks (R51 to R54, R92) -/

/-- R52: the ack state that an entry gives, by the first row that applies. -/
def ackStateOf (p : PubRecord) (ownTurn : Byte) (a : AckEntry) : AckState :=
  if a.state = .unsynced then .refreshWanted
  else if a.generation ≠ p.generation then .refreshWanted
  else if inWindow a.appliedSeq p.lastReleased (p.nextSeq - 1) then .tracking a.appliedSeq (some ownTurn)
  else .refreshWanted

/-- R92: a TRACKING station that reports REFRESHING while no pass serves it and the end guard is clear. -/
def wantsRestart (p : PubRecord) (st : StationId) (a : AckEntry) : Bool :=
  decide (a.state = .refreshing) && !(p.pass.any fun c => member st c.targets) && !p.endGuard

/-- R52, R53 and R92 on the publisher record. -/
def ackRecord (ownTurn : Byte) (st : StationId) (a : AckEntry) (p : PubRecord) : PubRecord :=
  let x := ackStateOf p ownTurn a
  { p with
    acks := setAck p.acks st x
    pendingTargets :=
      if x = .refreshWanted ∨ wantsRestart p st a then addStation st p.pendingTargets else p.pendingTargets }

/-- R51's filters, for an entry from station `st`. -/
def ackPasses (s : State) (st : StationId) (a : AckEntry) : Bool :=
  isLive s a.region && member st s.tc.roster && member st (descAt s a.region).subscribers

/-- One ack entry: filtered, processed, and followed by the release check (R51, R52). -/
def processAck (s : State) (st : StationId) (a : AckEntry) : State :=
  if ackPasses s st a then releaseCheck (updPub s a.region (ackRecord s.del.ownTurn st a)) a.region else s

/-- One ack entry of a YIELD, a moment of its own for the dirty marks: what it changes may be changed back by another entry
or by the next choice (R180; log 16). -/
def takeAck (s : State) (st : StationId) (a : AckEntry) : State := markChanges s (processAck s st a)

/-- The ack entries of one YIELD, in frame order (R51). -/
def processAcks (s : State) (st : StationId) (acks : List AckEntry) : State := acks.foldl (fun t a => takeAck t st a) s

/-- R54 on the publisher record, with R101's removal from the target set. -/
def rosterRecord (roster : StationSet) (p : PubRecord) : PubRecord :=
  { p with
    acks := p.acks.map fun e => if member e.1 roster then e else (e.1, .unknown)
    pendingTargets := p.pendingTargets &&& roster
    pass := p.pass.map fun c => { c with targets := c.targets &&& roster } }

/-- R101: a pass whose target set became empty is abandoned. -/
def abandonIfEmpty (s : State) (r : RegionId) : State :=
  if (pubAt s r).any fun p => p.pass.any fun c => decide (c.targets = 0#16) then abandonPass s r else s

/-- The ack tables and passes after the roster or the roster copy changed (R54, R101), with the release checks. -/
def rosterChangedForPubs (s : State) : State :=
  releaseCheckAll (allIds.foldl abandonIfEmpty (updAllPubs s (rosterRecord s.tc.roster)))

/-! ## Choosing frames (R58 to R61) -/

/-- The turn list names a batch of region `r`, by its seq and the region's epoch (R49; log 24). -/
def inTurnList (l : List TurnEntry) (r : RegionId) (q : Byte) (epoch : Nat) : Bool :=
  l.any fun e => match e with
    | .first x y z => decide (x = r) && decide (y = q) && decide (z = epoch)
    | .repeated x y z => decide (x = r) && decide (y = q) && decide (z = epoch)
    | .chunk _ _ _ => false

/-- A retained batch was sent in an earlier turn (R48). -/
def sentEarlier (b : Batch) (ownTurn : Byte) : Bool := b.sent && decide (b.lastTurn ≠ some ownTurn)

/-- R59, third condition: a TRACKING entry heard since the batch was last sent lacks it. -/
def lackedBy (b : Batch) (a : AckState) : Bool :=
  match a with
  | .tracking q (some h) => atOrPast h (b.lastTurn.getD 0) && !atOrPast q (b.seq.getD 0)
  | _ => false

/-- R59: a retained batch needs retransmission. -/
def needsRepeat (d : Delivery) (r : RegionId) (p : PubRecord) (b : Batch) : Bool :=
  sentEarlier b d.ownTurn && !inTurnList d.turnList r (b.seq.getD 0) p.epoch && p.acks.any fun e => lackedBy b e.2

/-- R59: the oldest batch at or newer than the go-back point, sent in an earlier turn, not in the turn list. -/
def repeatFrom (d : Delivery) (r : RegionId) (p : PubRecord) (goBack : Byte) : Option Batch :=
  p.retained.find? fun b =>
    atOrPast (b.seq.getD 0) goBack && sentEarlier b d.ownTurn && !inTurnList d.turnList r (b.seq.getD 0) p.epoch

/-- The publisher record of a LIVE region (R9). -/
def liveAt (s : State) (r : RegionId) : Option PubRecord := (pubAt s r).filter fun p => decide (p.state = .live)

/-- R59 afresh: the first LIVE region, ascending, with a batch that needs retransmission, and its go-back point. -/
def findGoBack (s : State) : Option (RegionId × Byte) :=
  allIds.findSome? fun r => (liveAt s r).bind fun p =>
    (p.retained.find? (needsRepeat s.del r p)).map fun b => (r, b.seq.getD 0)

/-- The repeat that a region and go-back point give (R59). -/
def repeatAt (s : State) (k : RegionId × Byte) : Option (RegionId × Byte × Batch) :=
  ((liveAt s k.1).bind fun p => repeatFrom s.del k.1 p k.2).map fun b => (k.1, k.2, b)

/-- R59: the retransmission step: the kept region first, then afresh. -/
def chooseRepeat (s : State) : Option (RegionId × Byte × Batch) :=
  (s.del.kept.bind (repeatAt s)) <|> ((findGoBack s).bind (repeatAt s))

/-- R60: a region has refresh work. -/
def hasRefreshWork (s : State) (r : RegionId) : Bool :=
  (liveAt s r).any fun p =>
    match p.pass with
    | some c => decide (c.nextChunk < c.chunkCount)
    | none => decide (p.pendingTargets &&& s.tc.roster ≠ 0#16)

/-- The ids after a position, ascending and wrapping from 15 to 0 (R60). -/
def idsAfter (r : RegionId) : List RegionId := allIds.map fun i => i + r + 1

/-- R60: the region the refresh step serves. -/
def chooseRefresh (s : State) : Option RegionId := (idsAfter s.del.roundRobin).find? (hasRefreshWork s)

/-- An entry joins the turn list (R58). -/
def enterTurn (s : State) (e : TurnEntry) : State := { s with del := { s.del with turnList := s.del.turnList ++ [e] } }

/-- The DATA frame of a batch, with the region's generation as it stands (R131, R141). -/
def dataFrame (p : PubRecord) (r : RegionId) (b : Batch) : DataFrame :=
  { region := r, generation := p.generation, seq := b.seq.getD 0, records := b.records }

/-- A chosen DATA frame is handed for assembly (R58, R141); it belongs to the region's present epoch. -/
def handData (s : State) (r : RegionId) (b : Batch) : State :=
  match pubAt s r with
  | some p => assembleWhole s (.data (dataFrame p r b)) p.epoch
  | none => s

/-- The epoch of a published region (log 24). -/
def epochOf (s : State) (r : RegionId) : Nat := (pubAt s r).elim 0 PubRecord.epoch

/-- The retransmission chosen: repeat DATA, with the kept region and go-back point (R59). -/
def takeRepeat (s : State) (r : RegionId) (goBack : Byte) (b : Batch) : State :=
  handData (enterTurn { s with del := { s.del with kept := some (r, goBack) } }
    (.repeated r (b.seq.getD 0) (epochOf s r))) r b

/-- The refresh chunk chosen (R60, R93, R94): chunk 0 starts or restarts a pass; the position moves to the region. -/
def takeRefresh (s : State) (r : RegionId) : State :=
  let starts := (pubAt s r).any fun p => p.pass.all fun c => decide (c.nextChunk = 0)
  let k := if starts then 0 else (pubAt s r).elim 0 fun p => p.pass.elim 0 fun c => c.nextChunk
  let t := if starts then startPass s r
    else updPub s r fun p => { p with pass := p.pass.map fun c => { c with nextChunk := c.nextChunk + 1 } }
  let serial := (pubAt t r).elim 0 fun p => p.pass.elim 0 fun c => c.serial
  beginChunk (enterTurn { t with del := { t.del with roundRobin := r } } (.chunk r k serial)) r k serial

/-! ## The own YIELD (R62 to R64) -/

/-- The state an ack entry reports (R62). -/
def reportOf : SubState → ReportedState
  | .off => .unsynced
  | .unsynced => .unsynced
  | .refreshing => .refreshing
  | .settling => .settling
  | .current => .current

/-- The own ack entry of a region (R62). -/
def ownAck (s : State) (r : RegionId) : Option AckEntry :=
  (subAt s r).bind fun q =>
    if q.state = .off then none
    else some { region := r, generation := q.generation, appliedSeq := q.applied, state := reportOf q.state }

/-- The own summary of a region (R63). -/
def ownSummary (s : State) (r : RegionId) : Option Summary :=
  (pubAt s r).bind fun p => if p.state = .off then none else some { region := r, generation := p.generation }

/-- The YIELD of the open turn, with the roster section at the master's own turn (R62 to R64, R112, R133). -/
def ownYield (s : State) (t : Turn) : YieldFrame :=
  { cycle := t.cycle
    roster := if t.kind = .own then some s.tc.roster else none
    acks := allIds.filterMap (ownAck s)
    summaries := allIds.filterMap (ownSummary s) }

/-- The YIELD is handed for assembly; the choices of the turn are over (R58, R64). -/
def handYield (s : State) (t : Turn) : State :=
  assembleWhole { s with del := { s.del with turn := some { t with yieldHanded := true } } } (.yield (ownYield s t)) 0

/-- The new batch chosen: the head of the send queue leaves it and goes as first DATA (R61). Every batch on the queue is
retained (R27); one that were not would yield no frame, and the YIELD follows (R58). -/
def takeNew (s : State) (t : Turn) (r : RegionId) (q : Byte) (rest : List (RegionId × Byte)) : State :=
  let u := { s with cap := { s.cap with sendQueue := rest } }
  match (pubAt u r).bind fun p => p.retained.find? fun b => decide (b.seq = some q) with
  | some b => handData (enterTurn u (.first r q (epochOf u r))) r b
  | none => handYield u t

/-- One choice of the open turn: a retransmission, a refresh chunk, a new batch, or the YIELD (R58). -/
def chooseFrame (s : State) (t : Turn) : State :=
  if s.del.turnList.length < t.budget then
    match chooseRepeat s with
    | some (r, goBack, b) => takeRepeat s r goBack b
    | none =>
      match chooseRefresh s with
      | some r => takeRefresh s r
      | none =>
        match s.cap.sendQueue with
        | (r, q) :: rest => takeNew s t r q rest
        | [] => handYield s t
  else handYield s t

/-- The next choice, when a turn is open, its YIELD not yet handed and the assembly buffer EMPTY (R58, R140). -/
def choose (s : State) : State :=
  match s.del.turn with
  | some t => if !t.yieldHanded && decide (s.fu.assembly = .empty) then chooseFrame s t else s
  | none => s

/-- Handover and choice as far as the two buffers go: a frame handed over frees the assembly buffer for one more
choice (R140). -/
def pump (s : State) : State := choose (handover (choose (handover s)))

/-! ## Turns (R48, R57, R90) -/

/-- A turn of the station opens: count, end guards, empty turn list, budget, and the first choices (R48, R49, R58,
R90). -/
def openTurn (s : State) (kind : TurnKind) (budget : Nat) (cycle : Byte) : State :=
  let t := updAllPubs s fun p => { p with endGuard := false }
  pump { t with del := { t.del with
      ownTurn := t.del.ownTurn + 1
      turnList := []
      kept := none
      turn := some { kind := kind, budget := budget, cycle := cycle, yieldHanded := false, pollEnd := t.tc.lineLast } } }

/-- R57: the batch of a completed DATA frame is marked sent in this turn, if it is still retained. -/
def markSent (q : Byte) (ownTurn : Byte) (p : PubRecord) : PubRecord :=
  { p with retained := p.retained.map fun b =>
      if b.seq = some q then { b with sent := true, lastTurn := some ownTurn } else b }

/-- The transmission of a DATA frame completes (R57). The completion of a frame whose batch was discarded changes nothing:
there is no batch to mark and no release check for it (R8). -/
def dataSent (s : State) (r : RegionId) (q : Byte) (epoch : Nat) : State :=
  if epochOf s r = epoch then releaseCheck (updPub s r (markSent q s.del.ownTurn)) r else s

/-- R57: a first DATA entry whose batch is still retained and unsent. -/
def returnable (s : State) (e : TurnEntry) : Option (RegionId × Byte) :=
  match e with
  | .first r q epoch =>
    if (pubAt s r).any fun p =>
        decide (p.epoch = epoch) && p.retained.any fun b => decide (b.seq = some q) && !b.sent
    then some (r, q) else none
  | _ => none

/-- R57: the unsent first DATA batches of the turn return to the head of the send queue in turn list order. -/
def returnBatches (s : State) : State :=
  { s with cap := { s.cap with sendQueue := s.del.turnList.filterMap (returnable s) ++ s.cap.sendQueue } }

/-- An aborted turn: batches returned (R57), passes set back (R100), buffers EMPTY (R143), the turn list emptied and the
turn over. -/
def abortTurn (s : State) : State :=
  let t := emptyBuffers (setBackPasses (returnBatches s))
  { t with del := { t.del with turnList := [], kept := none, turn := none } }

end Sys2Proof.Machine
end

