-- ==== Sys2Proof/Machine/Inbound.lean ====
section
/-! DEFINITION. The subscriber's side (spec 01, 1.4; spec 04; spec 05, 5.5): the subscriber transitions, the staging
slots, the taking of DATA and CHUNK frames, the apply engine and the fence. -/

namespace Sys2Proof.Machine

/-! ## Entering UNSYNCED (R18 to R21) -/

/-- The causes of UNSYNCED with the detail codes of their events (R18, R192). -/
inductive UnsyncCause where
  | generation
  | publisherAbsent
  | notEnrolled
  | resync
  | outOfOrder
  | overrun
  | notRefreshing
  deriving DecidableEq, Repr

/-- The event kind of a cause (R18). -/
def UnsyncCause.kind : UnsyncCause → EventKind
  | .generation => .regionUnsynced
  | .publisherAbsent => .regionUnsynced
  | .notEnrolled => .regionUnsynced
  | .resync => .regionUnsynced
  | .outOfOrder => .refreshBroken
  | .overrun => .refreshBroken
  | .notRefreshing => .refreshBroken

/-- The detail of a cause (R192). -/
def UnsyncCause.detail : UnsyncCause → Nat
  | .generation => 1
  | .publisherAbsent => 2
  | .notEnrolled => 3
  | .resync => 4
  | .outOfOrder => 1
  | .overrun => 2
  | .notRefreshing => 3

/-- R18 on the record: the refresh fields become absent, generation, accepted and applied stay. -/
def unsyncRecord (q : SubRecord) : SubRecord :=
  { q with state := .unsynced, baseSeq := none, expected := none, settle := none }

/-- The waiting slots of a region discarded; a slot IN PROGRESS stays (R18, R70). -/
def dropWaiting (slots : List Slot) (r : RegionId) : List Slot :=
  slots.filter fun x => x.inProgress || decide (x.region ≠ r)

/-- The states from which a cause moves a region to UNSYNCED (R18). -/
def following (q : SubRecord) : Bool :=
  match q.state with
  | .refreshing => true
  | .settling => true
  | .current => true
  | .off => false
  | .unsynced => false

/-- A cause reaches a subscribed region: it enters UNSYNCED unless it is there or OFF already (R18). -/
def unsync (s : State) (r : RegionId) (c : UnsyncCause) : State :=
  match subAt s r with
  | some q =>
    if following q then
      let t := updSub s r unsyncRecord
      post { t with inb := { t.inb with slots := dropWaiting t.inb.slots r } }
        (mkEvent c.kind r (descAt s r).publisher q.applied c.detail)
    else s
  | none => s

/-- The regions that a cause would move, in ascending id. -/
def followingRegions (s : State) (only : RegionId → Bool) : List RegionId :=
  allIds.filter fun r => (subAt s r).any following && only r

/-- Regions enter UNSYNCED together; the order of their events is free (R20, R183; log 9). -/
def unsyncAll (s : State) (rs : List RegionId) (c : UnsyncCause) : State :=
  (freeOrder s rs).foldl (fun t r => unsync t r c) (useChoice s)

/-- R20: the regions whose publisher is absent from the roster or roster copy. -/
def unsyncAbsent (s : State) : State :=
  unsyncAll s (followingRegions s fun r => !member (descAt s r).publisher s.tc.roster) .publisherAbsent

/-- R20: every region, when the station leaves its roster. -/
def unsyncNotEnrolled (s : State) : State := unsyncAll s (followingRegions s fun _ => true) .notEnrolled

/-! ## Frames from the line (R4, R16, R19, R21, R71 to R78) -/

/-- A staging slot is free (R69). -/
def slotFree (s : State) : Bool := decide (s.inb.slots.length < Config.slotCount)

/-- A frame enters a slot as WAITING and becomes the newer (R75). -/
def stage (s : State) (x : Slot) : State := { s with inb := { s.inb with slots := s.inb.slots ++ [x] } }

/-- WRONG_PUBLISHER (R4). -/
def postWrongPublisher (s : State) (r : RegionId) (source : StationId) (seq : Byte) (kind : Nat) : State :=
  post s (mkEvent .wrongPublisher r source seq kind)

/-- INBOUND_OVERRUN (R76, R77). -/
def postOverrun (s : State) (r : RegionId) (source : StationId) (seq : Byte) (kind : Nat) : State :=
  post s (mkEvent .inboundOverrun r source seq kind)

/-- The slot of a DATA frame (R69). -/
def dataSlot (d : DataFrame) : Slot :=
  { region := d.region, seq := d.seq, content := .data d.records, inProgress := false }

/-- An in-order DATA frame: accepted, or overrun when both slots are full (R75, R76). -/
def acceptData (s : State) (source : StationId) (d : DataFrame) : State :=
  if slotFree s then stage (updSub s d.region fun q => { q with accepted := d.seq }) (dataSlot d)
  else postOverrun s d.region source d.seq 2

/-- A DATA frame that passed R4 (R71 to R76). -/
def takeData (s : State) (source : StationId) (d : DataFrame) (q : SubRecord) : State :=
  if following q then
    if d.generation ≠ q.generation then unsync s d.region .generation
    else
      match seqClass d.seq q.accepted with
      | .inOrder => acceptData s source d
      | .duplicate => s
      | .gap => s
  else s

/-- A good DATA frame against the region table (R4), in RUNNING (R71). -/
def inboundData (s : State) (source : StationId) (d : DataFrame) : State :=
  match subAt s d.region with
  | some q =>
    if source = (descAt s d.region).publisher then takeData s source d q
    else postWrongPublisher s d.region source d.seq 2
  | none => s

/-- The station is in its roster: ENROLLED or SPEAKING at a member, RUNNING at the master (R16). -/
def inRoster (s : State) : Bool :=
  if isMaster s then isRunning s
  else match s.tc.member with
    | .enrolled => true
    | .speaking => true
    | .detached => false
    | .listening => false

/-- The slot of a CHUNK frame (R69). -/
def chunkSlot (c : ChunkFrame) : Slot :=
  { region := c.region, seq := c.baseSeq, content := .chunk c.index c.settle.isSome c.words, inProgress := false }

/-- R78: the region's waiting DATA slots are purged; slots in progress, of other regions and of chunks stay. -/
def purgeData (slots : List Slot) (r : RegionId) : List Slot :=
  slots.filter fun x => x.inProgress || decide (x.region ≠ r) ||
    match x.content with
    | .data _ => false
    | .chunk _ _ _ => true

/-- R16 on the record. -/
def chunk0Record (c : ChunkFrame) (q : SubRecord) : SubRecord :=
  { q with
    state := .refreshing
    generation := c.generation
    accepted := c.baseSeq
    applied := c.baseSeq
    baseSeq := some c.baseSeq
    expected := some 1
    settle := c.settle }

/-- CHUNK 0 for this station (R16, R77, R78). The slot test is made on the slots as the frame finds them. -/
def takeChunk0 (s : State) (source : StationId) (c : ChunkFrame) (q : SubRecord) : State :=
  if slotFree s then
    let t := updSub s c.region (chunk0Record c)
    stage { t with inb := { t.inb with slots := purgeData t.inb.slots c.region } } (chunkSlot c)
  else if following q then unsync s c.region .overrun
  else postOverrun s c.region source c.baseSeq 3

/-- A non-zero chunk that names this station and has the stored generation (R21). -/
def takeChunkNext (s : State) (c : ChunkFrame) (q : SubRecord) : State :=
  match q.state with
  | .refreshing =>
    if q.expected = some c.index.val ∧ q.baseSeq = some c.baseSeq then
      if slotFree s then
        stage (updSub s c.region fun q =>
          { q with expected := some (c.index.val + 1), settle := c.settle <|> q.settle }) (chunkSlot c)
      else unsync s c.region .overrun
    else unsync s c.region .outOfOrder
  | .settling => unsync s c.region .notRefreshing
  | .current => unsync s c.region .notRefreshing
  | .off => s
  | .unsynced => s

/-- A CHUNK frame that passed R4 (R16, R19, R21). -/
def takeChunk (s : State) (source : StationId) (c : ChunkFrame) (q : SubRecord) : State :=
  if c.index = 0 then
    if member s.straps.stn c.targets && inRoster s && decide (q.state ≠ .off) then takeChunk0 s source c q else s
  else if following q && decide (c.generation ≠ q.generation) then unsync s c.region .generation
  else if member s.straps.stn c.targets then takeChunkNext s c q
  else s

/-- A good CHUNK frame against the region table (R4), in RUNNING (R71). -/
def inboundChunk (s : State) (source : StationId) (c : ChunkFrame) : State :=
  match subAt s c.region with
  | some q =>
    if source = (descAt s c.region).publisher then takeChunk s source c q
    else postWrongPublisher s c.region source c.baseSeq 3
  | none => s

/-- A summary of a YIELD: taken only from the region's publisher, compared with the generation stored (R4, R19). -/
def takeSummary (s : State) (source : StationId) (x : Summary) : State :=
  match subAt s x.region with
  | some q =>
    if source = (descAt s x.region).publisher ∧ x.generation ≠ q.generation then unsync s x.region .generation else s
  | none => s

/-- The summaries of one YIELD, in frame order (R139). -/
def takeSummariesOf (s : State) (source : StationId) (xs : List Summary) : State :=
  xs.foldl (fun t x => takeSummary t source x) s

/-! ## The apply engine and the fence (R79 to R85) -/

/-- One item of a slot: the word offset, the lanes and the data (R80, R81). -/
structure ApplyItem where
  offset : Nat
  lanes : Lanes
  data : Word
  deriving DecidableEq, Repr

/-- Chunk words as items from word offset `o` on (R81). -/
def wordItems : Nat → List Word → List ApplyItem
  | _, [] => []
  | o, w :: ws => { offset := o, lanes := 15#4, data := w } :: wordItems (o + 1) ws

/-- The items of a slot in frame order (R80, R81). -/
def slotItems (x : Slot) : List ApplyItem :=
  match x.content with
  | .data rs => rs.map fun r => { offset := r.offset.toNat, lanes := r.lanes, data := r.data }
  | .chunk i _ ws => wordItems (16 * i.val) ws

/-- The first item at or after a position whose offset the region holds; the others are skipped (R5, R80, R81). -/
def nextItem (len : Nat) : Nat → List ApplyItem → Option (Nat × ApplyItem)
  | _, [] => none
  | pos, i :: is => if i.offset < len then some (pos, i) else nextItem len (pos + 1) is

/-- The next item to write from a position of a slot's content list (R79). -/
def seekItem (len : Nat) (items : List ApplyItem) (pos : Nat) : Option (Nat × ApplyItem) :=
  nextItem len pos (items.drop pos)

/-- The memory write of an item (R80, R81). -/
def itemAccess (d : Descriptor) (i : ApplyItem) : Access :=
  { addr := regionWordAddress d i.offset, write := true, lanes := i.lanes, data := i.data }

/-- R82, step 3, for DATA: applied seq is set when the batch is newer and accepted seq is at or past it. -/
def appliedRecord (seq : Byte) (q : SubRecord) : SubRecord :=
  if newer seq q.applied && atOrPast q.accepted seq then { q with applied := seq } else q

/-- The record of a region that became CURRENT (R17). -/
def currentRecord (q : SubRecord) : SubRecord :=
  { q with state := .current, baseSeq := none, expected := none, settle := none }

/-- REGION_CURRENT (R17). -/
def postCurrent (s : State) (r : RegionId) : State :=
  match subAt s r with
  | some q => post s (mkEvent .regionCurrent r (descAt s r).publisher q.applied 0)
  | none => s

/-- R82, step 3, and R17's SETTLING check after a DATA apply. -/
def dataApplied (s : State) (r : RegionId) (seq : Byte) : State :=
  match subAt s r with
  | some q =>
    if q.state = .off then s
    else
      let q' := appliedRecord seq q
      let t := updSub s r fun _ => q'
      if q'.applied ≠ q.applied ∧ q.state = .settling ∧ (q.settle.any fun x => atOrPast q'.applied x) then
        postCurrent (updSub t r currentRecord) r
      else t
  | none => s

/-- R17: the end of a refresh, at the apply of a LAST chunk. -/
def chunkApplied (s : State) (r : RegionId) (base : Byte) (last : Bool) : State :=
  match subAt s r with
  | some q =>
    match q.settle with
    | some x =>
      if last ∧ q.state = .refreshing ∧ q.baseSeq = some base then
        if atOrPast q.applied x then postCurrent (updSub s r currentRecord) r
        else updSub s r fun q => { q with state := .settling, expected := none }
      else s
    | none => s
  | none => s

/-- R82, steps 3 and 4, by the slot's kind. -/
def slotApplied (s : State) (x : Slot) : State :=
  match x.content with
  | .data _ => dataApplied s x.region x.seq
  | .chunk _ last _ => chunkApplied s x.region x.seq last

/-- A STOP that waits for the apply reaches its result (R87, R179). -/
def stopWaitOver (s : State) : State :=
  if s.agent.executing.any fun x => decide (x.code = 3#8) && x.result.isNone then reachResult s .done else s

/-- The apply of a slot completes (R82): fence lowered and its access released (R85), slot empty and engine IDLE, record
and region state, and a waiting STOP's result. -/
def completeApply (s : State) (x : Slot) : State :=
  let t := releaseFenced { s with
    inb := { slots := s.inb.slots.filter fun y => !y.inProgress, engine := none, fence := none }
    path := { s.path with apply := .none } }
  stopWaitOver (slotApplied t x)

/-- A host access to region `r` has been passed to the arbiter and awaits grant (R79). -/
def hostAwaitsRegion (s : State) (r : RegionId) : Bool :=
  s.path.host.any fun h => decide (h.condition = .awaitingGrant) &&
    match matchAddress s h.access.addr with
    | .region q _ => decide (q = r)
    | _ => false

/-- The older occupied slot, when the engine is IDLE and the slot is WAITING (R79). -/
def nextApply (s : State) : Option Slot :=
  match s.inb.engine, s.inb.slots with
  | none, x :: _ => if x.inProgress then none else some x
  | _, _ => none

/-- The older slot becomes IN PROGRESS (R70). -/
def markInProgress : List Slot → List Slot
  | [] => []
  | x :: xs => { x with inProgress := true } :: xs

/-- The apply engine starts an apply (R79): fence raised, and the first write requested, kept back while a host access
to the region awaits grant, or the apply complete at once when there is nothing to write. -/
def startApply (s : State) (x : Slot) : State :=
  let pos := seekItem (descAt s x.region).length (slotItems x) 0
  let t := { s with inb :=
    { slots := markInProgress s.inb.slots, engine := some (pos.elim 0 Prod.fst), fence := some x.region } }
  match pos with
  | none => completeApply t x
  | some _ =>
    { t with path := { t.path with apply := if hostAwaitsRegion s x.region then .keptBack else .waiting } }

/-- The slot being applied and the item at the engine's position. -/
def applyItem (s : State) : Option (Slot × Nat × ApplyItem) :=
  match s.inb.engine, s.inb.slots with
  | some pos, x :: _ => (seekItem (descAt s x.region).length (slotItems x) pos).map fun i => (x, i.1, i.2)
  | _, _ => none

/-- The access of the apply engine's request (R80, R81). -/
def applyAccess (s : State) : Access :=
  match applyItem s with
  | some (x, _, i) => itemAccess (descAt s x.region) i
  | none => { addr := 0, write := false, lanes := 15#4, data := 0#32 }

/-- The grant of an APPLY write: the next item is requested, or the apply completes (R80 to R82). -/
def grantApply (s : State) : State :=
  match applyItem s with
  | some (x, pos, _) =>
    match seekItem (descAt s x.region).length (slotItems x) (pos + 1) with
    | some (next, _) =>
      { s with inb := { s.inb with engine := some next }, path := { s.path with apply := .waiting } }
    | none => completeApply s x
  | none => { s with path := { s.path with apply := .none } }

end Sys2Proof.Machine
end

