-- ==== Sys2Proof/Machine/Turns.lean ====
section
/-! DEFINITION. The turn controller (spec 06): leaving and entering the roster, the member's turns, the master's poll
cycle, and the watch on a member's turn. -/

namespace Sys2Proof.Machine

/-! ## Region transitions with the roster (R11, R12) -/

/-- Every ack state becomes UNKNOWN (R12 to R14). -/
def forgetAcks (acks : List (StationId × AckState)) : List (StationId × AckState) := acks.map fun e => (e.1, .unknown)

/-- R12 on the record, beside its discard. -/
def suspendRecord (p : PubRecord) : PubRecord :=
  { p with
    state := .suspended, generation := p.generation + 1, acks := forgetAcks p.acks, pass := none, pendingTargets := 0#16 }

/-- R12 for one LIVE region: a held write of the region passes uncaptured (R45), one of another region is decided again
(R43). -/
def suspendRegion (s : State) (r : RegionId) : State :=
  if isLive s r then
    let t := updPub (discard (abandonPass s r) r) r suspendRecord
    if t.cap.held.any fun h => decide (h.region = r) then releaseHeld t else reevaluateAfterDiscard t r
  else s

/-- R12: every LIVE published region moves to SUSPENDED. -/
def suspendAll (s : State) : State := allIds.foldl suspendRegion s

/-- R11 on the record. -/
def enrollRecord (p : PubRecord) : PubRecord := if p.state = .suspended then { p with state := .live } else p

/-- The member is in a state of R120. -/
def setMember (s : State) (m : MemberState) : State := { s with tc := { s.tc with member := m } }

/-- A member leaves ENROLLED for LISTENING, with the effects of R12 and R20 (cause NOT_ENROLLED). -/
def leaveRoster (s : State) : State := unsyncNotEnrolled (suspendAll (setMember s .listening))

/-- A member becomes ENROLLED, and its SUSPENDED regions LIVE (R11, R123). -/
def enterRoster (s : State) : State := updAllPubs (setMember s .enrolled) enrollRecord

/-- The member state after a master YIELD (R123). -/
def memberAfterYield (s : State) : State :=
  match s.tc.member with
  | .listening => if member s.straps.stn s.tc.roster then enterRoster s else s
  | .enrolled => if member s.straps.stn s.tc.roster then s else leaveRoster s
  | .speaking => s
  | .detached => s

/-- The subscribed regions and the ack tables after the roster changed (R20, R54, R101). -/
def rosterChanged (s : State) : State := rosterChangedForPubs (unsyncAbsent s)

/-- A master YIELD at a member (R110, R123). It cannot reach a SPEAKING member or a probe reply, and is not taken
there (log 20). -/
def takeMasterYield (s : State) (roster : StationSet) (cycle : Byte) : State :=
  if s.tc.member = .detached ∨ s.tc.member = .speaking ∨ s.tc.probeReply then s
  else rosterChanged (memberAfterYield { s with tc := { s.tc with roster := roster, lastCycle := cycle } })

/-! ## The member's turn (R121, R122, R124) -/

/-- A member's turn or probe reply opens (R122). -/
def openMemberTurn (s : State) (kind : TurnKind) (budget : Nat) (cycle : Byte) : State :=
  openTurn { s with tc := { s.tc with
    member := if kind = .member then .speaking else s.tc.member
    probeReply := decide (kind = .probeReply)
    lastCycle := cycle
    lost := .held
    gap := .counting s.tc.lineLast } } kind budget cycle

/-- The member after its turn or probe reply: ENROLLED or LISTENING, the line-lost timer from 0 (R122, R124). -/
def closeMemberTurn (s : State) : State :=
  { s with tc := { s.tc with
    member := if s.tc.member = .speaking then .enrolled else s.tc.member
    probeReply := false
    lost := .running (nowUs s)
    gap := .notAwaited } }

/-- The abort of a member's turn or probe reply by a collision, a line reset or a lapse (R124). -/
def abortMemberTurn (s : State) : State := closeMemberTurn (abortTurn s)

/-- A POLL from station 0 addressed to this member (R121). -/
def takePoll (s : State) (cycle budget : Byte) : State :=
  match s.tc.member with
  | .listening => if s.tc.probeReply then s else if budget = 0 then openMemberTurn s .probeReply 0 cycle else s
  | .enrolled =>
    if budget = 0 then openMemberTurn (leaveRoster s) .probeReply 0 cycle
    else openMemberTurn s .member budget.toNat cycle
  | .speaking => s
  | .detached => s

/-! ## The master's poll cycle (R112 to R117) -/

/-- A phase begins whose first transmission waits for the turnaround gap (R113). -/
def awaitGap (s : State) (p : Phase) : State :=
  { s with tc := { s.tc with phase := p, gap := .counting s.tc.lineLast } }

/-- A POLL is handed for assembly and moves to the line buffer; it waits for the turnaround gap (R113, R130, R140;
log 19). -/
def sendPoll (s : State) (p : Phase) (st : StationId) (budget : Nat) : State :=
  handover (assembleWhole (awaitGap s p) (.poll st s.tc.cycle (byteOf budget)) 0)

/-- The pause begins (R113). -/
def startPause (s : State) : State :=
  { s with tc := { s.tc with phase := .pause, next := .cycleStart, pauseFrom := some (nowTick s), gap := .notAwaited } }

/-- The ids 1..14 after a position, ascending and wrapping from 14 to 1 (R114). -/
def probeOrder (p : StationId) : List StationId := (idsAfter p).filter fun i => decide (i ≠ 0) && decide (i ≠ 15)

/-- The station to probe (R114). -/
def probeTarget (s : State) : Option StationId := (probeOrder s.tc.probePos).find? fun i => !member i s.tc.roster

/-- The probe of the cycle, or the pause when there is no station to probe (R113, R114). -/
def probeOrPause (s : State) : State :=
  match probeTarget s with
  | some st => sendPoll { s with tc := { s.tc with probePos := st, next := .pause } } .probing st 0
  | none => startPause s

/-- The poll position moves to the next entry (R113). -/
def advancePoll (s : State) : State :=
  { s with tc := { s.tc with
    pollPos := s.tc.pollPos.bind fun i => if i + 1 < s.tc.pollList.length then some (i + 1) else none } }

/-- The station at the poll position. -/
def pollTarget (s : State) : Option StationId := s.tc.pollPos.bind fun i => s.tc.pollList[i]?

/-- The miss count of a station set (R116). -/
def setMiss (s : State) (st : StationId) (n : Nat) : State :=
  { s with tc := { s.tc with misses := s.tc.misses.set st.val n st.isLt } }

/-- The miss count of a station (R116). -/
def missOf (s : State) (st : StationId) : Nat := s.tc.misses.get st

/-- R112, step 1, for one station; the event carries the cycle number of step 4. -/
def removeStation (s : State) (st : StationId) : State :=
  let t := setMiss { s with tc := { s.tc with roster := dropStation st s.tc.roster } } st 0
  post t (mkEvent .stationLost 15 st (t.tc.cycle + 1) t.params.missLimit)

/-- R112, step 2, for one station. -/
def joinStation (s : State) (st : StationId) : State :=
  let t := setMiss { s with tc := { s.tc with roster := addStation st s.tc.roster } } st 0
  post t (mkEvent .stationJoined 15 st (t.tc.cycle + 1) 0)

/-- R112, steps 1 to 3. -/
def applyRosterChanges (s : State) : State :=
  let t := (members s.tc.additions).foldl joinStation ((members s.tc.removals).foldl removeStation s)
  let u := { t with tc := { t.tc with removals := 0#16, additions := 0#16 } }
  if u.tc.roster = s.tc.roster then u else rosterChanged u

/-- R112, step 5: the poll list. -/
def fixPollList (s : State) : State :=
  let l := (members s.tc.roster).filter fun i => decide (i ≠ 0)
  { s with tc := { s.tc with pollList := l, pollPos := if l.isEmpty then none else some 0 } }

/-- A cycle starts (R112). -/
def cycleStart (s : State) : State :=
  let t := applyRosterChanges s
  let u := fixPollList { t with tc := { t.tc with cycle := t.tc.cycle + 1, next := .poll, pauseFrom := none } }
  openTurn (awaitGap u .ownTurn) .own u.params.budget u.tc.cycle

/-- The master's next step, taken whenever a step or its silence wait ends: the break when it is due, else the step that
follows (R113, R117). -/
def masterNext (s : State) : State :=
  if s.tc.breakDue then awaitGap s .breaking
  else
    match s.tc.next with
    | .cycleStart => cycleStart s
    | .poll =>
      match pollTarget s with
      | some st => sendPoll s .polling st s.params.budget
      | none => probeOrPause s
    | .pause => startPause s

/-- The watch starts at the last stop bit of a POLL (R115). -/
def startWatch (s : State) (st : StationId) (budget : Nat) : State :=
  let w : Watch :=
    { station := st, probe := decide (s.tc.phase = .probing), budget := budget, reply := some (nowTick s),
      silence := none, frames := 0 }
  { s with tc := { s.tc with watch := some w } }

/-- R116: the outcome of a polled station's turn. -/
def scorePoll (s : State) (st : StationId) (success : Bool) : State :=
  if success then setMiss s st 0
  else
    let n := missOf s st + 1
    let t := setMiss s st n
    if s.params.missLimit ≤ n then { t with tc := { t.tc with removals := addStation st t.tc.removals } } else t

/-- The watched turn ends (R115, R116): the outcome is scored and the master goes on. -/
def endWatch (s : State) (w : Watch) (success : Bool) : State :=
  let t := { s with tc := { s.tc with watch := none } }
  masterNext (if w.probe then
      (if success then { t with tc := { t.tc with additions := addStation w.station t.tc.additions } } else t)
    else advancePoll (scorePoll t w.station success))

/-- One more frame end reported in a watched turn (R115, R138). -/
def countFrame (s : State) : State :=
  if isRunning s then
    { s with tc := { s.tc with watch := s.tc.watch.map fun w => { w with frames := w.frames + 1 } } }
  else s

/-- The end of a watched turn by a good YIELD (R115): from the station addressed, with this cycle number. -/
def yieldEndsWatch (s : State) (source : StationId) (cycle : Byte) : Option Watch :=
  s.tc.watch.filter fun w => decide (w.station = source) && decide (cycle = s.tc.cycle)

/-- After its own collision the master waits for silence, and a break is due (R117, R118). -/
def enterSilenceWait (s : State) : State :=
  { s with tc := { s.tc with
    phase := .silenceWait, silenceFrom := some (nowTick s), breakDue := true, gap := .notAwaited, watch := none } }

/-- A collision at the master, by the step that collided (R118). -/
def masterCollision (s : State) : State :=
  match s.tc.phase with
  | .ownTurn => enterSilenceWait (abortTurn s)
  | .polling => enterSilenceWait (advancePoll (emptyBuffers s))
  | _ => enterSilenceWait (emptyBuffers s)

/-! ## Characters and frames as the turn controller hears them (R113, R115, R118, R125, R138) -/

/-- The later of the last stop bits sent and received moves on; a gap the master awaits is counted from it (R113). -/
def lineHeard (s : State) (endTick : Nat) : State :=
  { s with tc := { s.tc with
    lineLast := endTick
    gap := if isMaster s ∧ s.tc.gap ≠ .notAwaited then .counting endTick else s.tc.gap } }

/-- A received character at the watch and the silence wait (R115, R118). -/
def watchHears (s : State) : State :=
  { s with tc := { s.tc with
    watch := s.tc.watch.map fun w => { w with reply := none, silence := some (nowTick s) }
    silenceFrom := s.tc.silenceFrom.map fun _ => nowTick s } }

/-- A character is received (R113, R115, R118, R149): its end moment and its moment of receipt. -/
def turnHears (s : State) (endTick : Nat) : State :=
  if isRunning s then watchHears (lineHeard s endTick) else lineHeard s endTick

/-- A lead character is reported (R125, R138). -/
def leadReported (s : State) : State := if isRunning s then restartLost s else s

end Sys2Proof.Machine
end

