-- ==== Sys2Proof/Machine/Receive.lean ====
section
/-! DEFINITION. The receive side of the frame unit (spec 07, 7.3): characters into frames, truncation, muting, checks
and hand-on; and the hand-on of a good frame by kind (R139). -/

namespace Sys2Proof.Machine

/-! ## The hand-on of a good frame (R138, R139) -/

/-- The turn controller's part of a good YIELD (R110, R115, R139): the end of a watched turn, a counted frame, or a
master YIELD at a member. -/
def turnTakesYield (s : State) (source : StationId) (y : YieldFrame) : State :=
  if isMaster s then
    match yieldEndsWatch s source y.cycle with
    | some w => endWatch s w true
    | none => countFrame s
  else
    match y.roster with
    | some roster => if source = 0 then takeMasterYield s roster y.cycle else s
    | none => s

/-- A good YIELD, taken apart in the order of R139, the turn controller's part a moment of its own for the dirty marks (R180;
log 16); a chunk withdrawn on the way (R101) is followed by the next choice (R141). -/
def takeYield (s : State) (source : StationId) (y : YieldFrame) : State :=
  let t := markChanges s (turnTakesYield s source y)
  pump (takeSummariesOf (processAcks t source y.acks) source y.summaries)

/-- A good POLL at its destination: at a member from station 0 by R121, at the master ignored (R139). -/
def handPoll (s : State) (source : StationId) (cycle budget : Byte) : State :=
  let t := countFrame s
  if isMaster t then t else if source = 0 then takePoll t cycle budget else t

/-- A good frame's end: reported and handed on by kind while RUNNING (R138, R139); in CONFIGURED it goes to no block. -/
def handOn (s : State) (source : StationId) (f : Frame) : State :=
  if isRunning s then
    let t := restartLost s
    match f with
    | .poll _ cycle budget => handPoll t source cycle budget
    | .data d => inboundData (countFrame t) source d
    | .chunk c => inboundChunk (countFrame t) source c
    | .yield y => takeYield t source y
  else s

/-! ## The receiver (R134 to R138) -/

/-- The details of FRAME_ERROR (R136, R138, R192). -/
inductive FrameFault where
  | lead
  | gap
  | parity
  | framing
  | length
  | kind
  | content
  deriving DecidableEq, Repr

/-- The detail code of a frame fault (R192). -/
def FrameFault.code : FrameFault → Nat
  | .lead => 1
  | .gap => 2
  | .parity => 3
  | .framing => 4
  | .length => 5
  | .kind => 6
  | .content => 7

/-- The receiver enters a state (R134). -/
def setRx (s : State) (x : FrameRx) : State := { s with fu := { s.fu with rx := x } }

/-- R138: the region field: for DATA and CHUNK the region byte if received, otherwise 15. -/
def bufferRegion (buffer : List Byte) : RegionId :=
  match buffer with
  | c0 :: _ :: n :: r :: _ =>
    if (kindOf c0 = 2 ∨ kindOf c0 = 3) ∧ n ≠ 0 then (regionByte r).getD 15 else 15
  | _ => 15

/-- R138: the station field: the source if character 1 was received, otherwise 15. -/
def bufferStation (buffer : List Byte) : StationId :=
  match buffer with
  | _ :: c1 :: _ => sourceOf c1
  | _ => 15

/-- R138: the kind code of character 0. -/
def bufferKind (buffer : List Byte) : Nat :=
  match buffer with
  | c0 :: _ => kindOf c0
  | [] => 0

/-- R138: the payload length of a buffer. -/
def bufferLength (buffer : List Byte) : Nat := (buffer.getD 2 0#8).toNat

/-- FRAME_ERROR of a frame whose characters are in the buffer (R138). -/
def frameErrorEvent (buffer : List Byte) (x : FrameFault) : Event :=
  mkEvent .frameError (bufferRegion buffer) (bufferStation buffer) (byteOf (bufferKind buffer)) x.code

/-- CRC_ERROR of a frame whose characters are in the buffer (R138). -/
def crcErrorEvent (buffer : List Byte) : Event :=
  mkEvent .crcError (bufferRegion buffer) (bufferStation buffer) (byteOf (bufferKind buffer)) (bufferLength buffer)

/-- The frame in reception ends without being good: IDLE, and its end reported (R136, R138). -/
def endFrame (s : State) : State := countFrame (setRx s .idle)

/-- A frame in RECEIVING ends with FRAME_ERROR (R136, R137). -/
def failFrame (s : State) (buffer : List Byte) (x : FrameFault) : State :=
  postRunning (endFrame s) (frameErrorEvent buffer x)

/-- Truncation of the frame in reception by LEAD, GAP or PARITY (R136): FRAME_ERROR in RECEIVING, no event in COUNTING,
nothing in IDLE. -/
def truncate (s : State) (x : FrameFault) : State :=
  match s.fu.rx with
  | .idle => s
  | .receiving buffer _ => failFrame s buffer x
  | .counting _ _ => endFrame s

/-- Truncation by a framing error (R136): the event is held back until the line returns to 1. -/
def truncateFraming (s : State) : State :=
  match s.fu.rx with
  | .idle => s
  | .receiving buffer _ =>
    let t := endFrame s
    { t with fu := { t.fu with heldFraming := some (frameErrorEvent buffer .framing) } }
  | .counting _ _ => endFrame s

/-- A line reset ends any frame in reception with no event (R136, R153). -/
def resetFrame (s : State) : State :=
  let t := match s.fu.rx with
    | .idle => s
    | .receiving _ _ => endFrame s
    | .counting _ _ => endFrame s
  dropHeldFraming t

/-- A new frame begins with its lead character (R135). -/
def beginReception (s : State) (c0 : Byte) : State :=
  if destinationOf c0 ≠ s.straps.stn ∧ destinationOf c0 ≠ 15 then endFrame s
  else if 1 ≤ kindOf c0 ∧ kindOf c0 ≤ 4 then setRx s (.receiving [c0] (crcByte 0xFFFF#16 c0))
  else failFrame s [c0] .kind

/-- The whole-frame check at character n + 4 (R137), and the hand-on of a good frame (R139; log 4). -/
def finishFrame (s : State) (chars : List Byte) (crc : BitVec 16) : State :=
  match checkFrame chars crc with
  | .good source f => handOn (setRx s .idle) source f
  | .crcFault => postRunning (endFrame s) (crcErrorEvent chars)
  | .contentFault => failFrame s chars .content

/-- A DATA or CHUNK frame whose region byte has just arrived names a region not subscribed here (R135). -/
def mutedRegion (s : State) (chars : List Byte) : Bool :=
  match chars with
  | [c0, _, n, r] =>
    (decide (kindOf c0 = 2) || decide (kindOf c0 = 3)) && decide (n ≠ 0) &&
      ((regionByte r).all fun r => (subAt s r).isNone)
  | _ => false

/-- A character taken into the buffer in RECEIVING (R134, R135, R137). -/
def takeCharacter (s : State) (buffer : List Byte) (crc : BitVec 16) (b : Byte) : State :=
  let chars := buffer ++ [b]
  let k := chars.length
  if k ≤ 2 then setRx s (.receiving chars (crcByte crc b))
  else
    let n := bufferLength chars
    if Config.payloadLimit < n then failFrame s chars .length
    else if mutedRegion s chars then
      setRx s (.counting k n)
    else
      let crc' := if k ≤ n + 3 then crcByte crc b else crc
      if k = n + 5 then finishFrame s chars crc' else setRx s (.receiving chars crc')

/-- A character with lead bit 0 (R134). -/
def followCharacter (s : State) (b : Byte) : State :=
  match s.fu.rx with
  | .idle => s
  | .receiving buffer crc => takeCharacter s buffer crc b
  | .counting count n => if count + 1 = n + 5 then endFrame s else setRx s (.counting (count + 1) n)

/-- A character delivered to the frame unit (R134 to R136). A character with an error flag ends the frame and is no lead
character (log 12). A lead character ends the frame before it begins the next, so that FRAME_ERROR LEAD comes before the new
frame's own (R136; log 9). -/
def deliverCharacter (s : State) (c : VotedChar) : State :=
  if c.framingError then truncateFraming s
  else if c.parityError then truncate s .parity
  else if c.lead then beginReception (truncate (leadReported s) .lead) c.byte
  else followCharacter s c.byte

/-- A frame is in reception, so the gap between its characters is measured (R136). -/
def inReception (s : State) : Bool :=
  match s.fu.rx with
  | .idle => false
  | .receiving _ _ => true
  | .counting _ _ => true

end Sys2Proof.Machine
end

