-- ==== Sys2Proof/Machine/Agent.lean ====
section
/-! DEFINITION. The control block agent (spec 10): LOAD and its checks, START, STOP, the commands and their results, the
observed host writes, and the agent's accesses and their grants. -/

namespace Sys2Proof.Machine

/-! ## LOAD (R175 to R177) -/

/-- Status and event writes that have only been requested stop at the entry to LOADING; the second and third writes of
an event go on (R175; log 15). -/
def withdrawForLoad (a : Option AgentRequest) : Option AgentRequest :=
  match a with
  | some .eventSecond => some .eventSecond
  | some .eventThird => some .eventThird
  | _ => none

/-- The entry to LOADING (R147, R144, R154, R175). -/
def enterLoading (s : State) : State :=
  { s with
    top := .loading
    line := { s.line with
      rx := .off, tx := .off, gapFrom := none, sampling := s.line.sampling.restart, fault := none }
    fu := FrameUnit.reset
    path := { s.path with agent := withdrawForLoad s.path.agent }
    agent := { s.agent with loadWords := [] } }

/-- R9: a publisher region record after LOAD. -/
def loadedPub (d : Descriptor) : PubRecord :=
  { state := .off, generation := 0, nextSeq := 0, lastReleased := 255, openBatch := none, retained := [],
    closePending := false, acks := (members d.subscribers).map fun st => (st, .unknown), pass := none,
    pendingTargets := 0#16, endGuard := false, quiet := none, epoch := 0 }

/-- R1, R9, R15: a region after a successful LOAD. A descriptor of role OFF makes no region. -/
def loadedRegion (d : Descriptor) : Region :=
  { desc := d
    record := match d.role with
      | .off => .off
      | .publish => .published (loadedPub d)
      | .subscribe => .subscribed SubRecord.loaded }

/-- R1, R177: the region table replaced from the words read. -/
def loadTable (s : State) : State :=
  allIds.foldl (fun t r => setRegion t r (loadedRegion (descriptorOf s.agent.loadWords r.val))) s

/-- The turn controller's LOAD values (R109, R110, R111, R120, R125). The last stop bit heard is no part of them. -/
def loadedTurns (s : State) : Turns := { Turns.reset with lineLast := s.tc.lineLast }

/-- A LOAD that succeeds (R177). The model's choices: the tick divider goes on from its phase under the former format
(log 28), and ATTN keeps its value until the first index write is granted (log 29). -/
def loadSucceeds (s : State) : State :=
  let t := loadTable s
  reachResult
    { t with
      top := .configured
      line := { t.line with
        format := some (formatOf s.agent.loadWords), rx := .arming, tx := .idle, txSince := nowTick s, noisy := false,
        clean := 0, gapFrom := none, sampling := t.line.sampling.restart, fault := none }
      params := paramsOf s.agent.loadWords
      cap := { t.cap with sendQueue := [], claim := none, held := none }
      del := { Delivery.reset with passSerial := t.del.passSerial }
      inb := Inbound.reset
      fu := FrameUnit.reset
      tc := loadedTurns t
      agent := { t.agent with
        producer := 0, consumer := 0, copy := 0, lost := 0, loadError := .none, errorIndex := 0,
        marks := BitVec.allOnes 38 } } .done

/-- A LOAD that fails (R1, R145, R177; log 21). -/
def loadFails (s : State) (e : LoadError) (i : Fin 16) : State :=
  reachResult
    { s with
      top := .unconfigured
      regions := Vector.replicate 16 Region.reset
      line := { s.line with
        format := none, rx := .off, tx := .off, sampling := s.line.sampling.restart, fault := none }
      params := TurnParams.reset
      agent := { s.agent with loadError := e, errorIndex := i } } .loadError

/-- The checks after the last LOAD read (R176). -/
def loadCheck (s : State) : State :=
  match checkConfig s.straps.stn s.straps.cba s.agent.loadWords with
  | none => loadSucceeds s
  | some (e, i) => loadFails s e i

/-! ## START (R178) -/

/-- R10 on the record. -/
def startPub (master : Bool) (p : PubRecord) : PubRecord :=
  { p with state := if master then .live else .suspended, generation := p.generation + 1 }

/-- R15: START on a subscriber record. -/
def startSub (q : SubRecord) : SubRecord := { q with state := .unsynced }

/-- The master's turn controller at START (R109, R111, R117): phase BREAK, and the break is due. -/
def startMaster (s : State) : State :=
  awaitGap { s with tc := { s.tc with
    roster := only 0, cycle := 255, pollList := [], pollPos := none, probePos := 14, misses := Vector.replicate 16 0,
    removals := 0#16, additions := 0#16, breakDue := true, next := .cycleStart, watch := none, pauseFrom := none,
    silenceFrom := none } } .breaking

/-- A member's turn controller at START (R110, R120, R125). -/
def startMember (s : State) : State :=
  { s with tc := { s.tc with
    roster := 0#16, member := .listening, probeReply := false, lastCycle := 0, lost := .running (nowUs s),
    gap := .notAwaited } }

/-- The regions at START: RUNNING, the published regions by R10, the subscribed ones UNSYNCED (R15, R178). -/
def startRegions (s : State) : State :=
  updAllSubs (updAllPubs { s with top := .running } (startPub (isMaster s))) startSub

/-- The delivery controller and the noise state at START (R48, R60, R65, R150). -/
def startBlocks (s : State) : State :=
  { s with
    del := { s.del with ownTurn := 0, roundRobin := 15, turnList := [], kept := none, turn := none }
    line := { s.line with noisy := false, clean := 0 } }

/-- START is taken in CONFIGURED (R178). -/
def startPart (s : State) : State :=
  let t := startBlocks (startRegions s)
  if isMaster s then startMaster t else startMember t

/-! ## STOP (R179) -/

/-- R14 and R90: a publisher record at STOP. The generation keeps its value. -/
def stopPub (p : PubRecord) : PubRecord :=
  { p with
    state := .off, nextSeq := 0, lastReleased := 255, openBatch := none, retained := [], closePending := false,
    acks := forgetAcks p.acks, pass := none, pendingTargets := 0#16, endGuard := false, quiet := none }

/-- R22: a subscriber record at STOP. -/
def stopSub (_ : SubRecord) : SubRecord := SubRecord.loaded

/-- A capture-held write passes uncaptured at STOP (R14, R45). -/
def releaseHeldIfAny (s : State) : State := if s.cap.held.isSome then releaseHeld s else s

/-- The line at STOP (R158): the transmission is cut off, and an ECHO period ends in ARMING. -/
def stopLine (s : State) : State :=
  let c := cutShort s
  let t := if c.line.tx = .off then c else setTx c .idle
  if t.line.rx = .echo then setLineRx t .arming else t

/-- The turn controller at STOP (R111, R125, R126): the cycle number, the probe position and the last cycle number
stand. -/
def stopTurns (s : State) : State :=
  { s with tc := { s.tc with
    roster := 0#16, phase := .detached, pollList := [], pollPos := none, misses := Vector.replicate 16 0,
    removals := 0#16, additions := 0#16, breakDue := false, next := .cycleStart, watch := none, pauseFrom := none,
    silenceFrom := none, member := .detached, probeReply := false, lost := .stopped, gap := .notAwaited } }

/-- The regions at STOP (R14, R22, R179): the part is CONFIGURED, a held write passes, and the records take their STOP
values. -/
def stopRegions (s : State) : State :=
  updAllSubs (updAllPubs (releaseHeldIfAny { s with top := .configured }) stopPub) stopSub

/-- The lists at STOP (R46, R65, R87): the send queue, the claim and the turn go, and of the slots the one in progress
stays. -/
def stopLists (s : State) : State :=
  { s with
    cap := { sendQueue := [], claim := none, held := none }
    inb := { s.inb with slots := s.inb.slots.filter fun x => x.inProgress }
    del := { s.del with turnList := [], kept := none, turn := none } }

/-- STOP has the roster set and pool level words written, whatever they reported before (R47, R126). -/
def stopMarks (s : State) : State :=
  { s with agent := { s.agent with marks := s.agent.marks ||| markBit markRoster ||| markBit markPool } }

/-- STOP is taken in RUNNING (R179). DONE waits for an apply in progress (R87). -/
def stopPart (s : State) : State :=
  let t := stopMarks (stopLists (stopTurns (stopLine (emptyBuffers (stopRegions s)))))
  if t.inb.engine.isSome then t else reachResult t .done

/-! ## Commands (R173, R174) -/

/-- The region a region argument names; above 15 it names none (R174). -/
def argRegion (b : Byte) : Option RegionId := regionByte b

/-- FLUSH in RUNNING (R38). -/
def flushRegion (s : State) (arg : Byte) : State :=
  match (argRegion arg).bind fun r => (pubAt s r).map fun p => (r, p) with
  | some (r, p) => if p.state = .live then reachResult (dueClose s r) .done else reachResult s .badState
  | none => reachResult s .badArg

/-- RESYNC in RUNNING (R21, R174). -/
def resyncRegion (s : State) (arg : Byte) : State :=
  match (argRegion arg).bind fun r => (subAt s r).map fun _ => r with
  | some r => reachResult (unsync s r .resync) .done
  | none => reachResult s .badArg

/-- A LOAD taken: in UNCONFIGURED and CONFIGURED it runs (R174). -/
def takeLoad (s : State) : State :=
  match s.top with
  | .unconfigured => enterLoading s
  | .configured => enterLoading s
  | .running => reachResult s .badState
  | .loading => reachResult s .badState
  | .inReset => s

/-- The outcome of a command that is taken, by the table of R174. -/
def decideCommand (s : State) (code arg : Byte) : State :=
  if code = 1 then takeLoad s
  else if code = 2 then (if s.top = .configured then reachResult (startPart s) .done else reachResult s .badState)
  else if code = 3 then (if s.top = .running then stopPart s else reachResult s .badState)
  else if code = 4 then (if s.top = .running then flushRegion s arg else reachResult s .badState)
  else if code = 5 then (if s.top = .running then resyncRegion s arg else reachResult s .badState)
  else reachResult s .badCommand

/-- CMD_BUSY (R173). -/
def cmdBusy (w : Word) : Event :=
  mkEvent .cmdBusy ((argRegion (commandRegion w)).getD 15) 15 (commandCode w) (commandTag w).toNat

/-- A four-lane write to the command word at its grant: taken, or refused while a command executes (R173). -/
def observeCommand (s : State) (w : Word) : State :=
  if s.agent.executing.isSome then post s (cmdBusy w)
  else decideCommand (beginCommand s (commandCode w) (commandTag w)) (commandCode w) (commandRegion w)

/-- ATTN follows the comparison of the producer index last written with the consumer index (R185). -/
def updateAttn (s : State) : State :=
  { s with agent := { s.agent with attn := decide (s.agent.written ≠ s.agent.consumer) } }

/-- A first event write that is requested waits no longer where the ring has no room left for it: the event stays in the
pending list (R184; log 33). -/
def withdrawEvent (s : State) : State :=
  if s.path.agent = some .eventFirst ∧ Config.ringRoom ≤ unconsumed s then
    { s with path := { s.path with agent := none } }
  else s

/-- A host write to the consumer index at its grant (R184, R185). -/
def observeConsumer (s : State) (l : Lanes) (d : Word) : State :=
  let copy := mergeLanes l s.agent.copy d
  withdrawEvent (updateAttn { s with agent := { s.agent with
    copy := copy
    consumer := if copy.toNat < 32 then copy.extractLsb' 0 5 else s.agent.consumer } })

/-- What the agent observes of a granted host access (R164, R173, R185). While RESET_N is asserted it observes
nothing. -/
def observe (s : State) (a : Access) : State :=
  if s.top = .inReset ∨ !a.write then s
  else
    match matchAddress s a.addr with
    | .block i =>
      if i = commandIndex ∧ a.lanes = 15#4 then observeCommand s a.data
      else if i = consumerIndex then observeConsumer s a.lanes a.data
      else s
    | _ => s

/-! ## The agent's accesses (R181, R184) -/

/-- LOAD reads remain to be requested while LOADING (R175). -/
def wantsLoadRead (s : State) : Bool :=
  decide (s.top = .loading) && decide (s.agent.loadWords.length < Config.loadWords)

/-- Row 2 of R181: the second or third write of the event in progress. -/
def eventContinues (a : Agent) : Option AgentRequest :=
  a.writing.map fun w => if w.third then .eventThird else .eventSecond

/-- Row 3 of R181: the marked word of lowest offset among those marked when the command reached its result. -/
def priorWord (a : Agent) : Option AgentRequest :=
  ((a.executing.bind Executing.prior).bind lowestMark).map .statusWord

/-- Row 4 of R181: the result of the executing command. -/
def resultDue (a : Agent) : Option AgentRequest := (a.executing.bind Executing.result).map fun _ => .result

/-- Row 5 of R181: a pending event, with room in the ring, in CONFIGURED or RUNNING (R184). -/
def eventDue (s : State) : Option AgentRequest :=
  if (s.top = .configured ∨ s.top = .running) ∧ s.agent.events ≠ [] ∧ unconsumed s < Config.ringRoom then
    some .eventFirst
  else none

/-- Row 6 of R181: the marked status word of lowest offset. -/
def statusDue (a : Agent) : Option AgentRequest := (lowestMark a.marks).map .statusWord

/-- The agent's next access, by the first row of R181 that applies. While LOADING only rows 1 and 2 do (R175, R180). -/
def chooseAccess (s : State) : Option AgentRequest :=
  if s.top = .inReset then none
  else if s.top = .loading then
    eventContinues s.agent <|> (if wantsLoadRead s then some .loadRead else none)
  else eventContinues s.agent <|> priorWord s.agent <|> resultDue s.agent <|> eventDue s <|> statusDue s.agent

/-- A whole-word write of the agent to word `index` of the control block (R186). -/
def agentWrite (s : State) (index : Nat) (w : Word) : Access :=
  { addr := BitVec.ofNat 24 (blockAddress s index), write := true, lanes := 15#4, data := w }

/-- The event that the next event write concerns. -/
def oldestEvent (a : Agent) : Option Event := a.events.head?

/-- The access of an AGENT request, with the value it has at its grant (R175, R180, R184). -/
def agentAccess (s : State) (q : AgentRequest) : Access :=
  match q with
  | .loadRead =>
    { addr := BitVec.ofNat 24 (blockAddress s s.agent.loadWords.length), write := false, lanes := 15#4, data := 0#32 }
  | .eventFirst =>
    agentWrite s (ringIndex + 2 * s.agent.producer.toNat) ((oldestEvent s.agent).elim 0#32 eventWord0)
  | .eventSecond =>
    agentWrite s (ringIndex + 2 * (s.agent.writing.elim 0 fun w => w.entry.toNat) + 1)
      (s.agent.writing.elim 0#32 fun w => eventWord1 w.event)
  | .eventThird =>
    agentWrite s (consumerIndex + 1) (s.agent.writing.elim 0#32 fun w => (w.entry + 1).zeroExtend 32)
  | .statusWord m => agentWrite s (consumerIndex + m.val) (statusValue s m)
  | .result =>
    agentWrite s resultIndex
      (s.agent.executing.elim 0#32 fun x => x.result.elim 0#32 fun r => resultWord x r)

/-- The producer index is written to memory: it is what ATTN compares (R185). -/
def producerWritten (s : State) (p : BitVec 5) : State :=
  updateAttn { s with agent := { s.agent with written := p } }

/-- The grant of an event's first write: the event leaves the pending list and the producer index moves on (R183, R184).
The request stands only while the ring has room (`withdrawEvent`). -/
def grantEventFirst (s : State) : State :=
  match s.agent.events with
  | e :: rest =>
    { s with agent := { s.agent with
      events := rest
      producer := s.agent.producer + 1
      writing := some { entry := s.agent.producer, event := e, third := false } } }
  | [] => s

/-- The grant of an event's third write: the entry is visible (R184), and the producer index word's mark clears. -/
def grantEventThird (s : State) : State :=
  match s.agent.writing with
  | some w => clearMark (producerWritten { s with agent := { s.agent with writing := none } } (w.entry + 1)) markProducer
  | none => s

/-- One more word of a LOAD (R175). -/
def joinLoadWord (s : State) (word : Word) : State :=
  { s with agent := { s.agent with loadWords := s.agent.loadWords ++ [word] } }

/-- The effect of an AGENT grant on the agent (R175, R180, R183, R184). `word` is the word a read returns. -/
def grantAgent (s : State) (q : AgentRequest) (word : Word) : State :=
  match q with
  | .loadRead =>
    let t := joinLoadWord s word
    if t.agent.loadWords.length < Config.loadWords then t else loadCheck t
  | .eventFirst => grantEventFirst s
  | .eventSecond =>
    { s with agent := { s.agent with writing := s.agent.writing.map fun w => { w with third := true } } }
  | .eventThird => grantEventThird s
  | .statusWord m =>
    let t := clearMark s m
    if m = markProducer then producerWritten t t.agent.producer else t
  | .result => { s with agent := { s.agent with executing := none } }

end Sys2Proof.Machine
end

