-- ==== Sys2Proof/Machine/Arbiter.lean ====
section
/-! DEFINITION. The memory path and the arbiter (spec 09): the treatment of a presented access, the grant by R169's
table, and how every step ends. -/

namespace Sys2Proof.Machine

/-! ## Presentation (R162, R163, R166) -/

/-- The host access enters the part in a condition (R160). -/
def enterPart (s : State) (a : Access) (c : HostCondition) : State :=
  { s with path := { s.path with host := some { access := a, condition := c, result := 0#32 } } }

/-- PASS: the access awaits grant (R162). -/
def passAccess (s : State) (a : Access) : State := enterPart s a .awaitingGrant

/-- DROP: the write completes at its presentation and one event is posted (R163). -/
def dropWrite (s : State) (a : Access) (e : Event) : State :=
  post { s with path := { s.path with reply := some { access := a, data := 0#32 } } } e

/-- CB_GUARD (R163). -/
def cbGuard (index : Nat) (a : Access) : Event := mkEvent .cbGuard 15 15 (byteOf index) a.lanes.toNat

/-- GUARD_DROP (R163). -/
def guardDrop (s : State) (r : RegionId) (offset : Nat) (a : Access) : Event :=
  mkEvent .guardDrop r (descAt s r).publisher (byteOf offset) a.lanes.toNat

/-- CAPTURE: a write to a published region in RUNNING (R28, R29, R166). -/
def presentCapture (s : State) (a : Access) (r : RegionId) (offset : Nat) : State :=
  if isLive s r then
    decideWrite (passAccess s a)
      { region := r, offset := byteOf offset, lanes := a.lanes, data := onLanes a.lanes a.data, reason := .pool,
        since := nowUs s }
  else passAccess s a

/-- FENCE CHECK (R84, R162). -/
def presentFenced (s : State) (a : Access) (r : RegionId) : State :=
  if s.inb.fence = some r then enterPart s a .fenceHeld else passAccess s a

/-- An access to a region in RUNNING (R162). -/
def presentRegion (s : State) (a : Access) (r : RegionId) (offset : Nat) : State :=
  match (descAt s r).role with
  | .publish => if a.write then presentCapture s a r offset else passAccess s a
  | .subscribe =>
    if a.write ∧ (descAt s r).guard = .guarded then dropWrite s a (guardDrop s r offset a) else presentFenced s a r
  | .off => passAccess s a

/-- An access to the control block in CONFIGURED or RUNNING (R162, R163). -/
def presentBlock (s : State) (a : Access) (index : Nat) : State :=
  if a.write ∧ !hostOwned index then dropWrite s a (cbGuard index a) else passAccess s a

/-- The treatment of a presented access by top-level state and hit (R162, R171). -/
def present (s : State) (a : Access) : State :=
  match s.top, matchAddress s a.addr with
  | .configured, .block i => presentBlock s a i
  | .running, .block i => presentBlock s a i
  | .running, .region r o => presentRegion s a r o
  | _, _ => passAccess s a

/-! ## Grants (R161, R169) -/

/-- The port taken by a request (R169). While RESET_N is asserted the last grant stays NONE (R168, R171). -/
def takePort (s : State) (q : Requester) (a : Access) (last : LastGrant) : State :=
  { s with
    mem := accessMemory s.mem a
    path := { s.path with port := .busy q a, last := if s.top = .inReset then .none else last } }

/-- R79: the APPLY request kept back for a host access arrives at the arbiter at that access's grant. -/
def releaseApply (s : State) : State :=
  if s.path.apply = .keptBack then { s with path := { s.path with apply := .waiting } } else s

/-- The claim's part of a HOST grant (R33). -/
def grantClaim (s : State) (a : Access) : State :=
  match s.cap.claim with
  | some c => grantCaptured s c a
  | none => s

/-- The host access is GRANTED, with the data that a read returns fixed (R160, R161). -/
def hostGranted (s : State) (h : HostAccess) : State :=
  { s with path := { s.path with host := some { h with condition := .granted, result := accessResult s.mem h.access } } }

/-- The grant of the host access (R161): memory, the claim's join, and what the agent observes. -/
def grantHost (s : State) (h : HostAccess) : State :=
  observe (grantClaim (releaseApply (takePort (hostGranted s h) .host h.access .host)) h.access) h.access

/-- The grant of an APPLY write (R80, R81). -/
def grantApplyPort (s : State) : State :=
  let t := takePort s .apply (applyAccess s) .internal
  grantApply { t with path := { t.path with apply := .none } }

/-- The grant of a SNAP read (R96), and the choices that a completed chunk allows (R140). -/
def grantSnapPort (s : State) : State :=
  let a := snapAccess s
  let t := takePort s .snap a .internal
  pump (grantSnap { t with path := { t.path with snap := false } } (readWord s.mem (wordAddress a.addr)))

/-- The grant of an AGENT access (R175, R180, R184). -/
def grantAgentPort (s : State) (q : AgentRequest) : State :=
  let a := agentAccess s q
  let t := takePort s .agent a .internal
  grantAgent { t with path := { t.path with agent := none } } q (readWord s.mem (wordAddress a.addr))

/-- An internal grant, in the order APPLY, SNAP, AGENT (R169). -/
def grantInternal (s : State) : Option State :=
  if s.path.apply = .waiting then some (grantApplyPort s)
  else if s.path.snap then some (grantSnapPort s)
  else s.path.agent.map (grantAgentPort s)

/-- The host access that awaits grant (R160). -/
def waitingHost (s : State) : Option HostAccess :=
  s.path.host.filter fun h => decide (h.condition = .awaitingGrant)

/-- R169: the grant that the first applying row gives, when a request waits. -/
def grantNext (s : State) : Option State :=
  match waitingHost s with
  | some h =>
    if s.path.last ≠ .host then some (grantHost s h)
    else (grantInternal s) <|> some (grantHost s h)
  | none => grantInternal s

/-- The arbiter: a FREE port takes one waiting request (R169). -/
def arbitrate (s : State) : State :=
  match s.path.port with
  | .free => (grantNext s).getD s
  | .busy _ _ => s

/-! ## The end of a step -/

/-- How a step from `s` ends: the requests that arrived in it are decided together (R169), the marks are set (R180),
and the marks before a result are fixed (R181). -/
def settle (s t : State) : State := fixPrior (markStep s t (arbitrate t))

/-- The outcome of a command that goes on. -/
def done (s t : State) : Host.Outcome State Fault Refusal := .next (settle s t)

/-- The outcome of an event whose condition may not hold: it happens only when it does (log 1). -/
def when (s : State) (enabled : Bool) (t : State) : Host.Outcome State Fault Refusal :=
  done s (if enabled then t else s)

end Sys2Proof.Machine
end

