-- ==== Sys2Proof/Machine/MemoryPort.lean ====
section
/-! DEFINITION. The memory port and the part's own requesters: MEMORY_ACCESS_COMPLETE (R161, R168), APPLY_START (R79) and
AGENT_ACCESS_REQUEST (R181). -/

namespace Sys2Proof.Machine

/-- The port is BUSY (R168). -/
def portBusy (s : State) : Bool :=
  match s.path.port with
  | .free => false
  | .busy _ _ => true

/-- The completion returned to the host for its GRANTED access: a read with the data fixed at its grant (R160, R161). -/
def completeHost (s : State) : State :=
  match s.path.host.filter fun h => decide (h.condition = .granted) with
  | some h => { s with path := { s.path with host := none, reply := some { access := h.access, data := h.result } } }
  | none => s

/-- The memory completes the access on the port (R161, R168). An internal access's data was taken at its grant. -/
def completeAccess (s : State) : State :=
  match s.path.port with
  | .free => s
  | .busy q _ =>
    let t := { s with path := { s.path with port := .free } }
    if q = .host then completeHost t else t

/-- MEMORY_ACCESS_COMPLETE (R168): the waiting requests are decided at once. -/
def execMemoryAccessComplete (s : State) : Host.Outcome State Fault Refusal :=
  when s (portBusy s) (completeAccess s)

/-- The idle apply engine starts on the older slot, when one waits (R79). -/
def beginApply (s : State) : State := (nextApply s).elim s (startApply s)

/-- APPLY_START (R79). -/
def execApplyStart (s : State) : Host.Outcome State Fault Refusal := when s (nextApply s).isSome (beginApply s)

/-- The agent may request an access: it has none waiting, and has work (R181). -/
def agentReady (s : State) : Bool := s.path.agent.isNone && (chooseAccess s).isSome

/-- The agent's request (R181). -/
def requestAgent (s : State) : State := { s with path := { s.path with agent := chooseAccess s } }

/-- AGENT_ACCESS_REQUEST (R181). -/
def execAgentAccessRequest (s : State) : Host.Outcome State Fault Refusal := when s (agentReady s) (requestAgent s)

end Sys2Proof.Machine
end

