-- ==== Sys2Proof/Machine/TurnTimers.lean ====
section
/-! DEFINITION. The turn controller's timers (spec 06): the watched turn (R115), the pause (R113), the silence wait (R118)
and the lapse of a member's turn (R122). -/

namespace Sys2Proof.Machine

/-- The watched turn ends without success (R115, R116). -/
def missWatch (s : State) : State :=
  match s.tc.watch with
  | some w => endWatch s w false
  | none => s

/-- The reply timer runs (R115). -/
def replyRuns (s : State) : Bool := s.tc.watch.any fun w => w.reply.isSome

/-- The reply timer expires: no character has been received, and the gap that follows is counted from the expiry (R113,
R115). -/
def replyExpires (s : State) : State := missWatch { s with tc := { s.tc with lineLast := nowTick s } }

/-- REPLY_TIMEOUT (R115). -/
def execReplyTimeout (s : State) : Host.Outcome State Fault Refusal := when s (replyRuns s) (replyExpires s)

/-- The silence timer of the watched turn runs (R115). -/
def silenceRuns (s : State) : Bool := s.tc.watch.any fun w => w.silence.isSome

/-- The silence timer expires: a miss, and a break is due (R115, R117). -/
def silenceExpires (s : State) : State := missWatch { s with tc := { s.tc with breakDue := true } }

/-- TURN_SILENCE_TIMEOUT (R115). -/
def execTurnSilenceTimeout (s : State) : Host.Outcome State Fault Refusal := when s (silenceRuns s) (silenceExpires s)

/-- The frame count has reached the POLL's budget + 1 (R115). -/
def framesReached (s : State) : Bool := s.tc.watch.any fun w => decide (w.budget + 1 ≤ w.frames)

/-- FRAME_COUNT_REACHED (R115). -/
def execFrameCountReached (s : State) : Host.Outcome State Fault Refusal := when s (framesReached s) (missWatch s)

/-- The pause runs (R113). -/
def pauseRuns (s : State) : Bool := decide (s.tc.phase = .pause) && s.tc.pauseFrom.isSome

/-- The pause ends, and the next cycle starts (R112, R113). -/
def pauseEnds (s : State) : State := masterNext { s with tc := { s.tc with pauseFrom := none } }

/-- POLL_PAUSE_END (R113). -/
def execPollPauseEnd (s : State) : Host.Outcome State Fault Refusal := when s (pauseRuns s) (pauseEnds s)

/-- The silence wait runs (R118). -/
def silenceWaits (s : State) : Bool := decide (s.tc.phase = .silenceWait) && s.tc.silenceFrom.isSome

/-- The silence wait ends; the break is due (R117, R118). -/
def silenceWaitOver (s : State) : State := masterNext { s with tc := { s.tc with silenceFrom := none } }

/-- SILENCE_WAIT_END (R118). -/
def execSilenceWaitEnd (s : State) : Host.Outcome State Fault Refusal := when s (silenceWaits s) (silenceWaitOver s)

/-- A member's turn or probe reply is open (R120, R122). -/
def memberTurnOpen (s : State) : Bool := s.del.turn.any fun t => decide (t.kind ≠ .own)

/-- No character of the open turn is being sent: none has begun, or the transmitter is HOLDING between two frames
(R122, R158). -/
def mayLapse (s : State) : Bool :=
  memberTurnOpen s && (decide (s.line.tx = .idle) || decide (s.line.tx = .holding false))

/-- The transmission ends at once, and an ECHO period ends in ARMING (R157, R158). -/
def cutTransmission (s : State) : State :=
  let t := setTx s .idle
  if t.line.rx = .echo then setLineRx t .arming else t

/-- The member's turn lapses (R122, R124, R143, R158). -/
def lapse (s : State) : State := cutTransmission (abortMemberTurn s)

/-- TURN_LAPSE (R122). -/
def execTurnLapse (s : State) : Host.Outcome State Fault Refusal := when s (mayLapse s) (lapse s)

end Sys2Proof.Machine
end

