-- ==== Sys2Proof/Machine/Receiver.lean ====
section
/-! DEFINITION. The receiver's events (spec 07, 7.3; spec 08, 8.3): arming, start votes, characters, noise, the
intra-frame gap, the low watch and line resets. -/

namespace Sys2Proof.Machine

/-- The intra-frame gap is being measured: a frame is in reception and no character has started (R136). -/
def gapMeasured (s : State) : Bool := inReception s && s.line.gapFrom.isSome

/-- The intra-frame gap passes (R136). -/
def gapTruncates (s : State) : State := truncate { s with line := { s.line with gapFrom := none } } .gap

/-- GAP (R136). -/
def execGap (s : State) : Host.Outcome State Fault Refusal := when s (gapMeasured s) (gapTruncates s)

/-- RECEIVER_ARMED (R147). -/
def execReceiverArmed (s : State) : Host.Outcome State Fault Refusal :=
  when s (decide (s.line.rx = .arming)) (setLineRx s .idle)

/-- The vote of the start bit (R148): a valid start enters CHARACTER, and ends the wait for the next character of a frame
(R136); after a false start the receiver looks for a new falling edge. -/
def startVoted (s : State) (v : Vote) : State :=
  if majority v then setLineRx s .idle
  else setLineRx { s with line := { s.line with gapFrom := none } } (.character v)

/-- START_BIT_VOTE (R148). -/
def execStartBitVote (samples : Vote) (s : State) : Host.Outcome State Fault Refusal :=
  when s (decide (s.line.rx = .idle)) (startVoted s samples)

/-! ## A character (R149 to R152) -/

/-- The noise state and clean count after a character (R150). -/
def noiseAfter (noisy : Bool) (clean : Nat) (charNoisy : Bool) : Bool × Nat :=
  if charNoisy then (true, 0)
  else if !noisy then (false, clean)
  else (decide (clean + 1 < Config.cleanRun), clean + 1)

/-- The noise state moves (R150). -/
def noiseMoves (s : State) (c : VotedChar) : State :=
  let n := noiseAfter s.line.noisy s.line.clean c.firstNoisy.isSome
  { s with line := { s.line with noisy := n.1, clean := n.2 } }

/-- The NOISE event of a character that starts a noisy spell (R150). -/
def noiseEvent (s : State) (c : VotedChar) : Option Event :=
  match c.firstNoisy with
  | some p => if s.line.noisy then none else some (mkEvent .noise 15 15 c.byte p)
  | none => none

/-- The noise of a character and its delivery to the frame unit. NOISE is posted only in RUNNING (R150), and takes a free place
among the events that the delivery posts (R183; log 25). -/
def hearCharacter (s : State) (c : VotedChar) : State :=
  let t := noiseMoves s c
  match noiseEvent s c with
  | none => deliverCharacter t c
  | some e =>
    if isRunning s then postAmong s.agent.events.length (deliverCharacter t c) e else deliverCharacter t c

/-- The end moment of a character whose last centre sample is taken now: edge sample + C bit times (R148, R149). -/
def characterEnd (s : State) (f : LineFormat) : Nat := nowTick s + f.samplesPerBit / 2 - 1

/-- A received character (R149): the receiver's next state, the turn controller, the noise rule, the frame unit, and the
gap measured from its last stop bit (R136). -/
def characterHeard (s : State) (f : LineFormat) (c : VotedChar) : State :=
  let t := setLineRx s (if c.framingError then .lowWatch c.allZero else .idle)
  let u := hearCharacter (turnHears t (characterEnd s f)) c
  { u with line := { u.line with gapFrom := if inReception u then some (characterEnd s f) else none } }

/-- The character being sampled: its line format and start votes (R149). -/
def sampling (s : State) : Option (LineFormat × Vote) :=
  match s.line.rx, s.line.format with
  | .character v, some f => some (f, v)
  | _, _ => none

/-- CHARACTER_RECEIVED (R149). -/
def execCharacterReceived (samples : List Vote) (s : State) : Host.Outcome State Fault Refusal :=
  when s (sampling s).isSome ((sampling s).elim s fun x => characterHeard s x.1 (voteChar x.1 x.2 samples))

/-! ## Low watch and line reset (R152, R153) -/

/-- The receiver is in LOW WATCH (R152). -/
def lowWatching (s : State) : Bool :=
  match s.line.rx with
  | .lowWatch _ => true
  | .off => false
  | .arming => false
  | .idle => false
  | .character _ => false
  | .inBreak => false
  | .echo => false

/-- LOW_WATCH_RETURN (R152): not a break; the FRAME_ERROR held back is posted. -/
def execLowWatchReturn (s : State) : Host.Outcome State Fault Refusal :=
  when s (lowWatching s) (postHeldFraming (setLineRx s .idle))

/-- BREAK_LENGTH_REACHED (R152): only after a character of zeros is it a break. -/
def execBreakLengthReached (s : State) : Host.Outcome State Fault Refusal :=
  when s (decide (s.line.rx = .lowWatch true)) (setLineRx s .inBreak)

/-- A line reset aborts a member's turn or probe reply that has not begun its first character (R124, R153). -/
def resetTurn (s : State) : State :=
  if memberTurnOpen s && decide (s.line.tx = .idle) then abortMemberTurn s else s

/-- LINE_RESET (R153, R192). -/
def lineResetEvent (s : State) (lowTicks : Nat) : Event :=
  mkEvent .lineReset 15 15 (lastCycleNumber s) (s.line.format.elim 2 fun f => lowPeriodDetail f lowTicks)

/-- A line reset is taken, in R153's order, and the receiver enters IDLE. -/
def takeLineReset (s : State) (lowTicks : Nat) : State :=
  let t := resetTurn (resetFrame s)
  setLineRx (postRunning t (lineResetEvent t lowTicks)) .idle

/-- A received break has ended: BREAK, with a low period that reached the break length (R153). -/
def breakHeard (s : State) (lowTicks : Nat) : Bool :=
  decide (s.line.rx = .inBreak) && s.line.format.all fun f => decide (breakTicks f ≤ lowTicks)

/-- LINE_RESET (R153). -/
def execLineReset (lowTicks : Nat) (s : State) : Host.Outcome State Fault Refusal :=
  when s (breakHeard s lowTicks) (takeLineReset s lowTicks)

end Sys2Proof.Machine
end

