-- ==== Sys2Proof/Machine/Timers.lean ====
section
/-! DEFINITION. The timers that the microsecond timer serves: the quiet interval (R36), the hold limit (R44) and the
line-lost timeout (R125). A command asserts that its moment has come (log 6). -/

namespace Sys2Proof.Machine

/-- The quiet measurement of region `r` runs (R36). -/
def quietRuns (s : State) (r : RegionId) : Bool := isRunning s && (pubAt s r).any fun p => p.quiet.isSome

/-- QUIET_INTERVAL_EXPIRY (R36): a quiet close comes due. -/
def execQuietIntervalExpiry (region : RegionId) (s : State) : Host.Outcome State Fault Refusal :=
  when s (quietRuns s region) (dueClose s region)

/-- R13 on the record, beside its discard. -/
def escapeRecord (p : PubRecord) : PubRecord :=
  { p with generation := p.generation + 1, acks := forgetAcks p.acks, pass := none, pendingTargets := 0#16 }

/-- ESCAPE of an event's fields (R44). -/
def escapeEvent (r : RegionId) (p : PubRecord) : Event := mkEvent .escape r 15 p.lastReleased p.generation.toNat

/-- The escape of a held write of region `r` (R44): R13, the end of the hold, the choice that a withdrawn chunk allows (R141),
and the event, which may stand before or after the one that an entry to ECHO posts in that choice (R183; log 25). -/
def escapeRegion (s : State) (r : RegionId) : State :=
  let t := releaseHeld (updPub (discard (abandonPass s r) r) r escapeRecord)
  match pubAt t r with
  | some p => postAmong s.agent.events.length (pump t) (escapeEvent r p)
  | none => t

/-- The region of a held write that may escape: it is LIVE (R44). -/
def escaping (s : State) : Option RegionId := (s.cap.held.filter fun h => isLive s h.region).map HeldWrite.region

/-- ESCAPE (R44). -/
def execEscape (s : State) : Host.Outcome State Fault Refusal :=
  when s (escaping s).isSome ((escaping s).elim s (escapeRegion s))

/-- The line-lost timer is RUNNING (R125). -/
def lostRuns (s : State) : Bool :=
  match s.tc.lost with
  | .running _ => isRunning s
  | .stopped => false
  | .held => false
  | .expired => false

/-- The timer is EXPIRED and the roster copy cleared (R110, R125). -/
def clearRoster (s : State) : State := { s with tc := { s.tc with lost := .expired, roster := 0#16 } }

/-- The place in the roster is lost: an ENROLLED or SPEAKING member becomes LISTENING with the effects of R12 and R20 (R12,
R20, R125). The model's reading (log 31): the turn of a SPEAKING member goes on as a probe reply does, to its YIELD. -/
def losePlace (s : State) : State :=
  match s.tc.member with
  | .enrolled => leaveRoster s
  | .speaking => leaveRoster { s with tc := { s.tc with probeReply := true } }
  | .listening => s
  | .detached => s

/-- The next choice of an open turn, in which the event that its entry to ECHO posts takes a free place among those posted
since the pending list held `n` (R154, R183; log 25). -/
def pumpAmong (n : Nat) (s : State) : State :=
  let t := pump { s with agent := { s.agent with events := [] } }
  t.agent.events.foldl (postAmong n) { t with agent := { t.agent with events := s.agent.events } }

/-- The effects of the expiry on the roster copy, member state, regions and ack tables, in R110's order, and the next choice
of an open turn whose chunk in assembly they withdrew (R102). -/
def loseRoster (s : State) : State := pumpAmong s.agent.events.length (rosterChanged (losePlace (clearRoster s)))

/-- The station is line-lost (R125). LINE_LOST takes a free place among the other events of the expiry (R183; log 25). -/
def lineLost (s : State) : State :=
  postAmong s.agent.events.length (loseRoster s) (mkEvent .lineLost 15 15 s.tc.lastCycle s.tc.member.code)

/-- LINE_LOST (R125). -/
def execLineLost (s : State) : Host.Outcome State Fault Refusal := when s (lostRuns s) (lineLost s)

end Sys2Proof.Machine
end

