-- ==== Sys2Proof/Machine/Transmitter.lean ====
section
/-! DEFINITION. The transmitter's events (spec 07, 7.4; spec 08, 8.4 and 8.5): the turnaround gap, breaks, the trailing
bit time, collisions and the completion of a frame. -/

namespace Sys2Proof.Machine

/-- The turnaround gap of the waiting step is being counted, with the transmitter IDLE (R113, R122). -/
def gapRuns (s : State) : Bool :=
  isRunning s && decide (s.line.tx = .idle) &&
    match s.tc.gap with
    | .counting _ => true
    | .notAwaited => false
    | .passed => false

/-- The break begins: LDE asserted, BREAK LOW, the receiver in ECHO (R155). The model's choice (log 27): the entry to ECHO
is that of R154, which speaks of a frame step: a FRAME_ERROR FRAMING held back is posted from LOW WATCH and dropped from
BREAK. -/
def beginBreak (s : State) : State :=
  let t := setTx (enterEcho s) .breakLow
  { t with tc := { t.tc with gap := .notAwaited } }

/-- The turnaround gap passes: the break begins, or the frame in the line buffer, or the first frame handed over later
(R113, R122, R140, R155). -/
def gapPasses (s : State) : State :=
  if s.tc.phase = .breaking then beginBreak s else tryBegin { s with tc := { s.tc with gap := .passed } }

/-- TURNAROUND_GAP (R113). -/
def execTurnaroundGap (s : State) : Host.Outcome State Fault Refusal := when s (gapRuns s) (gapPasses s)

/-- BREAK_LOW_END (R155). -/
def execBreakLowEnd (s : State) : Host.Outcome State Fault Refusal :=
  when s (decide (s.line.tx = .breakLow)) (setTx s .breakHigh)

/-- The break has ended: LDE deasserted, ECHO left for ARMING, break due clear, and the step that follows (R117,
R155). The next gap is counted from here. -/
def breakEnds (s : State) : State :=
  let t := setLineRx (setTx s .idle) .arming
  masterNext { t with tc := { t.tc with breakDue := false, lineLast := nowTick s } }

/-- BREAK_HIGH_END (R155). -/
def execBreakHighEnd (s : State) : Host.Outcome State Fault Refusal :=
  when s (decide (s.line.tx = .breakHigh)) (breakEnds s)

/-- TRAILING_BIT_TIME_END (R154). -/
def execTrailingBitTimeEnd (s : State) : Host.Outcome State Fault Refusal :=
  when s (decide (s.line.tx = .holding true)) (setLineRx (setTx s .idle) .arming)

/-! ## Collision (R156, R157) -/

/-- The code of a fault of the echo check (R192). -/
def echoFaultCode : EchoFault → Nat
  | .mismatch => 1
  | .framing => 2
  | .contention => 3

/-- The detail of COLLISION (R157, R192): the character index is 255 for CONTENTION. -/
def collisionDetail (f : EchoFault) (character : Byte) : Nat :=
  256 * echoFaultCode f + (if f = .contention then 255 else character.toNat)

/-- COLLISION, by the frame in the line buffer (R157). -/
def collisionEvent (s : State) (f : EchoFault) (character : Byte) : Event :=
  mkEvent .collision (s.fu.lineBuf.elim 15 fun x => frameRegion x.frame) 15
    (s.fu.lineBuf.elim 0 fun x => byteOf (frameKind x.frame)) (collisionDetail f character)

/-- The echo check can find the fault: in a character, or for CONTENTION in HOLDING outside the trailing bit time
(R156). -/
def collidable (s : State) (f : EchoFault) : Bool :=
  isRunning s &&
    match f with
    | .mismatch => decide (s.line.tx = .character)
    | .framing => decide (s.line.tx = .character)
    | .contention => decide (s.line.tx = .holding false)

/-- The transmission is over: IDLE, LDE deasserted, the receiver in ARMING (R157). After MISMATCH and FRAMING the
character in progress has been sent through its last stop bit (log 18). -/
def collisionStops (s : State) (f : EchoFault) : State :=
  let t := setLineRx (setTx s .idle) .arming
  if f = .contention then t else { t with tc := { t.tc with lineLast := nowTick s } }

/-- The turn controller ends the step (R118, R124). -/
def collisionEndsStep (s : State) : State := if isMaster s then masterCollision s else abortMemberTurn s

/-- COLLISION (R157). -/
def execCollision (fault : EchoFault) (character : Byte) (s : State) : Host.Outcome State Fault Refusal :=
  when s (collidable s fault) (post (collisionEndsStep (collisionStops s fault)) (collisionEvent s fault character))

/-! ## The completion of a frame (R142) -/

/-- The step ends with this frame: the YIELD of a turn, or the POLL of a POLL step (R154). -/
def endsStep : Frame → Bool
  | .poll _ _ _ => true
  | .data _ => false
  | .chunk _ => false
  | .yield _ => true

/-- The end of the turn whose YIELD was sent (R112, R122). -/
def yieldSent (s : State) : State :=
  let t := { s with del := { s.del with turn := none, turnList := [], kept := none } }
  if isMaster s then masterNext t else closeMemberTurn t

/-- The completion is reported to the block concerned (R142). -/
def reportSent (s : State) (x : TxFrame) : State :=
  match x.frame with
  | .poll destination _ budget => startWatch s destination budget.toNat
  | .data d => dataSent s d.region d.seq x.serial
  | .chunk c => chunkSent s c.region x.serial
  | .yield _ => yieldSent s

/-- HOLDING after the frame's last stop bit, the line buffer EMPTY (R142, R154). -/
def endTransmission (s : State) (x : TxFrame) : State :=
  let t := setTx s (.holding (endsStep x.frame))
  { t with fu := { t.fu with lineBuf := none }, tc := { t.tc with lineLast := nowTick s } }

/-- The last stop bit of character n + 4 has been sent (R142, R154): the line buffer empties, the completion is reported,
and a COMPLETE frame is handed over (R140). -/
def frameSent (s : State) (x : TxFrame) : State := pump (reportSent (endTransmission s x) x)

/-- The frame being sent (R140, R154); a frame in which the echo check has found a fault does not complete (R157). -/
def sending (s : State) : Option TxFrame :=
  if s.line.tx = .character ∧ s.line.fault = none then s.fu.lineBuf else none

/-- FRAME_TRANSMIT_COMPLETE (R142). -/
def execFrameTransmitComplete (s : State) : Host.Outcome State Fault Refusal :=
  when s (sending s).isSome ((sending s).elim s (frameSent s))

end Sys2Proof.Machine
end

