-- ==== Sys2Proof/Machine/Clock.lean ====
section
/-! DEFINITION. One REFCLK cycle of an idle part (R145, R182; log 5): the clock moves, a sample tick samples LRX, and the
commands whose moment has come join the queue, one by one. -/

namespace Sys2Proof.Machine

/-- The microsecond timer after one REFCLK cycle (R182). -/
def tickMicro (c : Clock) : Clock :=
  if c.usPhase + 1 < Config.refclkPerMicrosecond then { c with usPhase := c.usPhase + 1 }
  else { c with usPhase := 0, us := c.us + 1 }

/-- The sample tick after one REFCLK cycle (R145). -/
def tickSample (f : Option LineFormat) (c : Clock) : Clock :=
  match f with
  | some f =>
    if c.tickPhase + 1 < f.divisor then { c with tickPhase := c.tickPhase + 1 }
    else { c with tickPhase := 0, ticks := c.ticks + 1 }
  | none => c

/-- One REFCLK cycle. -/
def tickClock (s : State) : State := { s with clock := tickSample s.line.format (tickMicro s.clock) }

/-! ## The sample tick on the line (R147 to R153, R156) -/

/-- The level that LRX reads at a sample tick: the next of those that the line holds for it; with none there, what the part
itself sends, which is 1 when it sends nothing (R159; log 17). -/
def lrxLevel (s : State) : Bool :=
  match s.line.lrx with
  | b :: _ => b
  | [] => ltx s

/-- The bit of the frame being sent whose third centre sample is taken now (R156). -/
def echoVoted (s : State) (f : LineFormat) : Bool := decide (txTicks s % f.samplesPerBit = startSample f)

/-- What the echo check finds when a bit position of the frame being sent has been voted (R156): the fault by the position,
with the index of the character. -/
def echoFault (s : State) (f : LineFormat) (x : TxFrame) (vote : Vote) : Option (EchoFault × Byte) :=
  let i := txTicks s / f.samplesPerBit
  if majority vote = frameLevel f (frameBytes s.straps.stn x.frame) i then none
  else some (if stopPosition f ≤ i % charBits f then .framing else .mismatch, byteOf (i / charBits f))

/-- A sample tick of the echo check (R156), and of the search for CONTENTION in HOLDING outside the trailing bit time: the
sampling, and the fault found. In a character the samples are counted by the transmitter; the search for an edge begins only in
HOLDING. The model's choice (log 34): the tick at which a frame's last stop bit ends is sampled as the last of CHARACTER, and
the search begins at the tick after it. -/
def sampleEcho (s : State) (f : LineFormat) (level : Bool) : Sampling × Option (EchoFault × Byte) :=
  let p := s.line.sampling
  match s.line.tx, s.fu.lineBuf with
  | .character, some x =>
    let q := { nextSample f p (txTicks s) level with sample := p.sample }
    if echoVoted s f then (q.restart, s.line.fault <|> echoFault s f x (latestVote q.centre)) else (q, s.line.fault)
  | .holding false, _ =>
    let q := seekStart f p level
    if q.sample = some (startSample f) then
      (q.restart, s.line.fault <|> (if majority (latestVote q.centre) then none else some (.contention, 255#8)))
    else (q, s.line.fault)
  | _, _ => (p, s.line.fault)

/-- A sample tick by the receiver's state (8.3): ARMING counts the ticks at 1; IDLE and CHARACTER sample from the edge on;
LOW WATCH and BREAK measure the low period; ECHO checks echoes; in OFF LRX is ignored. -/
def sampleReceiver (s : State) (f : LineFormat) (level : Bool) : Sampling × Option (EchoFault × Byte) :=
  let p := s.line.sampling
  match s.line.rx with
  | .off => (p, s.line.fault)
  | .arming => ({ p with ones := runOfOnes p.ones level }, s.line.fault)
  | .idle => (seekStart f p level, s.line.fault)
  | .character _ => (seekStart f p level, s.line.fault)
  | .lowWatch _ => (watchLow p level, s.line.fault)
  | .inBreak => (watchLow p level, s.line.fault)
  | .echo => sampleEcho s f level

/-- A sample tick on the line. -/
def sampleLine (s : State) (f : LineFormat) : State :=
  let level := lrxLevel s
  let n := sampleReceiver s f level
  { s with line := { s.line with sampling := { n.1 with level := level }, fault := n.2, lrx := s.line.lrx.tail } }

/-- The clock has moved: at a sample tick LRX is sampled (R145). -/
def sampleIfTick (s t : State) : State :=
  match t.line.format with
  | some f => if t.clock.ticks = s.clock.ticks then t else sampleLine t f
  | none => t

/-! ## What is due -/

/-- A microsecond count has just reached `limit` since the stamp `since` (R182). -/
def usReached (s : State) (since : Word) (limit : Nat) : Bool :=
  decide (s.clock.usPhase = 0) && decide ((nowUs s - since).toNat = limit)

/-- `n` bit times have passed since a tick (R145). -/
def bitsPassed (s : State) (since n : Nat) : Bool :=
  s.line.format.any fun f => decide (since + n * f.samplesPerBit ≤ nowTick s)

/-- `n` character times have passed since a tick (R145). -/
def charsPassed (s : State) (since n : Nat) : Bool :=
  s.line.format.any fun f => decide (since + n * charTicks f ≤ nowTick s)

/-- A command, when it is due. -/
def dueIf (b : Bool) (c : Instr) : List Instr := if b then [c] else []

/-- The quiet intervals that end (R36). -/
def dueQuiet (s : State) : List Instr :=
  (allIds.filter fun r => quietRuns s r &&
    (pubAt s r).any fun p => p.quiet.any fun t => usReached s t (descAt s r).quietInterval).map .quietIntervalExpiry

/-- The hold limit that ends (R44). -/
def dueEscape (s : State) : Bool :=
  (escaping s).isSome && s.cap.held.any fun h => usReached s h.since (descAt s h.region).holdLimit

/-- The line-lost timeout, counted as 1000 µs for each ms (R125, R182). -/
def dueLineLost (s : State) : Bool :=
  lostRuns s &&
    match s.tc.lost with
    | .running t => usReached s t (1000 * s.params.lostMs)
    | .stopped => false
    | .held => false
    | .expired => false

/-- The timers of the watched turn (R115). -/
def dueReply (s : State) : Bool := s.tc.watch.any fun w => w.reply.any fun t => bitsPassed s t s.params.reply
/-- The silence timer of the watched turn (R115). -/
def dueSilence (s : State) : Bool := s.tc.watch.any fun w => w.silence.any fun t => bitsPassed s t s.params.silence

/-- The lapse of a member's turn (R122): from the POLL's last stop bit before the first character, from the last
character's last stop bit in HOLDING. -/
def dueLapse (s : State) : Bool :=
  mayLapse s && s.del.turn.any fun t =>
    if s.line.tx = .idle then bitsPassed s t.pollEnd s.params.reply
    else bitsPassed s s.line.txSince s.params.silence

/-- A falling edge was seen whose start is not voted yet (R148). -/
def startPending (s : State) : Bool := decide (s.line.rx = .idle) && s.line.sampling.sample.isSome

/-- The intra-frame gap: 2 character times with no start of a character (R136). While a start waits for its vote, which says
whether a character has started, the gap waits for it too (R148; log 23). -/
def dueGap (s : State) : Bool :=
  gapMeasured s && !startPending s && s.line.gapFrom.any fun t => charsPassed s t 2

/-- The turnaround gap (R113, R122). -/
def dueTurnaround (s : State) : Bool :=
  gapRuns s &&
    match s.tc.gap with
    | .counting t => bitsPassed s t s.params.turnaround
    | .notAwaited => false
    | .passed => false

/-- The poll pause (R113). -/
def duePause (s : State) : Bool := pauseRuns s && s.tc.pauseFrom.any fun t => bitsPassed s t s.params.pause
/-- The silence wait (R118). -/
def dueSilenceWait (s : State) : Bool :=
  silenceWaits s && s.tc.silenceFrom.any fun t => bitsPassed s t s.params.silence

/-- The end of the frame being sent: its n + 5 characters have passed (R142). -/
def dueSent (s : State) : Bool :=
  (sending s).any fun x => charsPassed s s.line.txSince (frameBytes s.straps.stn x.frame).length

/-- The receiver's sampling has reached a sample. -/
def atSample (s : State) (n : LineFormat → Nat) : Bool :=
  s.line.format.any fun f => decide (s.line.sampling.sample = some (n f))

/-- What the sampling of LRX makes due in a receiver state (R147 to R149, R152, R153). The break length counts as reached at
a tick that reads 0: a run of ticks at 1 in progress is waited for (R152; log 30). The low period of a line reset goes to
the first tick of its run of three (R153). -/
def dueSampled (s : State) : List Instr :=
  let p := s.line.sampling
  match s.line.rx with
  | .off => []
  | .arming => dueIf (s.line.format.any fun f => decide (f.samplesPerBit ≤ p.ones)) .receiverArmed
  | .idle => dueIf (atSample s startSample) (.startBitVote (latestVote p.centre))
  | .character _ => dueIf (atSample s lastSample) (.characterReceived (charSamples p.centre))
  | .lowWatch zero =>
    dueIf (decide (3 ≤ p.ones)) .lowWatchReturn ++
    dueIf (zero && decide (p.ones = 0) && s.line.format.any fun f => decide (breakTicks f ≤ p.sample.getD 0))
      .breakLengthReached
  | .inBreak => dueIf (decide (3 ≤ p.ones)) (.lineReset (p.sample.getD 0 - 2))
  | .echo => []

/-- The collision that the echo check has found: CONTENTION at once, a fault in a character at that character's last stop bit
(R157; log 18). -/
def dueCollision (s : State) : List Instr :=
  match s.line.fault with
  | some (.contention, k) => [.collision .contention k]
  | some (x, k) => dueIf (charsPassed s s.line.txSince (k.toNat + 1)) (.collision x k)
  | none => []

/-- The commands that the line's durations make due. -/
def dueLine (s : State) : List Instr :=
  dueIf (dueReply s) .replyTimeout ++ dueIf (dueSilence s) .turnSilenceTimeout ++
  dueIf (framesReached s) .frameCountReached ++ dueIf (dueLapse s) .turnLapse ++ dueIf (dueGap s) .gap ++
  dueIf (dueTurnaround s) .turnaroundGap ++ dueIf (duePause s) .pollPauseEnd ++
  dueIf (dueSilenceWait s) .silenceWaitEnd ++
  dueIf (decide (s.line.tx = .breakLow) && charsPassed s s.line.txSince 2) .breakLowEnd ++
  dueIf (decide (s.line.tx = .breakHigh) && charsPassed s s.line.txSince 1) .breakHighEnd ++
  dueIf (decide (s.line.tx = .holding true) && bitsPassed s s.line.txSince 1) .trailingBitTimeEnd ++
  dueIf (dueSent s) .frameTransmitComplete ++ dueSampled s ++ dueCollision s

/-- The commands that the part itself makes due. -/
def dueOwn (s : State) : List Instr :=
  dueIf (nextApply s).isSome .applyStart ++ dueIf (agentReady s) .agentAccessRequest

/-- Everything that is due now. -/
def dueNow (s : State) : List Instr :=
  dueQuiet s ++ dueIf (dueEscape s) .escape ++ dueIf (dueLineLost s) .lineLost ++ dueLine s ++ dueOwn s

/-- The free order of what is due in one cycle (log 10). -/
def dueInOrder (s : State) (l : List Instr) : List Instr :=
  (sortByKey (fun p => Config.dueKey s.clock.choices p.2) l.zipIdx).map Prod.fst

/-- The first of what is due in one cycle joins the queue, and the others wait for their turn in the same cycle. -/
def queueDue (s : State) : State :=
  match dueInOrder s (dueNow s) with
  | [] => s
  | c :: cs => useChoice { s with pending := s.pending ++ [c], clock := { s.clock with due := cs } }

/-- The turn of a command that fell due in the same cycle as the ones taken before it: it joins the queue if it is due
still, and is dropped where one of them has stopped its timer, set it anew, or ended the state that it ends (log 10). -/
def serveDue (s : State) (c : Instr) (rest : List Instr) : State :=
  let t : State := { s with clock := { s.clock with due := rest } }
  if c ∈ dueNow s then { t with pending := s.pending ++ [c] } else t

/-- A step of a part with no command waiting: the turn of a command due in the present REFCLK cycle, or else the next
cycle; nothing while RESET_N is asserted. -/
def idleCycle (s : State) : State :=
  if s.top = .inReset then s
  else
    match s.clock.due with
    | c :: rest => serveDue s c rest
    | [] => queueDue (sampleIfTick s (tickClock s))

end Sys2Proof.Machine
end

