-- ==== Sys2Proof/Machine/Host.lean ====
section
/-! DEFINITION. The host port: HOST_ACCESS and the writes to host-owned words of the control block (spec 09, R160 to
R164). -/

namespace Sys2Proof.Machine

/-- An access is presented at the host port. R160: the next comes only after the one before has completed; an earlier one
is a fault of the host (log 2). -/
def presentHost (s : State) (a : Access) : Host.Outcome State Fault Refusal :=
  if s.path.host.isSome then .fault .hostAccessOutstanding else done s (present s a)

/-- A host write to word `index` of the control block. -/
def blockWrite (s : State) (index : Nat) (l : Lanes) (d : Word) : Access :=
  { addr := BitVec.ofNat 24 (blockAddress s index), write := true, lanes := l, data := d }

/-- HOST_ACCESS (R160, R162). -/
def execHostAccess (a : Access) (s : State) : Host.Outcome State Fault Refusal := presentHost s a

/-- CONSUMER_INDEX_WRITE (R164, R185): the agent observes it at its grant (log 3). -/
def execConsumerIndexWrite (lanes : Lanes) (data : Word) (s : State) : Host.Outcome State Fault Refusal :=
  presentHost s (blockWrite s consumerIndex lanes data)

/-- CB_WORD_WRITE (R164, R173): another host-owned word of the control block (log 3). -/
def execCbWordWrite (word : Fin 172) (lanes : Lanes) (data : Word) (s : State) : Host.Outcome State Fault Refusal :=
  presentHost s (blockWrite s word.val lanes data)

end Sys2Proof.Machine
end

