-- ==== Sys2Proof/Machine/Command.lean ====
section
/-! DEFINITION. The commands: each is a four-lane host write to the command word, taken or refused at its grant, which is
in the same step when the port is FREE and HOST wins, and at a later completion otherwise (R173, R174; log 3). -/

namespace Sys2Proof.Machine

/-- The command write of a code, region argument and tag (R173, R190). -/
def presentCommand (code region tag : Byte) (s : State) : Host.Outcome State Fault Refusal :=
  presentHost s (blockWrite s commandIndex 15#4 (commandWord code region tag))

/-- LOAD (R173 to R177). -/
def execLoad (region tag : Byte) (s : State) : Host.Outcome State Fault Refusal := presentCommand 1#8 region tag s

/-- START (R174, R178). -/
def execStart (region tag : Byte) (s : State) : Host.Outcome State Fault Refusal := presentCommand 2#8 region tag s

/-- STOP (R174, R179). -/
def execStop (region tag : Byte) (s : State) : Host.Outcome State Fault Refusal := presentCommand 3#8 region tag s

/-- FLUSH (R38, R174). -/
def execFlush (region tag : Byte) (s : State) : Host.Outcome State Fault Refusal := presentCommand 4#8 region tag s

/-- RESYNC (R21, R174). -/
def execResync (region tag : Byte) (s : State) : Host.Outcome State Fault Refusal := presentCommand 5#8 region tag s

/-- BAD_COMMAND: any other code (R174). -/
def execBadCommand (code region tag : Byte) (s : State) : Host.Outcome State Fault Refusal :=
  presentCommand code region tag s

end Sys2Proof.Machine
end

