-- ==== Sys2Proof/Machine/FrameEvents.lean ====
section
/-! DEFINITION. The receipt of a good frame as one event (R139): POLL_RECEIVED, DATA_RECEIVED, CHUNK_RECEIVED and
YIELD_RECEIVED. Each stands for a frame whose characters were all received (log 4). -/

namespace Sys2Proof.Machine

/-- A good frame is received: its last character ends now (R113, R115), and it is handed on by kind (R139). The model's
choice (log 4): a frame half received by its characters stays in reception. -/
def frameReceived (s : State) (source : StationId) (f : Frame) : State := handOn (turnHears s (nowTick s)) source f

/-- A frame can end here now: the receiver looks for the next start; in OFF, ARMING and ECHO, and while the line is low, the
frame unit receives nothing (R147, R152, R154). In CONFIGURED it receives as in RUNNING, and hands the frame to no block
(R71, R138): the line was busy up to now, and nothing else comes of it (R113). -/
def hearsFrames (s : State) : Bool := decide (s.line.rx = .idle)

/-- POLL_RECEIVED (R121, R139). -/
def execPollReceived (source : StationId) (cycle budget : Byte) (s : State) : Host.Outcome State Fault Refusal :=
  when s (hearsFrames s) (frameReceived s source (.poll s.straps.stn cycle budget))

/-- DATA_RECEIVED (R4, R71 to R76). -/
def execDataReceived (source : StationId) (content : DataFrame) (s : State) : Host.Outcome State Fault Refusal :=
  when s (hearsFrames s) (frameReceived s source (.data content))

/-- CHUNK_RECEIVED (R4, R16, R19, R21, R77, R78). -/
def execChunkReceived (source : StationId) (content : ChunkFrame) (s : State) : Host.Outcome State Fault Refusal :=
  when s (hearsFrames s) (frameReceived s source (.chunk content))

/-- YIELD_RECEIVED (R139): the turn controller, then the delivery controller, then the region state rules. -/
def execYieldReceived (source : StationId) (content : YieldFrame) (s : State) : Host.Outcome State Fault Refusal :=
  when s (hearsFrames s) (frameReceived s source (.yield content))

end Sys2Proof.Machine
end

