-- ==== Sys2Proof/Machine/ResetPins.lean ====
section
/-! DEFINITION. The pin events RESET_N_ASSERT (R171) and RESET_N_DEASSERT (R159, R172). -/

namespace Sys2Proof.Machine

/-- R171: a held host access passes to the arbiter; one that awaits grant or is granted goes on. -/
def resetHost (h : HostAccess) : HostAccess :=
  { h with condition := if h.condition = .granted then .granted else .awaitingGrant }

/-- R168, R171: the internal requests are withdrawn, an access on the port is carried to its completion, and the last
grant is NONE (log 14). -/
def resetPath (p : MemoryPath) : MemoryPath :=
  { MemoryPath.reset with host := p.host.map resetHost, reply := p.reply, port := p.port }

/-- The turn controller after RESET_N (R109 to R111, R126). The moment the line was last busy is no part of it, so that the
gap of R113 holds for a part that is started again (log 35). -/
def resetTurns (s : State) : Turns := { Turns.reset with lineLast := (cutShort s).tc.lineLast }

/-- RESET_N asserted: every block at its RESET_N values (R1, R46, R65, R88, R109 to R111, R126, R144, R147, R150, R154,
R158, R171, R180 to R185). Memory stands; so do the queue, the levels of LRX to come, the moment the line was last busy and
the model's own counts. -/
def resetPart (s : State) : State :=
  { State.reset with
    pending := s.pending
    mem := s.mem
    clock := { Clock.reset with ticks := s.clock.ticks, choices := s.clock.choices }
    line := { Line.reset with lrx := s.line.lrx }
    tc := resetTurns s
    path := resetPath s.path }

/-- RESET_N_ASSERT (R171). It leaves every mark clear (R180). -/
def execResetNAssert (s : State) : Host.Outcome State Fault Refusal := .next (arbitrate (resetPart s))

/-- The straps are sampled, the microsecond timer starts at 0 and the arbiter at its reset values (R159, R168, R171,
R182). -/
def sampleStraps (s : State) (stn : StationId) (cba : Byte) (ald : Bool) : State :=
  { s with
    straps := { stn := stn, cba := cba, ald := ald }
    clock := { s.clock with us := 0, usPhase := 0 }
    path := { s.path with last := .none }
    top := .unconfigured }

/-- R172: UNCONFIGURED, or LOADING at once by an automatic LOAD with tag 0. -/
def leaveReset (s : State) (stn : StationId) (cba : Byte) (ald : Bool) : State :=
  let t := sampleStraps s stn cba ald
  if ald then enterLoading (beginCommand t 1#8 0#8) else t

/-- RESET_N_DEASSERT (R172). It sets no mark (R180; log 16). -/
def execResetNDeassert (stn : StationId) (cba : Byte) (ald : Bool) (s : State) : Host.Outcome State Fault Refusal :=
  if s.top = .inReset then .next (leaveReset s stn cba ald) else done s s

end Sys2Proof.Machine
end

