-- ==== Sys2Proof/Machine/Dispatch.lean ====
section
/-! DEFINITION. The dispatch of a command to its meaning. -/

namespace Sys2Proof.Machine

def exec (i : Instr) (s : State) : Host.Outcome State Fault Refusal :=
  match i with
  | .hostAccess a => Sys2Proof.Machine.execHostAccess a s
  | .consumerIndexWrite lanes data => Sys2Proof.Machine.execConsumerIndexWrite lanes data s
  | .cbWordWrite word lanes data => Sys2Proof.Machine.execCbWordWrite word lanes data s
  | .load region tag => Sys2Proof.Machine.execLoad region tag s
  | .start region tag => Sys2Proof.Machine.execStart region tag s
  | .stop region tag => Sys2Proof.Machine.execStop region tag s
  | .flush region tag => Sys2Proof.Machine.execFlush region tag s
  | .resync region tag => Sys2Proof.Machine.execResync region tag s
  | .badCommand code region tag => Sys2Proof.Machine.execBadCommand code region tag s
  | .memoryAccessComplete => Sys2Proof.Machine.execMemoryAccessComplete s
  | .applyStart => Sys2Proof.Machine.execApplyStart s
  | .agentAccessRequest => Sys2Proof.Machine.execAgentAccessRequest s
  | .quietIntervalExpiry region => Sys2Proof.Machine.execQuietIntervalExpiry region s
  | .escape => Sys2Proof.Machine.execEscape s
  | .lineLost => Sys2Proof.Machine.execLineLost s
  | .replyTimeout => Sys2Proof.Machine.execReplyTimeout s
  | .turnSilenceTimeout => Sys2Proof.Machine.execTurnSilenceTimeout s
  | .frameCountReached => Sys2Proof.Machine.execFrameCountReached s
  | .turnLapse => Sys2Proof.Machine.execTurnLapse s
  | .gap => Sys2Proof.Machine.execGap s
  | .turnaroundGap => Sys2Proof.Machine.execTurnaroundGap s
  | .pollPauseEnd => Sys2Proof.Machine.execPollPauseEnd s
  | .silenceWaitEnd => Sys2Proof.Machine.execSilenceWaitEnd s
  | .breakLowEnd => Sys2Proof.Machine.execBreakLowEnd s
  | .breakHighEnd => Sys2Proof.Machine.execBreakHighEnd s
  | .trailingBitTimeEnd => Sys2Proof.Machine.execTrailingBitTimeEnd s
  | .receiverArmed => Sys2Proof.Machine.execReceiverArmed s
  | .characterReceived samples => Sys2Proof.Machine.execCharacterReceived samples s
  | .lowWatchReturn => Sys2Proof.Machine.execLowWatchReturn s
  | .breakLengthReached => Sys2Proof.Machine.execBreakLengthReached s
  | .lineReset lowTicks => Sys2Proof.Machine.execLineReset lowTicks s
  | .collision fault character => Sys2Proof.Machine.execCollision fault character s
  | .frameTransmitComplete => Sys2Proof.Machine.execFrameTransmitComplete s
  | .pollReceived source cycle budget => Sys2Proof.Machine.execPollReceived source cycle budget s
  | .dataReceived source content => Sys2Proof.Machine.execDataReceived source content s
  | .chunkReceived source content => Sys2Proof.Machine.execChunkReceived source content s
  | .yieldReceived source content => Sys2Proof.Machine.execYieldReceived source content s
  | .resetNAssert => Sys2Proof.Machine.execResetNAssert s
  | .resetNDeassert stn cba ald => Sys2Proof.Machine.execResetNDeassert stn cba ald s
  | .startBitVote samples => Sys2Proof.Machine.execStartBitVote samples s

end Sys2Proof.Machine
end

