-- ==== Sys2Proof/WellFormed.lean ====
section
/-! DEFINITION. Which commands the spec admits: the ranges of their operands that the operand types do not give. -/

namespace Sys2Proof

/-- R160: a lane set is non-empty. -/
def lanesWf (l : Lanes) : Bool := l != 0#4

/-- R24: non-empty lanes, and no byte on a lane outside them. -/
def UpdateRecord.wf (r : UpdateRecord) : Bool :=
  lanesWf r.lanes && (r.data &&& ~~~ laneMask r.lanes) == 0#32

/-- R131: 1..16 well-formed records. -/
def DataFrame.wf (d : DataFrame) : Bool :=
  decide (1 ≤ d.records.length) && decide (d.records.length ≤ 16) && d.records.all UpdateRecord.wf

/-- R132: 1..16 words and a target set of stations. -/
def ChunkFrame.wf (c : ChunkFrame) : Bool :=
  decide (1 ≤ c.words.length) && decide (c.words.length ≤ 16) && stationSetWf c.targets

/-- R133: at most 16 entries and summaries together, and a roster of stations. -/
def YieldFrame.wf (y : YieldFrame) : Bool :=
  decide (y.acks.length + y.summaries.length ≤ 16) && (y.roster.all stationSetWf)

/-- R130 to R133, with the destination of a POLL being a station. -/
def Frame.wf : Frame → Bool
  | .poll d _ b => decide (d ≠ 15) && decide (b.toNat ≤ 8)
  | .data d => d.wf
  | .chunk c => c.wf
  | .yield y => y.wf

/-- R128: a source is a station id 0..14. -/
def sourceWf (s : StationId) : Bool := decide (s ≠ 15)

/-- The operand ranges of each command. -/
def Instr.wf : Instr → Bool
  | .hostAccess a => lanesWf a.lanes
  | .consumerIndexWrite l _ => lanesWf l
  | .cbWordWrite w l _ => lanesWf l && (decide (w.val < 68) || (decide (w.val = 68) && l != 15#4))
  | .load _ _ => true
  | .start _ _ => true
  | .stop _ _ => true
  | .flush _ _ => true
  | .resync _ _ => true
  | .badCommand c _ _ => !(decide (1 ≤ c.toNat) && decide (c.toNat ≤ 5))
  | .memoryAccessComplete => true
  | .applyStart => true
  | .agentAccessRequest => true
  | .quietIntervalExpiry _ => true
  | .escape => true
  | .lineLost => true
  | .replyTimeout => true
  | .turnSilenceTimeout => true
  | .frameCountReached => true
  | .turnLapse => true
  | .gap => true
  | .turnaroundGap => true
  | .pollPauseEnd => true
  | .silenceWaitEnd => true
  | .breakLowEnd => true
  | .breakHighEnd => true
  | .trailingBitTimeEnd => true
  | .receiverArmed => true
  | .characterReceived v => decide (v.length = 12)
  | .lowWatchReturn => true
  | .breakLengthReached => true
  | .lineReset _ => true
  | .collision f c => decide (f = .contention) || decide (c.toNat ≤ 164)
  | .frameTransmitComplete => true
  | .pollReceived s _ b => sourceWf s && decide (b.toNat ≤ 8)
  | .dataReceived s d => sourceWf s && d.wf
  | .chunkReceived s c => sourceWf s && c.wf
  | .yieldReceived s y => sourceWf s && y.wf
  | .resetNAssert => true
  | .resetNDeassert _ _ _ => true
  | .startBitVote _ => true

end Sys2Proof
end

