-- ==== Sys2Proof/Safety.lean ====
section
/-! DEFINITION. What every state of the part keeps to, as predicates of a state; what a step that only moves marks leaves
of the agent; and the vocabulary that the statements share. -/

namespace Sys2Proof.Machine

/-- The memory is in its canonical form, within the address space (R176; log 7). -/
def MemoryOk (s : State) : Prop := Memory.wf s.mem = true

/-- The pending list holds at most 8 events (R183). -/
def EventsBounded (s : State) : Prop := s.agent.events.length ≤ Config.pendingEvents

/-- At most two staging slots are occupied (R69). -/
def SlotsBounded (s : State) : Prop := s.inb.slots.length ≤ Config.slotCount

/-- Retained batches of a region (R26). -/
def regionRetained (x : Region) : Nat :=
  match x.record with
  | .published p => p.retained.length
  | _ => 0

/-- A published region has at most 4 retained batches (R26). -/
def RetainedBounded (s : State) : Prop := ∀ r, regionRetained (regionAt s r) ≤ Config.retainedLimit

/-- Batches and the claim hold at most the 64 records of the pool (R25). -/
def PoolBounded (s : State) : Prop := poolLevel s ≤ Config.poolSize

/-- No request waits at the arbiter (R168). -/
def NothingWaits (s : State) : Prop :=
  waitingHost s = none ∧ s.path.apply ≠ .waiting ∧ s.path.snap = false ∧ s.path.agent = none

/-- A FREE port leaves no request waiting: a request is granted as soon as the port is FREE (R168, R169). -/
def PortServes (s : State) : Prop := s.path.port = .free → NothingWaits s

/-- What the capture unit and the apply engine hold of the host access: a claim and a kept back apply belong to an access
that awaits grant (R30, R79), and a held write to one in the capture hold (R42, R165). -/
def HostConsistent (s : State) : Prop :=
  (s.cap.claim.isSome → hostWaits s) ∧ (s.path.apply = .keptBack → hostWaits s) ∧
    (s.cap.held.isSome → s.path.host.any fun h => decide (h.condition = .captureHeld))

/-- The agent without its dirty marks and the marks that precede a result: what a step that posts no event and concerns
no command leaves as it was (R180, R181). -/
def agentCore (a : Agent) : Agent :=
  { a with marks := 0#38, executing := a.executing.map fun x => { x with prior := none } }

/-- A state but for its dirty marks. -/
def unmarked (s : State) : State := { s with agent := agentCore s.agent }

/-- What the memory path keeps to: the two facts above. -/
def Served (s : State) : Prop := PortServes s ∧ HostConsistent s

/-- The host port is open and the memory port FREE: an access presented now is granted in its step. -/
def HostPortOpen (s : State) : Prop := Served s ∧ s.path.host = none ∧ s.path.port = .free

/-- The host's access granted (R160, R161, R169); an apply request kept back for it arrives (R79). -/
def grantedNow (s : State) (a : Access) : State :=
  { s with
    mem := accessMemory s.mem a
    path := { s.path with
      host := some { access := a, condition := .granted, result := accessResult s.mem a }
      port := .busy .host a
      last := if s.top = .inReset then .none else .host
      apply := if s.path.apply = .keptBack then .waiting else s.path.apply } }

/-- The host access `a` is granted in the step of command `x`: `x` is the command `c` that presents it at an open host port, or
the completion of an internal access while it awaits grant, with no claim (R161, R169). -/
def GrantsAccess (x c : Instr) (s : State) (a : Access) : Prop :=
  (x = c ∧ HostPortOpen s) ∨
    (x = .memoryAccessComplete ∧ Served s ∧ (∃ q b, s.path.port = .busy q b ∧ q ≠ .host) ∧
      (∃ h, s.path.host = some h ∧ h.condition = .awaitingGrant ∧ h.access = a) ∧ s.path.last ≠ .host ∧
      s.cap.claim = none)

/-- The access on the port completed (R160, R161, R168): the port is FREE, and the host's own access is returned to it with
the data fixed at its grant. -/
def portFreed (s : State) : State :=
  match s.path.port, s.path.host with
  | .free, _ => s
  | .busy .host _, some h =>
    if h.condition = .granted then
      { s with path := { s.path with port := .free, host := none, reply := some { access := h.access, data := h.result } } }
    else { s with path := { s.path with port := .free } }
  | _, _ => { s with path := { s.path with port := .free } }

/-! ## The vocabulary of the statements -/

/-- A command write with a code, region argument and tag: four lanes to the command word (R173, R190). -/
def commandWrite (s : State) (code region tag : Byte) : Access :=
  { addr := BitVec.ofNat 24 (65536 * s.straps.cba.toNat + 0x110), write := true, lanes := 15#4,
    data := (0#8 ++ tag ++ region ++ code : BitVec 32) }

/-- A write to word `index` of the control block (R3, R186). -/
def cbWrite (s : State) (index : Nat) (l : Lanes) (d : Word) : Access :=
  { addr := BitVec.ofNat 24 (65536 * s.straps.cba.toNat + 4 * index), write := true, lanes := l, data := d }

/-- The table of R162, for the accesses it gives PASS, an uncaptured write and a FENCE CHECK that passes included. -/
def PassedByTable (s : State) (a : Access) : Prop :=
  match s.top, matchAddress s a.addr with
  | .inReset, _ => True
  | .unconfigured, _ => True
  | .loading, _ => True
  | .configured, .block i => a.write = true → i ≤ 68 ∨ i = 70
  | .configured, _ => True
  | .running, .none => True
  | .running, .block i => a.write = true → i ≤ 68 ∨ i = 70
  | .running, .region r _ =>
    match (descAt s r).role with
    | .off => True
    | .publish => a.write = true → isLive s r = false
    | .subscribe => (a.write = true → (descAt s r).guard = .openMode) ∧ s.inb.fence ≠ some r

/-- The agent observes nothing in an access: with RESET_N asserted, a read, or no command word and no consumer index
(R164, R173). -/
def Unobserved (s : State) (a : Access) : Prop :=
  s.top = .inReset ∨ a.write = false ∨
    ∀ i, matchAddress s a.addr = .block i → i ≠ 70 ∧ (i = 68 → a.lanes ≠ 15#4)

/-- The record of a published region replaced, its descriptor kept. -/
def withPub (s : State) (r : RegionId) (p : PubRecord) : State :=
  setRegion s r { desc := descAt s r, record := .published p }

/-- The record of a write: its word offset, its lanes and their bytes (R24, R32). -/
def writeRecord (w : Byte) (a : Access) : UpdateRecord := { offset := w, lanes := a.lanes, data := a.data &&& laneMask a.lanes }

/-- A write merged into the record of its word (R31). -/
def mergedRecord (w : Byte) (a : Access) (x : UpdateRecord) : UpdateRecord :=
  if x.offset = w then
    { offset := w, lanes := x.lanes ||| a.lanes, data := (x.data &&& ~~~ laneMask a.lanes) ||| (a.data &&& laneMask a.lanes) }
  else x

/-- A new batch of one write (R26, R32). -/
def newBatch (r : RegionId) (w : Byte) (a : Access) : Batch :=
  { region := r, seq := none, records := [writeRecord w a], sent := false, lastTurn := none }

/-- The region's open batch replaced, its quiet measurement restarted, and then the close of the close word (R33, steps 2
to 4; R36). -/
def joined (s : State) (r : RegionId) (w : Byte) (b : Batch) : State :=
  let u := updPub s r fun p =>
    { p with openBatch := some b, quiet := if (descAt s r).quietInterval = 0 then none else some s.clock.us }
  if (descAt s r).closeOffset = some w then closeOrPend u r else u

/-- The premises of a write that is captured and granted in its step: RUNNING, the host port open, a LIVE published
region hit at word offset `o`. -/
def CaptureMeets (s : State) (a : Access) (r : RegionId) (o : Nat) (p : PubRecord) : Prop :=
  HostPortOpen s ∧ s.top = .running ∧ a.write = true ∧ matchAddress s a.addr = .region r o ∧
    (descAt s r).role = .publish ∧ pubAt s r = some p ∧ p.state = .live

/-- R29: the rows of the table that capture a write to word `w` of region `r`, by its decision. -/
def CaptureCase (s : State) (r : RegionId) (p : PubRecord) (w : Byte) : CaptureDecision → Prop
  | .merge => ∃ b, p.openBatch = some b ∧ (b.records.any fun x => decide (x.offset = w)) = true
  | .append => ∃ b, p.openBatch = some b ∧ (b.records.any fun x => decide (x.offset = w)) = false ∧
      b.records.length < (descAt s r).batchLimit ∧ poolLevel s < 64
  | .full => ∃ b, p.openBatch = some b ∧ (b.records.any fun x => decide (x.offset = w)) = false ∧
      (descAt s r).batchLimit ≤ b.records.length ∧ p.retained.length < 4 ∧ poolLevel s < 64
  | .opening => p.openBatch = none ∧ poolLevel s < 64

/-- R29: the rows that hold it with no batch closed, by their reason. -/
def HoldCase (s : State) (r : RegionId) (p : PubRecord) (w : Byte) : HoldReason → Prop
  | .pool => 64 ≤ poolLevel s ∧ (p.openBatch = none ∨ ∃ b, p.openBatch = some b ∧
      (b.records.any fun x => decide (x.offset = w)) = false ∧ b.records.length < (descAt s r).batchLimit)
  | .limit => ∃ b, p.openBatch = some b ∧ (b.records.any fun x => decide (x.offset = w)) = false ∧
      (descAt s r).batchLimit ≤ b.records.length ∧ 4 ≤ p.retained.length

/-- R30, R43: the host's write has its claim and awaits grant; no write is held. -/
def claimMade (s : State) (r : RegionId) (w : Byte) (d : CaptureDecision) : State :=
  { s with
    cap := { s.cap with claim := some { region := r, offset := w, decision := d, deferred := false }, held := none }
    path := { s.path with host := s.path.host.map fun x => { x with condition := .awaitingGrant } } }

/-- R43: the held write stays held, with its reason; its hold timer goes on. -/
def stillHeld (s : State) (h : HeldWrite) (x : HoldReason) : State :=
  { s with
    cap := { s.cap with held := some { h with reason := x } }
    path := { s.path with host := s.path.host.map fun y => { y with condition := .captureHeld } } }

/-- R34: the open batch `b` closed: it takes next seq and joins the tails of the retained list and of the send queue. -/
def closedBatch (s : State) (r : RegionId) (p : PubRecord) (b : Batch) : State :=
  withPub { s with cap := { s.cap with sendQueue := s.cap.sendQueue ++ [(r, p.nextSeq)] } } r
    { p with
      nextSeq := p.nextSeq + 1, retained := p.retained ++ [{ b with seq := some p.nextSeq, sent := false }]
      openBatch := none, quiet := none, closePending := false }

/-- The word that memory holds at a byte address, lane 0 lowest (R186). -/
def wordAt (m : Memory) (a : Nat) : Word :=
  readByte m (a + 3) ++ readByte m (a + 2) ++ readByte m (a + 1) ++ readByte m a

/-- A retained batch was sent in an earlier turn (R48) and does not stand in the turn list of the open one (R49). -/
def SentBefore (s : State) (r : RegionId) (p : PubRecord) (b : Batch) : Prop :=
  (b.sent = true ∧ b.lastTurn ≠ some s.del.ownTurn) ∧
    .first r (b.seq.getD 0) p.epoch ∉ s.del.turnList ∧ .repeated r (b.seq.getD 0) p.epoch ∉ s.del.turnList

/-- R59: such a batch needs retransmission: a subscriber that has reported since it was last sent lacks it. -/
def NeedsRepeat (s : State) (r : RegionId) (p : PubRecord) (b : Batch) : Prop :=
  SentBefore s r p b ∧ ∃ st q h, (st, .tracking q (some h)) ∈ p.acks ∧ (h - b.lastTurn.getD 0).toNat ≤ 127 ∧
    127 < (q - b.seq.getD 0).toNat

/-- R59: a batch that the retransmission from a go-back point takes. -/
def RepeatsFrom (s : State) (r : RegionId) (p : PubRecord) (goBack : Byte) (b : Batch) : Prop :=
  (b.seq.getD 0 - goBack).toNat ≤ 127 ∧ SentBefore s r p b

/-- The first of a list that has a property; a retained list stands oldest first (R26). -/
def FirstOf (l : List Batch) (P : Batch → Prop) (b : Batch) : Prop :=
  ∃ before after, l = before ++ b :: after ∧ P b ∧ ∀ x ∈ before, ¬ P x

/-- R60: a LIVE region has refresh work. -/
def RefreshWork (s : State) (r : RegionId) : Prop :=
  ∃ p, pubAt s r = some p ∧ p.state = .live ∧
    match p.pass with
    | some c => c.nextChunk < c.chunkCount
    | none => p.pendingTargets &&& s.tc.roster ≠ 0

/-- A pass started or restarted (R93, R94): the pending targets of the roster join its targets and leave the pending set;
the base seq is next seq − 1 and every target is TRACKING at it without a heard turn. -/
def passStarted (s : State) (r : RegionId) (p : PubRecord) : PubRecord :=
  let base : Byte := p.nextSeq - 1
  let c : Pass := match p.pass with
    | none =>
      { targets := p.pendingTargets &&& s.tc.roster, baseSeq := some base, chunkCount := ((descAt s r).length + 15) / 16
        nextChunk := 1, sentCount := 0, settle := none, serial := s.del.passSerial }
    | some c =>
      { c with
        targets := c.targets ||| (p.pendingTargets &&& s.tc.roster), baseSeq := some base, nextChunk := 1, settle := none }
  { p with
    pass := some c
    pendingTargets := p.pendingTargets &&& ~~~ s.tc.roster
    acks := p.acks.map fun e => if c.targets.getLsbD e.1.val then (e.1, .tracking base none) else e }

/-- The code, region argument and tag that a command carries (R190). -/
def commandFields : Instr → Option (Byte × Byte × Byte)
  | .load r t => some (1, r, t)
  | .start r t => some (2, r, t)
  | .stop r t => some (3, r, t)
  | .flush r t => some (4, r, t)
  | .resync r t => some (5, r, t)
  | .badCommand c r t => some (c, r, t)
  | _ => none

/-- A command write granted: it is in memory, and it is the executing command with a result, if it has one. -/
def commandTaken (s : State) (code region tag : Byte) (r : Option ResultCode) : State :=
  { grantedNow s (commandWrite s code region tag) with
    agent := { s.agent with executing := some { code := code, tag := tag, result := r, prior := none } } }

/-- R174's results of the commands that change no state: none where the command has an effect. `published` and
`subscribed` are the records of the region that the argument names. -/
def refusedResult (top : TopState) (code : Byte) (published : Option PubRecord) (subscribed : Option SubRecord) :
    Option ResultCode :=
  if code = 0 ∨ 6 ≤ code.toNat then some .badCommand
  else if code = 1 then (if top = .running then some .badState else none)
  else if code = 2 then (if top = .configured then none else some .badState)
  else if top ≠ .running then some .badState
  else if code = 3 then none
  else if code = 4 then
    match published with
    | none => some .badArg
    | some p => if p.state = .live then none else some .badState
  else if subscribed.isNone then some .badArg else none

/-- The publisher record that a region argument names; above 15 it names none (R174). -/
def pubNamed (s : State) (arg : Byte) : Option PubRecord :=
  if h : arg.toNat < 16 then pubAt s ⟨arg.toNat, h⟩ else none

/-- The subscriber record that a region argument names; above 15 it names none (R174). -/
def subNamed (s : State) (arg : Byte) : Option SubRecord :=
  if h : arg.toNat < 16 then subAt s ⟨arg.toNat, h⟩ else none

/-- A region after START (R10, R15). -/
def startedRegion (master : Bool) (x : Region) : Region :=
  match x.record with
  | .off => x
  | .published p =>
    { x with record := .published { p with
        state := if master then .live else .suspended, generation := p.generation + 1 } }
  | .subscribed q => { x with record := .subscribed { q with state := .unsynced } }

/-- A region after STOP (R14, R22). -/
def stoppedRegion (x : Region) : Region :=
  match x.record with
  | .off => x
  | .published p =>
    { x with record := .published { p with
        state := .off, nextSeq := 0, lastReleased := 255, openBatch := none, retained := [], closePending := false,
        acks := p.acks.map fun e => (e.1, .unknown), pass := none, pendingTargets := 0, endGuard := false,
        quiet := none } }
  | .subscribed _ => { x with record := .subscribed SubRecord.loaded }

/-- The record of a subscribed region replaced, its descriptor kept. -/
def withSub (s : State) (r : RegionId) (q : SubRecord) : State :=
  setRegion s r { desc := descAt s r, record := .subscribed q }

/-- R18: a region that follows its publisher enters UNSYNCED: its refresh fields become absent, its waiting slots are
discarded, and one event is posted with its applied seq. -/
def unsynced (s : State) (r : RegionId) (q : SubRecord) (kind : EventKind) (detail : Nat) : State :=
  let t := withSub s r { q with state := .unsynced, baseSeq := none, expected := none, settle := none }
  post { t with inb := { s.inb with slots := s.inb.slots.filter fun x => x.inProgress || decide (x.region ≠ r) } }
    (mkEvent kind r (descAt s r).publisher q.applied detail)

/-- The released host access of a lowered fence (R85). -/
def fenceReleased (h : Option HostAccess) : Option HostAccess :=
  h.map fun x => if x.condition = .fenceHeld then { x with condition := .awaitingGrant } else x

/-- The memory write of an item of an apply (R80, R81). -/
def itemWrite (s : State) (r : RegionId) (i : ApplyItem) : Access :=
  { addr := (descAt s r).base + BitVec.ofNat 24 (4 * i.offset), write := true, lanes := i.lanes, data := i.data }

/-- The premises of the grant of an apply's write, item `i` at position `k` of slot `x`, at the completion of another access
(R80 to R82, R169). -/
def ApplyWriteMeets (s : State) (x : Slot) (k : Nat) (i : ApplyItem) : Prop :=
  s.path.port ≠ .free ∧ waitingHost s = none ∧ s.path.apply = .waiting ∧
    ∃ rest pos, s.inb.engine = some pos ∧ s.inb.slots = x :: rest ∧
      seekItem (descAt s x.region).length (slotItems x) pos = some (k, i)

/-- An apply write granted, before what follows it (R80, R81): it is in memory and holds the port. -/
def applyGranted (s : State) (r : RegionId) (i : ApplyItem) : State :=
  { s with
    mem := accessMemory s.mem (itemWrite s r i)
    path := { (portFreed s).path with
      port := .busy .apply (itemWrite s r i), last := if s.top = .inReset then .none else .internal, apply := .none } }

/-- The end of an apply that leaves `g`: the fence is lowered and the slot empty there (R82). A DATA apply sets applied seq
to a newer batch seq that accepted seq is at or past, and a SETTLING region that so reaches settle seq becomes CURRENT; a
CHUNK apply with LAST ends the refresh of the pass it belongs to (R17); the apply that a STOP waits for changes no record and
gives the STOP its result (R22, R87, R179). -/
def ApplyCompletes (c : Instr) (s g : State) (x : Slot) : Prop :=
  let r := x.region
  let n := x.seq
  let answers (u : State) : Prop := ∃ t, exec c s = .next t ∧ unmarked t = unmarked u
  let noStop : Prop := (s.agent.executing.all fun e => decide (e.code ≠ 3)) = true
  (∀ rs u, x.content = .data rs → noStop → subAt s r = some u → u.state ≠ .off →
    let takes := 1 ≤ (n - u.applied).toNat ∧ (n - u.applied).toNat ≤ 127 ∧ (u.accepted - n).toNat ≤ 127
    (¬ takes → answers g) ∧
    (takes → u.state ≠ .settling → answers (withSub g r { u with applied := n })) ∧
    (∀ v, takes → u.state = .settling → u.settle = some v → 128 ≤ (n - v).toNat →
      answers (withSub g r { u with applied := n })) ∧
    (∀ v, takes → u.state = .settling → u.settle = some v → (n - v).toNat ≤ 127 → answers
      (post (withSub g r { u with applied := n, state := .current, baseSeq := none, expected := none, settle := none })
        (mkEvent .regionCurrent r (descAt s r).publisher n 0)))) ∧
  (∀ j last ws u, x.content = .chunk j last ws → noStop → subAt s r = some u →
    let ends := last = true ∧ u.state = .refreshing ∧ u.baseSeq = some n
    (¬ ends ∨ u.settle = none → answers g) ∧
    (∀ v, ends → u.settle = some v → (u.applied - v).toNat ≤ 127 → answers
      (post (withSub g r { u with state := .current, baseSeq := none, expected := none, settle := none })
        (mkEvent .regionCurrent r (descAt s r).publisher u.applied 0))) ∧
    (∀ v, ends → u.settle = some v → 128 ≤ (u.applied - v).toNat →
      answers (withSub g r { u with state := .settling, expected := none }))) ∧
  (∀ u e, subAt s r = some u → u.state = .off → s.agent.executing = some e → e.code = 3 → e.result = none →
    answers { g with agent := { s.agent with executing := some { e with result := some .done } } })

/-- The last write of an apply granted: the fence is lowered, the slot is empty and the engine IDLE (R82, R85). -/
def applyEnded (s : State) (r : RegionId) (i : ApplyItem) : State :=
  let g := applyGranted s r i
  { g with
    inb := { slots := s.inb.slots.filter fun y => !y.inProgress, engine := none, fence := none }
    path := { g.path with host := fenceReleased g.path.host } }

/-- A mark is the lowest of a set (R181). -/
def IsLowest (b : BitVec 38) (m : Fin 38) : Prop := b.getLsbD m.val = true ∧ ∀ k : Fin 38, k < m → b.getLsbD k.val = false

/-- No command has reached a result (R181). -/
def NoResult (s : State) : Prop := ∀ x, s.agent.executing = some x → x.result = none ∧ x.prior = none

/-- The step of `c` from `s` to `t` grants an AGENT write of word `index` of the control block: the port was FREE, or its
access completed, and that write now holds it (R161, R169, R180). -/
def AgentWrites (c : Instr) (s t : State) (index : Nat) : Prop :=
  (s.path.port = .free ∨ c = .memoryAccessComplete) ∧ ∃ w, t.path.port = .busy .agent (cbWrite s index 15#4 w)

/-- A mark is clear, and the word waits no longer before the result (R180, R181). -/
def MarkCleared (t : State) (m : Fin 38) : Prop :=
  t.agent.marks.getLsbD m.val = false ∧
    ∀ x b, t.agent.executing = some x → x.prior = some b → b.getLsbD m.val = false

/-- The value of a word that marks follow differs between two states: a host write of the consumer index sets no mark
(R180). -/
def WordMoved (s t : State) (m : Fin 38) : Prop := m ≠ 0 ∧ statusValue t m ≠ statusValue s m

/-- The premises of an AGENT access that is granted at the completion of another access (R169). -/
def AgentMeets (s : State) (q : AgentRequest) : Prop :=
  s.path.port ≠ .free ∧ waitingHost s = none ∧ s.path.apply ≠ .waiting ∧ s.path.snap = false ∧ s.path.agent = some q

/-- An AGENT access granted at that completion: it takes effect on memory and holds the port (R161, R169). -/
def agentGranted (s : State) (a : Access) : State :=
  { s with
    mem := accessMemory s.mem a
    path := { (portFreed s).path with
      port := .busy .agent a, last := if s.top = .inReset then .none else .internal, agent := none } }

/-- The access of the LOAD's next read (R175). -/
def loadAccess (s : State) : Access :=
  { addr := BitVec.ofNat 24 (65536 * s.straps.cba.toNat + 4 * s.agent.loadWords.length), write := false, lanes := 15#4,
    data := 0#32 }

/-- The words of a LOAD with the one that memory holds now (R175, R186). -/
def wordsRead (s : State) : List Word :=
  let w := 65536 * s.straps.cba.toNat + 4 * s.agent.loadWords.length
  s.agent.loadWords ++ [readByte s.mem (w + 3) ++ readByte s.mem (w + 2) ++ readByte s.mem (w + 1) ++ readByte s.mem w]

/-- The unsigned number in `n` bits of a configuration word from bit `lo` (R188). -/
def wordField (ws : List Word) (i lo n : Nat) : Nat := (ws.getD i 0#32).toNat / 2 ^ lo % 2 ^ n

/-- Step 6 of a LOAD's checks for one descriptor, each with its error code, in their order (R176, R188, R189). -/
def descriptorChecks (stn : StationId) (ws : List Word) (i : Fin 16) : List (Prop × LoadError × Fin 16) :=
  let role := wordField ws (5 + 4 * i.val) 9 2
  let base := wordField ws (4 + 4 * i.val) 0 24
  let len := wordField ws (5 + 4 * i.val) 0 9
  let publisher := wordField ws (5 + 4 * i.val) 13 4
  let subscribers : Word := ws.getD (6 + 4 * i.val) 0#32
  let batch := wordField ws (5 + 4 * i.val) 17 5
  [(role ≠ 3, .badField, i),
   (role ≠ 0 → 1 ≤ len ∧ len ≤ 256, .badLength, i),
   (role ≠ 0 → base % 4 = 0 ∧ base + 4 * len - 1 ≤ 0xFFFFFF, .badPlacement, i),
   (role = 2 → publisher ≠ 15 ∧ publisher ≠ stn.val, .badPublisher, i),
   (role = 2 → wordField ws (5 + 4 * i.val) 11 2 < 2, .badField, i),
   (role = 1 → subscribers.getLsbD 15 = false ∧ subscribers.getLsbD stn.val = false, .badSubscribers, i),
   (role = 1 → wordField ws (6 + 4 * i.val) 24 1 = 1 → wordField ws (6 + 4 * i.val) 16 8 < len, .badCloseOffset, i),
   (role = 1 → 1 ≤ batch ∧ batch ≤ 16, .badBatchLimit, i),
   (role = 1 → 1 ≤ wordField ws (7 + 4 * i.val) 16 12, .badHoldLimit, i)]

/-- The checks of a LOAD with their error codes and descriptor indices, in their order (R176, R188, R189). -/
def loadChecks (stn : StationId) (cba : Byte) (ws : List Word) : List (Prop × LoadError × Fin 16) :=
  let field := wordField ws
  let valid (i : Fin 16) : Prop := field (5 + 4 * i.val) 9 2 = 1 ∨ field (5 + 4 * i.val) 9 2 = 2
  let start (i : Fin 16) : Nat := field (4 + 4 * i.val) 0 24
  let stop (i : Fin 16) : Nat := start i + 4 * field (5 + 4 * i.val) 0 9
  [(ws.getD 0 0#32 = 1#32, .badVersion, 0),
   (stn ≠ 15, .badStation, 0),
   (2 ≤ field 1 0 12 ∧ field 1 12 2 ≠ 3 ∧ field 1 14 2 ≠ 3, .badLineFormat, 0),
   (1 ≤ field 2 0 4 ∧ field 2 0 4 ≤ 8 ∧ 1 ≤ field 2 4 3 ∧ 2 ≤ field 2 8 6 ∧ 1 ≤ field 2 16 8, .badTurn, 0),
   (16 ≤ field 3 0 10 ∧ field 2 8 6 + 16 < field 3 0 10 ∧ 24 ≤ field 3 10 10, .badTimeout, 0)] ++
  allIds.flatMap (descriptorChecks stn ws) ++
  allIds.map fun i => (valid i →
    (stop i ≤ 65536 * cba.toNat ∨ 65536 * cba.toNat + 688 ≤ start i) ∧
      ∀ j, j < i → valid j → stop i ≤ start j ∨ stop j ≤ start i, .overlap, i)

/-- An update record as received, with the bits 7..4 of its lane set byte, which reception ignores (R131, R187, R193). -/
def receivedRecord (ignored : BitVec 4) (x : UpdateRecord) : List Byte :=
  x.offset :: (ignored ++ x.lanes) ::
    ([0, 1, 2, 3].filter fun k => x.lanes.getLsbD k).map fun k => x.data.extractLsb' (8 * k) 8

/-- A payload carries the content of a frame of a kind and destination, each field in its place and in its range: what a frame
without a content fault is (R130 to R133, R137, R187, R193). -/
def Carries (kind : Nat) (destination : StationId) (payload : List Byte) (f : Frame) : Prop :=
  let number (n : Nat) : Byte := BitVec.ofNat 8 n
  let set (x : StationSet) : List Byte := [x.extractLsb' 8 8, x.extractLsb' 0 8]
  match f with
  | .poll d cycle budget =>
    kind = 1 ∧ destination = d ∧ d ≠ 15 ∧ budget.toNat ≤ 8 ∧ payload = [cycle, budget]
  | .data x =>
    kind = 2 ∧ destination = 15 ∧ (1 ≤ x.records.length ∧ x.records.length ≤ 16) ∧
      (∀ r ∈ x.records, r.lanes ≠ 0 ∧ ∀ k, k < 4 → r.lanes.getLsbD k = false → r.data.extractLsb' (8 * k) 8 = 0) ∧
      ∃ ignored : List (BitVec 4), ignored.length = x.records.length ∧
        payload = [number x.region.val, x.generation, x.seq, number x.records.length] ++
          (List.zipWith receivedRecord ignored x.records).flatten
  | .chunk x =>
    kind = 3 ∧ destination = 15 ∧ (1 ≤ x.words.length ∧ x.words.length ≤ 16) ∧ x.targets.getLsbD 15 = false ∧
      payload = [number x.region.val, x.generation] ++ set x.targets ++
        [x.baseSeq, number (x.index.val + 128 * (if x.settle.isSome then 1 else 0))] ++ x.settle.toList ++
        [number x.words.length] ++
        x.words.flatMap fun w => [w.extractLsb' 0 8, w.extractLsb' 8 8, w.extractLsb' 16 8, w.extractLsb' 24 8]
  | .yield x =>
    kind = 4 ∧ destination = 15 ∧ x.acks.length + x.summaries.length ≤ 16 ∧
      (∀ r, x.roster = some r → r.getLsbD 15 = false) ∧
      ∃ ignored : BitVec 7,
        payload = [x.cycle, ignored ++ BitVec.ofBool x.roster.isSome, number x.acks.length, number x.summaries.length] ++
          x.roster.elim [] set ++
          (x.acks.flatMap fun a => [number a.region.val, a.generation, a.appliedSeq,
            match a.state with | .unsynced => 1 | .refreshing => 2 | .settling => 3 | .current => 4]) ++
          x.summaries.flatMap fun z => [number z.region.val, z.generation]

/-- A region after a successful LOAD (R1, R9, R15). -/
def regionLoaded (d : Descriptor) : Region :=
  { desc := d
    record := match d.role with
      | .off => .off
      | .publish => .published
        { state := .off, generation := 0, nextSeq := 0, lastReleased := 255, openBatch := none, retained := [],
          closePending := false, acks := (members d.subscribers).map fun x => (x, .unknown), pass := none,
          pendingTargets := 0, endGuard := false, quiet := none, epoch := 0 }
      | .subscribe => .subscribed
        { state := .off, generation := 0, accepted := 255, applied := 255, baseSeq := none, expected := none,
          settle := none } }

/-- A discard on the record (R8); the model's epoch of the region moves on (log 24). -/
def discarded (p : PubRecord) : PubRecord :=
  { p with
    openBatch := none, retained := [], lastReleased := p.nextSeq - 1, closePending := false, quiet := none
    epoch := p.epoch + 1 }

/-- The turn controller after a missed turn of a polled or probed station (R115, R116), before the step that follows. -/
def afterMiss (tc : Turns) (params : TurnParams) (w : Watch) : Turns :=
  let n := tc.misses.get w.station + 1
  if w.probe then { tc with watch := none }
  else
    { tc with
      watch := none
      misses := tc.misses.set w.station.val n w.station.isLt
      removals := if params.missLimit ≤ n then tc.removals ||| (1#16 <<< w.station.val) else tc.removals
      pollPos := tc.pollPos.bind fun i => if i + 1 < tc.pollList.length then some (i + 1) else none }

/-- A turn aborted (R57, R100, R143): the unsent first batches of its turn list return to the head of the send queue, its
passes are set back, both buffers are EMPTY with no read requested (log 32), and the turn is over. -/
def turnAborted (s : State) : State :=
  { s with
    cap := { s.cap with sendQueue := s.del.turnList.filterMap (returnable s) ++ s.cap.sendQueue }
    regions := (setBackPasses s).regions
    fu := { s.fu with assembly := .empty, lineBuf := none }
    path := { s.path with snap := false }
    del := { s.del with turnList := [], kept := none, turn := none } }

/-- A member's turn or probe reply aborted (R124): besides, a SPEAKING member is ENROLLED again, and the line-lost timer
runs from 0. -/
def memberAborted (s : State) : State :=
  { turnAborted s with
    tc := { s.tc with
      member := if s.tc.member = .speaking then .enrolled else s.tc.member
      probeReply := false, lost := .running s.clock.us, gap := .notAwaited } }

/-- The receiver's sampling where nothing has been counted yet: the level of LRX is as it was (R147, R148). -/
def sampledAnew (s : State) : Sampling := { level := s.line.sampling.level, ones := 0, sample := none, centre := [] }

/-- R154: the receiver enters ECHO from whatever state it is in; a FRAME_ERROR FRAMING held back is posted from LOW WATCH, in
RUNNING (R138), and dropped from BREAK. -/
def echoEntered (s : State) : State :=
  let t := match s.line.rx, s.fu.heldFraming with
    | .lowWatch _, some e =>
      let u : State := { s with fu := { s.fu with heldFraming := none } }
      if s.top = TopState.running then post u e else u
    | .inBreak, _ => { s with fu := { s.fu with heldFraming := none } }
    | _, _ => s
  { t with line := { t.line with rx := .echo, sampling := sampledAnew s } }

/-- A frame handed over to the EMPTY line buffer (R140). It begins at once between two frames of a step, and where the
turnaround gap passed before it was there; else it waits for that gap (R113, R122, R154). -/
def frameHandedOver (s : State) (f : TxFrame) : State :=
  let u : State := { s with fu := { s.fu with assembly := .empty, lineBuf := some f } }
  if s.line.tx = .holding false ∨ (s.line.tx = .idle ∧ s.tc.gap = .passed) then
    let t := echoEntered u
    { t with
      line := { t.line with tx := .character, txSince := s.clock.ticks, fault := none }, tc := { t.tc with gap := .notAwaited } }
  else u

/-- The transmission stopped by a collision (R157): IDLE, LDE deasserted, the receiver in ARMING. After MISMATCH and
FRAMING the character in progress has been sent, so the line was last busy now (log 18). -/
def collided (s : State) (f : EchoFault) : State :=
  { s with
    line := { s.line with
      tx := .idle, txSince := s.clock.ticks, fault := none, rx := .arming, sampling := sampledAnew s }
    tc := { s.tc with lineLast := if f = .contention then s.tc.lineLast else s.clock.ticks } }

/-- The master in its silence wait, a break due (R117, R118). -/
def waitsForSilence (s : State) : State :=
  { s with tc := { s.tc with
    phase := .silenceWait, silenceFrom := some s.clock.ticks, breakDue := true, gap := .notAwaited, watch := none } }

/-- The transmission of a frame completed (R142, R154): HOLDING, with the trailing bit time after the last frame of a
step; the line buffer EMPTY. -/
def transmitted (s : State) (last : Bool) : State :=
  { s with
    line := { s.line with tx := .holding last, txSince := s.clock.ticks, fault := none }
    fu := { s.fu with lineBuf := none }
    tc := { s.tc with lineLast := s.clock.ticks } }

/-- A record whose batch `q` was sent in a turn (R57). -/
def sentIn (turn q : Byte) (p : PubRecord) : PubRecord :=
  { p with
    retained := p.retained.map fun b => if b.seq = some q then { b with sent := true, lastTurn := some turn } else b }

/-- A character that ends at `e` as the turn controller hears it (R113, R115, R118): the line was last busy then; in RUNNING
the reply timer stops and the silence timers start anew. -/
def heardAt (s : State) (e : Nat) : State :=
  { s with tc := { s.tc with
    lineLast := e
    gap := if s.straps.stn = 0 ∧ s.tc.gap ≠ .notAwaited then .counting e else s.tc.gap
    watch := if s.top = .running then s.tc.watch.map fun w => { w with reply := none, silence := some s.clock.ticks }
      else s.tc.watch
    silenceFrom := if s.top = .running then s.tc.silenceFrom.map fun _ => s.clock.ticks else s.tc.silenceFrom } }

/-- The line-lost timer after a lead character or a good frame in RUNNING (R125). -/
def lostRestarted (s : State) : LostTimer :=
  match s.tc.lost with
  | .running _ => .running s.clock.us
  | .expired => .running s.clock.us
  | .held => .running s.clock.us
  | .stopped => .stopped

/-- A frame end reported in RUNNING counts in a watched turn (R115, R138). -/
def frameCounted (s : State) : State :=
  { s with tc := { s.tc with
    watch := if s.top = .running then s.tc.watch.map fun w => { w with frames := w.frames + 1 } else s.tc.watch } }

/-- The end of a good frame as the turn controller hears it in RUNNING (R113, R115, R125). -/
def frameHeard (s : State) : State :=
  { heardAt s s.clock.ticks with tc := { (heardAt s s.clock.ticks).tc with lost := lostRestarted s } }

/-- STATION_LOST, with the cycle number of the cycle that starts (R112). -/
def stationLost (s : State) (st : StationId) : Event := mkEvent .stationLost 15 st (s.tc.cycle + 1) s.params.missLimit

/-- STATION_JOINED, with the cycle number of the cycle that starts (R112). -/
def stationJoined (s : State) (st : StationId) : Event := mkEvent .stationJoined 15 st (s.tc.cycle + 1) 0

/-- Steps 1 and 2 of a cycle start, with both pending sets empty after them (R112). -/
def rosterUpdated (s : State) : State :=
  let t := (members s.tc.additions).foldl joinStation ((members s.tc.removals).foldl removeStation s)
  { t with tc := { t.tc with removals := 0, additions := 0 } }

/-- The opening of a member's turn or probe reply (R122): the cycle number recorded, the line-lost timer held at 0, the own
turn counted, the end guards clear, the budget set; the first frames are chosen. -/
def memberOpened (s : State) (k : TurnKind) (budget : Nat) (cycle : Byte) : State :=
  let t : State := { s with tc := { s.tc with
    member := if k = .member then .speaking else s.tc.member, probeReply := decide (k = .probeReply)
    lastCycle := cycle, lost := .held, gap := .counting s.tc.lineLast } }
  pump { (updAllPubs t fun p => { p with endGuard := false }) with del := { s.del with
    ownTurn := s.del.ownTurn + 1, turnList := [], kept := none
    turn := some { kind := k, budget := budget, cycle := cycle, yieldHanded := false, pollEnd := s.tc.lineLast } } }

/-- What a REFCLK cycle made due: the command in the queue and those that wait for their turn (log 10). -/
def dueOf (s : State) : List Instr := s.pending ++ s.clock.due

/-- The next REFCLK cycle of an idle part is a sample tick (R145). -/
def SampleTick (s : State) (f : LineFormat) : Prop :=
  s.pending = [] ∧ s.clock.due = [] ∧ s.top ≠ .inReset ∧ s.line.format = some f ∧ f.divisor ≤ s.clock.tickPhase + 1

/-- A frame fails with FRAME_ERROR, posted in RUNNING (R136 to R138): the receiver is IDLE and the frame end counts. -/
def frameFailed (s : State) (buffer : List Byte) (x : FrameFault) : State :=
  let t := frameCounted { s with fu := { s.fu with rx := .idle } }
  if s.top = .running then
    post t (mkEvent .frameError (bufferRegion buffer) (bufferStation buffer) (BitVec.ofNat 8 (bufferKind buffer)) x.code)
  else t

/-- A lead character is decided (R135): a frame for another station ends muted, one of no kind fails, and any other begins
its reception. -/
def leadDecided (s : State) (b : Byte) : State :=
  if b.extractLsb' 0 4 ≠ BitVec.ofNat 4 s.straps.stn.val ∧ b.extractLsb' 0 4 ≠ 15#4 then
    frameCounted { s with fu := { s.fu with rx := .idle } }
  else if 1 ≤ (b.extractLsb' 4 4).toNat ∧ (b.extractLsb' 4 4).toNat ≤ 4 then
    { s with fu := { s.fu with rx := .receiving [b] (crcByte 0xFFFF b) } }
  else frameFailed s [b] .kind

/-- A lead character is reported: in RUNNING it restarts the line-lost timer (R125, R138). -/
def leadHeard (s : State) : State :=
  { s with tc := { s.tc with lost := if s.top = .running then lostRestarted s else s.tc.lost } }

/-- A character received without an error (R149). -/
def cleanCharacter (b : Byte) (lead : Bool) : VotedChar :=
  { byte := b, lead := lead, parityError := false, framingError := false, allZero := decide (b = 0) && !lead
    firstNoisy := none }

/-- The characters of one frame, the first with lead bit 1 and the others with lead bit 0 (R142), as the frame unit takes
them. -/
def frameDelivered (s : State) : List Byte → State
  | [] => s
  | c :: cs =>
    cs.foldl (fun t b => deliverCharacter t (cleanCharacter b false)) (deliverCharacter s (cleanCharacter c true))

end Sys2Proof.Machine
end

