-- ==== Sys2Proof/Certificates/Slice0/Obligations.lean ====
section
/-! DEFINITION. The statements about the part, one `Obligations.<Name>` each. Their vocabulary stands in Safety.lean. -/

open Sys2Proof Sys2Proof.Machine

/-! ## The step and the queue -/

/-- A step runs the command at the front of the queue on the state with the queue's rest, and no meaning touches the
queue. -/
def Obligations.StepRunsFrontCommand : Prop :=
  (∀ (c : Instr) (rest : List Instr) (s : State), s.pending = c :: rest → step s = exec c { s with pending := rest }) ∧
  (∀ (c : Instr) (s t : State), exec c s = .next t → t.pending = s.pending)

/-- The model's choice (log 5): a step on an empty queue is one REFCLK cycle. It moves the clock, lets the first command that
has come due join the queue and, at a sample tick, samples LRX; nothing else changes. The microsecond timer moves on every
40th cycle (R182), a sample tick comes every `divisor` cycles while the part holds a line format (R145), and with RESET_N
asserted nothing changes. LRX reads the next level that the line holds for it, and the part's own LTX where it holds none
(log 17). The other commands due in that cycle wait for their turn: such a step moves no clock, and the command whose turn it
is joins the queue if it is due still, and else is dropped (log 10).
What is due, by each timer and by what the part does of itself: the quiet interval and the hold limit (R36, R44), the
line-lost timeout (R125), the watched turn (R115), the lapse (R122), the turnaround gap, the pause and the silence wait
(R113, R118), the break and the trailing bit time (R154, R155), the end of a frame (R142), the apply (R79) and the agent's
access (R181). What the sampling of LRX makes due is stated by LineStatesMoveOn and CollisionEndsTheStep. -/
def Obligations.EmptyQueueIsOneRefclkCycle : Prop :=
  (∀ s : State, s.pending = [] →
    (s.top = .inReset → step s = .next s) ∧
    (∀ c rest, s.top ≠ .inReset → s.clock.due = c :: rest →
      let t : State := { s with clock := { s.clock with due := rest } }
      (c ∈ dueNow s → step s = .next { t with pending := [c] }) ∧ (c ∉ dueNow s → step s = .next t)) ∧
    (s.top ≠ .inReset → s.clock.due = [] → ∃ t, step s = .next t ∧
      t = { s with
        clock := t.clock, pending := t.pending
        line := { s.line with sampling := t.line.sampling, fault := t.line.fault, lrx := t.line.lrx } } ∧
      t.pending.length ≤ 1 ∧ (t.pending = [] → t.clock.due = []) ∧ (∀ c, c ∈ dueOf t ↔ c ∈ dueNow t) ∧
      (s.clock.usPhase + 1 < 40 → t.clock.us = s.clock.us ∧ t.clock.usPhase = s.clock.usPhase + 1) ∧
      (40 ≤ s.clock.usPhase + 1 → t.clock.us = s.clock.us + 1 ∧ t.clock.usPhase = 0) ∧
      (s.line.format = none → t.clock.ticks = s.clock.ticks ∧ t.line = s.line) ∧
      (∀ f, s.line.format = some f →
        (s.clock.tickPhase + 1 < f.divisor →
          t.clock.tickPhase = s.clock.tickPhase + 1 ∧ t.clock.ticks = s.clock.ticks ∧ t.line = s.line) ∧
        (f.divisor ≤ s.clock.tickPhase + 1 →
          t.clock.tickPhase = 0 ∧ t.clock.ticks = s.clock.ticks + 1 ∧
          (∀ b rest, s.line.lrx = b :: rest → t.line.sampling.level = b ∧ t.line.lrx = rest) ∧
          (s.line.lrx = [] →
            t.line.sampling.level = ltx { t with line := { t.line with fault := s.line.fault } } ∧ t.line.lrx = []))))) ∧
  (∀ s : State,
    let due (c : Instr) : Prop := c ∈ dueNow s
    let us (since : Word) (n : Nat) : Prop := s.clock.usPhase = 0 ∧ (s.clock.us - since).toNat = n
    let bits (since n : Nat) : Prop := ∃ f, s.line.format = some f ∧ since + n * f.samplesPerBit ≤ s.clock.ticks
    let chars (since n : Nat) : Prop :=
      ∃ f, s.line.format = some f ∧ since + n * (charBits f * f.samplesPerBit) ≤ s.clock.ticks
    (∀ r, due (.quietIntervalExpiry r) ↔ s.top = .running ∧
      ∃ p q, pubAt s r = some p ∧ p.quiet = some q ∧ us q (descAt s r).quietInterval) ∧
    (due .escape ↔ ∃ h p, s.cap.held = some h ∧ pubAt s h.region = some p ∧ p.state = .live ∧
      us h.since (descAt s h.region).holdLimit) ∧
    (due .lineLost ↔ s.top = .running ∧ ∃ q, s.tc.lost = .running q ∧ us q (1000 * s.params.lostMs)) ∧
    (due .replyTimeout ↔ ∃ w q, s.tc.watch = some w ∧ w.reply = some q ∧ bits q s.params.reply) ∧
    (due .turnSilenceTimeout ↔ ∃ w q, s.tc.watch = some w ∧ w.silence = some q ∧ bits q s.params.silence) ∧
    (due .frameCountReached ↔ ∃ w, s.tc.watch = some w ∧ w.budget + 1 ≤ w.frames) ∧
    (due .turnLapse ↔ ∃ x, s.del.turn = some x ∧ x.kind ≠ .own ∧
      ((s.line.tx = .idle ∧ bits x.pollEnd s.params.reply) ∨
        (s.line.tx = .holding false ∧ bits s.line.txSince s.params.silence))) ∧
    (due .turnaroundGap ↔ s.top = .running ∧ s.line.tx = .idle ∧
      ∃ q, s.tc.gap = .counting q ∧ bits q s.params.turnaround) ∧
    (due .pollPauseEnd ↔ s.tc.phase = .pause ∧ ∃ q, s.tc.pauseFrom = some q ∧ bits q s.params.pause) ∧
    (due .silenceWaitEnd ↔ s.tc.phase = .silenceWait ∧ ∃ q, s.tc.silenceFrom = some q ∧ bits q s.params.silence) ∧
    (due .breakLowEnd ↔ s.line.tx = .breakLow ∧ chars s.line.txSince 2) ∧
    (due .breakHighEnd ↔ s.line.tx = .breakHigh ∧ chars s.line.txSince 1) ∧
    (due .trailingBitTimeEnd ↔ s.line.tx = .holding true ∧ bits s.line.txSince 1) ∧
    (due .frameTransmitComplete ↔ s.line.tx = .character ∧ s.line.fault = none ∧
      ∃ x, s.fu.lineBuf = some x ∧ chars s.line.txSince (frameBytes s.straps.stn x.frame).length) ∧
    (due .applyStart ↔ s.inb.engine = none ∧ ∃ x rest, s.inb.slots = x :: rest ∧ x.inProgress = false) ∧
    (due .agentAccessRequest ↔ s.path.agent = none ∧ (chooseAccess s).isSome = true))

/-! ## Memory and the memory port -/

/-- A read after a write of lanes (R160, R186): lane k of the data stands at the word address + k for the lanes of the
set, and every other byte is as it was.
R160, R161, R186: the data of a granted read is, on each lane k of its set, the byte that memory holds at the word address + k;
the word address is the byte address rounded down to a multiple of 4, and lane k of a word is its bits 8k + 7..8k. A
write completes with no data, for which the result holds 0; that a read's other lanes hold 0 is the model's choice (log 38). -/
def Obligations.ReadAfterWriteOfLanes : Prop :=
  (∀ (m : Memory) (a : Access) (x : Nat), Memory.wf m = true →
    readByte (accessMemory m a) x =
      if a.write = true ∧ wordAddress a.addr ≤ x ∧ x < wordAddress a.addr + 4 ∧
          a.lanes.getLsbD (x - wordAddress a.addr) = true
      then laneByte a.data (x - wordAddress a.addr) else readByte m x) ∧
  (∀ (m : Memory) (a : Access),
    (∀ k, a.write = false → k < 4 → laneByte (accessResult m a) k =
      if a.lanes.getLsbD k = true then readByte m (wordAddress a.addr + k) else 0#8) ∧
    (a.write = true → accessResult m a = 0#32)) ∧
  (∀ a : Addr, wordAddress a = a.toNat / 4 * 4) ∧
  (∀ (w : Word) (k : Nat), (laneByte w k).toNat = w.toNat / 2 ^ (8 * k) % 256)

/-- In one step memory takes at most one access, which then holds the port; while the port is BUSY only the memory's
completion, or nothing, changes it (R161, R168, R169). That the port stays BUSY through RESET_N_ASSERT, where R168's table
gives FREE after RESET_N, is the model's reading (log 14). -/
def Obligations.OneAccessInAStep : Prop :=
  ∀ (c : Instr) (s t : State), exec c s = .next t →
    (t.mem = s.mem ∨ ∃ q a, t.path.port = .busy q a ∧ t.mem = accessMemory s.mem a) ∧
    (∀ q a, s.path.port = .busy q a → c ≠ .memoryAccessComplete → t.path.port = s.path.port ∧ t.mem = s.mem)

/-- R160: the host access is a waiting request of HOST where it is in AWAITING GRANT.
The arbiter's table (R169): HOST unless the last grant was HOST's, then APPLY, SNAP, AGENT, then HOST alone.
R161, R168, R169: what `settle` does, with which every command but the reset events ends, its marks aside
(ChangedStatusWordIsMarked states them): nothing while the port is BUSY or where no request waits, and else the one grant that
the table gives, at a FREE port in the step in which the request comes. Such a grant, a SNAP read's in the step that
chose its chunk among them (R96), does what it does at the completion of an internal access. -/
def Obligations.ArbiterGrantsByTheTable : Prop :=
  (∀ s : State,
    (∀ h, waitingHost s = some h ↔ s.path.host = some h ∧ h.condition = .awaitingGrant) ∧
    (hostWaits s = true ↔ ∃ h, waitingHost s = some h)) ∧
  (∀ s : State,
    (∀ h, waitingHost s = some h → s.path.last ≠ .host → grantNext s = some (grantHost s h)) ∧
    (waitingHost s = none ∨ s.path.last = .host →
      (s.path.apply = .waiting → grantNext s = some (grantApplyPort s)) ∧
      (s.path.apply ≠ .waiting → s.path.snap = true → grantNext s = some (grantSnapPort s)) ∧
      (∀ q, s.path.apply ≠ .waiting → s.path.snap = false → s.path.agent = some q →
        grantNext s = some (grantAgentPort s q)) ∧
      (s.path.apply ≠ .waiting → s.path.snap = false → s.path.agent = none →
        grantNext s = (waitingHost s).map (grantHost s)))) ∧
  (∀ s u : State,
    (u.path.port ≠ .free ∨ grantNext u = none → unmarked (settle s u) = unmarked u) ∧
    (∀ v, u.path.port = .free → grantNext u = some v → unmarked (settle s u) = unmarked v) ∧
    (∀ q a, u.path.port = .free → q ≠ .host →
      ∃ t, exec .memoryAccessComplete { u with path := { u.path with port := .busy q a } } = .next t ∧
        unmarked (settle s u) = unmarked t))

/-! ## Invariants -/

/-- The state after reset meets every invariant below. -/
def Obligations.ResetMeetsTheInvariants : Prop :=
  MemoryOk State.reset ∧ EventsBounded State.reset ∧ SlotsBounded State.reset ∧ RetainedBounded State.reset ∧
    PoolBounded State.reset ∧ Served State.reset

/-- Every step keeps the memory in its canonical form. -/
def Obligations.StepKeepsMemoryCanonical : Prop :=
  ∀ s t : State, MemoryOk s → step s = .next t → MemoryOk t

/-- Every step keeps the pending list within 8 events, the staging slots within 2 and each retained list within 4
(R26, R69, R183), and the batches and the claim within the pool's 64 records (R25). -/
def Obligations.StepKeepsBoundedStores : Prop :=
  (∀ s t : State, EventsBounded s ∧ SlotsBounded s ∧ RetainedBounded s → step s = .next t →
     EventsBounded t ∧ SlotsBounded t ∧ RetainedBounded t) ∧
  (∀ s t : State, PoolBounded s → step s = .next t → PoolBounded t)

/-- Every step keeps what the memory path holds of its requests and of the host access: a FREE port leaves no request
waiting, and a claim, a held write and a kept back apply belong to a host access in their condition (R30, R42, R79,
R165, R169). -/
def Obligations.StepKeepsMemoryPathServed : Prop :=
  ∀ s t : State, Served s → step s = .next t → Served t

/-! ## The host port -/

/-- R160 to R162, R168, R169, R171: a host access that the table of R162 passes is granted in its own step when the ports are
free: its bytes are in memory, a read's data is on each of its lanes what memory held (log 38 for the others), the port is BUSY with it, and nothing else of the part
changes. While the port is BUSY it waits in AWAITING GRANT, and memory stands.
R3: the word of an access is in the control block where it lies in its 172 words, and in a region where a valid region holds
it, from its base to base + 4 × length, at the word offset counted from there; an OFF region holds nothing. Valid regions
share no word (R2; LoadReadsChecksAndConfigures), so that the region found is the one that holds it.
R1, R9, R15: the region table holds a descriptor and a record for each id, and a record replaced is replaced at its id alone;
a region is LIVE by its publisher record. -/
def Obligations.PassedAccessIsGrantedOrWaits : Prop :=
  (∀ (a : Access) (s : State), HostPortOpen s → PassedByTable s a → Unobserved s a →
     ∃ t, exec (.hostAccess a) s = .next t ∧
       t.mem = accessMemory s.mem a ∧
       t.path = { s.path with
         host := some { access := a, condition := .granted, result := accessResult s.mem a }
         port := .busy .host a
         last := if s.top = .inReset then .none else .host } ∧
       unmarked t = unmarked { s with mem := t.mem, path := t.path } ∧
       ∀ k, a.write = false → k < 4 → a.lanes.getLsbD k = true →
         laneByte (accessResult s.mem a) k = readByte s.mem (a.addr.toNat / 4 * 4 + k)) ∧
  (∀ (a : Access) (s : State), s.path.host = none → s.path.port ≠ .free → PassedByTable s a →
     ∃ t, exec (.hostAccess a) s = .next t ∧
       unmarked t = unmarked { s with path := { s.path with
         host := some { access := a, condition := .awaitingGrant, result := 0#32 } } }) ∧
  (∀ (s : State) (a : Addr),
     let w := a.toNat / 4 * 4
     let b := 65536 * s.straps.cba.toNat
     let base (r : RegionId) : Nat := (descAt s r).base.toNat
     let holds (r : RegionId) : Prop :=
       ((descAt s r).role = .publish ∨ (descAt s r).role = .subscribe) ∧ base r ≤ w ∧ w < base r + 4 * (descAt s r).length
     (∀ i, matchAddress s a = .block i ↔ b ≤ w ∧ w < b + 688 ∧ i = (w - b) / 4) ∧
     (∀ r o, matchAddress s a = .region r o →
       ¬ (b ≤ w ∧ w < b + 688) ∧ holds r ∧ o = (w - base r) / 4 ∧ o < (descAt s r).length) ∧
     (∀ r, ¬ (b ≤ w ∧ w < b + 688) → holds r → (∀ q, holds q → q = r) →
       matchAddress s a = .region r ((w - base r) / 4)) ∧
     (matchAddress s a = .none ↔ ¬ (b ≤ w ∧ w < b + 688) ∧ ∀ r, ¬ holds r)) ∧
  (∀ (s : State) (r : RegionId),
     let replaced (x : RegionRecord) : State :=
       { s with regions := s.regions.set r.val { desc := descAt s r, record := x } r.isLt }
     regionAt s r = s.regions.get r ∧ descAt s r = (regionAt s r).desc ∧
     (∀ p, pubAt s r = some p ↔ (regionAt s r).record = .published p) ∧
     (∀ q, subAt s r = some q ↔ (regionAt s r).record = .subscribed q) ∧
     (∀ p, withPub s r p = replaced (.published p)) ∧ (∀ q, withSub s r q = replaced (.subscribed q)) ∧
     (isLive s r = true ↔ ∃ p, pubAt s r = some p ∧ p.state = .live))

/-- R163: a write to a part-owned word in CONFIGURED or RUNNING, and a write to a GUARDED subscribed region in RUNNING,
completes at its presentation without a memory access; one event is posted, and nothing else changes. -/
def Obligations.DroppedWriteLeavesOneEvent : Prop :=
  ∀ (a : Access) (s : State), s.path.host = none → PortServes s → a.write = true →
    (∀ i, (s.top = .configured ∨ s.top = .running) → matchAddress s a.addr = .block i → ¬ i ≤ 68 → i ≠ 70 →
      ∃ t, exec (.hostAccess a) s = .next t ∧
        unmarked t = unmarked (post { s with path := { s.path with reply := some { access := a, data := 0#32 } } }
          (mkEvent .cbGuard 15 15 (BitVec.ofNat 8 i) a.lanes.toNat))) ∧
    (∀ r o, s.top = .running → matchAddress s a.addr = .region r o → (descAt s r).role = .subscribe →
      (descAt s r).guard = .guarded →
      ∃ t, exec (.hostAccess a) s = .next t ∧
        unmarked t = unmarked (post { s with path := { s.path with reply := some { access := a, data := 0#32 } } }
          (mkEvent .guardDrop r (descAt s r).publisher (BitVec.ofNat 8 o) a.lanes.toNat)))

/-- R84, R165: in RUNNING a read of the fenced region, and a write to it when it is OPEN, is FENCE HELD; nothing else
changes. -/
def Obligations.FencedAccessIsHeld : Prop :=
  ∀ (a : Access) (s : State) (r : RegionId) (o : Nat), s.path.host = none → PortServes s → s.top = .running →
    matchAddress s a.addr = .region r o → (descAt s r).role = .subscribe →
    (a.write = true → (descAt s r).guard = .openMode) → s.inb.fence = some r →
    ∃ t, exec (.hostAccess a) s = .next t ∧
      unmarked t = unmarked { s with path := { s.path with
        host := some { access := a, condition := .fenceHeld, result := 0#32 } } }

/-- The model's choice (log 2): the nine commands that present a host access fault when one is outstanding, which R160
excludes. -/
def Obligations.SecondHostAccessFaults : Prop :=
  ∀ (c : Instr) (s : State), s.path.host.isSome = true →
    (match c with
      | .hostAccess _ => True
      | .consumerIndexWrite _ _ => True
      | .cbWordWrite _ _ _ => True
      | .load _ _ => True
      | .start _ _ => True
      | .stop _ _ => True
      | .flush _ _ => True
      | .resync _ _ => True
      | .badCommand _ _ _ => True
      | _ => False) →
    exec c s = .fault .hostAccessOutstanding

/-- R164, R171, R173: a host write of a configuration word, a write of the command word that does not carry all four lanes,
and any command write with RESET_N asserted only reach memory. R161, R169: in this statement and those of the commands the
grant falls in the step that presents the write, with the ports free, or at the completion of the internal access it waited
for. -/
def Obligations.WritesThatOnlyReachMemory : Prop :=
  (∀ (x : Instr) (w : Fin 172) (l : Lanes) (d : Word) (s : State),
     GrantsAccess x (.cbWordWrite w l d) s (cbWrite s w.val l d) → w.val < 68 ∨ (w.val = 68 ∧ l ≠ 15#4) →
     ∃ t, exec x s = .next t ∧ unmarked t = unmarked (grantedNow s (cbWrite s w.val l d))) ∧
  (∀ (x c : Instr) (code region tag : Byte) (s : State), commandFields c = some (code, region, tag) →
     GrantsAccess x c s (commandWrite s code region tag) → s.top = .inReset →
     ∃ t, exec x s = .next t ∧ unmarked t = unmarked (grantedNow s (commandWrite s code region tag)))

/-- R185: a consumer index write reaches memory; the agent's copy takes its lanes, the consumer index takes a copy
of 0..31, and ATTN compares with it. R184: the first write of an event that waits at the arbiter is withdrawn where the ring
now holds 31 (log 33). A lane of a set is the byte of the word at its place (R186). -/
def Obligations.ConsumerIndexFollowsTheHost : Prop :=
  (∀ (x : Instr) (l : Lanes) (d : Word) (s : State), GrantsAccess x (.consumerIndexWrite l d) s (cbWrite s 70 l d) →
    s.top ≠ .inReset →
    let g := grantedNow s (cbWrite s 70 l d)
    let copy := (s.agent.copy &&& ~~~ laneMask l) ||| (d &&& laneMask l)
    let consumer := if copy.toNat ≤ 31 then copy.extractLsb' 0 5 else s.agent.consumer
    ∃ t, exec x s = .next t ∧ unmarked t = unmarked { g with
        path := { g.path with agent :=
          if s.path.agent = some .eventFirst ∧ 31 ≤ (s.agent.producer - consumer).toNat then none else s.path.agent }
        agent := { s.agent with copy := copy, consumer := consumer, attn := decide (s.agent.written ≠ consumer) } }) ∧
  (∀ (l : Lanes) (i : Nat), i < 32 → (laneMask l).getLsbD i = l.getLsbD (i / 8))

/-! ## Write capture -/

/-- R29 and R31 to R33: MERGE, APPEND, OPEN and FULL. The write is in memory, and joins its batch at the same grant. R30:
presented while the port is BUSY, it makes a claim for its decision, deferred to nothing yet, and awaits grant. -/
def Obligations.CapturedWriteJoinsItsBatch : Prop :=
  (∀ (a : Access) (s : State) (r : RegionId) (o : Nat) (p : PubRecord), CaptureMeets s a r o p →
    let w : Byte := BitVec.ofNat 8 o
    let g := grantedNow s a
    (∀ b, p.openBatch = some b → (b.records.any fun x => decide (x.offset = w)) = true →
      ∃ t, exec (.hostAccess a) s = .next t ∧
        unmarked t = unmarked (joined g r w { b with records := b.records.map (mergedRecord w a) })) ∧
    (∀ b, p.openBatch = some b → (b.records.any fun x => decide (x.offset = w)) = false →
      b.records.length < (descAt s r).batchLimit → poolLevel s < 64 →
      ∃ t, exec (.hostAccess a) s = .next t ∧
        unmarked t = unmarked (joined g r w { b with records := b.records ++ [writeRecord w a] })) ∧
    (∀ b, p.openBatch = some b → (b.records.any fun x => decide (x.offset = w)) = false →
      (descAt s r).batchLimit ≤ b.records.length → p.retained.length < 4 → poolLevel s < 64 →
      ∃ t, exec (.hostAccess a) s = .next t ∧
        unmarked t = unmarked (joined (closedBatch g r p b) r w (newBatch r w a))) ∧
    (p.openBatch = none → poolLevel s < 64 →
      ∃ t, exec (.hostAccess a) s = .next t ∧ unmarked t = unmarked (joined g r w (newBatch r w a)))) ∧
  (∀ (a : Access) (s : State) (r : RegionId) (o : Nat) (p : PubRecord) (d : CaptureDecision), s.path.host = none →
    s.path.port ≠ .free → s.top = .running → a.write = true → matchAddress s a.addr = .region r o →
    (descAt s r).role = .publish → pubAt s r = some p → p.state = .live →
    let w : Byte := BitVec.ofNat 8 o
    CaptureCase s r p w d →
    ∃ t, exec (.hostAccess a) s = .next t ∧ unmarked t = unmarked { s with
      cap := { s.cap with claim := some { region := r, offset := w, decision := d, deferred := false }, held := none }
      path := { s.path with host := some { access := a, condition := .awaitingGrant, result := 0#32 } } })

/-- R29 and R42: the HOLD rows, whatever the memory port is doing. The write does not reach the arbiter: it is kept with its
reason, the hold timer starts now, and the access is CAPTURE HELD. With the batch at its limit, fewer than 4 retained and no record free, the batch
closes first. -/
def Obligations.UncapturableWriteIsHeld : Prop :=
  ∀ (a : Access) (s : State) (r : RegionId) (o : Nat) (p : PubRecord), Served s → s.path.host = none →
    s.top = .running → a.write = true → matchAddress s a.addr = .region r o → (descAt s r).role = .publish →
    pubAt s r = some p → p.state = .live →
    let w : Byte := BitVec.ofNat 8 o
    let heldAs : State → HoldReason → State := fun g x =>
      { g with
        cap := { g.cap with held := some { region := r, offset := w, lanes := a.lanes, data := a.data &&& laneMask a.lanes,
                                           reason := x, since := s.clock.us } }
        path := { s.path with host := some { access := a, condition := .captureHeld, result := 0#32 } } }
    (∀ b, p.openBatch = some b → (b.records.any fun x => decide (x.offset = w)) = false →
      (b.records.length < (descAt s r).batchLimit → 64 ≤ poolLevel s →
        ∃ t, exec (.hostAccess a) s = .next t ∧ unmarked t = unmarked (heldAs s .pool)) ∧
      ((descAt s r).batchLimit ≤ b.records.length → p.retained.length < 4 → 64 ≤ poolLevel s →
        ∃ t, exec (.hostAccess a) s = .next t ∧ unmarked t = unmarked (heldAs (closeBatch s r) .pool)) ∧
      ((descAt s r).batchLimit ≤ b.records.length → 4 ≤ p.retained.length →
        ∃ t, exec (.hostAccess a) s = .next t ∧ unmarked t = unmarked (heldAs s .limit))) ∧
    (p.openBatch = none → 64 ≤ poolLevel s →
      ∃ t, exec (.hostAccess a) s = .next t ∧ unmarked t = unmarked (heldAs s .pool))

/-- R31: at the grant of a write decided MERGE, the record for its word in the open batch takes the write's bytes: its lanes
become the union, each lane the write carries holds the write's byte, the other lanes keep theirs, and the record keeps
its place. The other records, the record count and the pool level stay. A close that is due with the grant (R33) is
taken on the batch so merged. -/
def Obligations.MergeTakesTheWritesBytes : Prop :=
  ∀ (s : State) (c : Claim) (a : Access) (p : PubRecord) (b : Batch), s.cap.claim = some c → c.decision = .merge →
    pubAt s c.region = some p → p.openBatch = some b →
    ∃ (u : State) (p' : PubRecord) (m : Batch), pubAt u c.region = some p' ∧ p'.openBatch = some m ∧
      poolLevel u = poolLevel s ∧ m.records.length = b.records.length ∧
      (∀ (i : Nat) (x : UpdateRecord), b.records[i]? = some x →
        (x.offset ≠ c.offset → m.records[i]? = some x) ∧
        (x.offset = c.offset → ∃ y : UpdateRecord, m.records[i]? = some y ∧ y.offset = c.offset ∧
          y.lanes = x.lanes ||| a.lanes ∧
          ∀ k, k < 4 → laneByte y.data k = if a.lanes.getLsbD k then laneByte a.data k else laneByte x.data k)) ∧
      grantCaptured s c a =
        if (descAt s c.region).closeOffset = some c.offset ∨ c.deferred = true then closeOrPend u c.region else u

/-- R34, R36, R40: the expiry of a quiet measurement closes the open batch with next seq, to the tails of the retained
list and of the send queue; with 4 batches retained it sets close-pending; with a claim of the region awaiting grant it
defers the close to the grant. -/
def Obligations.QuietExpiryCloses : Prop :=
  ∀ (r : RegionId) (s : State) (p : PubRecord) (b : Batch), PortServes s → s.top = .running → pubAt s r = some p →
    p.openBatch = some b → p.quiet.isSome = true →
    ((s.cap.claim.any fun c => decide (c.region = r)) = false → p.retained.length < 4 →
      ∃ t, exec (.quietIntervalExpiry r) s = .next t ∧ unmarked t = unmarked
        (withPub { s with cap := { s.cap with sendQueue := s.cap.sendQueue ++ [(r, p.nextSeq)] } } r
          { p with
            nextSeq := p.nextSeq + 1
            retained := p.retained ++ [{ b with seq := some p.nextSeq, sent := false }]
            openBatch := none
            quiet := none
            closePending := false })) ∧
    ((s.cap.claim.any fun c => decide (c.region = r)) = false → 4 ≤ p.retained.length →
      ∃ t, exec (.quietIntervalExpiry r) s = .next t ∧ unmarked t = unmarked (withPub s r { p with closePending := true })) ∧
    (∀ c, s.cap.claim = some c → c.region = r →
      ∃ t, exec (.quietIntervalExpiry r) s = .next t ∧ unmarked t = unmarked
        { s with cap := { s.cap with claim := some { c with deferred := true } } })

/-- R41, R55: what one release does to its region, and that the check goes on until the oldest retained batch fails it:
unsent, lacked by a TRACKING entry, or none retained. With the batch its records leave, and last released is its seq; then
the close that was pending is taken, or deferred to the grant while a claim of the region awaits it; then the held write
is decided again.
R43, R29: a held write decided again is captured, with its claim, or stays held with its reason and its timer; where the
full batch closes at once, that close is made and it stays held for want of a record. -/
def Obligations.ReleaseCheckRunsToItsEnd : Prop :=
  (∀ (s : State) (r : RegionId),
    releasable (releaseCheck s r) r = false ∧
    (releasable s r = false → releaseCheck s r = s) ∧
    (releasable s r = true → releaseCheck s r = releaseCheck (releaseOldest s r) r) ∧
    (∀ p b rest, pubAt s r = some p → p.state = .live → p.retained = b :: rest →
      let p' : PubRecord := { p with retained := rest, lastReleased := b.seq.getD p.lastReleased }
      let u := withPub s r p'
      (releasable s r = true ↔ b.sent = true ∧ ∀ e ∈ p.acks, ∀ q h, e.2 = .tracking q h → (q - b.seq.getD 0).toNat ≤ 127) ∧
      (p.closePending = false → releaseOldest s r = reevaluate u) ∧
      (p.closePending = true →
        (∀ c, s.cap.claim = some c → c.region = r → releaseOldest s r =
          reevaluate { u with cap := { s.cap with claim := some { c with deferred := true } } }) ∧
        (∀ x, (∀ c, s.cap.claim = some c → c.region ≠ r) → p.openBatch = some x → rest.length < 4 →
          releaseOldest s r = reevaluate (closedBatch u r p' x))))) ∧
  (∀ s : State,
    (s.cap.held = none → reevaluate s = s) ∧
    (∀ h p, s.cap.held = some h → pubAt s h.region = some p → p.state = .live →
      (∀ d, CaptureCase s h.region p h.offset d → reevaluate s = claimMade s h.region h.offset d) ∧
      (∀ x, HoldCase s h.region p h.offset x → reevaluate s = stillHeld s h x) ∧
      (∀ b, p.openBatch = some b → (b.records.any fun x => decide (x.offset = h.offset)) = false →
        (descAt s h.region).batchLimit ≤ b.records.length → p.retained.length < 4 → 64 ≤ poolLevel s →
        reevaluate s = stillHeld (closedBatch s h.region p b) h .pool)))

/-! ## Commands -/

/-- R173: a command write while a command executes reaches memory and posts CMD_BUSY; nothing else changes. -/
def Obligations.CommandWhileOneExecutesIsRefused : Prop :=
  ∀ (x c : Instr) (code region tag : Byte) (s : State), commandFields c = some (code, region, tag) →
    GrantsAccess x c s (commandWrite s code region tag) → s.top ≠ .inReset → s.agent.executing.isSome = true →
    ∃ t, exec x s = .next t ∧
      unmarked t = unmarked (post (grantedNow s (commandWrite s code region tag))
        (mkEvent .cmdBusy (if h : region.toNat < 16 then ⟨region.toNat, h⟩ else 15) 15 code tag.toNat))

/-- R173, R174: the results BAD_COMMAND, BAD_STATE and BAD_ARG. The command executes until its result write, and nothing
else changes. -/
def Obligations.RefusedCommandOnlyGivesItsResult : Prop :=
  ∀ (x c : Instr) (code region tag : Byte) (r : ResultCode) (s : State), commandFields c = some (code, region, tag) →
    GrantsAccess x c s (commandWrite s code region tag) → s.agent.executing = none → s.top = .unconfigured ∨ s.top = .configured ∨ s.top = .running →
    refusedResult s.top code (pubNamed s region) (subNamed s region) = some r →
    ∃ t, exec x s = .next t ∧ unmarked t = unmarked (commandTaken s code region tag (some r))

/-- R174, R175: a LOAD taken in UNCONFIGURED or CONFIGURED enters LOADING: the receiver and transmitter are OFF, a frame in
reception is dropped with both buffers, and no word has been read. Of the agent's accesses that wait at the arbiter an event's
second or third write stands, and any other is withdrawn (R184; log 15). -/
def Obligations.LoadEntersLoading : Prop :=
  ∀ (x : Instr) (region tag : Byte) (s : State), GrantsAccess x (.load region tag) s (commandWrite s 1 region tag) →
    s.agent.executing = none → s.top = .unconfigured ∨ s.top = .configured →
    let g := commandTaken s 1 region tag none
    ∃ t, exec x s = .next t ∧
      unmarked t = unmarked { g with
        top := .loading
        path := { g.path with agent := s.path.agent.filter fun q => decide (q = .eventSecond ∨ q = .eventThird) }
        line := { s.line with rx := .off, tx := .off, gapFrom := none, sampling := sampledAnew s, fault := none }
        fu := { rx := .idle, heldFraming := none, assembly := .empty, lineBuf := none }
        agent := { g.agent with loadWords := [] } }

/-- R178, R179: START taken in CONFIGURED: the part is RUNNING and the result is DONE. STOP taken in RUNNING: the part is
CONFIGURED; the result is DONE when no apply is in progress, and is not yet reached when one is (R87). Every block has
its response, and nothing else changes. R47, R126: STOP writes the roster set word and the pool word: their marks are set,
changed or not. R113, R158: a character or a break that STOP cuts short is the part's last transmission on the line (log 35). -/
def Obligations.StartAndStopMoveThePart : Prop :=
  (∀ (x : Instr) (region tag : Byte) (s : State), GrantsAccess x (.start region tag) s (commandWrite s 2 region tag) →
     s.agent.executing = none → s.top = .configured →
     let g := commandTaken s 2 region tag (some .done)
     ∃ t, exec x s = .next t ∧
       (∀ r, regionAt t r = startedRegion (decide (s.straps.stn = 0)) (regionAt s r)) ∧
       unmarked t = unmarked { g with
         top := .running
         regions := t.regions
         del := { s.del with ownTurn := 0, roundRobin := 15, turnList := [], kept := none, turn := none }
         line := { s.line with noisy := false, clean := 0 }
         tc :=
           if s.straps.stn = 0 then
             { s.tc with
               roster := 1#16, cycle := 255, pollList := [], pollPos := none, probePos := 14,
               misses := Vector.replicate 16 0, removals := 0, additions := 0, breakDue := true, next := .cycleStart,
               watch := none, pauseFrom := none, silenceFrom := none, phase := .breaking,
               gap := .counting s.tc.lineLast }
           else
             { s.tc with
               roster := 0, member := .listening, probeReply := false, lastCycle := 0, lost := .running s.clock.us,
               gap := .notAwaited } }) ∧
  (∀ (x : Instr) (region tag : Byte) (s : State), GrantsAccess x (.stop region tag) s (commandWrite s 3 region tag) →
     s.agent.executing = none → s.top = .running →
     let g := commandTaken s 3 region tag (if s.inb.engine.isSome then none else some .done)
     ∃ t, exec x s = .next t ∧ t.agent.marks.getLsbD 4 = true ∧ t.agent.marks.getLsbD 5 = true ∧
       (∀ r, regionAt t r = stoppedRegion (regionAt s r)) ∧
       unmarked t = unmarked { g with
         top := .configured
         regions := t.regions
         path := { g.path with snap := false }
         cap := { sendQueue := [], claim := none, held := none }
         inb := { s.inb with slots := s.inb.slots.filter fun x => x.inProgress }
         del := { s.del with turnList := [], kept := none, turn := none }
         fu := { s.fu with assembly := .empty, lineBuf := none }
         line := { s.line with
           tx := if s.line.tx = .off then .off else .idle
           txSince := if s.line.tx = .off then s.line.txSince else s.clock.ticks
           fault := if s.line.tx = .off then s.line.fault else none
           rx := if s.line.rx = .echo then .arming else s.line.rx
           sampling := if s.line.rx = .echo then sampledAnew s else s.line.sampling }
         tc := { s.tc with
           lineLast :=
             if s.line.tx = .character ∨ s.line.tx = .breakLow ∨ s.line.tx = .breakHigh then s.clock.ticks
             else s.tc.lineLast
           roster := 0, phase := .detached, pollList := [], pollPos := none, misses := Vector.replicate 16 0,
           removals := 0, additions := 0, breakDue := false, next := .cycleStart, watch := none, pauseFrom := none,
           silenceFrom := none, member := .detached, probeReply := false, lost := .stopped, gap := .notAwaited } })

/-- R38: FLUSH of a LIVE published region gives DONE and closes its open batch, or sets close-pending with 4 batches
retained; with no batch open it has no effect. R21, R174: RESYNC of a subscribed region gives DONE, and the region enters
UNSYNCED with cause RESYNC unless it is there already. -/
def Obligations.FlushAndResyncAct : Prop :=
  (∀ (x : Instr) (r : RegionId) (tag : Byte) (p : PubRecord) (s : State),
     let region : Byte := BitVec.ofNat 8 r.val
     GrantsAccess x (.flush region tag) s (commandWrite s 4 region tag) → s.agent.executing = none → s.top = .running →
     pubAt s r = some p → p.state = .live →
     let g := commandTaken s 4 region tag (some .done)
     (p.openBatch = none → ∃ t, exec x s = .next t ∧ unmarked t = unmarked g) ∧
     (∀ b, p.openBatch = some b → 4 ≤ p.retained.length →
       ∃ t, exec x s = .next t ∧ unmarked t = unmarked (withPub g r { p with closePending := true })) ∧
     (∀ b, p.openBatch = some b → p.retained.length < 4 →
       ∃ t, exec x s = .next t ∧ unmarked t = unmarked
         (withPub { g with cap := { g.cap with sendQueue := g.cap.sendQueue ++ [(r, p.nextSeq)] } } r
           { p with
             nextSeq := p.nextSeq + 1
             retained := p.retained ++ [{ b with seq := some p.nextSeq, sent := false }]
             openBatch := none
             quiet := none
             closePending := false }))) ∧
  (∀ (x : Instr) (r : RegionId) (tag : Byte) (q : SubRecord) (s : State),
     let region : Byte := BitVec.ofNat 8 r.val
     GrantsAccess x (.resync region tag) s (commandWrite s 5 region tag) → s.agent.executing = none → s.top = .running →
     subAt s r = some q →
     let g := commandTaken s 5 region tag (some .done)
     (q.state = .unsynced → ∃ t, exec x s = .next t ∧ unmarked t = unmarked g) ∧
     (q.state = .refreshing ∨ q.state = .settling ∨ q.state = .current →
       ∃ t, exec x s = .next t ∧ unmarked t = unmarked (unsynced g r q .regionUnsynced 4)))

/-! ## The memory port, the apply engine and the agent -/

/-- R161, R168, R169, R79: the completion of the host's own access is returned to the host with the data fixed at its grant;
an internal access's completion only frees the port, and nothing else changes when nothing waits. A host access that waits
is granted at an internal completion, and the apply request that was kept back for it arrives (`grantedNow`); what the agent
observes in it is stated by WritesThatOnlyReachMemory, ConsumerIndexFollowsTheHost and the statements of the commands.
R95 to R97: the grant of a SNAP read reads the next word of the chunk in assembly with all four lanes, from base + 4 × its
offset, and requests the next; with the last one the CHUNK frame is COMPLETE, with the fields of its pass. R39, R98: with
the last chunk's last read the refresh close is due, and the pass and the frame take the settle seq. -/
def Obligations.CompletionFreesOrRegrantsThePort : Prop :=
  (∀ (s : State) (q : Requester) (b : Access), s.path.port = .busy q b → waitingHost s = none →
     s.path.apply ≠ .waiting → s.path.snap = false → s.path.agent = none →
     (∀ h, q = .host → s.path.host = some h → h.condition = .granted →
       ∃ t, exec .memoryAccessComplete s = .next t ∧ unmarked t = unmarked { s with path := { s.path with
         port := .free, host := none, reply := some { access := h.access, data := h.result } } }) ∧
     (q ≠ .host →
       ∃ t, exec .memoryAccessComplete s = .next t ∧ unmarked t = unmarked { s with path := { s.path with port := .free } })) ∧
  (∀ (s : State) (q : Requester) (b : Access) (h : HostAccess), s.path.port = .busy q b → q ≠ .host →
     s.path.host = some h → h.condition = .awaitingGrant → s.path.last ≠ .host → s.cap.claim = none →
     Unobserved s h.access →
     ∃ t, exec .memoryAccessComplete s = .next t ∧ unmarked t = unmarked (grantedNow s h.access)) ∧
  (∀ (s : State) (r : RegionId) (k n : Nat) (ws : List Word), s.path.port ≠ .free →
     waitingHost s = none → s.path.apply ≠ .waiting → s.path.snap = true →
     s.fu.assembly = .assembling r k n ws →
     let len := (descAt s r).length
     let a : Access :=
       { addr := (descAt s r).base + BitVec.ofNat 24 (4 * (16 * k + ws.length)), write := false, lanes := 15#4, data := 0#32 }
     let words := ws ++ [wordAt s.mem (wordAddress a.addr)]
     let g : State := { s with path := { (portFreed s).path with
       port := .busy .snap a, last := if s.top = .inReset then .none else .internal, snap := false } }
     let answers (u : State) := ∃ t, exec .memoryAccessComplete s = .next t ∧ unmarked t = unmarked u
     (words.length < min 16 (len - 16 * k) → answers { g with
       fu := { s.fu with assembly := .assembling r k n words }, path := { g.path with snap := true } }) ∧
     (∀ p c, min 16 (len - 16 * k) ≤ words.length → pubAt s r = some p → p.pass = some c →
       let complete (u : State) (z : Option Byte) : State :=
         let f : ChunkFrame :=
           { region := r, generation := p.generation, targets := c.targets, baseSeq := c.baseSeq.getD 0
             index := Fin.ofNat 16 k, settle := z, words := words }
         pump { u with fu := { s.fu with assembly := .complete { frame := .chunk f, serial := n } } }
       let closes (u : State) (z : Byte) : State :=
         complete (updPub u r fun p' => { p' with pass := some { c with settle := some z } }) (some z)
       (k + 1 ≠ c.chunkCount → answers (complete g none)) ∧
       (k + 1 = c.chunkCount →
         (∀ x, s.cap.claim = some x → x.region = r →
           answers (closes (dueClose g r) (if x.decision = .full then p.nextSeq + 1 else p.nextSeq))) ∧
         ((∀ x, s.cap.claim = some x → x.region ≠ r) →
           answers (closes (dueClose g r) (if p.openBatch.isSome then p.nextSeq else p.nextSeq - 1))))))

/-- R30, R31 to R33, R36, R37: a claimed write granted at a completion joins its batch by its decision, FULL after the close
of the full one, and its quiet measurement starts; the close of the close word, and one that was deferred to the grant, is
taken with it.
R34, R39, R40: a close takes next seq, to the tails of the retained list and the send queue; with 4 batches retained it
sets close-pending; with no batch open it is nothing. One that comes due while a claim of the region awaits grant is
deferred to the grant (log 11). -/
def Obligations.DeferredCloseIsTakenAtTheGrant : Prop :=
  (∀ (s : State) (q : Requester) (b : Access) (h : HostAccess) (c : Claim) (p : PubRecord) (o : Nat),
    s.path.port = .busy q b → q ≠ .host → s.path.host = some h → h.condition = .awaitingGrant → s.path.last ≠ .host →
    s.top = .running → s.cap.claim = some c → matchAddress s h.access.addr = .region c.region o →
    pubAt s c.region = some p →
    let r := c.region
    let g : State := { s with
      mem := accessMemory s.mem h.access
      path := { s.path with
        host := some { access := h.access, condition := .granted, result := accessResult s.mem h.access }
        port := .busy .host h.access
        last := .host
        apply := if s.path.apply = .keptBack then .waiting else s.path.apply }
      cap := { s.cap with claim := none } }
    let joins (u : State) (p' : PubRecord) (x : Batch) : State :=
      let v := withPub u r { p' with
        openBatch := some x, quiet := if (descAt s r).quietInterval = 0 then none else some s.clock.us }
      if (descAt s r).closeOffset = some c.offset ∨ c.deferred = true then closeOrPend v r else v
    let answers (u : State) := ∃ t, exec .memoryAccessComplete s = .next t ∧ unmarked t = unmarked u
    (∀ x, c.decision = .merge → p.openBatch = some x →
      answers (joins g p { x with records := x.records.map (mergedRecord c.offset h.access) })) ∧
    (∀ x, c.decision = .append → p.openBatch = some x →
      answers (joins g p { x with records := x.records ++ [writeRecord c.offset h.access] })) ∧
    (∀ x, c.decision = .full → p.openBatch = some x → p.retained.length < 4 →
      answers (joins (closedBatch g r p x)
        { p with
          nextSeq := p.nextSeq + 1, retained := p.retained ++ [{ x with seq := some p.nextSeq, sent := false }]
          openBatch := none, quiet := none, closePending := false }
        (newBatch r c.offset h.access))) ∧
    (c.decision = .opening → answers (joins g p (newBatch r c.offset h.access)))) ∧
  (∀ (s : State) (r : RegionId) (p : PubRecord), pubAt s r = some p →
    (p.openBatch = none → closeOrPend s r = s) ∧
    (∀ b, p.openBatch = some b → p.retained.length < 4 → closeOrPend s r = closedBatch s r p b) ∧
    (∀ b, p.openBatch = some b → 4 ≤ p.retained.length → closeOrPend s r = withPub s r { p with closePending := true }) ∧
    (∀ c, s.cap.claim = some c → c.region = r →
      dueClose s r = { s with cap := { s.cap with claim := some { c with deferred := true } } }) ∧
    ((∀ c, s.cap.claim = some c → c.region ≠ r) → dueClose s r = closeOrPend s r))

/-- R5, R79 to R81, R169: an idle apply engine takes the older slot: it is IN PROGRESS, the fence is raised on its region, and
the write of the first item inside the region is requested, kept back while a host access to the region awaits grant. With
the port FREE that item is written at once, at base + 4 × its offset with its lanes, and the next one is requested; the
items outside the region are skipped. R79, R82: with that item the last the apply is complete at this grant, and with no item
to write it completes at its start. A host access awaits grant to a region when it is in AWAITING GRANT and its word is in
the region. -/
def Obligations.ApplyStartTakesTheOlderSlot : Prop :=
  (∀ (s : State) (x : Slot) (rest : List Slot) (pos : Nat) (i : ApplyItem), s.path.port ≠ .free → s.inb.engine = none →
     s.inb.slots = x :: rest → x.inProgress = false →
     seekItem (descAt s x.region).length (slotItems x) 0 = some (pos, i) →
     ∃ t, exec .applyStart s = .next t ∧ unmarked t = unmarked
       { s with
         inb := { slots := { x with inProgress := true } :: rest, engine := some pos, fence := some x.region }
         path := { s.path with apply := if hostAwaitsRegion s x.region then .keptBack else .waiting } }) ∧
  (∀ (s : State) (x : Slot) (rest : List Slot) (pos next : Nat) (i j : ApplyItem), PortServes s → s.path.port = .free →
     s.inb.engine = none → s.inb.slots = x :: rest → x.inProgress = false →
     seekItem (descAt s x.region).length (slotItems x) 0 = some (pos, i) →
     seekItem (descAt s x.region).length (slotItems x) (pos + 1) = some (next, j) →
     let a : Access :=
       { addr := (descAt s x.region).base + BitVec.ofNat 24 (4 * i.offset), write := true, lanes := i.lanes, data := i.data }
     ∃ t, exec .applyStart s = .next t ∧ unmarked t = unmarked
       { s with
         mem := accessMemory s.mem a
         inb := { slots := { x with inProgress := true } :: rest, engine := some next, fence := some x.region }
         path := { s.path with
           port := .busy .apply a, last := if s.top = .inReset then .none else .internal, apply := .waiting } }) ∧
  (∀ (s : State) (x : Slot) (rest : List Slot) (pos : Nat) (i : ApplyItem), PortServes s → s.path.port = .free →
     s.inb.engine = none → s.inb.slots = x :: rest → x.inProgress = false →
     seekItem (descAt s x.region).length (slotItems x) 0 = some (pos, i) →
     seekItem (descAt s x.region).length (slotItems x) (pos + 1) = none →
     ApplyCompletes .applyStart s (applyEnded { s with inb := { s.inb with slots := rest } } x.region i) x) ∧
  (∀ (s : State) (x : Slot) (rest : List Slot),
     s.path.port ≠ .free ∨ (PortServes s ∧ ∀ h, s.path.host = some h → h.condition ≠ .fenceHeld) →
     s.inb.engine = none → s.inb.slots = x :: rest → x.inProgress = false →
     seekItem (descAt s x.region).length (slotItems x) 0 = none →
     ApplyCompletes .applyStart s { s with
       inb := { slots := rest.filter fun y => !y.inProgress, engine := none, fence := none }
       path := { s.path with host := fenceReleased s.path.host, apply := .none } } x) ∧
  (∀ (s : State) (r : RegionId), hostAwaitsRegion s r = true ↔ ∃ h o, s.path.host = some h ∧
     h.condition = .awaitingGrant ∧ matchAddress s h.access.addr = .region r o)

/-- R80, R81: the items of a slot, and no others: a DATA slot's records at their offsets with their lanes, and a CHUNK slot's
words at 16 times the chunk index on, with all four lanes; and the item taken next is the first, from the position on, whose offset is
in the region: none exactly when every item from the position on lies outside it. -/
def Obligations.SlotItemsInFrameOrder : Prop :=
  (∀ (r : RegionId) (q : Byte) (rs : List UpdateRecord) (b : Bool) (k : Nat) (x : UpdateRecord), rs[k]? = some x →
    (slotItems { region := r, seq := q, content := .data rs, inProgress := b })[k]? =
      some { offset := x.offset.toNat, lanes := x.lanes, data := x.data }) ∧
  (∀ (r : RegionId) (q : Byte) (i : Fin 16) (l : Bool) (ws : List Word) (b : Bool) (k : Nat) (w : Word), ws[k]? = some w →
    (slotItems { region := r, seq := q, content := .chunk i l ws, inProgress := b })[k]? =
      some { offset := 16 * i.val + k, lanes := 15#4, data := w }) ∧
  (∀ (r : RegionId) (q : Byte) (rs : List UpdateRecord) (i : Fin 16) (l : Bool) (ws : List Word) (b : Bool),
    (slotItems { region := r, seq := q, content := .data rs, inProgress := b }).length = rs.length ∧
    (slotItems { region := r, seq := q, content := .chunk i l ws, inProgress := b }).length = ws.length) ∧
  (∀ (len : Nat) (items : List ApplyItem) (from_ k : Nat) (x : ApplyItem), seekItem len items from_ = some (k, x) →
    from_ ≤ k ∧ items[k]? = some x ∧ x.offset < len ∧
      ∀ j y, from_ ≤ j → j < k → items[j]? = some y → len ≤ y.offset) ∧
  (∀ (len : Nat) (items : List ApplyItem) (from_ : Nat), seekItem len items from_ = none ↔
    ∀ j y, from_ ≤ j → items[j]? = some y → len ≤ y.offset)

/-- R80, R81: the grant of an apply's write at a completion: the item is in memory at base + 4 × its offset, with its lanes,
and with an item left the next one inside the region is requested.
R82, R85, R17: the grant of the last write of an apply completes it: the fence is lowered and its held access goes to
the arbiter, the slot empties and the engine is IDLE. A DATA apply sets applied seq to a newer batch seq that accepted seq
is at or past, and a SETTLING region whose applied seq so reaches settle seq becomes CURRENT, with its event.
R17: a CHUNK apply with LAST at a REFRESHING region whose base seq it carries ends the refresh: CURRENT with its event when
applied seq is at or past settle seq, else SETTLING; any other CHUNK apply changes no record. R22, R87, R179: the apply
that a STOP waits for changes no record either, and gives the STOP its result DONE. -/
def Obligations.LastWriteCompletesTheApply : Prop :=
  (∀ (s : State) (x : Slot) (k n : Nat) (i j : ApplyItem), ApplyWriteMeets s x k i →
     seekItem (descAt s x.region).length (slotItems x) (k + 1) = some (n, j) →
     let g := applyGranted s x.region i
     ∃ t, exec .memoryAccessComplete s = .next t ∧ unmarked t = unmarked { g with
       inb := { s.inb with engine := some n }, path := { g.path with apply := .waiting } }) ∧
  (∀ (s : State) (x : Slot) (k : Nat) (i : ApplyItem), ApplyWriteMeets s x k i → x.inProgress = true →
     seekItem (descAt s x.region).length (slotItems x) (k + 1) = none →
     ApplyCompletes .memoryAccessComplete s (applyEnded s x.region i) x)

/-! ## The control block agent -/

/-- R181: the agent's next access, row by row: an event's writes in progress; a LOAD read; a word marked when the result was
reached, in ascending offset; the result; a pending event with room in the ring; a marked word. While the port is BUSY it is
requested. R169: at a FREE port it is granted in its own step, with all that its grant at the completion of another access
does.
R181: the words marked when the result was reached, `prior`, are the marks that stand at the end of the step in which the
executing command reaches its result (log 16); after that a word leaves them at the grant of its write and at nothing else, none joins
them, and they end with the grant of the result. -/
def Obligations.AgentChoosesByTheTable : Prop :=
  (∀ s : State, s.path.agent = none → s.top ≠ .inReset →
    let asks (q : AgentRequest) : Prop :=
      (s.path.port ≠ .free → ∃ t, exec .agentAccessRequest s = .next t ∧
        unmarked t = unmarked { s with path := { s.path with agent := some q } }) ∧
      (∀ p b, PortServes s → s.path.port = .free → p ≠ .host → ∃ t, exec .agentAccessRequest s = .next t ∧
        exec .memoryAccessComplete { s with path := { s.path with port := .busy p b, agent := some q } } = .next t)
    (∀ w, s.agent.writing = some w → asks (if w.third then .eventThird else .eventSecond)) ∧
    (s.agent.writing = none → s.top = .loading → s.agent.loadWords.length < 68 → asks .loadRead) ∧
    (s.agent.writing = none → s.top ≠ .loading →
      (∀ x b m, s.agent.executing = some x → x.prior = some b → IsLowest b m → asks (.statusWord m)) ∧
      (∀ x r, s.agent.executing = some x → x.result = some r → x.prior = none ∨ x.prior = some 0#38 → asks .result) ∧
      (NoResult s → s.top = .configured ∨ s.top = .running → s.agent.events ≠ [] →
        (s.agent.producer - s.agent.consumer).toNat < 31 → asks .eventFirst) ∧
      (∀ m, NoResult s → s.top = .unconfigured ∨ s.agent.events = [] ∨ 31 ≤ (s.agent.producer - s.agent.consumer).toNat →
        IsLowest s.agent.marks m → asks (.statusWord m)))) ∧
  (∀ (c : Instr) (s t : State), exec c s = .next t → c ≠ .resetNAssert → s.top ≠ .inReset →
    (∀ x r, (∀ y, s.agent.executing = some y → y.prior = none) → t.agent.executing = some x → x.result = some r →
      x.prior = some t.agent.marks) ∧
    (∀ y b, s.agent.executing = some y → y.prior = some b →
      (t.agent.executing = none ∧ AgentWrites c s t 69) ∨
        ∃ x b', t.agent.executing = some x ∧ x.prior = some b' ∧ ∀ m : Fin 38,
          (b'.getLsbD m.val = true → b.getLsbD m.val = true) ∧
          (b.getLsbD m.val = true → ¬ AgentWrites c s t (70 + m.val) → b'.getLsbD m.val = true)))

/-- R180, R181, R184, R185: what the grant of each AGENT write does. A marked word takes its value at the grant and its
mark clears, among the marks that precede a result too; the third write of an event clears the producer index word's; the result write ends the executing command; the three writes of an event go to its ring entry and to the
producer index, the event leaving the pending list and the producer index moving on at the first; ATTN follows the producer index written.
R23, R25, R47, R67, R127, R177, R191: the values of the status words, every bit: the part state with the phase of a master or
the state of a member, and the cycle number it last used or heard; the roster set; the pool level, the records of the batches and of a claim, with the held write; the
two words of each region. R190, R192: the result word and word 0 of an event; the timestamp is its word 1. The codes are
those of R189 to R192. -/
def Obligations.AgentWriteTakesEffectAtItsGrant : Prop :=
  (∀ s : State,
    (∀ m, AgentMeets s (.statusWord m) → m ≠ 1 →
      ∃ t, exec .memoryAccessComplete s = .next t ∧ MarkCleared t m ∧
        unmarked t = unmarked (agentGranted s (cbWrite s (70 + m.val) 15#4 (statusValue s m)))) ∧
    (AgentMeets s (.statusWord 1) →
      ∃ t, exec .memoryAccessComplete s = .next t ∧ MarkCleared t 1 ∧
        unmarked t = unmarked { agentGranted s (cbWrite s 71 15#4 (s.agent.producer.zeroExtend 32)) with
          agent := { s.agent with
            written := s.agent.producer, attn := decide (s.agent.producer ≠ s.agent.consumer) } }) ∧
    (∀ x r, AgentMeets s .result → s.agent.executing = some x → x.result = some r →
      ∃ t, exec .memoryAccessComplete s = .next t ∧
        unmarked t = unmarked { agentGranted s (cbWrite s 69 15#4 (resultWord x r)) with
          agent := { s.agent with executing := none } }) ∧
    (∀ e rest, AgentMeets s .eventFirst → s.agent.events = e :: rest →
      ∃ t, exec .memoryAccessComplete s = .next t ∧
        unmarked t = unmarked { agentGranted s (cbWrite s (108 + 2 * s.agent.producer.toNat) 15#4 (eventWord0 e)) with
          agent := { s.agent with
            events := rest, producer := s.agent.producer + 1
            writing := some { entry := s.agent.producer, event := e, third := false } } }) ∧
    (∀ w, AgentMeets s .eventSecond → s.agent.writing = some w →
      ∃ t, exec .memoryAccessComplete s = .next t ∧
        unmarked t = unmarked { agentGranted s (cbWrite s (108 + 2 * w.entry.toNat + 1) 15#4 w.event.stamp) with
          agent := { s.agent with writing := some { w with third := true } } }) ∧
    (∀ w, AgentMeets s .eventThird → s.agent.writing = some w →
      ∃ t, exec .memoryAccessComplete s = .next t ∧ MarkCleared t 1 ∧
        unmarked t = unmarked { agentGranted s (cbWrite s 71 15#4 ((w.entry + 1).zeroExtend 32)) with
          agent := { s.agent with
            writing := none, written := w.entry + 1, attn := decide (w.entry + 1 ≠ s.agent.consumer) } })) ∧
  (∀ s : State,
    let value (m : Fin 38) : Nat := (statusValue s m).toNat
    let master : Prop := s.straps.stn = 0
    (statusValue s 0 = s.agent.copy ∧ value 1 = s.agent.producer.toNat ∧ value 2 = s.agent.lost.toNat) ∧
    value 3 = s.top.code + 16 * (if master then s.tc.phase.code else s.tc.member.code) + 256 * s.straps.stn.val +
      4096 * (if master then s.tc.cycle else s.tc.lastCycle).toNat + 2 ^ 20 * s.agent.loadError.code +
      2 ^ 24 * s.agent.errorIndex.val ∧
    value 4 = s.tc.roster.toNat % 2 ^ 15 ∧
    (poolLevel s ≤ 64 → value 5 = poolLevel s + match s.cap.held with
      | none => 0
      | some h => 256 + 512 * h.region.val + 8192 * (match h.reason with | .pool => 0 | .limit => 1)) ∧
    (∀ (r : RegionId) (m k : Fin 38), m.val = 6 + 2 * r.val → k.val = 7 + 2 * r.val →
      (pubAt s r = none → subAt s r = none → value m = 0 ∧ value k = 0) ∧
      (∀ p, pubAt s r = some p →
        let waits := (p.acks.filter fun e => decide (e.2 = .refreshWanted) || p.pendingTargets.getLsbD e.1.val).length
        value m = 1 + 4 * p.state.code + 256 * p.generation.toNat + 2 ^ 16 * p.nextSeq.toNat +
          2 ^ 24 * p.lastReleased.toNat ∧
        (p.retained.length ≤ 4 → waits ≤ 14 → value k = p.retained.length +
          8 * (if p.openBatch.isSome then 1 else 0) + 16 * (if p.closePending then 1 else 0) + 256 * waits)) ∧
      (∀ q, subAt s r = some q →
        value m = 2 + 4 * q.state.code + 256 * q.generation.toNat + 2 ^ 16 * q.accepted.toNat + 2 ^ 24 * q.applied.toNat ∧
        value k = match q.settle with
          | none => 0
          | some z => z.toNat + 256))) ∧
  (∀ s : State,
    let records (r : RegionId) : Nat := (pubAt s r).elim 0 fun p =>
      (p.openBatch.elim 0 fun b => b.records.length) + (p.retained.map fun b => b.records.length).sum
    poolLevel s = (allIds.map records).sum + s.cap.claim.elim 0 fun c => if c.decision = .merge then 0 else 1) ∧
  (∀ (x : Executing) (c : ResultCode) (e : Event),
    (resultWord x c).toNat = x.tag.toNat + 256 * x.code.toNat + 2 ^ 16 * c.code ∧
    (eventWord0 e).toNat = eventCode e.kind + 64 * e.region.val + 1024 * e.station.val + 2 ^ 14 * e.seq.toNat +
      2 ^ 22 * e.detail.toNat) ∧
  ([EventKind.escape, .guardDrop, .cbGuard, .inboundOverrun, .refreshBroken, .wrongPublisher, .crcError, .frameError,
      .noise, .collision, .lineReset, .lineLost, .stationLost, .stationJoined, .regionCurrent, .regionUnsynced,
      .cmdBusy].map eventCode = [1, 2, 3, 4, 5, 6, 7, 8, 9, 10, 11, 12, 13, 14, 15, 16, 17] ∧
    [ResultCode.done, .badCommand, .badArg, .badState, .loadError].map ResultCode.code = [1, 2, 3, 4, 5] ∧
    [LoadError.none, .badVersion, .badStation, .badLineFormat, .badTurn, .badTimeout, .badField, .badLength, .badPlacement,
      .badPublisher, .badSubscribers, .badCloseOffset, .badBatchLimit, .badHoldLimit, .overlap].map LoadError.code =
      [0, 1, 2, 3, 4, 5, 6, 7, 8, 9, 10, 11, 12, 13, 14] ∧
    [FrameFault.lead, .gap, .parity, .framing, .length, .kind, .content].map FrameFault.code = [1, 2, 3, 4, 5, 6, 7] ∧
    [TopState.unconfigured, .loading, .configured, .running].map TopState.code = [0, 1, 2, 3] ∧
    [Phase.detached, .breaking, .ownTurn, .polling, .probing, .silenceWait, .pause].map Phase.code = [0, 1, 2, 3, 4, 5, 6] ∧
    [MemberState.detached, .listening, .enrolled, .speaking].map MemberState.code = [0, 8, 9, 10] ∧
    [PubState.off, .suspended, .live].map PubState.code = [0, 1, 2] ∧
    [SubState.off, .unsynced, .refreshing, .settling, .current].map SubState.code = [0, 1, 2, 3, 4])

/-- R175 to R177: a LOAD read takes the word as memory holds it at its grant. The 68th is checked with the others: the LOAD
that succeeds replaces the table and every block's values and marks every word but the ring and the result; the LOAD
that fails leaves no configuration and keeps the ring's indices.
R188: the line format, the turn parameters and timeouts and the sixteen descriptors that it loads, each field by its bits.
R2, R176, R188, R189: the configurations that a LOAD accepts, by the fields of their words; and of those it refuses, the
error code and descriptor index of the first check that fails. That the tick divider's phase (log 28) and ATTN (log 29) stay
as they are at the LOAD that succeeds is the model's choice. -/
def Obligations.LoadReadsChecksAndConfigures : Prop :=
  (∀ s : State, AgentMeets s .loadRead → s.top = .loading → s.agent.loadWords.length < 68 →
     let g := agentGranted s (loadAccess s)
     let ws := wordsRead s
     (s.agent.loadWords.length < 67 →
       ∃ t, exec .memoryAccessComplete s = .next t ∧ unmarked t = unmarked { g with agent := { s.agent with loadWords := ws } }) ∧
     (s.agent.loadWords.length = 67 → checkConfig s.straps.stn s.straps.cba ws = none →
       ∃ t, exec .memoryAccessComplete s = .next t ∧ t.agent.marks = BitVec.allOnes 38 ∧
         (∀ r, regionAt t r = regionLoaded (descriptorOf ws r.val)) ∧
         unmarked t = unmarked { g with
           top := .configured
           regions := t.regions
           line := { format := some (formatOf ws), rx := .arming, tx := .idle, txSince := s.clock.ticks, noisy := false,
                     clean := 0, gapFrom := none, sampling := sampledAnew s, fault := none, lrx := s.line.lrx }
           params := paramsOf ws
           cap := Capture.reset
           del := { Delivery.reset with passSerial := s.del.passSerial }
           inb := Inbound.reset
           fu := FrameUnit.reset
           tc := { Turns.reset with lineLast := s.tc.lineLast }
           agent := { s.agent with
             loadWords := ws, producer := 0, consumer := 0, copy := 0, lost := 0, loadError := .none, errorIndex := 0
             executing := s.agent.executing.map fun x => { x with result := some .done } } }) ∧
     (∀ e i, s.agent.loadWords.length = 67 → checkConfig s.straps.stn s.straps.cba ws = some (e, i) →
       ∃ t, exec .memoryAccessComplete s = .next t ∧
         unmarked t = unmarked { g with
           top := .unconfigured
           regions := Vector.replicate 16 Region.reset
           line := { s.line with format := none, rx := .off, tx := .off, sampling := sampledAnew s, fault := none }
           params := TurnParams.reset
           agent := { s.agent with
             loadWords := ws, loadError := e, errorIndex := i
             executing := s.agent.executing.map fun x => { x with result := some .loadError } } })) ∧
  (∀ (stn : StationId) (cba : Byte) (ws : List Word), checkConfig stn cba ws = none ↔
     let word : Nat → Word := fun i => ws.getD i 0#32
     let field : Nat → Nat → Nat → Nat := fun i lo n => (word i).toNat / 2 ^ lo % 2 ^ n
     let role : Fin 16 → Nat := fun i => field (5 + 4 * i.val) 9 2
     let base : Fin 16 → Nat := fun i => field (4 + 4 * i.val) 0 24
     let len : Fin 16 → Nat := fun i => field (5 + 4 * i.val) 0 9
     word 0 = 1#32 ∧ stn ≠ 15 ∧
     (2 ≤ field 1 0 12 ∧ field 1 12 2 ≠ 3 ∧ field 1 14 2 ≠ 3) ∧
     (1 ≤ field 2 0 4 ∧ field 2 0 4 ≤ 8 ∧ 1 ≤ field 2 4 3 ∧ 2 ≤ field 2 8 6 ∧ 1 ≤ field 2 16 8) ∧
     (16 ≤ field 3 0 10 ∧ field 2 8 6 + 16 < field 3 0 10 ∧ 24 ≤ field 3 10 10) ∧
     (∀ i : Fin 16, role i ≠ 3) ∧
     (∀ i : Fin 16, role i ≠ 0 → 1 ≤ len i ∧ len i ≤ 256 ∧ base i % 4 = 0 ∧ base i + 4 * len i - 1 ≤ 0xFFFFFF) ∧
     (∀ i : Fin 16, role i = 1 →
       (word (6 + 4 * i.val)).getLsbD 15 = false ∧ (word (6 + 4 * i.val)).getLsbD stn.val = false ∧
       (field (6 + 4 * i.val) 24 1 = 1 → field (6 + 4 * i.val) 16 8 < len i) ∧
       (1 ≤ field (5 + 4 * i.val) 17 5 ∧ field (5 + 4 * i.val) 17 5 ≤ 16) ∧ 1 ≤ field (7 + 4 * i.val) 16 12) ∧
     (∀ i : Fin 16, role i = 2 →
       field (5 + 4 * i.val) 13 4 ≠ 15 ∧ field (5 + 4 * i.val) 13 4 ≠ stn.val ∧ field (5 + 4 * i.val) 11 2 < 2) ∧
     (∀ i : Fin 16, role i ≠ 0 →
       base i + 4 * len i ≤ 65536 * cba.toNat ∨ 65536 * cba.toNat + 688 ≤ base i) ∧
     (∀ i j : Fin 16, j < i → role i ≠ 0 → role j ≠ 0 → base i + 4 * len i ≤ base j ∨ base j + 4 * len j ≤ base i)) ∧
  (∀ (stn : StationId) (cba : Byte) (ws : List Word) (before after : List (Prop × LoadError × Fin 16)) (holds : Prop)
    (e : LoadError) (i : Fin 16), loadChecks stn cba ws = before ++ (holds, e, i) :: after → (∀ x ∈ before, x.1) →
    ¬ holds → checkConfig stn cba ws = some (e, i)) ∧
  (∀ ws : List Word,
    let f := formatOf ws
    f.divisor = wordField ws 1 0 12 ∧
    (wordField ws 1 12 2 = 0 → f.samplesPerBit = 8) ∧ (wordField ws 1 12 2 = 1 → f.samplesPerBit = 12) ∧
    (wordField ws 1 12 2 = 2 → f.samplesPerBit = 16) ∧
    (wordField ws 1 14 2 = 0 → f.parity = .none) ∧ (wordField ws 1 14 2 = 1 → f.parity = .even) ∧
    (wordField ws 1 14 2 = 2 → f.parity = .odd) ∧
    (f.twoStops = true ↔ wordField ws 1 16 1 = 1) ∧
    paramsOf ws =
      { budget := wordField ws 2 0 4, missLimit := wordField ws 2 4 3, turnaround := wordField ws 2 8 6
        lostMs := wordField ws 2 16 8, reply := wordField ws 3 0 10, silence := wordField ws 3 10 10
        pause := wordField ws 3 20 12 }) ∧
  (∀ (ws : List Word) (i : Fin 16),
    let d := descriptorOf ws i.val
    let field (k lo n : Nat) : Nat := wordField ws (4 + 4 * i.val + k) lo n
    d.base.toNat = field 0 0 24 ∧ d.length = field 1 0 9 ∧
    (field 1 9 2 = 0 → d.role = .off) ∧ (field 1 9 2 = 1 → d.role = .publish) ∧ (field 1 9 2 = 2 → d.role = .subscribe) ∧
    (field 1 11 2 = 0 → d.guard = .guarded) ∧ (field 1 11 2 = 1 → d.guard = .openMode) ∧
    d.publisher.val = field 1 13 4 ∧ d.batchLimit = field 1 17 5 ∧ d.subscribers.toNat = field 2 0 16 ∧
    d.closeOffset.map BitVec.toNat = (if field 2 24 1 = 1 then some (field 2 16 8) else none) ∧
    d.quietInterval = field 3 0 16 ∧ d.holdLimit = field 3 16 12)

/-- R180: every status word whose value a command other than RESET_N's changes is marked. A step has two moments, the
command's effect from `s` to `u` and the grant that follows, with which `settle` ends every command: a word that the effect
changes is marked though the grant changes it back. A YIELD has more, the turn controller's part and each of its ack entries
(`markChanges` in YieldIsTakenByThreeBlocks): a moment from `s` to `u` marks every word that it changes, leaves every other
mark and all else of `u`, and so a word that a later moment changes back stays marked (log 16).
R177, R180: a mark that stands is cleared by the grant of the AGENT write of its word and by nothing else but RESET_N, so that
two changes that cancel before the write still give a write; and `settle` sets the marks of the words that its two moments
change and no others. -/
def Obligations.ChangedStatusWordIsMarked : Prop :=
  (∀ (c : Instr) (s t : State) (m : Fin 38), exec c s = .next t → c ≠ .resetNAssert → s.top ≠ .inReset → m ≠ 0 →
    statusValue t m ≠ statusValue s m → t.agent.marks.getLsbD m.val = true) ∧
  (∀ (s u : State) (m : Fin 38), m ≠ 0 →
    statusValue u m ≠ statusValue s m ∨ statusValue (settle s u) m ≠ statusValue u m →
    (settle s u).agent.marks.getLsbD m.val = true) ∧
  (∀ (c : Instr) (s t : State) (m : Fin 38), exec c s = .next t → c ≠ .resetNAssert →
    s.agent.marks.getLsbD m.val = true → ¬ AgentWrites c s t (70 + m.val) → t.agent.marks.getLsbD m.val = true) ∧
  (∀ (s u : State) (m : Fin 38),
    (u.path.port ≠ .free ∨ grantNext u = none → ((settle s u).agent.marks.getLsbD m.val = true ↔
      u.agent.marks.getLsbD m.val = true ∨ WordMoved s u m)) ∧
    (∀ v, u.path.port = .free → grantNext u = some v → ((settle s u).agent.marks.getLsbD m.val = true ↔
      v.agent.marks.getLsbD m.val = true ∨ WordMoved s u m ∨ WordMoved u v m))) ∧
  (∀ (s u : State) (m : Fin 38),
    ((markChanges s u).agent.marks.getLsbD m.val = true ↔
      u.agent.marks.getLsbD m.val = true ∨ (m ≠ 0 ∧ statusValue u m ≠ statusValue s m)) ∧
    markChanges s u = { u with agent := { u.agent with marks := (markChanges s u).agent.marks } })

/-- R183: an event is appended with its timestamp, and is lost and counted, up to 65535, when the list holds 8 or the ring
31. Of events posted together either may be first: one posted with the `m` that follow the first `n` of the list takes a free
place among them (log 25), and where the list has no room for all of them the last is the one lost.
R192: an event carries the fields that it is made of, its detail in 10 bits; the timestamp comes with its posting. -/
def Obligations.EventIsListedOrLost : Prop :=
  (∀ (kind : EventKind) (region : RegionId) (station : StationId) (seq : Byte) (detail : Nat),
    mkEvent kind region station seq detail =
      { kind := kind, region := region, station := station, seq := seq, detail := BitVec.ofNat 10 detail, stamp := 0 }) ∧
  (∀ (s : State) (e : Event),
    (s.agent.events.length < 8 → (s.agent.producer - s.agent.consumer).toNat < 31 →
      post s e = { s with agent := { s.agent with events := s.agent.events ++ [{ e with stamp := s.clock.us }] } }) ∧
    (8 ≤ s.agent.events.length ∨ 31 ≤ (s.agent.producer - s.agent.consumer).toNat →
      post s e = { s with agent := { s.agent with
        lost := if s.agent.lost = 65535#16 then 65535#16 else s.agent.lost + 1 } }) ∧
    (∀ n : Nat, s.agent.events.length ≤ n ∨ 31 ≤ (s.agent.producer - s.agent.consumer).toNat →
      postAmong n s e = post s e) ∧
    (∀ n m : Nat, s.agent.events.length = n + m → m ≠ 0 → (s.agent.producer - s.agent.consumer).toNat < 31 →
      let k := n + (Config.eventPlace s.clock.choices m).val
      let l := s.agent.events.take k ++ { e with stamp := s.clock.us } :: s.agent.events.drop k
      postAmong n s e = { s with
        clock := { s.clock with choices := s.clock.choices + 1 }
        agent := { s.agent with
          events := l.take 8
          lost := if 8 ≤ n + m ∧ s.agent.lost ≠ 65535#16 then s.agent.lost + 1 else s.agent.lost } }))

/-! ## Reset pins -/

/-- R1, R171 and the RESET_N column of every block: RESET_N asserted sets every block to its RESET_N values and clears every
mark. Memory, the queue and the model's own counts stand, and a character or a break cut short here is the part's last
transmission on the line (R113; log 35); an access on the port, and a GRANTED host access, go on (log 14). A host
access that awaits grant or is held goes on to memory: at once when the port is FREE, else at the completion.
R159, R172, R175, R182: RESET_N deasserted samples the straps and starts the microsecond timer at 0; the part is
UNCONFIGURED with ALD 0, and with ALD 1 an automatic LOAD with tag 0 is taken at once.
R46, R65, R88, R111, R168, R183: the values after RESET_N, all of them, as the rules of every block give them; those that no rule
gives are the model's choice (log 8). -/
def Obligations.ResetPinsSetThePart : Prop :=
  (∀ s : State,
     let g : State :=
       { State.reset with
         pending := s.pending
         mem := s.mem
         clock := { Clock.reset with ticks := s.clock.ticks, choices := s.clock.choices }
         line := { Line.reset with lrx := s.line.lrx }
         tc := { Turns.reset with lineLast :=
           if s.line.tx = .character ∨ s.line.tx = .breakLow ∨ s.line.tx = .breakHigh then s.clock.ticks
           else s.tc.lineLast }
         path := { MemoryPath.reset with reply := s.path.reply, port := s.path.port } }
     (s.path.host = none → exec .resetNAssert s = .next { g with path := { g.path with host := none } }) ∧
     (∀ h, s.path.host = some h → h.condition = .granted →
       exec .resetNAssert s = .next { g with path := { g.path with host := some h } }) ∧
     (∀ h, s.path.host = some h → h.condition ≠ .granted → s.path.port ≠ .free →
       exec .resetNAssert s = .next { g with path := { g.path with host := some { h with condition := .awaitingGrant } } }) ∧
     (∀ h, s.path.host = some h → h.condition ≠ .granted → s.path.port = .free →
       exec .resetNAssert s = .next { g with
         mem := accessMemory s.mem h.access
         path := { g.path with
           host := some { access := h.access, condition := .granted, result := accessResult s.mem h.access }
           port := .busy .host h.access } })) ∧
  (∀ (stn : StationId) (cba : Byte) (s : State), s.top = .inReset →
     let g : State :=
       { s with
         straps := { stn := stn, cba := cba, ald := false }
         clock := { s.clock with us := 0, usPhase := 0 }
         path := { s.path with last := .none }
         top := .unconfigured }
     exec (.resetNDeassert stn cba false) s = .next g ∧
     exec (.resetNDeassert stn cba true) s = .next { g with
       straps := { stn := stn, cba := cba, ald := true }
       top := .loading
       line := { s.line with rx := .off, tx := .off, gapFrom := none, sampling := sampledAnew s, fault := none }
       fu := FrameUnit.reset
       path := { g.path with
         agent := s.path.agent.filter fun q => decide (q = .eventSecond ∨ q = .eventThird) }
       agent := { s.agent with
         loadWords := [], executing := some { code := 1, tag := 0, result := none, prior := none } } }) ∧
  (let desc : Descriptor :=
     { base := 0, length := 1, role := .off, publisher := 0, subscribers := 0, guard := .guarded, batchLimit := 16
       closeOffset := none, quietInterval := 0, holdLimit := 4095 }
   State.reset =
     { pending := [], top := .inReset, straps := { stn := 0, cba := 0, ald := false }, mem := []
       clock := { usPhase := 0, us := 0, tickPhase := 0, ticks := 0, choices := 0, due := [] }
       regions := Vector.replicate 16 { desc := desc, record := .off }
       path := { host := none, reply := none, port := .free, last := .none, apply := .none, snap := false, agent := none }
       cap := { sendQueue := [], claim := none, held := none }
       del := { ownTurn := 0, turnList := [], roundRobin := 15, kept := none, turn := none, passSerial := 0 }
       inb := { slots := [], engine := none, fence := none }
       fu := { rx := .idle, heldFraming := none, assembly := .empty, lineBuf := none }
       tc :=
         { roster := 0, phase := .detached, cycle := 0, pollList := [], pollPos := none, probePos := 14
           misses := Vector.replicate 16 0, removals := 0, additions := 0, breakDue := false, next := .cycleStart
           watch := none, pauseFrom := none, silenceFrom := none, member := .detached, probeReply := false
           lastCycle := 0, lost := .stopped, gap := .notAwaited, lineLast := 0 }
       line :=
         { format := none, rx := .off, tx := .off, txSince := 0, noisy := false, clean := 0, gapFrom := none
           sampling := { level := true, ones := 0, sample := none, centre := [] }, fault := none, lrx := [] }
       params := { budget := 0, missLimit := 0, turnaround := 0, lostMs := 0, reply := 0, silence := 0, pause := 0 }
       agent :=
         { executing := none, loadWords := [], loadError := .none, errorIndex := 0, marks := 0, events := [], lost := 0
           producer := 0, consumer := 0, copy := 0, writing := none, written := 0, attn := false } })

/-! ## Timers -/

/-- R13, R44: the escape of a held write. The region stays LIVE with a new generation, no batch, no pass and every ack
state UNKNOWN; its batches leave the send queue; the write goes to the arbiter; ESCAPE is posted. A chunk of the region in
assembly is withdrawn with its pass, a SNAP request not granted yet too (log 32), and an open turn goes on with its next choice
(R101, R102, R141); ESCAPE may stand before
or after the event that this choice's entry to ECHO posts (R183; log 25). R161, R169: at a FREE port the write is granted in
the same step. -/
def Obligations.EscapeRestartsTheStream : Prop :=
  ∀ (s : State) (h : HeldWrite) (p : PubRecord), s.cap.held = some h → pubAt s h.region = some p → p.state = .live →
    let r := h.region
    let p' : PubRecord := { discarded p with
      generation := p.generation + 1, acks := p.acks.map fun e => (e.1, .unknown), pass := none, pendingTargets := 0 }
    let e : Event := mkEvent .escape r 15 (p.nextSeq - 1) (p.generation + 1).toNat
    let left : Capture :=
      { sendQueue := s.cap.sendQueue.filter fun e => decide (e.1 ≠ r)
        claim := s.cap.claim.filter fun c => decide (c.region ≠ r), held := none }
    let gone := abandonPass s r
    let u : State := { withPub gone r p' with
      cap := left, path := { gone.path with host := s.path.host.map fun x => { x with condition := .awaitingGrant } } }
    exec .escape s = .next (settle s (postAmong s.agent.events.length (pump u) e)) ∧
    (s.path.port ≠ .free → s.del.turn = none → s.fu.assembly = .empty →
      ∃ t, exec .escape s = .next t ∧ unmarked t = unmarked (post u e)) ∧
    (∀ (w : HostAccess) (o : Nat), Served s → s.path.port = .free → s.del.turn = none → s.fu.assembly = .empty →
      s.path.host = some w → matchAddress s w.access.addr = .region r o → s.path.last ≠ .host →
      ∃ t, exec .escape s = .next t ∧
        unmarked t = unmarked (post { withPub (grantedNow s w.access) r p' with cap := left } e))

/-- R8, R12, R30, R43, R45: a LIVE region that leaves LIVE is SUSPENDED with a new generation, discarded, its acks UNKNOWN
and its pass and pending targets gone; its batches leave the send queue and its claim is dropped. A held write of it passes
uncaptured; one of another region is decided again. A region that is not LIVE is left as it is.
R101, R102: the pass of a region that ends early is gone; a chunk of it in assembly is withdrawn with its reads and its
turn list entry; that a read requested and not yet granted is withdrawn with them is the model's choice (log 32).
R12: the effects on every published region are those of one after the other, in ascending id. -/
def Obligations.SuspendedRegionIsDiscarded : Prop :=
  (∀ (s : State) (r : RegionId) (p : PubRecord), pubAt s r = some p → p.state = .live →
    let p' : PubRecord := { discarded p with
      state := .suspended, generation := p.generation + 1, acks := p.acks.map fun e => (e.1, .unknown), pass := none
      pendingTargets := 0 }
    let g : State := { withPub (abandonPass s r) r p' with cap := { s.cap with
      sendQueue := s.cap.sendQueue.filter fun e => decide (e.1 ≠ r)
      claim := s.cap.claim.filter fun c => decide (c.region ≠ r) } }
    (s.cap.held = none → suspendRegion s r = g) ∧
    (∀ h, s.cap.held = some h → h.region = r → suspendRegion s r =
      { g with
        cap := { g.cap with held := none }
        path := { g.path with host := s.path.host.map fun x => { x with condition := .awaitingGrant } } }) ∧
    (∀ h, s.cap.held = some h → h.region ≠ r → suspendRegion s r = reevaluate g)) ∧
  (∀ (s : State) (r : RegionId), (∀ p, pubAt s r = some p → p.state ≠ .live) → suspendRegion s r = s) ∧
  (∀ (s : State) (r : RegionId) (p : PubRecord), pubAt s r = some p →
    let gone := withPub s r { p with pass := none }
    (p.pass = none → abandonPass s r = s) ∧
    (p.pass.isSome = true → (∀ k n ws, s.fu.assembly ≠ .assembling r k n ws) → abandonPass s r = gone) ∧
    (∀ k n ws, p.pass.isSome = true → s.fu.assembly = .assembling r k n ws → abandonPass s r = { gone with
      fu := { s.fu with assembly := .empty }
      path := { s.path with snap := false }
      del := { s.del with turnList := s.del.turnList.filter fun e => decide (e ≠ .chunk r k n) } })) ∧
  (∀ s : State, suspendAll s = [0, 1, 2, 3, 4, 5, 6, 7, 8, 9, 10, 11, 12, 13, 14, 15].foldl suspendRegion s)

/-- R12, R20, R110, R125: the expiry of the line-lost timer clears the roster copy; an ENROLLED or SPEAKING member becomes
LISTENING with the effects of R12 and R20; the regions and ack tables follow the cleared copy; LINE_LOST is posted with the
last cycle number and the state that the expiry found. R102: a chunk in assembly withdrawn with its pass frees the assembly
buffer (a SNAP request not granted yet goes with it, log 32), and an open turn goes on with its next choice. R183: LINE_LOST, and an event that the entry to ECHO of that choice
posts, take a free place among the events posted together (log 25). That the open turn of a SPEAKING member goes on as a probe
reply is the model's choice (log 31).
R18, R20: of the subscribed regions that follow their publisher, all become UNSYNCED at NOT_ENROLLED, and those whose
publisher is not in the roster at PUBLISHER_ABSENT: their refresh fields are absent, their waiting slots discarded, and one
event is posted for each, in an order that is free (log 9).
R54, R101: after a change of the roster each station outside it is UNKNOWN, no pending target and no target of a pass in any
published region; a pass with no target left is abandoned; the release check of every region follows, in ascending id. -/
def Obligations.LineLossClearsTheRoster : Prop :=
  (∀ (s : State) (since : Word), s.top = .running → s.tc.lost = .running since →
    let c : State := { s with tc := { s.tc with lost := .expired, roster := 0 } }
    let e : Event := mkEvent .lineLost 15 15 s.tc.lastCycle s.tc.member.code
    let left (x : State) : State := unsyncNotEnrolled (suspendAll { x with tc := { x.tc with member := .listening } })
    let n := s.agent.events.length
    let follows (x : State) : State := postAmong n (pumpAmong n (rosterChanged x)) e
    (s.tc.member ≠ .enrolled → s.tc.member ≠ .speaking → exec .lineLost s = .next (settle s (follows c))) ∧
    (s.tc.member = .enrolled → exec .lineLost s = .next (settle s (follows (left c)))) ∧
    (s.tc.member = .speaking → exec .lineLost s =
      .next (settle s (follows (left { c with tc := { c.tc with probeReply := true } }))))) ∧
  (∀ (n : Nat) (s : State),
    let v := pump { s with agent := { s.agent with events := [] } }
    pumpAmong n s = v.agent.events.foldl (postAmong n) { v with agent := { v.agent with events := s.agent.events } }) ∧
  (∀ s : State,
    let unsyncs (t : State) (moved : RegionId → SubRecord → Prop) (detail : Nat) : Prop :=
      (∀ r q, subAt s r = some q → moved r q →
        let left : SubRecord := { q with state := .unsynced, baseSeq := none, expected := none, settle := none }
        regionAt t r = { desc := descAt s r, record := .subscribed left }) ∧
      (∀ r, (∀ q, subAt s r = some q → ¬ moved r q) → regionAt t r = regionAt s r) ∧
      (∀ x, x ∈ t.inb.slots ↔ x ∈ s.inb.slots ∧
        (x.inProgress = true ∨ ∀ q, subAt s x.region = some q → ¬ moved x.region q)) ∧
      t.inb.slots.Sublist s.inb.slots ∧
      ∃ es : List Event, es.Nodup ∧
        (∀ e, e ∈ es ↔ ∃ r q, subAt s r = some q ∧ moved r q ∧
          e = mkEvent .regionUnsynced r (descAt s r).publisher q.applied detail) ∧
        t = { es.foldl post s with
          regions := t.regions, inb := { s.inb with slots := t.inb.slots }
          clock := { s.clock with choices := s.clock.choices + 1 } }
    let follows (q : SubRecord) : Prop := q.state = .refreshing ∨ q.state = .settling ∨ q.state = .current
    unsyncs (unsyncNotEnrolled s) (fun _ q => follows q) 3 ∧
    unsyncs (unsyncAbsent s) (fun r q => follows q ∧ s.tc.roster.getLsbD (descAt s r).publisher.val = false) 2) ∧
  (∀ s : State,
    rosterChanged s = allIds.foldl releaseCheck (allIds.foldl abandonIfEmpty
      (updAllPubs (unsyncAbsent s) (rosterRecord s.tc.roster))) ∧
    (∀ (f : PubRecord → PubRecord) (r : RegionId), pubAt (updAllPubs s f) r = (pubAt s r).map f) ∧
    (∀ (roster : StationSet) (p : PubRecord), rosterRecord roster p = { p with
      acks := p.acks.map fun e => if roster.getLsbD e.1.val = true then e else (e.1, .unknown)
      pendingTargets := p.pendingTargets &&& roster
      pass := p.pass.map fun c => { c with targets := c.targets &&& roster } }) ∧
    (∀ r p c, pubAt s r = some p → p.pass = some c → c.targets = 0 → abandonIfEmpty s r = abandonPass s r) ∧
    (∀ r, (∀ p c, pubAt s r = some p → p.pass = some c → c.targets ≠ 0) → abandonIfEmpty s r = s))

/-- R113, R115 to R117: the reply timer, the silence timer and the frame count end a watched turn as a miss; the gap that
follows a reply timeout is counted from the expiry, and after the silence timer a break is due. R113, R117, R118, R155:
the end of the pause, of the silence wait and of a break lets the master go on; after a break LDE is deasserted, the
receiver leaves ECHO for ARMING, and break due is clear. -/
def Obligations.TimersLetTheMasterGoOn : Prop :=
  (∀ (s : State) (w : Watch), s.tc.watch = some w →
     (w.reply.isSome = true → exec .replyTimeout s = .next (settle s (masterNext { s with
       tc := afterMiss { s.tc with lineLast := s.clock.ticks } s.params w }))) ∧
     (w.silence.isSome = true → exec .turnSilenceTimeout s = .next (settle s (masterNext { s with
       tc := afterMiss { s.tc with breakDue := true } s.params w }))) ∧
     (w.budget + 1 ≤ w.frames → exec .frameCountReached s = .next (settle s (masterNext { s with
       tc := afterMiss s.tc s.params w })))) ∧
  (∀ s : State,
     (s.tc.phase = .pause → s.tc.pauseFrom.isSome = true →
       exec .pollPauseEnd s = .next (settle s (masterNext { s with tc := { s.tc with pauseFrom := none } }))) ∧
     (s.tc.phase = .silenceWait → s.tc.silenceFrom.isSome = true → s.tc.breakDue = true → PortServes s →
       ∃ t, exec .silenceWaitEnd s = .next t ∧ unmarked t = unmarked { s with tc := { s.tc with
         silenceFrom := none, phase := .breaking, gap := .counting s.tc.lineLast } }) ∧
     (s.line.tx = .breakHigh → exec .breakHighEnd s = .next (settle s (masterNext { s with
       line := { s.line with
         tx := .idle, txSince := s.clock.ticks, fault := none, rx := .arming, sampling := sampledAnew s }
       tc := { s.tc with breakDue := false, lineLast := s.clock.ticks } }))))

/-- R113, R117: the step that the master takes: the break when it is due; else the POLL of the next station of the list; the
probe of the next station that is not in the roster; the pause. Each transmission waits for the turnaround gap: a POLL is
handed over to the line buffer whatever the transmitter is doing, and begins when the gap has passed.
R114: the station to probe is the first after the probe position, ascending over 1..14 and wrapping from 14 to 1, that is not
in the roster; there is none exactly when every id 1..14 is in it. The model's choices, where a POLL handed over begins at
once: those of logs 26, 36 and 37, as when a turn hands over its frames. -/
def Obligations.MasterTakesTheNextStep : Prop :=
  (∀ s : State, s.fu.assembly = .empty → s.fu.lineBuf = none →
    (s.tc.breakDue = true → masterNext s =
      { s with tc := { s.tc with phase := .breaking, gap := .counting s.tc.lineLast } }) ∧
    (∀ i st, s.tc.breakDue = false → s.tc.next = .poll → s.tc.pollPos = some i → s.tc.pollList[i]? = some st →
      let f : Frame := .poll st s.tc.cycle (BitVec.ofNat 8 s.params.budget)
      masterNext s = frameHandedOver
        { s with tc := { s.tc with phase := .polling, gap := .counting s.tc.lineLast } } { frame := f, serial := 0 }) ∧
    (∀ st, s.tc.breakDue = false → s.tc.next = .poll → s.tc.pollPos = none → probeTarget s = some st →
      let f : Frame := .poll st s.tc.cycle 0
      masterNext s = frameHandedOver
        { s with tc := { s.tc with
            phase := .probing, gap := .counting s.tc.lineLast, probePos := st, next := .pause } }
        { frame := f, serial := 0 }) ∧
    (s.tc.breakDue = false → s.tc.next = .pause ∨ (s.tc.next = .poll ∧ s.tc.pollPos = none ∧ probeTarget s = none) →
      masterNext s = { s with tc := { s.tc with
        phase := .pause, next := .cycleStart, pauseFrom := some s.clock.ticks, gap := .notAwaited } }) ∧
    (s.tc.breakDue = false → s.tc.next = .cycleStart → masterNext s = cycleStart s)) ∧
  (∀ s : State,
    let open_ (st : StationId) : Prop := 1 ≤ st.val ∧ st.val ≤ 14 ∧ s.tc.roster.getLsbD st.val = false
    let after (st : StationId) : Nat := (st.val + 15 - s.tc.probePos.val) % 16
    (∀ st, probeTarget s = some st ↔ open_ st ∧ ∀ q, open_ q → after st ≤ after q) ∧
    (probeTarget s = none ↔ ∀ st : StationId, 1 ≤ st.val → st.val ≤ 14 → s.tc.roster.getLsbD st.val = true))

/-- R112, R48, R49, R58: a cycle start takes the pending removals out of the roster and puts the pending additions in, with
their events and their miss counts at 0; the pending sets become empty, and where the roster changed what follows from it is
applied. Then it counts the cycle, fixes the poll list and opens the own turn: the own-turn count moves on, the end guards
clear, the turn list is empty, and the choices begin. -/
def Obligations.CycleStartOpensTheOwnTurn : Prop :=
  (∀ s : State,
    let x := rosterUpdated s
    let c : State := if x.tc.roster = s.tc.roster then x else rosterChanged x
    let l := (members c.tc.roster).filter fun i => decide (i ≠ 0)
    let tc : Turns := { c.tc with
      cycle := s.tc.cycle + 1, next := .poll, pauseFrom := none, pollList := l
      pollPos := if l = [] then none else some 0, phase := .ownTurn, gap := .counting s.tc.lineLast }
    let u := updAllPubs { c with tc := tc } fun p => { p with endGuard := false }
    cycleStart s = pump { u with del := { c.del with
      ownTurn := c.del.ownTurn + 1, turnList := [], kept := none
      turn := some { kind := .own, budget := s.params.budget, cycle := s.tc.cycle + 1, yieldHanded := false
                     pollEnd := s.tc.lineLast } } }) ∧
  (∀ s : State,
    let t := rosterUpdated s
    let out := members s.tc.removals
    let in_ := members s.tc.additions
    t = { (in_.map (stationJoined s)).foldl post ((out.map (stationLost s)).foldl post s) with
      tc := { s.tc with roster := t.tc.roster, misses := t.tc.misses, removals := 0, additions := 0 } } ∧
    t.tc.roster = (s.tc.roster &&& ~~~ s.tc.removals) ||| s.tc.additions ∧
    (∀ st : StationId, t.tc.misses.get st =
      if s.tc.removals.getLsbD st.val = true ∨ s.tc.additions.getLsbD st.val = true then 0 else s.tc.misses.get st) ∧
    (∀ st : StationId,
      stationLost s st = mkEvent .stationLost 15 st (s.tc.cycle + 1) s.params.missLimit ∧
      stationJoined s st = mkEvent .stationJoined 15 st (s.tc.cycle + 1) 0) ∧
    (∀ x : StationSet, members x =
      ([0, 1, 2, 3, 4, 5, 6, 7, 8, 9, 10, 11, 12, 13, 14, 15] : List StationId).filter fun i => x.getLsbD i.val))

/-- R122, R124, R158: a lapse aborts the member's turn and ends the transmission at once; an ECHO period ends in ARMING.
R57: of the turn list of an aborted turn, the first DATA entries return whose batch is still retained, in the same epoch
of its region (log 24), and not yet sent. R100: a pass with a CHUNK entry in the turn list is set back to the first chunk
whose transmission did not complete, without a settle seq, and without a base seq when that is chunk 0; every other region
is as it was. That the aborted turn also withdraws a SNAP request not granted yet is the model's choice (log 32). -/
def Obligations.LapseAbortsTheMembersTurn : Prop :=
  (∀ (s : State) (t : Turn), PortServes s → s.del.turn = some t → t.kind ≠ .own →
    s.line.tx = .idle ∨ s.line.tx = .holding false →
    ∃ u, exec .turnLapse s = .next u ∧ unmarked u = unmarked { memberAborted s with
      line := { s.line with
        tx := .idle, txSince := s.clock.ticks, fault := none, rx := if s.line.rx = .echo then .arming else s.line.rx
        sampling := if s.line.rx = .echo then sampledAnew s else s.line.sampling } }) ∧
  (∀ (s : State) (r : RegionId) (q : Byte) (n : Nat),
    let waits := ∃ p b, pubAt s r = some p ∧ p.epoch = n ∧ b ∈ p.retained ∧ b.seq = some q ∧ b.sent = false
    (waits → returnable s (.first r q n) = some (r, q)) ∧ (¬ waits → returnable s (.first r q n) = none) ∧
    returnable s (.repeated r q n) = none ∧ ∀ k, returnable s (.chunk r k n) = none) ∧
  (∀ (s : State) (r : RegionId),
    let after (p : PubRecord) := regionAt (setBackPasses s) r = { desc := descAt s r, record := .published p }
    (∀ p c k, pubAt s r = some p → p.pass = some c → .chunk r k c.serial ∈ s.del.turnList → after { p with
      pass := some { c with
        nextChunk := c.sentCount, settle := none, baseSeq := if c.sentCount = 0 then none else c.baseSeq } }) ∧
    (∀ p, pubAt s r = some p → (∀ c k, p.pass = some c → .chunk r k c.serial ∉ s.del.turnList) → after p) ∧
    (pubAt s r = none → regionAt (setBackPasses s) r = regionAt s r))

/-! ## The transmitter -/

/-- R113, R122, R140, R154, R155: when the turnaround gap has passed, the break begins in phase BREAK, else the frame in
the line buffer; with none there the gap has passed for the frame that is handed over later. The model's choices: a frame in
reception at the entry to ECHO has its gap not measured on (log 26), and a break treats a FRAME_ERROR held back as a frame
step does (log 27), and what begins between two sample ticks is counted from the tick before (log 37). -/
def Obligations.TurnaroundGapBeginsTheStep : Prop :=
  ∀ (s : State) (since : Nat), s.top = .running → s.line.tx = .idle → s.tc.gap = .counting since →
    let t := echoEntered s
    let drive (x : LineTx) : State :=
      { t with line := { t.line with tx := x, txSince := s.clock.ticks, fault := none }, tc := { t.tc with gap := .notAwaited } }
    (s.tc.phase = .breaking → exec .turnaroundGap s = .next (settle s (drive .breakLow))) ∧
    (s.tc.phase ≠ .breaking → s.fu.lineBuf.isSome = true →
      exec .turnaroundGap s = .next (settle s (drive .character))) ∧
    (s.tc.phase ≠ .breaking → s.fu.lineBuf = none →
      exec .turnaroundGap s = .next (settle s { s with tc := { s.tc with gap := .passed } }))

/-- R147, R148, R152, R154, R155: the line states that move on a timer or a vote alone; the sampling begins anew with each,
and a receiver that does not look for a start takes no whole frame. R71, R113, R138, R139: outside RUNNING a whole frame that
the receiver takes changes no record and posts no event: the line was last busy at its end, from where an awaited gap counts
(log 4).
R136, R147 to R149, R152, R153: what a sample tick does by the receiver's state. ARMING counts the ticks at 1 and is over at
one bit time of them; IDLE looks for a 0 after a 1, the edge sample, and from there IDLE and CHARACTER take the centre
samples of each bit position: the start bit is voted on its third, the character is received on the third of its last stop
bit. LOW WATCH and BREAK go on measuring the low period from the edge sample, and three ticks at 1 in a row end them; a run
of ticks at 1 in progress is waited for before the break length is taken as reached. The model's choices: a run that begins
at the very tick of the break length is in progress (log 30), the intra-frame gap waits for a start not voted yet (log 23),
and what begins between two sample ticks is counted from the tick before (log 37). -/
def Obligations.LineStatesMoveOn : Prop :=
  (∀ s : State, PortServes s →
    let anew : Sampling := sampledAnew s
    (s.line.tx = .breakLow → ∃ t, exec .breakLowEnd s = .next t ∧
      unmarked t = unmarked { s with line := { s.line with tx := .breakHigh, txSince := s.clock.ticks, fault := none } }) ∧
    (s.line.tx = .holding true → ∃ t, exec .trailingBitTimeEnd s = .next t ∧
      unmarked t = unmarked { s with line := { s.line with
        tx := .idle, txSince := s.clock.ticks, fault := none, rx := .arming, sampling := anew } }) ∧
    (s.line.rx = .arming → ∃ t, exec .receiverArmed s = .next t ∧
      unmarked t = unmarked { s with line := { s.line with rx := .idle, sampling := anew } }) ∧
    (∀ v f, s.line.rx = .idle → s.line.format = some f → majority v = false → ∃ t, exec (.startBitVote v) s = .next t ∧
      unmarked t = unmarked { s with line := { s.line with
        rx := .character v, gapFrom := none, sampling := { anew with sample := some (f.samplesPerBit / 2 + 1) } } }) ∧
    (∀ v, s.line.rx = .idle → majority v = true → ∃ t, exec (.startBitVote v) s = .next t ∧
      unmarked t = unmarked { s with line := { s.line with sampling := anew } }) ∧
    (∀ f, s.line.rx = .lowWatch true → s.line.format = some f → ∃ t, exec .breakLengthReached s = .next t ∧
      unmarked t = unmarked { s with line := { s.line with
        rx := .inBreak
        sampling := { anew with sample := some (max (2 * charBits f * f.samplesPerBit - f.samplesPerBit / 2) (s.line.sampling.sample.getD 0)) } } }) ∧
    (s.line.rx = .lowWatch false → ∃ t, exec .breakLengthReached s = .next t ∧ unmarked t = unmarked s) ∧
    (∀ z, s.line.rx = .lowWatch z → s.fu.heldFraming = none → ∃ t, exec .lowWatchReturn s = .next t ∧
      unmarked t = unmarked { s with line := { s.line with rx := .idle, sampling := anew } }) ∧
    (∀ z e, s.line.rx = .lowWatch z → s.fu.heldFraming = some e → s.top = .running →
      ∃ t, exec .lowWatchReturn s = .next t ∧ unmarked t = unmarked (post { s with
        line := { s.line with rx := .idle, sampling := anew }, fu := { s.fu with heldFraming := none } } e)) ∧
    (∀ z e, s.line.rx = .lowWatch z → s.fu.heldFraming = some e → s.top ≠ .running →
      ∃ t, exec .lowWatchReturn s = .next t ∧ unmarked t = unmarked { s with
        line := { s.line with rx := .idle, sampling := anew }, fu := { s.fu with heldFraming := none } }) ∧
    (∀ (source : StationId) (cycle budget : Byte) (d : DataFrame) (k : ChunkFrame) (y : YieldFrame),
      ∀ c ∈ [Instr.pollReceived source cycle budget, .dataReceived source d, .chunkReceived source k,
        .yieldReceived source y],
      (s.line.rx ≠ .idle → ∃ t, exec c s = .next t ∧ unmarked t = unmarked s) ∧
      (s.line.rx = .idle → s.top ≠ .running → ∃ t, exec c s = .next t ∧
        unmarked t = unmarked (heardAt s s.clock.ticks)))) ∧
  (∀ (s : State) (f : LineFormat) (b : Bool) (rest : List Bool), SampleTick s f → s.line.lrx = b :: rest →
    8 ≤ f.samplesPerBit →
    let p := s.line.sampling
    let N := f.samplesPerBit
    let ones := if b then p.ones + 1 else 0
    ∃ t, step s = .next t ∧ t.line.sampling.level = b ∧
      (s.line.rx = .off → t.line.sampling = { p with level := b }) ∧
      (s.line.rx = .arming → t.line.sampling.ones = ones ∧ (Instr.receiverArmed ∈ dueOf t ↔ N ≤ ones)) ∧
      (s.line.rx = .idle → p.sample = none →
        t.line.sampling.sample = if p.level = true ∧ b = false then some 0 else none) ∧
      (∀ j, s.line.rx = .idle ∨ (∃ v, s.line.rx = .character v) → p.sample = some j →
        t.line.sampling.sample = some (j + 1) ∧
        t.line.sampling.centre =
          if N / 2 - 1 ≤ (j + 1) % N ∧ (j + 1) % N ≤ N / 2 + 1 then p.centre ++ [b] else p.centre) ∧
      (∀ j x y v, s.line.rx = .idle → p.sample = some j → p.centre = [x, y] →
        (Instr.startBitVote v ∈ dueOf t ↔
          j + 1 = N / 2 + 1 ∧ v.getLsbD 0 = x ∧ v.getLsbD 1 = y ∧ v.getLsbD 2 = b)) ∧
      (∀ j v, s.line.rx = .character v → p.sample = some j →
        (∀ xs, Instr.characterReceived xs ∈ dueOf t → j + 1 = (charBits f - 1) * N + N / 2 + 1) ∧
        (j + 1 = (charBits f - 1) * N + N / 2 + 1 → ∃ xs, Instr.characterReceived xs ∈ dueOf t ∧
          ∀ k x y z, t.line.sampling.centre[3 * k]? = some x → t.line.sampling.centre[3 * k + 1]? = some y →
            t.line.sampling.centre[3 * k + 2]? = some z →
            ∃ w : Vote, xs[k]? = some w ∧ w.getLsbD 0 = x ∧ w.getLsbD 1 = y ∧ w.getLsbD 2 = z)) ∧
      (∀ j, (∃ z, s.line.rx = .lowWatch z) ∨ s.line.rx = .inBreak → p.sample = some j →
        t.line.sampling.sample = some (j + 1) ∧ t.line.sampling.ones = ones) ∧
      (∀ j z, s.line.rx = .lowWatch z → p.sample = some j →
        (Instr.lowWatchReturn ∈ dueOf t ↔ 3 ≤ ones) ∧
        (Instr.breakLengthReached ∈ dueOf t ↔ z = true ∧ b = false ∧ 2 * charBits f * N - N / 2 ≤ j + 1)) ∧
      (∀ j n, s.line.rx = .inBreak → p.sample = some j →
        (Instr.lineReset n ∈ dueOf t ↔ 3 ≤ ones ∧ n = j + 1 - 2)) ∧
      (Instr.gap ∈ dueOf t ↔ s.fu.rx ≠ .idle ∧
        (∃ g, s.line.gapFrom = some g ∧ g + 2 * (charBits f * N) ≤ s.clock.ticks + 1) ∧
        ¬ (s.line.rx = .idle ∧ t.line.sampling.sample.isSome = true)))

/-- R118, R124, R143, R157: a collision stops the transmission and ends the step: a member's turn or the master's own turn
is aborted; a POLL is lost with its turn; the master waits for silence. COLLISION is posted with the fault, the failing
character and the frame of the line buffer as it was. That an aborted turn also withdraws a SNAP request not granted yet is the
model's choice (log 32).
R156: in ECHO each bit position of the frame being sent is voted from its three centre samples, counted from the
transmitter's own start, and compared with the bit sent as soon as it is voted: a start, data, lead or parity bit that
differs is a MISMATCH, a stop bit that votes 0 is FRAMING, of that character. In HOLDING, outside the trailing bit time, a
falling edge with a valid start is CONTENTION, and COLLISION is due at once; after the other two it is due at the end of
the character, and the frame does not complete. No tick of a character counts as a sample from an edge: the search begins
anew in HOLDING. -/
def Obligations.CollisionEndsTheStep : Prop :=
  (∀ (s : State) (f : EchoFault) (k : Byte), s.top = .running →
    (f ≠ .contention → s.line.tx = .character) → (f = .contention → s.line.tx = .holding false) →
    let region (f : Frame) : RegionId := match f with | .poll _ _ _ => 15 | .data d => d.region | .chunk d => d.region | .yield _ => 15
    let kind (f : Frame) : Byte := match f with | .poll _ _ _ => 1 | .data _ => 2 | .chunk _ => 3 | .yield _ => 4
    let e : Event := mkEvent .collision (s.fu.lineBuf.elim 15 fun x => region x.frame) 15
      (s.fu.lineBuf.elim 0 fun x => kind x.frame)
      (match f with | .mismatch => 256 + k.toNat | .framing => 512 + k.toNat | .contention => 1023)
    let c := collided s f
    let emptied : State :=
      { c with fu := { c.fu with assembly := .empty, lineBuf := none }, path := { c.path with snap := false } }
    (s.straps.stn ≠ 0 → exec (.collision f k) s = .next (settle s (post (memberAborted c) e))) ∧
    (s.straps.stn = 0 → s.tc.phase = .ownTurn →
      exec (.collision f k) s = .next (settle s (post (waitsForSilence (turnAborted c)) e))) ∧
    (s.straps.stn = 0 → s.tc.phase = .probing →
      exec (.collision f k) s = .next (settle s (post (waitsForSilence emptied) e))) ∧
    (s.straps.stn = 0 → s.tc.phase = .polling →
      exec (.collision f k) s = .next (settle s (post (waitsForSilence { emptied with tc := { c.tc with
        pollPos := s.tc.pollPos.bind fun i => if i + 1 < s.tc.pollList.length then some (i + 1) else none } }) e)))) ∧
  (∀ (s : State) (f : LineFormat) (x : TxFrame) (b : Bool) (rest : List Bool), SampleTick s f → s.line.lrx = b :: rest →
    s.line.rx = .echo → s.line.tx = .character → s.fu.lineBuf = some x → s.line.fault = none → 8 ≤ f.samplesPerBit →
    let N := f.samplesPerBit
    let n := s.clock.ticks + 1 - s.line.txSince
    let taken := s.line.sampling.centre
    ∃ t, step s = .next t ∧
      (n % N ≠ N / 2 + 1 → t.line.fault = none ∧ t.line.sampling.sample = s.line.sampling.sample ∧
        t.line.sampling.centre = if n % N = N / 2 - 1 ∨ n % N = N / 2 then taken ++ [b] else taken) ∧
      (n % N = N / 2 + 1 → t.line.sampling.sample = none ∧ t.line.sampling.centre = []) ∧
      (∀ k p c y z, n % N = N / 2 + 1 → n / N = k * charBits f + p → p < charBits f →
        (frameBytes s.straps.stn x.frame)[k]? = some c → taken = [y, z] →
        let sent := charLevel f c (decide (k = 0)) p
        let voted := (y && z) || (y && b) || (z && b)
        let stop := if f.parity = .none then 10 else 11
        (voted = sent → t.line.fault = none) ∧
        (voted ≠ sent → p < stop → t.line.fault = some (.mismatch, BitVec.ofNat 8 k)) ∧
        (voted ≠ sent → stop ≤ p → t.line.fault = some (.framing, BitVec.ofNat 8 k)))) ∧
  (∀ (s : State) (f : LineFormat) (b : Bool) (rest : List Bool), SampleTick s f → s.line.lrx = b :: rest →
    s.line.rx = .echo → s.line.tx = .holding false → s.line.fault = none → 8 ≤ f.samplesPerBit →
    let p := s.line.sampling
    ∃ t, step s = .next t ∧
      (p.sample = none → t.line.fault = none ∧
        t.line.sampling.sample = if p.level = true ∧ b = false then some 0 else none) ∧
      (∀ j, p.sample = some j → j + 1 ≠ f.samplesPerBit / 2 + 1 → t.line.fault = none ∧
        t.line.sampling.sample = some (j + 1)) ∧
      (∀ j y z, p.sample = some j → j + 1 = f.samplesPerBit / 2 + 1 → p.centre = [y, z] →
        t.line.sampling.sample = none ∧
        (((y && z) || (y && b) || (z && b)) = true → t.line.fault = none) ∧
        (((y && z) || (y && b) || (z && b)) = false →
          t.line.fault = some (.contention, 255) ∧ Instr.collision .contention 255 ∈ dueOf t))) ∧
  (∀ (s : State) (f : LineFormat) (g : EchoFault) (k : Byte), SampleTick s f → s.line.fault = some (g, k) →
    g ≠ .contention →
    ∃ t, step s = .next t ∧ t.line.fault = s.line.fault ∧ Instr.frameTransmitComplete ∉ dueOf t ∧
      (Instr.collision g k ∈ dueOf t ↔
        s.line.txSince + (k.toNat + 1) * (charBits f * f.samplesPerBit) ≤ s.clock.ticks + 1))

/-- R58 to R64, R141: the next frame of an open turn, chosen as soon as the assembly buffer is EMPTY: within the budget a
retransmission, else a refresh chunk, else the batch at the head of the send queue; with the budget used, or none of the
three, the YIELD with an ack entry and a summary for each region that has one. With the line buffer full it stays chosen; with
the line buffer EMPTY it goes on as the next lines say.
R140, R154: a COMPLETE frame moves to an EMPTY line buffer and begins there as the line allows, and the next choice follows; it
stays while the line buffer is full, as does a chunk whose reads are not complete. With no turn open, or the YIELD handed,
there is nothing to choose.
R93 to R96: chunk 0 starts the pass, or restarts the one that an abort set back, with the release check that follows; a
later chunk of a pass in flight is its next. The reads of the chunk begin. The pass's serial is the model's own (log 24).
The model's choices, where a frame handed over begins at once: a frame in reception at the entry to ECHO has its gap not
measured on (log 26), a search for CONTENTION in HOLDING is abandoned (log 36), and a frame that begins between two sample
ticks is counted from the tick before (log 37).
R48, R49, R59: the retransmission step takes the kept region while it holds a batch from its go-back point on, else the
first LIVE region with a batch that needs retransmission, from the oldest such batch on. R60: the refresh step takes the
first region with refresh work after the position, wrapping from 15 to 0. R62, R63: the own ack entry and summary of a
region. -/
def Obligations.TurnChoosesItsFrames : Prop :=
  (∀ (s : State) (t : Turn), s.del.turn = some t → t.yieldHanded = false → s.fu.assembly = .empty →
    let goesOn (v : State) : State := if s.fu.lineBuf = none then pump v else v
    let room := s.del.turnList.length < t.budget
    let assembled (f : Frame) (n : Nat) : FrameUnit := { s.fu with assembly := .complete { frame := f, serial := n } }
    let data (r : RegionId) (p : PubRecord) (b : Batch) : Frame :=
      .data { region := r, generation := p.generation, seq := b.seq.getD 0, records := b.records }
    let reads (u : State) (r : RegionId) (k n : Nat) : State := { u with
      del := { u.del with roundRobin := r, turnList := s.del.turnList ++ [.chunk r k n] }
      fu := { s.fu with assembly := .assembling r k n [] }
      path := { u.path with snap := true } }
    (¬ room ∨ (chooseRepeat s = none ∧ chooseRefresh s = none ∧ s.cap.sendQueue = []) → pump s = goesOn { s with
      del := { s.del with turn := some { t with yieldHanded := true } }
      fu := assembled (.yield
        { cycle := t.cycle, roster := if t.kind = .own then some s.tc.roster else none
          acks := allIds.filterMap (ownAck s), summaries := allIds.filterMap (ownSummary s) }) 0 }) ∧
    (∀ r g b p, room → chooseRepeat s = some (r, g, b) → pubAt s r = some p → pump s = goesOn { s with
      del := { s.del with kept := some (r, g), turnList := s.del.turnList ++ [.repeated r (b.seq.getD 0) p.epoch] }
      fu := assembled (data r p b) p.epoch }) ∧
    (∀ r p, room → chooseRepeat s = none → chooseRefresh s = some r → pubAt s r = some p →
      ((∀ c, p.pass = some c → c.nextChunk = 0) → ∀ c, (passStarted s r p).pass = some c →
        pump s = goesOn (reads (releaseCheck { withPub s r (passStarted s r p) with
          del := { s.del with passSerial := s.del.passSerial + 1 } } r) r 0 c.serial)) ∧
      (∀ c, p.pass = some c → c.nextChunk ≠ 0 →
        pump s = goesOn (reads (withPub s r { p with pass := some { c with nextChunk := c.nextChunk + 1 } }) r c.nextChunk
          c.serial))) ∧
    (∀ r q rest p b, room → chooseRepeat s = none → chooseRefresh s = none → s.cap.sendQueue = (r, q) :: rest →
      pubAt s r = some p → (p.retained.find? fun y => decide (y.seq = some q)) = some b → pump s = goesOn { s with
        cap := { s.cap with sendQueue := rest }
        del := { s.del with turnList := s.del.turnList ++ [.first r q p.epoch] }
        fu := assembled (data r p b) p.epoch })) ∧
  (∀ (s : State),
    (∀ f, s.fu.assembly = .complete f → s.fu.lineBuf = none → pump s = pump (frameHandedOver s f)) ∧
    (∀ f x, s.fu.assembly = .complete f → s.fu.lineBuf = some x → pump s = s) ∧
    (∀ r k n ws, s.fu.assembly = .assembling r k n ws → pump s = s) ∧
    (s.fu.assembly = .empty → (∀ t, s.del.turn = some t → t.yieldHanded = true) → pump s = s)) ∧
  (∀ (s : State),
    let live (r : RegionId) (p : PubRecord) := pubAt s r = some p ∧ p.state = .live
    (∀ r g p b, s.del.kept = some (r, g) → live r p → FirstOf p.retained (RepeatsFrom s r p g) b →
      chooseRepeat s = some (r, g, b)) ∧
    ((∀ r g p, s.del.kept = some (r, g) → live r p → ∀ b ∈ p.retained, ¬ RepeatsFrom s r p g b) →
      (∀ r p x b, live r p → FirstOf p.retained (NeedsRepeat s r p) x →
        (∀ q, q < r → ∀ u, live q u → ∀ y ∈ u.retained, ¬ NeedsRepeat s q u y) →
        FirstOf p.retained (RepeatsFrom s r p (x.seq.getD 0)) b → chooseRepeat s = some (r, x.seq.getD 0, b)) ∧
      ((∀ r p, live r p → ∀ y ∈ p.retained, ¬ NeedsRepeat s r p y) → chooseRepeat s = none))) ∧
  (∀ (s : State),
    let after (r : RegionId) : Nat := (r.val + 15 - s.del.roundRobin.val) % 16
    (∀ r, chooseRefresh s = some r ↔ RefreshWork s r ∧ ∀ q, RefreshWork s q → after r ≤ after q) ∧
    (chooseRefresh s = none ↔ ∀ r, ¬ RefreshWork s r)) ∧
  (∀ (s : State) (r : RegionId),
    let entry (q : SubRecord) (x : ReportedState) : AckEntry :=
      { region := r, generation := q.generation, appliedSeq := q.applied, state := x }
    (∀ q, subAt s r = some q →
      (q.state = .off → ownAck s r = none) ∧
      (q.state = .unsynced → ownAck s r = some (entry q .unsynced)) ∧
      (q.state = .refreshing → ownAck s r = some (entry q .refreshing)) ∧
      (q.state = .settling → ownAck s r = some (entry q .settling)) ∧
      (q.state = .current → ownAck s r = some (entry q .current))) ∧
    (subAt s r = none → ownAck s r = none) ∧
    (∀ p, pubAt s r = some p → ownSummary s r =
      if p.state = .off then none else some { region := r, generation := p.generation }) ∧
    (pubAt s r = none → ownSummary s r = none) ∧
    allIds = [0, 1, 2, 3, 4, 5, 6, 7, 8, 9, 10, 11, 12, 13, 14, 15])

/-- R57, R99, R113, R115, R122, R142: what the completion of each kind of frame does: a DATA frame marks its batch sent and
runs the release check, and marks none where a discard has taken the batch away (R8; log 24); a CHUNK counts for its pass,
and where that pass has ended or another has begun it counts for none, the release check following in both; a POLL starts
the watch, and a YIELD ends the turn. What begins between two sample ticks is counted from the tick before: the model's
choice (log 37). -/
def Obligations.CompletedFrameIsReported : Prop :=
  ∀ (s : State) (x : TxFrame), s.line.tx = .character → s.line.fault = none → s.fu.lineBuf = some x →
    (∀ d p, x.frame = .data d → pubAt s d.region = some p → p.epoch ≠ x.serial →
      exec .frameTransmitComplete s = .next (settle s (pump (transmitted s false)))) ∧
    (∀ d p, x.frame = .data d → pubAt s d.region = some p → p.epoch = x.serial →
      exec .frameTransmitComplete s = .next (settle s (pump (releaseCheck
        (withPub (transmitted s false) d.region (sentIn s.del.ownTurn d.seq p)) d.region)))) ∧
    (∀ ch p c, x.frame = .chunk ch → pubAt s ch.region = some p → p.pass = some c → c.serial = x.serial →
      exec .frameTransmitComplete s = .next (settle s (pump (releaseCheck
        (withPub (transmitted s false) ch.region
          (if c.sentCount + 1 = c.chunkCount then { p with pass := none, endGuard := true }
           else { p with pass := some { c with sentCount := c.sentCount + 1 } })) ch.region)))) ∧
    (∀ ch p, x.frame = .chunk ch → pubAt s ch.region = some p → (∀ c, p.pass = some c → c.serial ≠ x.serial) →
      exec .frameTransmitComplete s = .next (settle s (pump (releaseCheck (transmitted s false) ch.region)))) ∧
    (∀ st cycle budget, x.frame = .poll st cycle budget → s.del.turn = none → s.fu.assembly = .empty →
      let t := transmitted s true
      let w : Watch :=
        { station := st, probe := decide (s.tc.phase = .probing), budget := budget.toNat, reply := some s.clock.ticks
          silence := none, frames := 0 }
      exec .frameTransmitComplete s = .next (settle s { t with tc := { t.tc with watch := some w } })) ∧
    (∀ y, x.frame = .yield y →
      let t := transmitted s true
      let u : State := { t with del := { t.del with turn := none, turnList := [], kept := none } }
      (s.straps.stn = 0 → exec .frameTransmitComplete s = .next (settle s (pump (masterNext u)))) ∧
      (s.straps.stn ≠ 0 → s.fu.assembly = .empty →
        exec .frameTransmitComplete s = .next (settle s { u with tc := { u.tc with
          member := if s.tc.member = .speaking then .enrolled else s.tc.member
          probeReply := false, lost := .running s.clock.us, gap := .notAwaited } })))

/-! ## Characters and the frame receiver -/

/-- R134, R135, R138, R149, R150: a clean lead character of a frame for this station, or for all, begins its reception: the
receiver holds the character and its CRC, the gap is measured from the character's end, C bit times after its edge, and
the line-lost timer restarts. A noisy one does the same, and in RUNNING starts a noisy spell with one NOISE event. -/
def Obligations.LeadCharacterBeginsReception : Prop :=
  ∀ (s : State) (v : Vote) (f : LineFormat) (samples : List Vote), s.line.rx = .character v → s.line.format = some f →
    let c := voteChar f v samples
    c.lead = true → c.framingError = false → c.parityError = false → s.fu.rx = .idle →
    1 ≤ kindOf c.byte ∧ kindOf c.byte ≤ 4 → destinationOf c.byte = s.straps.stn ∨ destinationOf c.byte = 15 →
    let e := s.clock.ticks + f.samplesPerBit / 2 - 1
    let h := heardAt s e
    let begun (noisy : Bool) (clean : Nat) : State :=
      { h with
        line := { s.line with
          rx := .idle, noisy := noisy, clean := clean, gapFrom := some e, sampling := sampledAnew s }
        fu := { s.fu with rx := .receiving [c.byte] (crcByte 0xFFFF c.byte) }
        tc := { h.tc with lost := if s.top = .running then lostRestarted s else s.tc.lost } }
    (c.firstNoisy = none → s.line.noisy = false →
      exec (.characterReceived samples) s = .next (settle s (begun false s.line.clean))) ∧
    (c.firstNoisy = none → s.line.noisy = true → exec (.characterReceived samples) s =
      .next (settle s (begun (decide (s.line.clean + 1 < 32)) (s.line.clean + 1)))) ∧
    (∀ p, c.firstNoisy = some p → s.line.noisy = true →
      exec (.characterReceived samples) s = .next (settle s (begun true 0))) ∧
    (∀ p, c.firstNoisy = some p → s.line.noisy = false → s.top = .running →
      exec (.characterReceived samples) s = .next (settle s (post (begun true 0) (mkEvent .noise 15 15 c.byte p))))

/-- R136, R138: the ends of a frame that are no good frame, at the command that brings them: a gap posts FRAME_ERROR at once
in RUNNING; a framing error leaves it held back in LOW WATCH. R151, R152: a framing error with no frame in reception, as at
the start of a break on an idle line, or in a muted one, enters LOW WATCH too, with nothing held back.
R149, R150: every character goes to the frame unit, and the noise state moves with it: a noisy one makes it NOISY with the
clean count 0, and in RUNNING the first of a spell posts NOISE, in a free place among the events of its delivery (log 25); a
clean one counts in NOISY, and the 32nd in a row makes it QUIET.
R134 to R138: what each character does there, in IDLE, RECEIVING and COUNTING: LEAD, PARITY, FRAMING, LENGTH, KIND, CONTENT
and CRC_ERROR, the mute of a frame for another station and of a region not subscribed here, and the count to the end of a
muted frame, which gives no event. That an erroneous character is no lead character is the model's reading (log 12). The
event's region, station and kind come from the characters in the buffer. R193: the kind and the destination are the high and
the low half of character 0, the source the low half of character 1. -/
def Obligations.BrokenFrameEndsReception : Prop :=
  (∀ (s : State) (buffer : List Byte) (crc : BitVec 16), s.fu.rx = .receiving buffer crc →
    let ended (t : State) : State := frameCounted { t with fu := { t.fu with rx := .idle } }
    let ev (x : FrameFault) : Event :=
      mkEvent .frameError (bufferRegion buffer) (bufferStation buffer) (BitVec.ofNat 8 (bufferKind buffer)) x.code
    (∀ since, s.line.gapFrom = some since →
      let t := ended { s with line := { s.line with gapFrom := none } }
      exec .gap s = .next (settle s (if s.top = .running then post t (ev .gap) else t))) ∧
    (∀ v f samples, s.line.rx = .character v → s.line.format = some f → s.line.noisy = false →
      let c := voteChar f v samples
      c.framingError = true → c.firstNoisy = none →
      let t := ended (heardAt s (s.clock.ticks + f.samplesPerBit / 2 - 1))
      exec (.characterReceived samples) s = .next (settle s { t with
        line := { s.line with
          rx := .lowWatch c.allZero, gapFrom := none
          sampling := { sampledAnew s with sample := some ((charBits f - 1) * f.samplesPerBit + f.samplesPerBit / 2 + 1) } }
        fu := { t.fu with heldFraming := some (ev .framing) } }))) ∧
  (∀ (s : State) (v : Vote) (f : LineFormat) (samples : List Vote), s.line.rx = .character v → s.line.format = some f →
    s.line.noisy = false →
    let c := voteChar f v samples
    c.framingError = true → c.firstNoisy = none →
    let h := heardAt s (s.clock.ticks + f.samplesPerBit / 2 - 1)
    let watches (t : State) : Prop := exec (.characterReceived samples) s = .next (settle s { t with
      line := { s.line with
        rx := .lowWatch c.allZero, gapFrom := none
        sampling := { sampledAnew s with sample := some ((charBits f - 1) * f.samplesPerBit + f.samplesPerBit / 2 + 1) } } })
    (s.fu.rx = .idle → watches h) ∧
    (∀ k n, s.fu.rx = .counting k n → watches (frameCounted { h with fu := { s.fu with rx := .idle } }))) ∧
  (∀ (s : State) (k n since : Nat), s.fu.rx = .counting k n → s.line.gapFrom = some since →
    exec .gap s = .next (settle s (frameCounted
      { s with line := { s.line with gapFrom := none }, fu := { s.fu with rx := .idle } }))) ∧
  (∀ (s : State) (v : Vote) (f : LineFormat) (samples : List Vote), s.line.rx = .character v → s.line.format = some f →
    let c := voteChar f v samples
    let e := s.clock.ticks + f.samplesPerBit / 2 - 1
    let h (noisy : Bool) (clean : Nat) : State := heardAt { s with line := { s.line with
      noisy := noisy, clean := clean
      rx := if c.framingError then .lowWatch c.allZero else .idle
      sampling :=
        if c.framingError then
          { sampledAnew s with sample := some ((charBits f - 1) * f.samplesPerBit + f.samplesPerBit / 2 + 1) }
        else sampledAnew s } } e
    let ends (d : State) : Prop := exec (.characterReceived samples) s = .next (settle s { d with
      line := { d.line with gapFrom := if d.fu.rx = .idle then none else some e } })
    (c.firstNoisy = none → s.line.noisy = false → ends (deliverCharacter (h false s.line.clean) c)) ∧
    (c.firstNoisy = none → s.line.noisy = true →
      ends (deliverCharacter (h (decide (s.line.clean + 1 < 32)) (s.line.clean + 1)) c)) ∧
    (∀ p, c.firstNoisy = some p → s.line.noisy = true → ends (deliverCharacter (h true 0) c)) ∧
    (∀ p, c.firstNoisy = some p → s.line.noisy = false →
      let noise := mkEvent .noise 15 15 c.byte p
      (s.top ≠ .running → ends (deliverCharacter (h true 0) c)) ∧
      (s.top = .running → ends (postAmong s.agent.events.length (deliverCharacter (h true 0) c) noise)))) ∧
  (∀ (s : State) (c : VotedChar),
    let ended (t : State) : State := frameCounted { t with fu := { t.fu with rx := .idle } }
    let hears (x : FrameRx) : State := { s with fu := { s.fu with rx := x } }
    let clean := c.framingError = false ∧ c.parityError = false
    (s.fu.rx = .idle →
      (¬ clean ∨ c.lead = false → deliverCharacter s c = s) ∧
      (clean → c.lead = true → deliverCharacter s c = leadDecided (leadHeard s) c.byte)) ∧
    (∀ k n, s.fu.rx = .counting k n →
      (¬ clean → deliverCharacter s c = ended s) ∧
      (clean → c.lead = true → deliverCharacter s c = leadDecided (ended (leadHeard s)) c.byte) ∧
      (clean → c.lead = false → deliverCharacter s c = if k + 1 = n + 5 then ended s else hears (.counting (k + 1) n))) ∧
    (∀ buffer crc, s.fu.rx = .receiving buffer crc →
      (c.framingError = true → deliverCharacter s c = { ended s with fu := { (ended s).fu with
        heldFraming := some (mkEvent .frameError (bufferRegion buffer) (bufferStation buffer)
          (BitVec.ofNat 8 (bufferKind buffer)) 4) } }) ∧
      (c.framingError = false → c.parityError = true → deliverCharacter s c = frameFailed s buffer .parity) ∧
      (clean → c.lead = true → deliverCharacter s c = leadDecided (frameFailed (leadHeard s) buffer .lead) c.byte) ∧
      (clean → c.lead = false →
        let chars := buffer ++ [c.byte]
        let n := (chars.getD 2 0#8).toNat
        let muted := ∃ c0 c1 m r, chars = [c0, c1, m, r] ∧ m ≠ 0 ∧ (kindOf c0 = 2 ∨ kindOf c0 = 3) ∧
          ∀ i : RegionId, i.val = r.toNat → subAt s i = none
        (chars.length ≤ 2 → deliverCharacter s c = hears (.receiving chars (crcByte crc c.byte))) ∧
        (2 < chars.length → 160 < n → deliverCharacter s c = frameFailed s chars .length) ∧
        (muted → n ≤ 160 → deliverCharacter s c = hears (.counting 4 n)) ∧
        (2 < chars.length → n ≤ 160 → ¬ muted → chars.length ≠ n + 5 → deliverCharacter s c =
          hears (.receiving chars (if chars.length ≤ n + 3 then crcByte crc c.byte else crc))) ∧
        (∀ c0 c1 m payload h, chars = c0 :: c1 :: m :: (payload ++ [h, c.byte]) → payload.length = n → n ≤ 160 →
          let destination : StationId := destinationOf c0
          let source : StationId := sourceOf c1
          (h ++ c.byte ≠ crc → deliverCharacter s c =
            let t := ended s
            if s.top = .running then
              post t (mkEvent .crcError (bufferRegion chars) (bufferStation chars) (BitVec.ofNat 8 (bufferKind chars)) n)
            else t) ∧
          (h ++ c.byte = crc → source = 15 ∨ (kindOf c0 = 1 ∧ (destination = 15 ∨ n ≠ 2 ∨ 8 < (payload.getD 1 0#8).toNat)) ∨
              (kindOf c0 ≠ 1 ∧ destination ≠ 15) ∨ contentOf (kindOf c0) destination payload = none →
            deliverCharacter s c = frameFailed s chars .content) ∧
          (∀ g, h ++ c.byte = crc → source ≠ 15 → contentOf (kindOf c0) destination payload = some g →
            deliverCharacter s c = handOn (hears .idle) source g))))) ∧
  (∀ (c0 c1 : Byte) (rest : List Byte),
    kindOf c0 = c0.toNat / 16 ∧ (destinationOf c0).val = c0.toNat % 16 ∧ (sourceOf c1).val = c1.toNat % 16 ∧
    bufferKind (c0 :: rest) = c0.toNat / 16 ∧ bufferStation [c0] = 15 ∧
    (bufferStation (c0 :: c1 :: rest)).val = c1.toNat % 16 ∧
    (∀ n r : Byte, (c0.toNat / 16 = 2 ∨ c0.toNat / 16 = 3) ∧ n ≠ 0 ∧ r.toNat < 16 →
      (bufferRegion (c0 :: c1 :: n :: r :: rest)).val = r.toNat) ∧
    (∀ buffer : List Byte,
      (∀ d0 d1 n r more, buffer = d0 :: d1 :: n :: r :: more →
        ¬ ((d0.toNat / 16 = 2 ∨ d0.toNat / 16 = 3) ∧ n ≠ 0 ∧ r.toNat < 16)) → bufferRegion buffer = 15))

/-- R124, R136, R153: a line reset ends a frame in reception without an event, drops the FRAME_ERROR held back, aborts a
member's turn that has not begun to send, and posts LINE_RESET in RUNNING. That the aborted turn also withdraws a SNAP request
not granted yet (`memberAborted`) is the model's choice (log 32). -/
def Obligations.LineResetIsTaken : Prop :=
  ∀ (s : State) (n : Nat) (f : LineFormat), s.line.rx = .inBreak → s.line.format = some f →
    2 * charBits f * f.samplesPerBit - f.samplesPerBit / 2 ≤ n →
    let c : State := if s.fu.rx = .idle then s else frameCounted { s with fu := { s.fu with rx := .idle } }
    let d : State := { c with fu := { c.fu with heldFraming := none } }
    let t := if (s.del.turn.any fun x => decide (x.kind ≠ .own)) = true ∧ s.line.tx = .idle then memberAborted d else d
    let e : Event := mkEvent .lineReset 15 15 (if s.straps.stn = 0 then s.tc.cycle else s.tc.lastCycle)
      (max 2 (min 255 (n / (charBits f * f.samplesPerBit))))
    let u := if s.top = .running then post t e else t
    exec (.lineReset n) s = .next (settle s { u with line := { u.line with rx := .idle, sampling := sampledAnew s } })

/-! ## Good frames -/

/-- R4, R71 to R76: what a DATA frame does at its region: nothing where the region is not subscribed or is
UNSYNCED, or where the seq test discards the frame (R74); WRONG_PUBLISHER; UNSYNCED by another generation; a slot and the
accepted seq; or INBOUND_OVERRUN. -/
def Obligations.DataFrameAtItsRegion : Prop :=
  ∀ (s : State) (source : StationId) (d : DataFrame), s.top = .running → s.line.rx = .idle →
    let t := frameCounted (frameHeard s)
    (subAt s d.region = none → exec (.dataReceived source d) s = .next (settle s t)) ∧
    ∀ q, subAt s d.region = some q →
      (source ≠ (descAt s d.region).publisher →
        exec (.dataReceived source d) s = .next (settle s (post t (mkEvent .wrongPublisher d.region source d.seq 2)))) ∧
      (source = (descAt s d.region).publisher →
        (q.state = .unsynced ∨ q.state = .off → exec (.dataReceived source d) s = .next (settle s t)) ∧
        (q.state ≠ .unsynced → q.state ≠ .off →
          (d.generation ≠ q.generation → exec (.dataReceived source d) s =
            .next (settle s (unsynced t d.region q .regionUnsynced 1))) ∧
          (d.generation = q.generation → d.seq - q.accepted = 1 → s.inb.slots.length < 2 →
            exec (.dataReceived source d) s = .next (settle s { withSub t d.region { q with accepted := d.seq } with
              inb := { s.inb with slots := s.inb.slots ++
                [{ region := d.region, seq := d.seq, content := .data d.records, inProgress := false }] } })) ∧
          (d.generation = q.generation → d.seq - q.accepted = 1 → 2 ≤ s.inb.slots.length →
            exec (.dataReceived source d) s =
              .next (settle s (post t (mkEvent .inboundOverrun d.region source d.seq 2)))) ∧
          (d.generation = q.generation → d.seq - q.accepted ≠ 1 →
            exec (.dataReceived source d) s = .next (settle s t))))

/-- R74: the seq test of the inbound stage classifies a DATA frame by d = (frame seq − accepted seq) mod 256: 1 is in order,
accepted into a slot or an overrun; 0 and 129..255 a duplicate and 2..128 a gap, both discarded, which change no field, take
no slot and post no event. -/
def Obligations.SeqTestOfData : Prop :=
  ∀ (s : State) (d : DataFrame) (q : SubRecord), subAt s d.region = some q →
    q.state = .refreshing ∨ q.state = .settling ∨ q.state = .current → d.generation = q.generation →
    let k := (d.seq.toNat + 256 - q.accepted.toNat) % 256
    let source := (descAt s d.region).publisher
    (seqClass d.seq q.accepted = .inOrder ↔ k = 1) ∧
    (seqClass d.seq q.accepted = .duplicate ↔ k = 0 ∨ 129 ≤ k) ∧
    (seqClass d.seq q.accepted = .gap ↔ 2 ≤ k ∧ k ≤ 128) ∧
    (k = 1 → inboundData s source d = if s.inb.slots.length < 2 then
        { withSub s d.region { q with accepted := d.seq } with
          inb := { s.inb with slots := s.inb.slots ++
            [{ region := d.region, seq := d.seq, content := .data d.records, inProgress := false }] } }
      else post s (mkEvent .inboundOverrun d.region source d.seq 2)) ∧
    (k ≠ 1 → inboundData s source d = s)

/-- R4, R16, R77, R78: a CHUNK 0 that names this station starts a refresh: generation, accepted, applied and base seq are
taken from it, the region's waiting DATA slots are purged, and the chunk takes a slot. With both slots full it breaks a
refresh that is followed, or overruns. One that does not name this station, or finds it out of its roster, is ignored.
R19, R21: a CHUNK of another index from the publisher, at a region that is not UNSYNCED: another generation unsyncs;
one that names this station is accepted in order, breaks the refresh out of order or with both slots full, and breaks a
region that is not REFRESHING. R4, R73: a CHUNK of any index does nothing at a region that is not subscribed; one of another
index from a station that is not the publisher gives WRONG_PUBLISHER, and at an UNSYNCED or OFF region nothing. -/
def Obligations.ChunkFrameAtItsRegion : Prop :=
  (∀ (s : State) (source : StationId) (c : ChunkFrame) (q : SubRecord), s.top = .running → s.line.rx = .idle →
     subAt s c.region = some q → c.index = 0 →
     let t := frameCounted (frameHeard s)
     let named := c.targets.getLsbD s.straps.stn.val = true ∧
       (s.straps.stn = 0 ∨ s.tc.member = .enrolled ∨ s.tc.member = .speaking) ∧ q.state ≠ .off
     (source ≠ (descAt s c.region).publisher → exec (.chunkReceived source c) s =
       .next (settle s (post t (mkEvent .wrongPublisher c.region source c.baseSeq 3)))) ∧
     (source = (descAt s c.region).publisher →
       (¬ named → exec (.chunkReceived source c) s = .next (settle s t)) ∧
       (named → s.inb.slots.length < 2 → exec (.chunkReceived source c) s =
         .next (settle s { withSub t c.region { q with
             state := .refreshing, generation := c.generation, accepted := c.baseSeq, applied := c.baseSeq
             baseSeq := some c.baseSeq, expected := some 1, settle := c.settle } with
           inb := { s.inb with slots :=
             (s.inb.slots.filter fun x => x.inProgress || decide (x.region ≠ c.region) ||
               (match x.content with | .data _ => false | .chunk _ _ _ => true)) ++
             [{ region := c.region, seq := c.baseSeq, content := .chunk c.index c.settle.isSome c.words
                inProgress := false }] } })) ∧
       (named → 2 ≤ s.inb.slots.length → q.state = .unsynced → exec (.chunkReceived source c) s =
         .next (settle s (post t (mkEvent .inboundOverrun c.region source c.baseSeq 3)))) ∧
       (named → 2 ≤ s.inb.slots.length → q.state ≠ .unsynced → exec (.chunkReceived source c) s =
         .next (settle s (unsynced t c.region q .refreshBroken 2))))) ∧
  (∀ (s : State) (c : ChunkFrame) (q : SubRecord), s.top = .running → s.line.rx = .idle → subAt s c.region = some q →
     c.index ≠ 0 → q.state ≠ .off → q.state ≠ .unsynced →
     let source := (descAt s c.region).publisher
     let t := frameCounted (frameHeard s)
     let named := c.targets.getLsbD s.straps.stn.val = true
     let due := q.expected = some c.index.val ∧ q.baseSeq = some c.baseSeq
     (c.generation ≠ q.generation → exec (.chunkReceived source c) s =
       .next (settle s (unsynced t c.region q .regionUnsynced 1))) ∧
     (c.generation = q.generation → ¬ named → exec (.chunkReceived source c) s = .next (settle s t)) ∧
     (c.generation = q.generation → named → q.state ≠ .refreshing → exec (.chunkReceived source c) s =
       .next (settle s (unsynced t c.region q .refreshBroken 3))) ∧
     (c.generation = q.generation → named → q.state = .refreshing → ¬ due → exec (.chunkReceived source c) s =
       .next (settle s (unsynced t c.region q .refreshBroken 1))) ∧
     (c.generation = q.generation → named → q.state = .refreshing → due → 2 ≤ s.inb.slots.length →
       exec (.chunkReceived source c) s = .next (settle s (unsynced t c.region q .refreshBroken 2))) ∧
     (c.generation = q.generation → named → q.state = .refreshing → due → s.inb.slots.length < 2 →
       exec (.chunkReceived source c) s = .next (settle s { withSub t c.region { q with
           expected := some (c.index.val + 1), settle := if c.settle.isSome then c.settle else q.settle } with
         inb := { s.inb with slots := s.inb.slots ++
           [{ region := c.region, seq := c.baseSeq, content := .chunk c.index c.settle.isSome c.words
              inProgress := false }] } }))) ∧
  (∀ (s : State) (source : StationId) (c : ChunkFrame), s.top = .running → s.line.rx = .idle →
     let t := frameCounted (frameHeard s)
     (subAt s c.region = none → exec (.chunkReceived source c) s = .next (settle s t)) ∧
     (∀ q, subAt s c.region = some q → c.index ≠ 0 →
       (source ≠ (descAt s c.region).publisher → exec (.chunkReceived source c) s =
         .next (settle s (post t (mkEvent .wrongPublisher c.region source c.baseSeq 3)))) ∧
       (source = (descAt s c.region).publisher → q.state = .unsynced ∨ q.state = .off →
         exec (.chunkReceived source c) s = .next (settle s t))))

/-- R121, R122: a POLL from station 0 opens the turn of an ENROLLED member with its budget, and the probe reply of a
LISTENING or ENROLLED member with budget 0, an ENROLLED one leaving its roster first. Any other POLL opens nothing. -/
def Obligations.PollOpensTheMembersTurn : Prop :=
  ∀ (s : State) (source : StationId) (cycle budget : Byte), s.top = .running → s.line.rx = .idle →
    let t := frameCounted (frameHeard s)
    let listened : State := { t with tc := { t.tc with member := .listening } }
    (s.straps.stn = 0 ∨ source ≠ 0 ∨ s.tc.member = .speaking ∨ s.tc.member = .detached →
      exec (.pollReceived source cycle budget) s = .next (settle s t)) ∧
    (s.straps.stn ≠ 0 → source = 0 →
      (s.tc.member = .listening → s.tc.probeReply = true ∨ budget ≠ 0 →
        exec (.pollReceived source cycle budget) s = .next (settle s t)) ∧
      (s.tc.member = .listening → s.tc.probeReply = false → budget = 0 →
        exec (.pollReceived source cycle budget) s = .next (settle s (memberOpened t .probeReply 0 cycle))) ∧
      (s.tc.member = .enrolled → budget ≠ 0 →
        exec (.pollReceived source cycle budget) s = .next (settle s (memberOpened t .member budget.toNat cycle))) ∧
      (s.tc.member = .enrolled → budget = 0 → exec (.pollReceived source cycle budget) s =
        .next (settle s (memberOpened (unsyncNotEnrolled (suspendAll listened)) .probeReply 0 cycle))))

/-- R110, R115, R123, R139: a YIELD is taken by the turn controller, then its ack entries and its summaries are taken in
frame order. At the master the YIELD awaited ends the watched turn with success, and any other counts as a frame. At a
member a YIELD with a roster from station 0 replaces the roster copy and moves the member state. R180: the turn controller's
part and each ack entry are moments of their own for the dirty marks (log 16).
R4, R19: a summary from the region's publisher with another generation than the stored one unsyncs a region that follows it,
with cause GENERATION; every other summary is ignored: one for a region not subscribed here, from another station, with the
stored generation, or for an UNSYNCED or OFF region. What follows from a
roster that changed is stated by LineLossClearsTheRoster (R20, R54). -/
def Obligations.YieldIsTakenByThreeBlocks : Prop :=
  (∀ (s : State) (source : StationId) (y : YieldFrame), s.top = .running → s.line.rx = .idle →
    let h := frameHeard s
    let goesOn (a : State) : Host.Outcome State Fault Refusal :=
      .next (settle s (pump (y.summaries.foldl (fun t x => takeSummary t source x)
        (y.acks.foldl (fun t x => markChanges t (processAck t source x)) (markChanges h a)))))
    (s.straps.stn = 0 → (∀ w, s.tc.watch = some w → w.station ≠ source ∨ y.cycle ≠ s.tc.cycle) →
      exec (.yieldReceived source y) s = goesOn (frameCounted h)) ∧
    (∀ w, s.straps.stn = 0 → s.tc.watch = some w → w.station = source → y.cycle = s.tc.cycle →
      exec (.yieldReceived source y) s = goesOn (masterNext { h with tc :=
        if w.probe then { h.tc with watch := none, additions := s.tc.additions ||| (1#16 <<< source.val) }
        else
          { h.tc with
            watch := none, misses := s.tc.misses.set source.val 0 source.isLt
            pollPos := s.tc.pollPos.bind fun i => if i + 1 < s.tc.pollList.length then some (i + 1) else none } })) ∧
    (s.straps.stn ≠ 0 → y.roster = none ∨ source ≠ 0 → exec (.yieldReceived source y) s = goesOn h) ∧
    (∀ ro, s.straps.stn ≠ 0 → y.roster = some ro → source = 0 →
      let c : State := { h with tc := { h.tc with roster := ro, lastCycle := y.cycle } }
      let own := ro.getLsbD s.straps.stn.val = true
      (s.tc.probeReply = false → s.tc.member = .listening → own → exec (.yieldReceived source y) s =
        goesOn (rosterChanged (updAllPubs { c with tc := { c.tc with member := .enrolled } } fun p =>
          if p.state = .suspended then { p with state := .live } else p))) ∧
      (s.tc.probeReply = false → s.tc.member = .listening → ¬ own →
        exec (.yieldReceived source y) s = goesOn (rosterChanged c)) ∧
      (s.tc.probeReply = false → s.tc.member = .enrolled → own →
        exec (.yieldReceived source y) s = goesOn (rosterChanged c)) ∧
      (s.tc.probeReply = false → s.tc.member = .enrolled → ¬ own → exec (.yieldReceived source y) s =
        goesOn (rosterChanged (unsyncNotEnrolled (suspendAll { c with tc := { c.tc with member := .listening } })))))) ∧
  (∀ (s : State) (source : StationId) (x : Summary),
    (subAt s x.region = none → takeSummary s source x = s) ∧
    ∀ q, subAt s x.region = some q →
      (source ≠ (descAt s x.region).publisher ∨ x.generation = q.generation ∨ q.state = .unsynced ∨ q.state = .off →
        takeSummary s source x = s) ∧
      (source = (descAt s x.region).publisher → x.generation ≠ q.generation → q.state ≠ .unsynced → q.state ≠ .off →
        takeSummary s source x = unsynced s x.region q .regionUnsynced 1))

/-- R50 to R53, R55, R92: an ack entry of a subscriber in the roster, for a LIVE region, sets the station's ack state by the
first row that applies, and no other station's; REFRESH-WANTED, or REFRESHING while no pass serves it and the end guard is clear, makes it a
pending target; the release check follows. -/
def Obligations.AckEntrySetsTheAckState : Prop :=
  ∀ (s : State) (st : StationId) (a : AckEntry) (p : PubRecord), pubAt s a.region = some p →
    let admitted := p.state = .live ∧ s.tc.roster.getLsbD st.val = true ∧
      (descAt s a.region).subscribers.getLsbD st.val = true
    let wanted := a.state = .unsynced ∨ a.generation ≠ p.generation ∨
      ¬ ((a.appliedSeq - p.lastReleased).toNat ≤ 127 ∧ (p.nextSeq - 1 - a.appliedSeq).toNat ≤ 127)
    let restart := a.state = .refreshing ∧ (∀ c, p.pass = some c → c.targets.getLsbD st.val = false) ∧ p.endGuard = false
    let pend : StationSet := p.pendingTargets ||| (1#16 <<< st.val)
    let set (x : AckState) (w : StationSet) : State :=
      releaseCheck (withPub s a.region { p with
        acks := p.acks.map fun e => if e.1 = st then (e.1, x) else e, pendingTargets := w }) a.region
    (¬ admitted → processAck s st a = s) ∧
    (admitted → wanted → processAck s st a = set .refreshWanted pend) ∧
    (admitted → ¬ wanted → restart →
      processAck s st a = set (.tracking a.appliedSeq (some s.del.ownTurn)) pend) ∧
    (admitted → ¬ wanted → ¬ restart →
      processAck s st a = set (.tracking a.appliedSeq (some s.del.ownTurn)) p.pendingTargets)

/-! ## What is sent is what is received -/

/-- R128 to R133, R137, R187, R193: the characters of a well-formed frame pass the receiver's checks and give back the source
and the frame, every field at every value.
R128, R130 to R133, R187, R193: the place of every field: the kind and destination, the source, the payload length, the
payload of each kind in the order of its fields, and the CRC of the characters before it, high byte first.
R137, R187: the frames that pass the checks are no others: the content taken from a payload is the one that it carries, each
field in its place and range and the payload ending where its fields do, the bits that a payload table marks 0 being
ignored; such a frame from a station 0..14, with the CRC after it, is good, and one with another CRC is a CRC fault.
R129: the CRC's register starts at 0xFFFF and takes the bytes in order, each from bit 7 down to bit 0: it is shifted one place
toward bit 15, and exclusive-ORed with 0x1021 where its bit 15 differed from the data bit. -/
def Obligations.CheckedFrameIsTheFrameSent : Prop :=
  (∀ (source : StationId) (f : Frame), source ≠ 15 → f.wf = true →
    checkFrame (frameBytes source f) (crc16 (bodyOf source f)) = .good source f) ∧
  (∀ (source : StationId) (f : Frame), f.wf = true →
    let bytes (x : BitVec 16) : List Nat := [x.toNat / 256, x.toNat % 256]
    let record (x : UpdateRecord) : List Nat :=
      [x.offset.toNat, x.lanes.toNat] ++
        ([0, 1, 2, 3].filter fun k => x.lanes.getLsbD k).map fun k => x.data.toNat / 2 ^ (8 * k) % 256
    let word (x : Word) : List Nat := [0, 1, 2, 3].map fun k => x.toNat / 2 ^ (8 * k) % 256
    let entry (x : AckEntry) : List Nat :=
      [x.region.val, x.generation.toNat, x.appliedSeq.toNat,
        match x.state with | .unsynced => 1 | .refreshing => 2 | .settling => 3 | .current => 4]
    let sent (kind destination : Nat) (payload : List Nat) : Prop :=
      ∃ body : List Byte, body.map BitVec.toNat = [16 * kind + destination, source.val, payload.length] ++ payload ∧
        (frameBytes source f).map BitVec.toNat = body.map BitVec.toNat ++ bytes (crc16 body)
    match f with
    | .poll d cycle budget => sent 1 d.val [cycle.toNat, budget.toNat]
    | .data x => sent 2 15
        ([x.region.val, x.generation.toNat, x.seq.toNat, x.records.length] ++ x.records.flatMap record)
    | .chunk x => sent 3 15
        ([x.region.val, x.generation.toNat] ++ bytes x.targets ++
          [x.baseSeq.toNat, x.index.val + 128 * (if x.settle.isSome then 1 else 0)] ++
          (x.settle.elim [] fun z => [z.toNat]) ++ [x.words.length] ++ x.words.flatMap word)
    | .yield x => sent 4 15
        ([x.cycle.toNat, if x.roster.isSome then 1 else 0, x.acks.length, x.summaries.length] ++
          x.roster.elim [] bytes ++ x.acks.flatMap entry ++
          x.summaries.flatMap fun z => [z.region.val, z.generation.toNat])) ∧
  (∀ (body : List Byte) (crc : BitVec 16) (b : Byte),
    let takes (r : BitVec 16) (i : Nat) : BitVec 16 :=
      if r.getLsbD 15 = b.getLsbD i then r <<< 1 else (r <<< 1) ^^^ 0x1021#16
    crc16 [] = 0xFFFF#16 ∧ crc16 (body ++ [b]) = crcByte (crc16 body) b ∧
      crcByte crc b = takes (takes (takes (takes (takes (takes (takes (takes crc 7) 6) 5) 4) 3) 2) 1) 0) ∧
  (∀ (kind : Nat) (destination : StationId) (payload : List Byte) (f : Frame),
    contentOf kind destination payload = some f ↔ Carries kind destination payload f) ∧
  (∀ (chars : List Byte) (crc : BitVec 16) (source : StationId) (f : Frame), checkFrame chars crc = .good source f ↔
    source ≠ 15 ∧ ∃ (kind ignored : BitVec 4) (destination : StationId) (payload : List Byte), payload.length < 256 ∧
      Carries kind.toNat destination payload f ∧
      chars = (kind ++ BitVec.ofNat 4 destination.val) :: (ignored ++ BitVec.ofNat 4 source.val) ::
        BitVec.ofNat 8 payload.length :: (payload ++ [crc.extractLsb' 8 8, crc.extractLsb' 0 8])) ∧
  (∀ (c0 c1 n h l : Byte) (payload : List Byte) (crc : BitVec 16), payload.length = n.toNat →
    (checkFrame (c0 :: c1 :: n :: (payload ++ [h, l])) crc = .crcFault ↔ h ++ l ≠ crc))

/-- R128, R134, R135, R137 to R139, R142: a receiver in IDLE that takes the characters of a well-formed frame, addressed to
this station or to all and for a region that is subscribed here, hands that frame on at its last character.
R71, R138: outside RUNNING a good frame goes to no block. R139: a frame received as one event, POLL_RECEIVED and the three
beside it, is heard and handed on in the same way, a POLL being one for this station (log 4). -/
def Obligations.DeliveredFrameIsHandedOn : Prop :=
  (∀ (s : State) (source : StationId) (f : Frame), s.fu.rx = .idle → source ≠ 15 → f.wf = true →
    (∀ d cycle budget, f = .poll d cycle budget → d = s.straps.stn) →
    (∀ d, f = .data d → (subAt s d.region).isSome = true) → (∀ c, f = .chunk c → (subAt s c.region).isSome = true) →
    frameDelivered s (frameBytes source f) = handOn (leadHeard s) source f) ∧
  (∀ (s : State) (source : StationId) (f : Frame), s.top ≠ .running → handOn s source f = s) ∧
  (∀ (s : State) (source : StationId), s.line.rx = .idle →
    let hands (c : Instr) (f : Frame) : Prop := exec c s = .next (settle s (handOn (heardAt s s.clock.ticks) source f))
    (∀ cycle budget, hands (.pollReceived source cycle budget) (.poll s.straps.stn cycle budget)) ∧
    (∀ d, hands (.dataReceived source d) (.data d)) ∧ (∀ k, hands (.chunkReceived source k) (.chunk k)) ∧
    (∀ y, hands (.yieldReceived source y) (.yield y)))

/-- R146, R149, R151, R152: the votes of the levels that a transmitter sends give back the data byte and the lead bit, with
no parity and no framing error.
R149 to R152: what the votes of any character give: the data byte and the lead bit by their majorities; a parity error where
the format has parity and the 1s of the data, lead and parity bits do not make it, unless there is a framing error; a framing
error where a stop bit votes 0; whether every data, lead and parity bit votes 0; and the bit position of the first vote whose
three samples do not agree. R145: the bit times of a character.
R142, R146, R154: the levels of LTX: while a frame is sent, the levels of its characters, each bit for one bit time from the
tick its transmission began, and 1 after its last one; 0 in BREAK LOW; and 1 whenever the transmitter sends nothing. With a
fault found in a character nothing is sent after that character (R157). The positions of a character: the start bit 0, the
data byte, least significant bit first, the lead bit, the parity bit over data and lead where the format has one, and stop
bits 1. R154: LDE is asserted in CHARACTER, HOLDING, BREAK LOW and BREAK HIGH, and deasserted in OFF and IDLE. A transmission that
begins between two sample ticks is counted from the tick before: the model's choice (log 37). -/
def Obligations.VotedCharacterIsTheOneSent : Prop :=
  (∀ (f : LineFormat) (b : Byte) (lead : Bool) (start : Vote) (samples : List Vote),
    (∀ p, p < charBits f → majority (votesAt start samples p) = charLevel f b lead p) →
    let c := voteChar f start samples
    c.byte = b ∧ c.lead = lead ∧ c.parityError = false ∧ c.framingError = false) ∧
  (∀ s : State,
    (∀ f x, s.line.tx = .character → s.line.format = some f → s.fu.lineBuf = some x → 0 < f.samplesPerBit →
      let chars := frameBytes s.straps.stn x.frame
      (∀ k b p j, chars[k]? = some b → p < charBits f → j < f.samplesPerBit → (∀ g i, s.line.fault = some (g, i) → k ≤ i.toNat) →
        s.clock.ticks = s.line.txSince + (k * charBits f + p) * f.samplesPerBit + j →
        ltx s = charLevel f b (decide (k = 0)) p) ∧
      (∀ g i, s.line.fault = some (g, i) →
        s.line.txSince + (i.toNat + 1) * charBits f * f.samplesPerBit ≤ s.clock.ticks → ltx s = true) ∧
      (s.line.txSince + chars.length * charBits f * f.samplesPerBit ≤ s.clock.ticks → ltx s = true)) ∧
    (s.line.tx = .breakLow → ltx s = false) ∧
    (s.line.tx = .off ∨ s.line.tx = .idle ∨ s.line.tx = .breakHigh ∨ (∃ t, s.line.tx = .holding t) → ltx s = true) ∧
    (s.line.tx = .off ∨ s.line.tx = .idle → lde s = false) ∧
    (s.line.tx = .character ∨ (∃ t, s.line.tx = .holding t) ∨ s.line.tx = .breakLow ∨ s.line.tx = .breakHigh →
      lde s = true)) ∧
  (∀ (f : LineFormat) (b : Byte) (lead : Bool) (p : Nat),
    let odd : Bool := b.getLsbD 0 ^^ b.getLsbD 1 ^^ b.getLsbD 2 ^^ b.getLsbD 3 ^^ b.getLsbD 4 ^^ b.getLsbD 5 ^^
      b.getLsbD 6 ^^ b.getLsbD 7 ^^ lead
    charLevel f b lead 0 = false ∧ (p < 8 → charLevel f b lead (p + 1) = b.getLsbD p) ∧ charLevel f b lead 9 = lead ∧
      charLevel f b lead 10 = (match f.parity with | .none => true | .even => odd | .odd => !odd) ∧
      (11 ≤ p → charLevel f b lead p = true)) ∧
  (∀ (f : LineFormat) (start : Vote) (samples : List Vote),
    let c := voteChar f start samples
    let bit (p : Nat) : Bool := majority (votesAt start samples p)
    let agrees (p : Nat) : Prop :=
      (votesAt start samples p).getLsbD 0 = (votesAt start samples p).getLsbD 1 ∧
        (votesAt start samples p).getLsbD 1 = (votesAt start samples p).getLsbD 2
    let stop := if f.parity = .none then 10 else 11
    let ones := (([1, 2, 3, 4, 5, 6, 7, 8, 9, 10] : List Nat).filter fun p => bit p).length
    (∀ p, p < 8 → c.byte.getLsbD p = bit (p + 1)) ∧ c.lead = bit 9 ∧
    (c.framingError = true ↔ bit stop = false ∨ (f.twoStops = true ∧ bit (stop + 1) = false)) ∧
    (c.parityError = true ↔
      c.framingError = false ∧ ((f.parity = .even ∧ ones % 2 = 1) ∨ (f.parity = .odd ∧ ones % 2 = 0))) ∧
    (c.allZero = true ↔ ∀ p, 1 ≤ p → p < stop → bit p = false) ∧
    (c.firstNoisy = none ↔ ∀ p, p < charBits f → agrees p) ∧
    (∀ p, c.firstNoisy = some p ↔ p < charBits f ∧ ¬ agrees p ∧ ∀ q, q < p → agrees q)) ∧
  (∀ (f : LineFormat) (v start : Vote) (samples : List Vote) (p : Nat),
    (majority v = true ↔ 2 ≤ (([0, 1, 2] : List Nat).filter fun i => v.getLsbD i).length) ∧
    votesAt start samples 0 = start ∧ (∀ h : p < samples.length, votesAt start samples (p + 1) = samples[p]) ∧
    charBits f = 11 + (if f.parity = .none then 0 else 1) + (if f.twoStops = true then 1 else 0))
end

