-- ==== Sys2Proof/Laws/Memory.lean ====
section
/-! SUPPORT. The laws of memory: every operation keeps the canonical form, and a read after a write. -/

namespace Sys2Proof.Machine

theorem memoryWfFrom_mono {m : Memory} {a b : Nat} (h : a ≤ b) (hm : memoryWfFrom b m = true) :
    memoryWfFrom a m = true := by
  cases m with
  | nil => rfl
  | cons c m =>
    simp only [memoryWfFrom, Bool.and_eq_true, decide_eq_true_eq] at hm ⊢
    exact ⟨⟨⟨by omega, hm.1.1.2⟩, hm.1.2⟩, hm.2⟩

/-- An address below all that is listed reads as unlisted. -/
theorem readByte_below {m : Memory} {low x : Nat} (hm : memoryWfFrom low m = true) (h : x < low) :
    readByte m x = unlistedByte := by
  induction m generalizing low with
  | nil => rfl
  | cons c m ih =>
    obtain ⟨a, b⟩ := c
    simp only [memoryWfFrom, Bool.and_eq_true, decide_eq_true_eq] at hm
    have : a ≠ x := by omega
    simp only [readByte, this, if_false]
    exact ih hm.2 (by omega)

theorem memoryWfFrom_cell_append {m : Memory} {x : Nat} (v : Byte) (hx : x ≤ Config.highestAddress)
    (hm : memoryWfFrom (x + 1) m = true) : memoryWfFrom x (cell x v ++ m) = true := by
  unfold cell
  split
  · exact memoryWfFrom_mono (Nat.le_succ x) hm
  · rename_i h
    simp [memoryWfFrom, hx, h, hm]

/-- Writing a byte keeps the canonical form. -/
theorem writeByte_wf {m : Memory} {low x : Nat} (v : Byte) (hl : low ≤ x) (hx : x ≤ Config.highestAddress)
    (hm : memoryWfFrom low m = true) : memoryWfFrom low (writeByte m x v) = true := by
  induction m generalizing low with
  | nil =>
    have h := memoryWfFrom_cell_append (m := []) v hx rfl
    rw [List.append_nil] at h
    exact memoryWfFrom_mono hl h
  | cons c m ih =>
    obtain ⟨a, b⟩ := c
    simp only [memoryWfFrom, Bool.and_eq_true, decide_eq_true_eq] at hm
    simp only [writeByte]
    split
    · rename_i h
      refine memoryWfFrom_mono hl (memoryWfFrom_cell_append v hx ?_)
      simp only [memoryWfFrom, Bool.and_eq_true, decide_eq_true_eq]
      exact ⟨⟨⟨by omega, hm.1.1.2⟩, hm.1.2⟩, hm.2⟩
    · split
      · rename_i h1 h2
        subst h2
        exact memoryWfFrom_mono hl (memoryWfFrom_cell_append v hx hm.2)
      · simp only [memoryWfFrom, Bool.and_eq_true, decide_eq_true_eq]
        exact ⟨hm.1, ih (by omega) hm.2⟩

theorem readByte_cell_append (m : Memory) (x y : Nat) (v : Byte) :
    readByte (cell x v ++ m) y = if x = y ∧ v ≠ unlistedByte then v else readByte m y := by
  unfold cell
  split
  · simp_all
  · simp_all [readByte]

/-- A read after a write of a byte. -/
theorem readByte_writeByte {m : Memory} {low : Nat} (hm : memoryWfFrom low m = true) (x y : Nat) (v : Byte) :
    readByte (writeByte m x v) y = if x = y then v else readByte m y := by
  induction m generalizing low with
  | nil =>
    have h := readByte_cell_append [] x y v
    simp only [List.append_nil] at h
    simp only [writeByte, h, readByte]
    split <;> split <;> simp_all
  | cons c m ih =>
    obtain ⟨a, b⟩ := c
    have hm' := hm
    simp only [memoryWfFrom, Bool.and_eq_true, decide_eq_true_eq] at hm
    simp only [writeByte]
    split
    · rename_i h
      rw [readByte_cell_append]
      have hb : readByte ((a, b) :: m) x = unlistedByte :=
        readByte_below (low := a) (by simp [memoryWfFrom, hm.1.1.2, hm.2]; simpa using hm.1.2) h
      by_cases e : x = y
      · subst e; by_cases e2 : v = unlistedByte <;> simp [e2, hb]
      · simp [e]
    · split
      · rename_i h1 h2
        subst h2
        rw [readByte_cell_append]
        have hb : readByte m x = unlistedByte := readByte_below hm.2 (by omega)
        by_cases e : x = y
        · subst e; by_cases e2 : v = unlistedByte <;> simp [e2, hb]
        · simp [e, readByte]
      · rename_i h1 h2
        simp only [readByte]
        by_cases e : a = y
        · subst e; simp [h2]
        · simp [e, ih hm.2]

theorem writeLane_wf {m : Memory} (w : Nat) (l : Lanes) (d : Word) (k : Nat) (hw : w + k ≤ Config.highestAddress)
    (hm : Memory.wf m = true) : Memory.wf (writeLane m w l d k) = true := by
  unfold writeLane
  split
  · exact writeByte_wf _ (Nat.zero_le _) hw hm
  · exact hm

theorem readByte_writeLane {m : Memory} (hm : Memory.wf m = true) (w : Nat) (l : Lanes) (d : Word) (k y : Nat) :
    readByte (writeLane m w l d k) y = if l.getLsbD k ∧ w + k = y then laneByte d k else readByte m y := by
  unfold writeLane
  split
  · rw [readByte_writeByte (low := 0) hm]; simp_all
  · simp_all

/-- Writing lanes keeps the canonical form. -/
theorem writeLanes_wf {m : Memory} {w : Nat} (l : Lanes) (d : Word) (hw : w + 3 ≤ Config.highestAddress)
    (hm : Memory.wf m = true) : Memory.wf (writeLanes m w l d) = true :=
  writeLane_wf _ _ _ _ (by omega) (writeLane_wf _ _ _ _ (by omega)
    (writeLane_wf _ _ _ _ (by omega) (writeLane_wf _ _ _ _ (by omega) hm)))

theorem wordAddress_le (a : Addr) : wordAddress a + 3 ≤ Config.highestAddress := by
  have := a.isLt
  unfold wordAddress Config.highestAddress
  omega

/-- A granted access keeps the canonical form. -/
theorem accessMemory_wf {m : Memory} (a : Access) (hm : Memory.wf m = true) : Memory.wf (accessMemory m a) = true := by
  unfold accessMemory
  split
  · exact writeLanes_wf _ _ (wordAddress_le _) hm
  · exact hm

/-- The bytes after lanes are written: lane k of the data at the word address + k, and every other byte as it was. -/
theorem readByte_writeLanes {m : Memory} {w : Nat} (l : Lanes) (d : Word) (hw : w + 3 ≤ Config.highestAddress)
    (hm : Memory.wf m = true) (y : Nat) :
    readByte (writeLanes m w l d) y =
      if w ≤ y ∧ y < w + 4 ∧ l.getLsbD (y - w) then laneByte d (y - w) else readByte m y := by
  have h0 := writeLane_wf (m := m) w l d 0 (by omega) hm
  have h1 := writeLane_wf (m := _) w l d 1 (by omega) h0
  have h2 := writeLane_wf (m := _) w l d 2 (by omega) h1
  simp only [writeLanes, readByte_writeLane h2, readByte_writeLane h1, readByte_writeLane h0, readByte_writeLane hm]
  by_cases c0 : y = w
  · subst c0; simp
  by_cases c1 : y = w + 1
  · subst c1; simp
  by_cases c2 : y = w + 2
  · subst c2; simp
  by_cases c3 : y = w + 3
  · subst c3; simp
  have : ¬ (w ≤ y ∧ y < w + 4 ∧ l.getLsbD (y - w) = true) := by omega
  rw [if_neg this]
  have n0 : ¬ w + 0 = y := by omega
  have n1 : ¬ w + 1 = y := by omega
  have n2 : ¬ w + 2 = y := by omega
  have n3 : ¬ w + 3 = y := by omega
  simp [n1, n2, n3]
  intro _ h
  omega

end Sys2Proof.Machine
end

