-- ==== Sys2Proof/Laws/Keeps.lean ====
section
/-! SUPPORT. What every internal operation keeps: the queue, the straps, memory, the port, the time and the bounds of the
part's lists. One lemma for each shared operation says it once. -/

set_option Elab.async false

namespace Sys2Proof.Machine

/-- The marks that precede the result of the executing command (R181). -/
def priorOf (a : Agent) : Option (BitVec 38) := a.executing.bind Executing.prior

/-- What an operation inside a step, or the end of it, keeps but for the marks. The bounds are kept, not the lists. -/
structure KeepsButMarks (s t : State) : Prop where
  pending : t.pending = s.pending
  straps : t.straps = s.straps
  mem : t.mem = s.mem
  port : t.path.port = s.path.port
  last : t.path.last = s.path.last
  us : t.clock.us = s.clock.us
  ticks : t.clock.ticks = s.clock.ticks
  events : EventsBounded s → EventsBounded t
  slots : SlotsBounded s → SlotsBounded t
  retained : RetainedBounded s → RetainedBounded t
  pool : PoolBounded s → PoolBounded t
  host : HostConsistent s → HostConsistent t

/-- What an operation inside a step keeps: no mark is cleared, and those that precede the result stand (R180, R181). -/
structure Keeps (s t : State) : Prop extends KeepsButMarks s t where
  marks : ∀ m, s.agent.marks.getLsbD m = true → t.agent.marks.getLsbD m = true
  prior : priorOf t.agent = priorOf s.agent

/-- Keeps but for the host access. -/
structure KeepsRest (s t : State) : Prop where
  pending : t.pending = s.pending
  straps : t.straps = s.straps
  mem : t.mem = s.mem
  port : t.path.port = s.path.port
  last : t.path.last = s.path.last
  us : t.clock.us = s.clock.us
  ticks : t.clock.ticks = s.clock.ticks
  events : EventsBounded s → EventsBounded t
  slots : SlotsBounded s → SlotsBounded t
  retained : RetainedBounded s → RetainedBounded t
  pool : PoolBounded s → PoolBounded t
  marks : ∀ m, s.agent.marks.getLsbD m = true → t.agent.marks.getLsbD m = true
  prior : priorOf t.agent = priorOf s.agent

theorem KeepsRest.withHost {s t : State} (h : KeepsRest s t) (k : HostConsistent s → HostConsistent t) : Keeps s t :=
  ⟨⟨h.pending, h.straps, h.mem, h.port, h.last, h.us, h.ticks, h.events, h.slots, h.retained, h.pool, k⟩, h.marks, h.prior⟩

theorem Keeps.rest {s t : State} (h : Keeps s t) : KeepsRest s t :=
  ⟨h.pending, h.straps, h.mem, h.port, h.last, h.us, h.ticks, h.events, h.slots, h.retained, h.pool, h.marks, h.prior⟩

theorem KeepsRest.trans {s t u : State} (h : KeepsRest s t) (k : KeepsRest t u) : KeepsRest s u :=
  ⟨k.pending.trans h.pending, k.straps.trans h.straps, k.mem.trans h.mem, k.port.trans h.port, k.last.trans h.last,
    k.us.trans h.us, k.ticks.trans h.ticks, k.events ∘ h.events, k.slots ∘ h.slots, k.retained ∘ h.retained,
    k.pool ∘ h.pool, fun m => k.marks m ∘ h.marks m, k.prior.trans h.prior⟩

theorem KeepsButMarks.trans {s t u : State} (h : KeepsButMarks s t) (k : KeepsButMarks t u) : KeepsButMarks s u :=
  ⟨k.pending.trans h.pending, k.straps.trans h.straps, k.mem.trans h.mem, k.port.trans h.port, k.last.trans h.last,
    k.us.trans h.us, k.ticks.trans h.ticks, k.events ∘ h.events, k.slots ∘ h.slots, k.retained ∘ h.retained,
    k.pool ∘ h.pool, k.host ∘ h.host⟩

/-- The pool level by the regions and the claim (R25). -/
theorem poolLevel_congr {s t : State} (h : t.regions = s.regions) :
    poolLevel t + claimRecords s.cap.claim = poolLevel s + claimRecords t.cap.claim := by
  have e : (allIds.map fun r => regionRecords (regionAt t r)) = allIds.map fun r => regionRecords (regionAt s r) := by
    simp [regionAt, h]
  unfold poolLevel
  rw [e]; omega

namespace Keeps

theorem refl (s : State) : Keeps s s :=
  ⟨⟨rfl, rfl, rfl, rfl, rfl, rfl, rfl, id, id, id, id, id⟩, fun _ => id, rfl⟩

theorem trans {s t u : State} (h : Keeps s t) (k : Keeps t u) : Keeps s u :=
  ⟨h.toKeepsButMarks.trans k.toKeepsButMarks, fun m => k.marks m ∘ h.marks m, k.prior.trans h.prior⟩

theorem regions_retained {s t : State} (h : t.regions = s.regions) (k : RetainedBounded s) : RetainedBounded t := by
  intro r; have := k r; simpa [regionAt, h] using this

theorem regions_pool {s t : State} (h : t.regions = s.regions) (c : claimRecords t.cap.claim ≤ claimRecords s.cap.claim)
    (k : PoolBounded s) : PoolBounded t := by
  have := poolLevel_congr h
  unfold PoolBounded at *
  omega

/-- The host access and what is held of it, when nothing new is held. -/
theorem host_congr {s t : State} (h : t.path.host = s.path.host) (k : t.cap.held.isSome → s.cap.held.isSome)
    (c : t.cap.claim.isSome → s.cap.claim.isSome) (a : t.path.apply = .keptBack → s.path.apply = .keptBack)
    (i : HostConsistent s) : HostConsistent t := by
  have e : hostWaits t = hostWaits s := by unfold hostWaits; rw [h]
  refine ⟨fun x => ?_, fun x => ?_, fun x => ?_⟩
  · rw [e]; exact i.1 (c x)
  · rw [e]; exact i.2.1 (a x)
  · rw [h]; exact i.2.2 (k x)

/-- An operation that leaves the regions alone, with no larger claim, pending list or slots. -/
theorem same {s t : State} (h1 : t.pending = s.pending := by rfl) (h2 : t.straps = s.straps := by rfl)
    (h3 : t.mem = s.mem := by rfl) (h4 : t.path.port = s.path.port := by rfl)
    (h5 : t.path.last = s.path.last := by rfl) (h6 : t.clock.us = s.clock.us := by rfl)
    (h7 : t.clock.ticks = s.clock.ticks := by rfl)
    (h8 : t.agent.events.length ≤ s.agent.events.length := by exact Nat.le_refl _)
    (h9 : t.inb.slots.length ≤ s.inb.slots.length := by exact Nat.le_refl _)
    (h10 : t.regions = s.regions := by rfl)
    (h11 : claimRecords t.cap.claim ≤ claimRecords s.cap.claim := by exact Nat.le_refl _)
    (h12 : t.path.host = s.path.host := by rfl) (h13 : t.cap.held.isSome → s.cap.held.isSome := by exact id)
    (h14 : t.cap.claim.isSome → s.cap.claim.isSome := by exact id)
    (h15 : t.path.apply = .keptBack → s.path.apply = .keptBack := by exact id)
    (h16 : ∀ m, s.agent.marks.getLsbD m = true → t.agent.marks.getLsbD m = true := by exact fun _ => id)
    (h17 : priorOf t.agent = priorOf s.agent := by rfl) : Keeps s t :=
  ⟨⟨h1, h2, h3, h4, h5, h6, h7, fun h => h8.trans h, fun h => h9.trans h, regions_retained h10, regions_pool h10 h11,
    host_congr h12 h13 h14 h15⟩, h16, h17⟩

/-- An operation folded over a list. -/
theorem foldl {α : Type} {f : State → α → State} (hf : ∀ s a, Keeps s (f s a)) (l : List α) (s : State) :
    Keeps s (l.foldl f s) := by
  induction l generalizing s with
  | nil => exact refl s
  | cons a l ih => exact (hf s a).trans (ih _)

end Keeps

/-! ## The region table -/

theorem regionAt_setRegion (s : State) (r q : RegionId) (x : Region) :
    regionAt (setRegion s r x) q = if q = r then x else regionAt s q := by
  simp only [regionAt, setRegion, Vector.get_eq_getElem]
  by_cases h : q = r
  · subst h; simp
  · have : r.val ≠ q.val := fun e => h (Fin.ext e.symm)
    simp [h, Vector.getElem_set_ne, this]

theorem poolSum_setRegion (s : State) (r : RegionId) (x : Region) :
    (allIds.map fun q => regionRecords (regionAt (setRegion s r x) q)).sum + regionRecords (regionAt s r) =
      (allIds.map fun q => regionRecords (regionAt s q)).sum + regionRecords x := by
  simp only [regionAt_setRegion, allIds]
  fin_cases r <;> simp <;> omega

/-- A region replaced by one with no more records and no more than 4 retained batches. -/
theorem setRegion_keeps (s : State) (r : RegionId) (x : Region)
    (h : regionRecords x ≤ regionRecords (regionAt s r))
    (k : RetainedBounded s → regionRetained x ≤ Config.retainedLimit) : Keeps s (setRegion s r x) := by
  refine ⟨⟨rfl, rfl, rfl, rfl, rfl, rfl, rfl, id, id, ?_, ?_, id⟩, fun _ => id, rfl⟩
  · intro b q
    rw [regionAt_setRegion]
    split
    · exact k b
    · exact b q
  · intro b
    have := poolSum_setRegion s r x
    unfold PoolBounded poolLevel at *
    have e : (setRegion s r x).cap = s.cap := rfl
    rw [e]; omega

theorem regionAt_pub {s : State} {r : RegionId} {p : PubRecord} (h : pubAt s r = some p) :
    (regionAt s r).record = .published p := by
  unfold pubAt at h
  split at h
  · rename_i q e; simp at h; rw [e, h]
  · cases h

theorem regionAt_sub {s : State} {r : RegionId} {q : SubRecord} (h : subAt s r = some q) :
    (regionAt s r).record = .subscribed q := by
  unfold subAt at h
  split at h
  · rename_i q e; simp at h; rw [e, h]
  · cases h

/-- A publisher record changed to one with no more records, its retained list still within 4. -/
theorem updPub_keeps (s : State) (r : RegionId) (f : PubRecord → PubRecord)
    (h : ∀ p, pubRecords (f p) ≤ pubRecords p)
    (k : ∀ p, p.retained.length ≤ Config.retainedLimit → (f p).retained.length ≤ Config.retainedLimit) :
    Keeps s (updPub s r f) := by
  unfold updPub
  split
  · rename_i p e
    have e' := regionAt_pub e
    refine setRegion_keeps s r _ ?_ ?_
    · simpa [regionRecords, e'] using h p
    · intro b
      have := b r
      simp only [regionRetained, e'] at this ⊢
      exact k p this
  · exact .refl s

/-- A publisher record whose batches stand. -/
theorem updPub_keeps_same (s : State) (r : RegionId) (f : PubRecord → PubRecord)
    (h : ∀ p, (f p).openBatch = p.openBatch) (k : ∀ p, (f p).retained = p.retained) : Keeps s (updPub s r f) :=
  updPub_keeps s r f (fun p => by simp [pubRecords, h, k]) (fun p => by simp [k])

theorem updSub_keeps (s : State) (r : RegionId) (f : SubRecord → SubRecord) : Keeps s (updSub s r f) := by
  unfold updSub
  split
  · exact setRegion_keeps s r _ (by simp [regionRecords]) (by simp [regionRetained])
  · exact .refl s

theorem updAllPubs_keeps (s : State) (f : PubRecord → PubRecord) (h : ∀ p, pubRecords (f p) ≤ pubRecords p)
    (k : ∀ p, p.retained.length ≤ Config.retainedLimit → (f p).retained.length ≤ Config.retainedLimit) :
    Keeps s (updAllPubs s f) :=
  Keeps.foldl (fun s r => updPub_keeps s r f h k) _ s

theorem updAllSubs_keeps (s : State) (f : SubRecord → SubRecord) : Keeps s (updAllSubs s f) :=
  Keeps.foldl (fun s r => updSub_keeps s r f) _ s

/-! ## Shared operations -/

theorem countLost_keeps (s : State) : Keeps s (countLost s) := by
  unfold countLost; split
  · exact .refl s
  · exact .same

theorem post_keeps (s : State) (e : Event) : Keeps s (post s e) := by
  unfold post; split
  · exact countLost_keeps s
  · rename_i h
    refine ⟨⟨rfl, rfl, rfl, rfl, rfl, rfl, rfl, fun _ => ?_, id, Keeps.regions_retained rfl,
      Keeps.regions_pool rfl (Nat.le_refl _), id⟩, fun _ => id, rfl⟩
    unfold EventsBounded; simp; omega

theorem postAmong_keeps (n : Nat) (s : State) (e : Event) : Keeps s (postAmong n s e) := by
  unfold postAmong
  dsimp only
  split
  · exact post_keeps s e
  · refine Keeps.trans (t := if Config.pendingEvents ≤ s.agent.events.length then countLost s else s) (by
      split
      · exact countLost_keeps s
      · exact .refl s) ?_
    refine ⟨⟨rfl, rfl, rfl, rfl, rfl, rfl, rfl, fun _ => ?_, id, Keeps.regions_retained rfl,
      Keeps.regions_pool rfl (Nat.le_refl _), id⟩, fun _ => id, rfl⟩
    exact List.length_take_le _ _

theorem postRunning_keeps (s : State) (e : Event) : Keeps s (postRunning s e) := by
  unfold postRunning; split
  · exact post_keeps s e
  · exact .refl s

theorem hostWaits_setHostCondition (s : State) : hostWaits (setHostCondition s .awaitingGrant) = s.path.host.isSome := by
  unfold hostWaits setHostCondition
  cases s.path.host <;> rfl

/-- The end of the capture hold (R167). -/
theorem releaseHeld_keeps (s : State) (h : HostConsistent s → s.path.host.isSome) : Keeps s (releaseHeld s) := by
  refine ⟨⟨rfl, rfl, rfl, rfl, rfl, rfl, rfl, id, id, Keeps.regions_retained rfl,
    Keeps.regions_pool rfl (Nat.le_refl _), fun i => ?_⟩, fun _ => id, rfl⟩
  have e : hostWaits (releaseHeld s) = s.path.host.isSome := hostWaits_setHostCondition _
  refine ⟨fun _ => by rw [e]; exact h i, fun _ => by rw [e]; exact h i, fun x => ?_⟩
  simp [releaseHeld, setHostCondition] at x

/-- A held write belongs to a host access (R42). -/
theorem host_of_held {s : State} (h : s.cap.held.isSome) (i : HostConsistent s) : s.path.host.isSome := by
  have := i.2.2 h
  cases hh : s.path.host with
  | none => rw [hh] at this; cases this
  | some x => rfl

/-- While a write is held there is no claim and no apply kept back (R79, R165). -/
theorem held_alone {s : State} (h : s.cap.held.isSome) (i : HostConsistent s) :
    s.cap.claim = none ∧ s.path.apply ≠ .keptBack := by
  have hw : hostWaits s = false := by
    have := i.2.2 h
    unfold hostWaits
    cases hh : s.path.host with
    | none => rfl
    | some x =>
      rw [hh] at this
      have this : x.condition = .captureHeld := of_decide_eq_true this
      simp [this]
  constructor
  · cases hc : s.cap.claim with
    | none => rfl
    | some c => have := i.1 (by rw [hc]; rfl); rw [hw] at this; cases this
  · intro e; have := i.2.1 e; rw [hw] at this; cases this

theorem releaseFenced_keeps (s : State) : Keeps s (releaseFenced s) := by
  unfold releaseFenced; split
  · rename_i hf
    refine ⟨⟨rfl, rfl, rfl, rfl, rfl, rfl, rfl, id, id, Keeps.regions_retained rfl,
      Keeps.regions_pool rfl (Nat.le_refl _), fun i => ?_⟩, fun _ => id, rfl⟩
    have e : hostWaits (setHostCondition s .awaitingGrant) = true := by
      rw [hostWaits_setHostCondition]
      cases hh : s.path.host with
      | none => rw [hh] at hf; cases hf
      | some x => rfl
    refine ⟨fun _ => e, fun _ => e, fun x => ?_⟩
    exfalso
    have := i.2.2 x
    cases hh : s.path.host with
    | none => rw [hh] at hf; cases hf
    | some y =>
      rw [hh] at hf this
      have h1 : y.condition = .fenceHeld := of_decide_eq_true hf
      have h2 : y.condition = .captureHeld := of_decide_eq_true this
      rw [h1] at h2; cases h2
  · exact .refl s

theorem reachResult_keeps (s : State) (r : ResultCode) : Keeps s (reachResult s r) :=
  .same (h17 := by unfold priorOf reachResult; cases s.agent.executing <;> rfl)

/-- A command begins where none executes (R173). -/
theorem beginCommand_keeps (s : State) (code tag : Byte) (h : s.agent.executing = none) :
    Keeps s (beginCommand s code tag) := .same (h17 := by unfold priorOf; rw [h]; rfl)

theorem restartLost_keeps (s : State) : Keeps s (restartLost s) := by
  unfold restartLost; split <;> exact .same

theorem or_marks (b x : BitVec 38) (m : Nat) (h : b.getLsbD m = true) : (b ||| x).getLsbD m = true := by simp [h]

theorem markStep_keeps (s t g : State) : Keeps g (markStep s t g) := .same (h16 := or_marks _ _)

theorem markChanges_keeps (s t : State) : Keeps t (markChanges s t) := .same (h16 := or_marks _ _)

theorem fixPrior_keeps (t : State) : KeepsButMarks t (fixPrior t) := by
  unfold fixPrior; split
  · split
    · exact ⟨rfl, rfl, rfl, rfl, rfl, rfl, rfl, id, id, id, id, id⟩
    · exact (Keeps.refl t).toKeepsButMarks
  · exact (Keeps.refl t).toKeepsButMarks

theorem clearMark_keeps (s : State) (m : Fin 38) : KeepsButMarks s (clearMark s m) :=
  ⟨rfl, rfl, rfl, rfl, rfl, rfl, rfl, id, id, id, id, id⟩

/-! ## Capture -/

theorem deferClose_keeps (s : State) : Keeps s (deferClose s) :=
  .same (h11 := by unfold deferClose; cases s.cap.claim <;> simp [claimRecords])
    (h14 := by unfold deferClose; cases s.cap.claim <;> simp)

theorem closeRecord_records (p : PubRecord) (b : Batch) (h : p.openBatch = some b) :
    pubRecords (closeRecord p b) = pubRecords p := by
  simp [closeRecord, pubRecords, h]; omega

theorem closeBatch_keeps (s : State) (r : RegionId) : Keeps s (closeBatch s r) := by
  unfold closeBatch
  split
  · rename_i p e
    split
    · rename_i b eb
      split
      · rename_i hl
        refine Keeps.trans (t := { s with cap := { s.cap with sendQueue := s.cap.sendQueue ++ [(r, p.nextSeq)] } })
          .same ?_
        have e' := regionAt_pub e
        generalize hs : ({ s with cap := { s.cap with sendQueue := s.cap.sendQueue ++ [(r, p.nextSeq)] } } : State) = u
        have hu : regionAt u r = regionAt s r := by subst hs; rfl
        have hp : pubAt u r = some p := by subst hs; exact e
        unfold updPub
        rw [hp]
        refine setRegion_keeps u r _ ?_ ?_
        · simp only [hu, regionRecords, e']
          exact Nat.le_of_eq (closeRecord_records p b eb)
        · intro _
          simp [regionRetained, closeRecord]; omega
      · exact .refl s
    · exact .refl s
  · exact .refl s

theorem closeBatch_pool (s : State) (r : RegionId) : poolLevel (closeBatch s r) ≤ poolLevel s := by
  unfold closeBatch
  split
  · rename_i p e
    split
    · rename_i b eb
      split
      · generalize hs : ({ s with cap := { s.cap with sendQueue := s.cap.sendQueue ++ [(r, p.nextSeq)] } } : State) = u
        have hu : regionAt u = regionAt s := by subst hs; rfl
        have hc : u.cap.claim = s.cap.claim := by subst hs; rfl
        have hp : pubAt u r = some p := by subst hs; exact e
        have hu' : updPub u r (fun p => closeRecord p b) =
            setRegion u r { desc := descAt u r, record := .published (closeRecord p b) } := by simp [updPub, hp]
        rw [hu']
        have h := poolSum_setRegion u r { desc := descAt u r, record := .published (closeRecord p b) }
        have e1 : regionRecords { desc := descAt u r, record := .published (closeRecord p b) } =
            regionRecords (regionAt u r) := by
          simp only [regionRecords, regionAt_pub hp]; exact closeRecord_records p b eb
        have e2 : (setRegion u r { desc := descAt u r, record := .published (closeRecord p b) }).cap.claim =
            s.cap.claim := hc
        unfold poolLevel
        rw [e2]
        rw [hu] at h e1
        omega
      · exact Nat.le_refl _
    · exact Nat.le_refl _
  · exact Nat.le_refl _

theorem closeOrPend_keeps (s : State) (r : RegionId) : Keeps s (closeOrPend s r) := by
  unfold closeOrPend
  split
  · split
    · exact .refl s
    · split
      · exact closeBatch_keeps s r
      · exact updPub_keeps_same _ _ _ (fun _ => rfl) (fun _ => rfl)
  · exact .refl s

theorem dueClose_keeps (s : State) (r : RegionId) : Keeps s (dueClose s r) := by
  unfold dueClose; split
  · exact deferClose_keeps s
  · exact closeOrPend_keeps s r

/-- What a decision on a write finds: its host access, no claim and no apply kept back (R30, R42, R79). -/
def Undecided (s : State) : Prop := s.path.host.isSome ∧ s.cap.claim = none ∧ s.path.apply ≠ .keptBack

theorem captureHold_rest (s : State) (h : HeldWrite) (reason : HoldReason) : KeepsRest s (captureHold s h reason) :=
  ⟨rfl, rfl, rfl, rfl, rfl, rfl, rfl, id, id, Keeps.regions_retained rfl, Keeps.regions_pool rfl (Nat.le_refl _),
    fun _ => id, rfl⟩

/-- A write held is held of a host access (R42). -/
theorem captureHold_consistent {s : State} (h : HeldWrite) (reason : HoldReason) (u : Undecided s) :
    HostConsistent (captureHold s h reason) := by
  obtain ⟨u1, u2, u3⟩ := u
  refine ⟨fun x => ?_, fun x => absurd x u3, fun _ => ?_⟩
  · have : (captureHold s h reason).cap.claim = s.cap.claim := rfl
    rw [this, u2] at x; cases x
  · cases hh : s.path.host with
    | none => rw [hh] at u1; cases u1
    | some y => simp [captureHold, setHostCondition, hh]

/-- A capture claims a record only where one is free, or none (R29, R30). -/
theorem captureClaim_rest (s : State) (r : RegionId) (w : Byte) (d : CaptureDecision)
    (h : d = .merge ∨ recordFree s = true) : KeepsRest s (captureClaim s r w d) := by
  refine ⟨rfl, rfl, rfl, rfl, rfl, rfl, rfl, id, id, Keeps.regions_retained rfl, fun k => ?_, fun _ => id, rfl⟩
  have e := poolLevel_congr (s := s) (t := captureClaim s r w d) rfl
  unfold PoolBounded at *
  rcases h with rfl | h
  · have : claimRecords (captureClaim s r w .merge).cap.claim = 0 := rfl
    omega
  · have h : poolLevel s < Config.poolSize := of_decide_eq_true h
    have : claimRecords (captureClaim s r w d).cap.claim ≤ 1 := by
      simp only [captureClaim, setHostCondition, claimRecords, Option.elim]; split <;> omega
    omega

theorem captureClaim_consistent {s : State} (r : RegionId) (w : Byte) (d : CaptureDecision) (u : Undecided s) :
    HostConsistent (captureClaim s r w d) := by
  have e : hostWaits (captureClaim s r w d) = s.path.host.isSome := hostWaits_setHostCondition _
  refine ⟨fun _ => by rw [e]; exact u.1, fun _ => by rw [e]; exact u.1, fun x => ?_⟩
  simp [captureClaim, setHostCondition] at x

/-- The record that a decision claims is free (R29). -/
theorem decideCapture_free {d : Descriptor} {p : PubRecord} {free : Bool} {w : Byte} {c : CaptureDecision}
    (h : decideCapture d p free w = .captured c) : c = .merge ∨ free = true := by
  unfold decideCapture at h
  cases free <;> split at h <;> (try split at h) <;> (try split at h) <;> (try split at h) <;> simp_all

theorem closeBatch_undecided {s : State} (r : RegionId) (u : Undecided s) : Undecided (closeBatch s r) := by
  have hp : (closeBatch s r).path = s.path := by
    unfold closeBatch updPub
    split
    · split
      · split
        · split <;> rfl
        · rfl
      · rfl
    · rfl
  have hc : (closeBatch s r).cap.claim = s.cap.claim := by
    unfold closeBatch updPub
    split
    · split
      · split
        · split <;> rfl
        · rfl
      · rfl
    · rfl
  unfold Undecided
  rw [hp, hc]
  exact u

theorem decideWrite_rest (s : State) (h : HeldWrite) : KeepsRest s (decideWrite s h) := by
  unfold decideWrite
  split
  · unfold applyOutcome
    split
    · rename_i d hd
      exact captureClaim_rest _ _ _ _ (decideCapture_free hd)
    · exact captureHold_rest _ _ _
    · exact (closeBatch_keeps _ _).rest.trans (captureHold_rest _ _ _)
  · exact (Keeps.refl s).rest

theorem decideWrite_consistent {s : State} (h : HeldWrite) (i : HostConsistent s) (u : Undecided s) :
    HostConsistent (decideWrite s h) := by
  unfold decideWrite
  split
  · unfold applyOutcome
    split
    · exact captureClaim_consistent _ _ _ u
    · exact captureHold_consistent _ _ u
    · exact captureHold_consistent _ _ (closeBatch_undecided _ u)
  · exact i

theorem reevaluate_keeps (s : State) : Keeps s (reevaluate s) := by
  unfold reevaluate; split
  · rename_i h e
    split
    · refine (decideWrite_rest s h).withHost fun i => decideWrite_consistent h i ?_
      have hs : s.cap.held.isSome := by rw [e]; rfl
      exact ⟨host_of_held hs i, held_alone hs i⟩
    · exact .refl s
  · exact .refl s

theorem discard_keeps (s : State) (r : RegionId) : Keeps s (discard s r) := by
  have h : Keeps s (updPub s r discardRecord) :=
    updPub_keeps _ _ _ (fun p => by simp [discardRecord, pubRecords]) (fun p _ => by simp [discardRecord])
  refine h.trans ?_
  unfold discard
  refine .same (h11 := ?_) (h14 := ?_)
  · show claimRecords (if claimOf (updPub s r discardRecord) r then none else (updPub s r discardRecord).cap.claim) ≤ _
    split
    · exact Nat.zero_le _
    · exact Nat.le_refl _
  · show (if claimOf (updPub s r discardRecord) r then none else (updPub s r discardRecord).cap.claim).isSome → _
    split
    · intro x; cases x
    · exact id

theorem reevaluateAfterDiscard_keeps (s : State) (r : RegionId) : Keeps s (reevaluateAfterDiscard s r) := by
  unfold reevaluateAfterDiscard; split
  · exact reevaluate_keeps s
  · exact .refl s

theorem releaseOldest_keeps (s : State) (r : RegionId) : Keeps s (releaseOldest s r) := by
  unfold releaseOldest
  refine (updPub_keeps s r releaseRecord ?_ ?_).trans (Keeps.trans ?_ (reevaluate_keeps _))
  · intro p; unfold releaseRecord; split
    · rename_i e; simp [pubRecords, e]
    · exact Nat.le_refl _
  · intro p; unfold releaseRecord; split
    · rename_i e; simp [e]; omega
    · exact id
  · split
    · split
      · exact deferClose_keeps _
      · exact closeBatch_keeps _ _
    · exact .refl _

theorem releaseChain_keeps (n : Nat) (s : State) (r : RegionId) : Keeps s (releaseChain n s r) := by
  induction n generalizing s with
  | zero => exact .refl s
  | succ n ih =>
    unfold releaseChain; split
    · exact (releaseOldest_keeps s r).trans (ih _)
    · exact .refl s

theorem releaseCheck_keeps (s : State) (r : RegionId) : Keeps s (releaseCheck s r) := releaseChain_keeps _ s r

theorem releaseCheckAll_keeps (s : State) : Keeps s (releaseCheckAll s) := Keeps.foldl releaseCheck_keeps _ s

/-! ## Transmit and refresh -/

theorem setTx_keeps (s : State) (x : LineTx) : Keeps s (setTx s x) := .same
theorem setLineRx_keeps (s : State) (x : LineRx) : Keeps s (setLineRx s x) := .same

theorem postHeldFraming_keeps (s : State) : Keeps s (postHeldFraming s) := by
  unfold postHeldFraming; split
  · exact Keeps.trans .same (postRunning_keeps _ _)
  · exact .refl s

theorem dropHeldFraming_keeps (s : State) : Keeps s (dropHeldFraming s) := .same

theorem enterEcho_keeps (s : State) : Keeps s (enterEcho s) := by
  unfold enterEcho; split
  · exact (postHeldFraming_keeps s).trans (setLineRx_keeps _ _)
  · exact .same
  · exact .same

theorem beginFrame_keeps (s : State) : Keeps s (beginFrame s) :=
  (enterEcho_keeps s).trans .same

theorem tryBegin_keeps (s : State) : Keeps s (tryBegin s) := by
  unfold tryBegin; split
  · exact .refl s
  · split
    · split
      · exact beginFrame_keeps s
      · exact .refl s
    · exact beginFrame_keeps s
    · exact .refl s

theorem handover_keeps (s : State) : Keeps s (handover s) := by
  unfold handover; split
  · exact Keeps.trans .same (tryBegin_keeps _)
  · exact .refl s

theorem assembleWhole_keeps (s : State) (f : Frame) (n : Nat) : Keeps s (assembleWhole s f n) := .same
theorem emptyBuffers_keeps (s : State) : Keeps s (emptyBuffers s) := .same

theorem withdrawChunk_keeps (s : State) (r : RegionId) : Keeps s (withdrawChunk s r) := by
  unfold withdrawChunk; split
  · split
    · exact .same
    · exact .refl s
  · exact .refl s

theorem abandonPass_keeps (s : State) (r : RegionId) : Keeps s (abandonPass s r) := by
  unfold abandonPass; split
  · exact Keeps.trans (updPub_keeps_same s r (fun p => { p with pass := none }) (fun _ => rfl) (fun _ => rfl))
      (withdrawChunk_keeps _ _)
  · exact .refl s

theorem startPass_keeps (s : State) (r : RegionId) : Keeps s (startPass s r) := by
  refine (updPub_keeps_same s r (fun p => startRecord p s.tc.roster (chunkCount (descAt s r).length) s.del.passSerial)
    (fun _ => rfl) (fun _ => rfl)).trans (Keeps.trans ?_ (releaseCheck_keeps _ _))
  exact .same

theorem beginChunk_keeps (s : State) (r : RegionId) (k serial : Nat) : Keeps s (beginChunk s r k serial) := .same

theorem refreshClose_keeps (s : State) (r : RegionId) : Keeps s (refreshClose s r) := by
  unfold refreshClose; split
  · exact (dueClose_keeps s r).trans (updPub_keeps_same _ _ _ (fun _ => rfl) (fun _ => rfl))
  · exact .refl s

theorem completeChunk_keeps (s : State) (r : RegionId) (k serial : Nat) (words : List Word) :
    Keeps s (completeChunk s r k serial words) := by
  have h : Keeps s (if (pubAt s r).any (fun p => p.pass.any fun c => decide (k + 1 = c.chunkCount)) then refreshClose s r
      else s) := by
    split
    · exact refreshClose_keeps s r
    · exact .refl s
  unfold completeChunk
  dsimp only
  revert h
  generalize (if (pubAt s r).any (fun p => p.pass.any fun c => decide (k + 1 = c.chunkCount)) then refreshClose s r
      else s) = t
  intro h
  refine h.trans ?_
  split
  · split
    · exact .same
    · exact .refl _
  · exact .refl _

theorem grantSnap_keeps (s : State) (word : Word) : Keeps s (grantSnap s word) := by
  unfold grantSnap; split
  · dsimp only; split
    · exact .same
    · exact Keeps.trans .same (completeChunk_keeps _ _ _ _ _)
  · exact .same

theorem chunkSentRecord_batches (serial : Nat) (p : PubRecord) :
    (chunkSentRecord p serial).openBatch = p.openBatch ∧ (chunkSentRecord p serial).retained = p.retained := by
  unfold chunkSentRecord; split
  · split
    · split <;> exact ⟨rfl, rfl⟩
    · exact ⟨rfl, rfl⟩
  · exact ⟨rfl, rfl⟩

theorem chunkSent_keeps (s : State) (r : RegionId) (serial : Nat) : Keeps s (chunkSent s r serial) :=
  (updPub_keeps_same s r _ (fun p => (chunkSentRecord_batches serial p).1)
    (fun p => (chunkSentRecord_batches serial p).2)).trans (releaseCheck_keeps _ _)

theorem setBackRecord_batches (l : List TurnEntry) (r : RegionId) (p : PubRecord) :
    (setBackRecord l r p).openBatch = p.openBatch ∧ (setBackRecord l r p).retained = p.retained := by
  unfold setBackRecord; split
  · split <;> exact ⟨rfl, rfl⟩
  · exact ⟨rfl, rfl⟩

theorem setBackPasses_keeps (s : State) : Keeps s (setBackPasses s) :=
  Keeps.foldl (fun t r => updPub_keeps_same t r _ (fun p => (setBackRecord_batches s.del.turnList r p).1)
    (fun p => (setBackRecord_batches s.del.turnList r p).2)) _ s

/-! ## Delivery -/

theorem processAck_keeps (s : State) (st : StationId) (a : AckEntry) : Keeps s (processAck s st a) := by
  unfold processAck; split
  · exact Keeps.trans (updPub_keeps_same s _ (ackRecord s.del.ownTurn st a) (fun _ => rfl) (fun _ => rfl))
      (releaseCheck_keeps _ _)
  · exact .refl s

theorem takeAck_keeps (s : State) (st : StationId) (a : AckEntry) : Keeps s (takeAck s st a) :=
  (processAck_keeps s st a).trans (markChanges_keeps _ _)

theorem processAcks_keeps (s : State) (st : StationId) (l : List AckEntry) : Keeps s (processAcks s st l) :=
  Keeps.foldl (fun s a => takeAck_keeps s st a) l s

theorem abandonIfEmpty_keeps (s : State) (r : RegionId) : Keeps s (abandonIfEmpty s r) := by
  unfold abandonIfEmpty; split
  · exact abandonPass_keeps s r
  · exact .refl s

theorem rosterChangedForPubs_keeps (s : State) : Keeps s (rosterChangedForPubs s) :=
  Keeps.trans (Keeps.trans (updAllPubs_keeps s (rosterRecord s.tc.roster) (fun _ => Nat.le_refl _) (fun _ h => h))
    (Keeps.foldl abandonIfEmpty_keeps _ _)) (releaseCheckAll_keeps _)

theorem enterTurn_keeps (s : State) (e : TurnEntry) : Keeps s (enterTurn s e) := .same

theorem handData_keeps (s : State) (r : RegionId) (b : Batch) : Keeps s (handData s r b) := by
  unfold handData; split
  · exact .same
  · exact .refl s

theorem takeRepeat_keeps (s : State) (r : RegionId) (g : Byte) (b : Batch) : Keeps s (takeRepeat s r g b) :=
  Keeps.trans .same (handData_keeps _ _ _)

theorem takeRefresh_keeps (s : State) (r : RegionId) : Keeps s (takeRefresh s r) := by
  unfold takeRefresh
  extract_lets starts k t serial
  have h : Keeps s t := by
    show Keeps s (if starts then _ else _)
    split
    · exact startPass_keeps s r
    · exact updPub_keeps_same s r (fun p => { p with pass := p.pass.map fun c => { c with nextChunk := c.nextChunk + 1 } })
        (fun _ => rfl) (fun _ => rfl)
  clear_value t
  exact h.trans (Keeps.trans (Keeps.trans .same (enterTurn_keeps { t with del := { t.del with roundRobin := r } } _))
    (beginChunk_keeps _ _ _ _))

theorem handYield_keeps (s : State) (t : Turn) : Keeps s (handYield s t) := .same

theorem takeNew_keeps (s : State) (t : Turn) (r : RegionId) (q : Byte) (rest : List (RegionId × Byte)) :
    Keeps s (takeNew s t r q rest) := by
  unfold takeNew
  dsimp only
  split
  · exact Keeps.trans .same (handData_keeps _ _ _)
  · exact .same

theorem chooseFrame_keeps (s : State) (t : Turn) : Keeps s (chooseFrame s t) := by
  unfold chooseFrame; split
  · split
    · exact takeRepeat_keeps _ _ _ _
    · split
      · exact takeRefresh_keeps _ _
      · split
        · exact takeNew_keeps _ _ _ _ _
        · exact handYield_keeps _ _
  · exact handYield_keeps _ _

theorem choose_keeps (s : State) : Keeps s (choose s) := by
  unfold choose; split
  · split
    · exact chooseFrame_keeps _ _
    · exact .refl s
  · exact .refl s

theorem pump_keeps (s : State) : Keeps s (pump s) :=
  (((handover_keeps s).trans (choose_keeps _)).trans (handover_keeps _)).trans (choose_keeps _)

theorem openTurn_keeps (s : State) (kind : TurnKind) (budget : Nat) (cycle : Byte) :
    Keeps s (openTurn s kind budget cycle) := by
  unfold openTurn
  extract_lets t
  have h : Keeps s t := updAllPubs_keeps s (fun p => { p with endGuard := false }) (fun _ => Nat.le_refl _) (fun _ h => h)
  clear_value t
  exact h.trans (Keeps.trans .same (pump_keeps _))

theorem markSent_keeps (s : State) (r : RegionId) (q t : Byte) : Keeps s (updPub s r (markSent q t)) := by
  refine updPub_keeps s r _ (fun p => ?_) (fun p h => by simpa [markSent] using h)
  have e : (fun b : Batch => (if b.seq = some q then { b with sent := true, lastTurn := some t } else b).records.length)
      = fun b => b.records.length := by
    funext b; split <;> rfl
  simp [markSent, pubRecords, Function.comp_def, e]

theorem dataSent_keeps (s : State) (r : RegionId) (q : Byte) (epoch : Nat) : Keeps s (dataSent s r q epoch) := by
  unfold dataSent; split
  · exact (markSent_keeps s r q _).trans (releaseCheck_keeps _ _)
  · exact .refl s

theorem returnBatches_keeps (s : State) : Keeps s (returnBatches s) := .same

theorem abortTurn_keeps (s : State) : Keeps s (abortTurn s) := by
  unfold abortTurn
  extract_lets t
  have h : Keeps s t := ((returnBatches_keeps s).trans (setBackPasses_keeps _)).trans (emptyBuffers_keeps _)
  clear_value t
  exact h.trans .same

/-! ## The subscriber's side -/

theorem useChoice_keeps (s : State) : Keeps s (useChoice s) := .same

theorem unsync_keeps (s : State) (r : RegionId) (c : UnsyncCause) : Keeps s (unsync s r c) := by
  unfold unsync; split
  · split
    · exact (updSub_keeps s r _).trans (Keeps.trans (.same (h9 := List.length_filter_le _ _)) (post_keeps _ _))
    · exact .refl s
  · exact .refl s

theorem unsyncAll_keeps (s : State) (rs : List RegionId) (c : UnsyncCause) : Keeps s (unsyncAll s rs c) :=
  (useChoice_keeps s).trans (Keeps.foldl (fun t r => unsync_keeps t r c) _ _)

/-- A slot is taken only where one is free (R75 to R77). -/
theorem stage_keeps (s : State) (x : Slot) (h : slotFree s = true) : Keeps s (stage s x) := by
  refine ⟨⟨rfl, rfl, rfl, rfl, rfl, rfl, rfl, id, fun _ => ?_, id, id, id⟩, fun _ => id, rfl⟩
  simp only [slotFree, decide_eq_true_eq] at h
  unfold SlotsBounded stage; simp; omega

@[simp] theorem updSub_inb (s : State) (r : RegionId) (f : SubRecord → SubRecord) : (updSub s r f).inb = s.inb := by
  unfold updSub; split <;> rfl

@[simp] theorem updPub_inb (s : State) (r : RegionId) (f : PubRecord → PubRecord) : (updPub s r f).inb = s.inb := by
  unfold updPub; split <;> rfl

theorem inboundData_keeps (s : State) (source : StationId) (d : DataFrame) : Keeps s (inboundData s source d) := by
  unfold inboundData takeData acceptData postWrongPublisher postOverrun
  split
  · split
    · split
      · split
        · exact unsync_keeps _ _ _
        · split
          · split
            · rename_i h
              exact (updSub_keeps s _ _).trans (stage_keeps _ _ (by simpa [slotFree] using h))
            · exact post_keeps _ _
          · exact .refl s
          · exact .refl s
      · exact .refl s
    · exact post_keeps _ _
  · exact .refl s

theorem takeChunk0_keeps (s : State) (source : StationId) (c : ChunkFrame) (q : SubRecord) :
    Keeps s (takeChunk0 s source c q) := by
  unfold takeChunk0 postOverrun
  split
  · rename_i h
    refine (updSub_keeps s _ _).trans (Keeps.trans (.same (h9 := List.length_filter_le _ _)) (stage_keeps _ _ ?_))
    have hl : (purgeData s.inb.slots c.region).length ≤ s.inb.slots.length := List.length_filter_le _ _
    simp only [slotFree, decide_eq_true_eq] at h
    simp only [slotFree, decide_eq_true_eq, updSub_inb]
    omega
  · split
    · exact unsync_keeps _ _ _
    · exact post_keeps _ _

theorem takeChunkNext_keeps (s : State) (c : ChunkFrame) (q : SubRecord) : Keeps s (takeChunkNext s c q) := by
  unfold takeChunkNext
  split
  · split
    · split
      · rename_i h
        exact (updSub_keeps s _ _).trans (stage_keeps _ _ (by simpa [slotFree] using h))
      · exact unsync_keeps _ _ _
    · exact unsync_keeps _ _ _
  · exact unsync_keeps _ _ _
  · exact unsync_keeps _ _ _
  · exact .refl s
  · exact .refl s

theorem inboundChunk_keeps (s : State) (source : StationId) (c : ChunkFrame) : Keeps s (inboundChunk s source c) := by
  unfold inboundChunk takeChunk postWrongPublisher
  split
  · split
    · split
      · split
        · exact takeChunk0_keeps _ _ _ _
        · exact .refl s
      · split
        · exact unsync_keeps _ _ _
        · split
          · exact takeChunkNext_keeps _ _ _
          · exact .refl s
    · exact post_keeps _ _
  · exact .refl s

theorem takeSummary_keeps (s : State) (source : StationId) (x : Summary) : Keeps s (takeSummary s source x) := by
  unfold takeSummary; split
  · split
    · exact unsync_keeps _ _ _
    · exact .refl s
  · exact .refl s

theorem takeSummariesOf_keeps (s : State) (source : StationId) (xs : List Summary) :
    Keeps s (takeSummariesOf s source xs) :=
  Keeps.foldl (fun s x => takeSummary_keeps s source x) xs s

theorem postCurrent_keeps (s : State) (r : RegionId) : Keeps s (postCurrent s r) := by
  unfold postCurrent; split
  · exact post_keeps _ _
  · exact .refl s

theorem slotApplied_keeps (s : State) (x : Slot) : Keeps s (slotApplied s x) := by
  unfold slotApplied dataApplied chunkApplied
  split
  · split
    · split
      · exact .refl s
      · dsimp only
        split
        · exact ((updSub_keeps s _ _).trans (updSub_keeps _ _ _)).trans (postCurrent_keeps _ _)
        · exact updSub_keeps s _ _
    · exact .refl s
  · split
    · split
      · split
        · split
          · exact (updSub_keeps s _ _).trans (postCurrent_keeps _ _)
          · exact updSub_keeps s _ _
        · exact .refl s
      · exact .refl s
    · exact .refl s

theorem stopWaitOver_keeps (s : State) : Keeps s (stopWaitOver s) := by
  unfold stopWaitOver; split
  · exact reachResult_keeps _ _
  · exact .refl s

theorem completeApply_keeps (s : State) (x : Slot) : Keeps s (completeApply s x) := by
  unfold completeApply
  refine Keeps.trans ?_ ((slotApplied_keeps _ x).trans (stopWaitOver_keeps _))
  exact Keeps.trans (.same (h9 := List.length_filter_le _ _) (h15 := fun x => by cases x)) (releaseFenced_keeps _)

theorem markInProgress_length (l : List Slot) : (markInProgress l).length = l.length := by cases l <;> rfl

theorem hostAwaitsRegion_waits {s : State} {r : RegionId} (h : hostAwaitsRegion s r = true) : hostWaits s = true := by
  unfold hostAwaitsRegion at h
  unfold hostWaits
  cases hh : s.path.host with
  | none => rw [hh] at h; cases h
  | some x =>
    rw [hh] at h
    simp only [Option.any_some, Bool.and_eq_true] at h ⊢
    exact h.1

theorem startApply_keeps (s : State) (x : Slot) : Keeps s (startApply s x) := by
  unfold startApply
  dsimp only
  split
  · exact Keeps.trans (.same (h9 := Nat.le_of_eq (markInProgress_length _))) (completeApply_keeps _ _)
  · refine ⟨⟨rfl, rfl, rfl, rfl, rfl, rfl, rfl, id, fun h => ?_, Keeps.regions_retained rfl,
      Keeps.regions_pool rfl (Nat.le_refl _), fun i => ⟨i.1, fun h => ?_, i.2.2⟩⟩, fun _ => id, rfl⟩
    · exact Nat.le_trans (Nat.le_of_eq (markInProgress_length _)) h
    · dsimp only at h
      split at h
      · rename_i e; exact hostAwaitsRegion_waits e
      · cases h

theorem grantApply_keeps (s : State) : Keeps s (grantApply s) := by
  unfold grantApply; split
  · split
    · exact .same (h15 := fun x => by cases x)
    · exact completeApply_keeps _ _
  · exact .same (h15 := fun x => by cases x)

/-! ## Turns -/

theorem suspendRegion_keeps (s : State) (r : RegionId) : Keeps s (suspendRegion s r) := by
  unfold suspendRegion; split
  · refine ((abandonPass_keeps s r).trans (discard_keeps _ r)).trans
      ((updPub_keeps_same _ r suspendRecord (fun _ => rfl) (fun _ => rfl)).trans ?_)
    dsimp only
    split
    · rename_i h
      refine releaseHeld_keeps _ (host_of_held ?_)
      cases e : (updPub (discard (abandonPass s r) r) r suspendRecord).cap.held with
      | none => rw [e] at h; cases h
      | some x => rfl
    · exact reevaluateAfterDiscard_keeps _ _
  · exact .refl s

theorem leaveRoster_keeps (s : State) : Keeps s (leaveRoster s) :=
  (Keeps.trans (t := setMember s .listening) .same (Keeps.foldl suspendRegion_keeps _ _)).trans (unsyncAll_keeps _ _ _)

theorem enrollRecord_batches (p : PubRecord) :
    (enrollRecord p).openBatch = p.openBatch ∧ (enrollRecord p).retained = p.retained := by
  unfold enrollRecord; split <;> exact ⟨rfl, rfl⟩

theorem enterRoster_keeps (s : State) : Keeps s (enterRoster s) := by
  refine Keeps.trans (t := setMember s .enrolled) .same (updAllPubs_keeps _ _ (fun p => ?_) (fun p h => ?_))
  · simp [pubRecords, enrollRecord_batches]
  · simpa [enrollRecord_batches] using h

theorem rosterChanged_keeps (s : State) : Keeps s (rosterChanged s) :=
  (unsyncAll_keeps _ _ _).trans (rosterChangedForPubs_keeps _)

theorem memberAfterYield_keeps (s : State) : Keeps s (memberAfterYield s) := by
  unfold memberAfterYield; split
  · split
    · exact enterRoster_keeps s
    · exact .refl s
  · split
    · exact .refl s
    · exact leaveRoster_keeps s
  · exact .refl s
  · exact .refl s

theorem takeMasterYield_keeps (s : State) (roster : StationSet) (cycle : Byte) :
    Keeps s (takeMasterYield s roster cycle) := by
  unfold takeMasterYield; split
  · exact .refl s
  · exact (Keeps.trans .same (memberAfterYield_keeps _)).trans (rosterChanged_keeps _)

theorem openMemberTurn_keeps (s : State) (kind : TurnKind) (budget : Nat) (cycle : Byte) :
    Keeps s (openMemberTurn s kind budget cycle) :=
  Keeps.trans .same (openTurn_keeps _ _ _ _)

theorem closeMemberTurn_keeps (s : State) : Keeps s (closeMemberTurn s) := .same

theorem abortMemberTurn_keeps (s : State) : Keeps s (abortMemberTurn s) :=
  (abortTurn_keeps s).trans (closeMemberTurn_keeps _)

theorem takePoll_keeps (s : State) (cycle budget : Byte) : Keeps s (takePoll s cycle budget) := by
  unfold takePoll; split
  · split
    · exact .refl s
    · split
      · exact openMemberTurn_keeps _ _ _ _
      · exact .refl s
  · split
    · exact (leaveRoster_keeps s).trans (openMemberTurn_keeps _ _ _ _)
    · exact openMemberTurn_keeps _ _ _ _
  · exact .refl s
  · exact .refl s

theorem awaitGap_keeps (s : State) (p : Phase) : Keeps s (awaitGap s p) := .same

theorem sendPoll_keeps (s : State) (p : Phase) (st : StationId) (budget : Nat) : Keeps s (sendPoll s p st budget) :=
  Keeps.trans .same (handover_keeps _)

theorem startPause_keeps (s : State) : Keeps s (startPause s) := .same

theorem probeOrPause_keeps (s : State) : Keeps s (probeOrPause s) := by
  unfold probeOrPause; split
  · exact Keeps.trans .same (sendPoll_keeps _ _ _ _)
  · exact startPause_keeps s

theorem removeStation_keeps (s : State) (st : StationId) : Keeps s (removeStation s st) :=
  Keeps.trans .same (post_keeps _ _)

theorem joinStation_keeps (s : State) (st : StationId) : Keeps s (joinStation s st) :=
  Keeps.trans .same (post_keeps _ _)

theorem applyRosterChanges_keeps (s : State) : Keeps s (applyRosterChanges s) := by
  unfold applyRosterChanges
  dsimp only
  have h := (Keeps.foldl removeStation_keeps (members s.tc.removals) s).trans
    (Keeps.foldl joinStation_keeps (members s.tc.additions) _)
  split
  · exact h.trans .same
  · exact h.trans (Keeps.trans .same (rosterChanged_keeps _))

theorem cycleStart_keeps (s : State) : Keeps s (cycleStart s) := by
  have h := applyRosterChanges_keeps s
  unfold cycleStart
  generalize applyRosterChanges s = t at h
  exact h.trans (Keeps.trans .same (openTurn_keeps _ _ _ _))

theorem masterNext_keeps (s : State) : Keeps s (masterNext s) := by
  unfold masterNext; split
  · exact awaitGap_keeps _ _
  · split
    · exact cycleStart_keeps s
    · split
      · exact sendPoll_keeps _ _ _ _
      · exact probeOrPause_keeps s
    · exact startPause_keeps s

theorem startWatch_keeps (s : State) (st : StationId) (budget : Nat) : Keeps s (startWatch s st budget) := .same

theorem advancePoll_keeps (s : State) : Keeps s (advancePoll s) := .same

theorem scorePoll_keeps (s : State) (st : StationId) (b : Bool) : Keeps s (scorePoll s st b) := by
  unfold scorePoll; split
  · exact .same
  · dsimp only; split <;> exact .same

theorem endWatch_keeps (s : State) (w : Watch) (b : Bool) : Keeps s (endWatch s w b) := by
  unfold endWatch
  dsimp only
  refine Keeps.trans ?_ (masterNext_keeps _)
  split
  · split <;> exact .same
  · exact Keeps.trans (Keeps.trans .same (scorePoll_keeps _ _ _)) (advancePoll_keeps _)

theorem countFrame_keeps (s : State) : Keeps s (countFrame s) := by
  unfold countFrame; split
  · exact .same
  · exact .refl s

theorem enterSilenceWait_keeps (s : State) : Keeps s (enterSilenceWait s) := .same

theorem masterCollision_keeps (s : State) : Keeps s (masterCollision s) := by
  unfold masterCollision; split
  · exact (abortTurn_keeps s).trans (enterSilenceWait_keeps _)
  · exact Keeps.trans (Keeps.trans (emptyBuffers_keeps s) .same) (enterSilenceWait_keeps _)
  · exact (emptyBuffers_keeps s).trans (enterSilenceWait_keeps _)

theorem turnHears_keeps (s : State) (n : Nat) : Keeps s (turnHears s n) := by
  unfold turnHears; split <;> exact .same

theorem leadReported_keeps (s : State) : Keeps s (leadReported s) := by
  unfold leadReported; split
  · exact restartLost_keeps s
  · exact .refl s

/-! ## Reception -/

theorem turnTakesYield_keeps (s : State) (source : StationId) (y : YieldFrame) :
    Keeps s (turnTakesYield s source y) := by
  unfold turnTakesYield; split
  · split
    · exact endWatch_keeps _ _ _
    · exact countFrame_keeps s
  · split
    · split
      · exact takeMasterYield_keeps _ _ _
      · exact .refl s
    · exact .refl s

theorem takeYield_keeps (s : State) (source : StationId) (y : YieldFrame) : Keeps s (takeYield s source y) :=
  ((((turnTakesYield_keeps s source y).trans (markChanges_keeps _ _)).trans (processAcks_keeps _ _ _)).trans
    (takeSummariesOf_keeps _ _ _)).trans
    (pump_keeps _)

theorem handPoll_keeps (s : State) (source : StationId) (cycle budget : Byte) :
    Keeps s (handPoll s source cycle budget) := by
  unfold handPoll
  dsimp only
  refine (countFrame_keeps s).trans ?_
  split
  · exact .refl _
  · split
    · exact takePoll_keeps _ _ _
    · exact .refl _

theorem handOn_keeps (s : State) (source : StationId) (f : Frame) : Keeps s (handOn s source f) := by
  unfold handOn; split
  · dsimp only
    refine (restartLost_keeps s).trans ?_
    split
    · exact handPoll_keeps _ _ _ _
    · exact (countFrame_keeps _).trans (inboundData_keeps _ _ _)
    · exact (countFrame_keeps _).trans (inboundChunk_keeps _ _ _)
    · exact takeYield_keeps _ _ _
  · exact .refl s

theorem setRx_keeps (s : State) (x : FrameRx) : Keeps s (setRx s x) := .same

theorem endFrame_keeps (s : State) : Keeps s (endFrame s) := (setRx_keeps s _).trans (countFrame_keeps _)

theorem failFrame_keeps (s : State) (b : List Byte) (x : FrameFault) : Keeps s (failFrame s b x) :=
  (endFrame_keeps s).trans (postRunning_keeps _ _)

theorem truncate_keeps (s : State) (x : FrameFault) : Keeps s (truncate s x) := by
  unfold truncate; split
  · exact .refl s
  · exact failFrame_keeps _ _ _
  · exact endFrame_keeps s

theorem truncateFraming_keeps (s : State) : Keeps s (truncateFraming s) := by
  unfold truncateFraming; split
  · exact .refl s
  · exact (endFrame_keeps s).trans .same
  · exact endFrame_keeps s

theorem resetFrame_keeps (s : State) : Keeps s (resetFrame s) := by
  unfold resetFrame
  dsimp only
  refine Keeps.trans ?_ (dropHeldFraming_keeps _)
  split
  · exact .refl s
  · exact endFrame_keeps s
  · exact endFrame_keeps s

theorem beginReception_keeps (s : State) (c : Byte) : Keeps s (beginReception s c) := by
  unfold beginReception; split
  · exact endFrame_keeps s
  · split
    · exact setRx_keeps _ _
    · exact failFrame_keeps _ _ _

theorem finishFrame_keeps (s : State) (chars : List Byte) (crc : BitVec 16) : Keeps s (finishFrame s chars crc) := by
  unfold finishFrame; split
  · exact (setRx_keeps s _).trans (handOn_keeps _ _ _)
  · exact (endFrame_keeps s).trans (postRunning_keeps _ _)
  · exact failFrame_keeps _ _ _

theorem takeCharacter_keeps (s : State) (b : List Byte) (crc : BitVec 16) (c : Byte) :
    Keeps s (takeCharacter s b crc c) := by
  unfold takeCharacter
  dsimp only
  split
  · exact setRx_keeps _ _
  · split
    · exact failFrame_keeps _ _ _
    · split
      · exact setRx_keeps _ _
      · split
        · exact finishFrame_keeps _ _ _
        · exact setRx_keeps _ _

theorem deliverCharacter_keeps (s : State) (c : VotedChar) : Keeps s (deliverCharacter s c) := by
  unfold deliverCharacter; split
  · exact truncateFraming_keeps s
  · split
    · exact truncate_keeps _ _
    · split
      · exact ((leadReported_keeps s).trans (truncate_keeps _ _)).trans (beginReception_keeps _ _)
      · unfold followCharacter; split
        · exact .refl s
        · exact takeCharacter_keeps _ _ _ _
        · split
          · exact endFrame_keeps s
          · exact setRx_keeps _ _

end Sys2Proof.Machine
end

