-- ==== Sys2Proof/Laws/KeepsAgent.lean ====
section
/-! SUPPORT. What the agent's operations, the grants and the commands keep; and how a step ends. -/

namespace Sys2Proof.Machine

/-! ## The agent -/

theorem enterLoading_keeps (s : State) : Keeps s (enterLoading s) := .same

theorem loadedRegion_records (d : Descriptor) : regionRecords (loadedRegion d) = 0 := by
  unfold loadedRegion regionRecords; split
  · rename_i h; dsimp only at h; split at h <;> cases h; rfl
  · rfl

theorem loadedRegion_retained (d : Descriptor) : regionRetained (loadedRegion d) = 0 := by
  unfold loadedRegion regionRetained; split
  · rename_i h; dsimp only at h; split at h <;> cases h; rfl
  · rfl

theorem loadTable_keeps (s : State) : Keeps s (loadTable s) :=
  Keeps.foldl (fun t r => setRegion_keeps t r _ (by rw [loadedRegion_records]; exact Nat.zero_le _)
    (fun _ => by rw [loadedRegion_retained]; exact Nat.zero_le _)) _ s

theorem allOnes_marks (m : Nat) (h : m < 38) : (BitVec.allOnes 38).getLsbD m = true := by
  rw [BitVec.getLsbD_allOnes]; exact decide_eq_true h

theorem loadSucceeds_keeps (s : State) : Keeps s (loadSucceeds s) := by
  unfold loadSucceeds
  extract_lets t
  have h : Keeps s t := loadTable_keeps s
  clear_value t
  exact h.trans (.same (h9 := Nat.zero_le _) (h11 := Nat.zero_le _) (h13 := fun x => by cases x) (h14 := fun x => by cases x)
    (h16 := fun m h => allOnes_marks m (BitVec.lt_of_getLsbD h)) (h17 := (reachResult_keeps _ _).prior))

theorem regionAt_reset (s : State) (r : RegionId) (h : s.regions = Vector.replicate 16 Region.reset) :
    regionAt s r = Region.reset := by
  simp [regionAt, h, Vector.get_eq_getElem]

/-- A table of OFF regions holds no batch. -/
theorem resetRegions_bounds {s : State} (h : s.regions = Vector.replicate 16 Region.reset) :
    RetainedBounded s ∧ (allIds.map fun r => regionRecords (regionAt s r)).sum = 0 := by
  constructor
  · intro r; rw [regionAt_reset s r h]; exact Nat.zero_le _
  · simp [regionAt_reset s _ h, regionRecords, Region.reset]

theorem loadFails_keeps (s : State) (e : LoadError) (i : Fin 16) : Keeps s (loadFails s e i) := by
  have hb := resetRegions_bounds (s := loadFails s e i) rfl
  refine ⟨⟨rfl, rfl, rfl, rfl, rfl, rfl, rfl, id, id, fun _ => hb.1, fun h => ?_, id⟩, fun _ => id,
    (reachResult_keeps _ _).prior⟩
  unfold PoolBounded poolLevel at *
  rw [hb.2]
  have : (loadFails s e i).cap = s.cap := rfl
  rw [this]; omega

theorem loadCheck_keeps (s : State) : Keeps s (loadCheck s) := by
  unfold loadCheck; split
  · exact loadSucceeds_keeps s
  · exact loadFails_keeps s _ _

theorem startMember_keeps (s : State) : Keeps s (startMember s) := .same
theorem startMaster_keeps (s : State) : Keeps s (startMaster s) := .same

theorem startRegions_keeps (s : State) : Keeps s (startRegions s) :=
  Keeps.trans (Keeps.trans (t := { s with top := .running }) .same
    (updAllPubs_keeps _ (startPub (isMaster s)) (fun _ => Nat.le_refl _) (fun _ h => h))) (updAllSubs_keeps _ _)

theorem startBlocks_keeps (s : State) : Keeps s (startBlocks s) := .same

theorem startPart_keeps (s : State) : Keeps s (startPart s) := by
  have h := (startRegions_keeps s).trans (startBlocks_keeps _)
  unfold startPart
  extract_lets t
  split
  · exact h.trans (startMaster_keeps t)
  · exact h.trans (startMember_keeps t)

theorem releaseHeldIfAny_keeps (s : State) : Keeps s (releaseHeldIfAny s) := by
  unfold releaseHeldIfAny; split
  · rename_i h; exact releaseHeld_keeps s (host_of_held h)
  · exact .refl s

theorem cutShort_keeps (s : State) : Keeps s (cutShort s) := by
  unfold cutShort; split
  · exact .same
  · exact .refl s

theorem stopLine_keeps (s : State) : Keeps s (stopLine s) := by
  unfold stopLine
  extract_lets c t
  have h : Keeps s t := by
    have k : Keeps s c := cutShort_keeps s
    show Keeps s (if _ then _ else _)
    split
    · exact k
    · exact k.trans (setTx_keeps _ _)
  clear_value t
  split
  · exact h.trans (setLineRx_keeps _ _)
  · exact h

theorem stopTurns_keeps (s : State) : Keeps s (stopTurns s) := .same

theorem stopRegions_keeps (s : State) : Keeps s (stopRegions s) :=
  (Keeps.trans (t := { s with top := .configured }) .same (releaseHeldIfAny_keeps _)).trans
    ((updAllPubs_keeps _ stopPub (fun p => by simp [stopPub, pubRecords]) (fun p _ => by simp [stopPub])).trans
      (updAllSubs_keeps _ _))

theorem stopLists_keeps (s : State) : Keeps s (stopLists s) :=
  .same (h9 := List.length_filter_le _ _) (h11 := Nat.zero_le _) (h13 := fun x => by cases x) (h14 := fun x => by cases x)

theorem stopMarks_keeps (s : State) : Keeps s (stopMarks s) :=
  .same (h16 := fun m h => or_marks _ _ m (or_marks _ _ m h))

theorem stopPart_keeps (s : State) : Keeps s (stopPart s) := by
  have h := (((((stopRegions_keeps s).trans (emptyBuffers_keeps _)).trans (stopLine_keeps _)).trans
    (stopTurns_keeps _)).trans (stopLists_keeps _)).trans (stopMarks_keeps _)
  unfold stopPart
  extract_lets t
  split
  · exact h
  · exact h.trans (reachResult_keeps _ _)

theorem flushRegion_keeps (s : State) (arg : Byte) : Keeps s (flushRegion s arg) := by
  unfold flushRegion; split
  · split
    · exact (dueClose_keeps _ _).trans (reachResult_keeps _ _)
    · exact reachResult_keeps _ _
  · exact reachResult_keeps _ _

theorem resyncRegion_keeps (s : State) (arg : Byte) : Keeps s (resyncRegion s arg) := by
  unfold resyncRegion; split
  · exact (unsync_keeps _ _ _).trans (reachResult_keeps _ _)
  · exact reachResult_keeps _ _

theorem takeLoad_keeps (s : State) : Keeps s (takeLoad s) := by
  unfold takeLoad; split
  · exact enterLoading_keeps s
  · exact enterLoading_keeps s
  · exact reachResult_keeps _ _
  · exact reachResult_keeps _ _
  · exact .refl s

theorem decideCommand_keeps (s : State) (code arg : Byte) : Keeps s (decideCommand s code arg) := by
  unfold decideCommand
  split
  · exact takeLoad_keeps s
  split
  · split
    · exact (startPart_keeps s).trans (reachResult_keeps _ _)
    · exact reachResult_keeps _ _
  split
  · split
    · exact stopPart_keeps s
    · exact reachResult_keeps _ _
  split
  · split
    · exact flushRegion_keeps _ _
    · exact reachResult_keeps _ _
  split
  · split
    · exact resyncRegion_keeps _ _
    · exact reachResult_keeps _ _
  · exact reachResult_keeps _ _

theorem observeCommand_keeps (s : State) (w : Word) : Keeps s (observeCommand s w) := by
  unfold observeCommand; split
  · exact post_keeps _ _
  · rename_i h
    exact (beginCommand_keeps _ _ _ (by simpa using h)).trans (decideCommand_keeps _ _ _)

theorem updateAttn_keeps (s : State) : Keeps s (updateAttn s) := .same

theorem withdrawEvent_keeps (s : State) : Keeps s (withdrawEvent s) := by
  unfold withdrawEvent; split
  · exact .same
  · exact .refl s

theorem observeConsumer_keeps (s : State) (l : Lanes) (d : Word) : Keeps s (observeConsumer s l d) := by
  unfold observeConsumer
  exact (Keeps.trans .same (updateAttn_keeps _)).trans (withdrawEvent_keeps _)

theorem observe_keeps (s : State) (a : Access) : Keeps s (observe s a) := by
  unfold observe
  split
  · exact .refl s
  · split
    · split
      · exact observeCommand_keeps _ _
      · split
        · exact observeConsumer_keeps _ _ _
        · exact .refl s
    · exact .refl s

theorem grantEventFirst_keeps (s : State) : Keeps s (grantEventFirst s) := by
  unfold grantEventFirst; split
  · rename_i e rest h
    exact .same (h8 := by rw [h]; exact Nat.le_succ _)
  · exact .refl s

theorem producerWritten_keeps (s : State) (p : BitVec 5) : Keeps s (producerWritten s p) := .same

theorem grantEventThird_keeps (s : State) : KeepsButMarks s (grantEventThird s) := by
  unfold grantEventThird; split
  · exact KeepsButMarks.trans (Keeps.trans .same (producerWritten_keeps _ _)).toKeepsButMarks (clearMark_keeps _ _)
  · exact (Keeps.refl s).toKeepsButMarks

/-- The AGENT accesses that write no status word (R181). -/
def WritesNoStatus (q : AgentRequest) : Prop := q = .loadRead ∨ q = .eventFirst ∨ q = .eventSecond

theorem grantAgent_keeps_marks (s : State) (q : AgentRequest) (word : Word) (h : WritesNoStatus q) :
    Keeps s (grantAgent s q word) := by
  rcases h with rfl | rfl | rfl <;> unfold grantAgent
  · have h : Keeps s (joinLoadWord s word) := .same
    dsimp only
    split
    · exact h
    · exact h.trans (loadCheck_keeps _)
  · exact grantEventFirst_keeps s
  · exact .same

theorem grantAgent_keeps (s : State) (q : AgentRequest) (word : Word) : KeepsButMarks s (grantAgent s q word) := by
  cases q with
  | loadRead => exact (grantAgent_keeps_marks s _ word (.inl rfl)).toKeepsButMarks
  | eventFirst => exact (grantAgent_keeps_marks s _ word (.inr (.inl rfl))).toKeepsButMarks
  | eventSecond => exact (grantAgent_keeps_marks s _ word (.inr (.inr rfl))).toKeepsButMarks
  | eventThird => exact grantEventThird_keeps s
  | statusWord m =>
    have h := clearMark_keeps s m
    unfold grantAgent
    dsimp only
    split
    · exact h.trans (producerWritten_keeps _ _).toKeepsButMarks
    · exact h
  | result => exact ⟨rfl, rfl, rfl, rfl, rfl, rfl, rfl, id, id, id, id, id⟩

/-! ## Presentation and grants -/

/-- With no host access in the part, nothing is held of one. -/
theorem nothing_held {s : State} (h : s.path.host = none) (i : HostConsistent s) :
    s.cap.claim = none ∧ s.path.apply ≠ .keptBack ∧ s.cap.held = none := by
  have hw : hostWaits s = false := by unfold hostWaits; rw [h]; rfl
  refine ⟨?_, ?_, ?_⟩
  · cases e : s.cap.claim with
    | none => rfl
    | some c => have := i.1 (by rw [e]; rfl); rw [hw] at this; cases this
  · intro e; have := i.2.1 e; rw [hw] at this; cases this
  · cases e : s.cap.held with
    | none => rfl
    | some c => have := i.2.2 (by rw [e]; rfl); rw [h] at this; cases this

/-- A state that holds nothing of the host access is consistent whatever its condition. -/
theorem consistent_free {s : State} (h : s.cap.claim = none ∧ s.path.apply ≠ .keptBack ∧ s.cap.held = none) :
    HostConsistent s := by
  refine ⟨fun x => ?_, fun x => absurd x h.2.1, fun x => ?_⟩
  · rw [h.1] at x; cases x
  · rw [h.2.2] at x; cases x

theorem enterPart_keeps (s : State) (a : Access) (c : HostCondition) (h : s.path.host = none) :
    Keeps s (enterPart s a c) :=
  ⟨⟨rfl, rfl, rfl, rfl, rfl, rfl, rfl, id, id, Keeps.regions_retained rfl, Keeps.regions_pool rfl (Nat.le_refl _),
    fun i => consistent_free (s := enterPart s a c) (nothing_held (s := s) h i)⟩, fun _ => id, rfl⟩

theorem dropWrite_keeps (s : State) (a : Access) (e : Event) : Keeps s (dropWrite s a e) :=
  Keeps.trans .same (post_keeps _ _)

theorem presentCapture_keeps (s : State) (a : Access) (r : RegionId) (o : Nat) (h : s.path.host = none) :
    Keeps s (presentCapture s a r o) := by
  have k := enterPart_keeps s a .awaitingGrant h
  unfold presentCapture passAccess; split
  · exact (k.rest.trans (decideWrite_rest _ _)).withHost fun i =>
      decideWrite_consistent _ (k.host i) ⟨rfl, (nothing_held h i).1, (nothing_held h i).2.1⟩
  · exact k

theorem presentRegion_keeps (s : State) (a : Access) (r : RegionId) (o : Nat) (h : s.path.host = none) :
    Keeps s (presentRegion s a r o) := by
  unfold presentRegion; split
  · split
    · exact presentCapture_keeps _ _ _ _ h
    · exact enterPart_keeps _ _ _ h
  · split
    · exact dropWrite_keeps _ _ _
    · unfold presentFenced; split <;> exact enterPart_keeps _ _ _ h
  · exact enterPart_keeps _ _ _ h

theorem presentBlock_keeps (s : State) (a : Access) (i : Nat) (h : s.path.host = none) :
    Keeps s (presentBlock s a i) := by
  unfold presentBlock; split
  · exact dropWrite_keeps _ _ _
  · exact enterPart_keeps _ _ _ h

theorem present_keeps (s : State) (a : Access) (h : s.path.host = none) : Keeps s (present s a) := by
  unfold present; split
  · exact presentBlock_keeps _ _ _ h
  · exact presentBlock_keeps _ _ _ h
  · exact presentRegion_keeps _ _ _ _ h
  · exact enterPart_keeps _ _ _ h

/-- R31, R32, R33: the joined batch has at most the one record more that its claim held. -/
theorem joinedBatch_records (c : Claim) (l : Lanes) (d : Word) (b : Option Batch) :
    ((joinedBatch c l d b).elim 0 fun b => b.records.length) ≤
      (b.elim 0 fun b => b.records.length) + claimRecords (some c) := by
  unfold joinedBatch claimRecords
  cases h : c.decision <;> cases b <;> simp [mergeInto, openedBatch, h]

theorem joinWrite_pool (s : State) (c : Claim) (a : Access) (h : s.cap.claim = none) :
    poolLevel (joinWrite s c a) ≤ poolLevel s + claimRecords (some c) := by
  unfold joinWrite updPub
  split
  · rename_i p e
    have e' := regionAt_pub e
    generalize hx : ({ desc := descAt s c.region, record := _ } : Region) = x
    have hr : regionRecords x ≤ regionRecords (regionAt s c.region) + claimRecords (some c) := by
      subst hx
      simp only [regionRecords, e', pubRecords]
      have := joinedBatch_records c a.lanes a.data p.openBatch
      omega
    have := poolSum_setRegion s c.region x
    unfold poolLevel
    have hc : (setRegion s c.region x).cap = s.cap := rfl
    rw [hc, h]
    omega
  · omega

theorem joinWrite_retained (s : State) (c : Claim) (a : Access) (h : RetainedBounded s) :
    RetainedBounded (joinWrite s c a) := by
  unfold joinWrite updPub
  split
  · rename_i p e
    have e' := regionAt_pub e
    intro q
    rw [regionAt_setRegion]
    split
    · have := h c.region
      simpa [regionRetained, e'] using this
    · exact h q
  · exact h

@[simp] theorem updPub_cap (s : State) (r : RegionId) (f : PubRecord → PubRecord) : (updPub s r f).cap = s.cap := by
  unfold updPub; split <;> rfl

theorem closeBatch_claim (s : State) (r : RegionId) : (closeBatch s r).cap.claim = s.cap.claim := by
  unfold closeBatch; split
  · split
    · split
      · simp
      · rfl
    · rfl
  · rfl

theorem fullClose_claim (s : State) (c : Claim) : (fullClose s c).cap.claim = none := by
  unfold fullClose; dsimp only; split
  · rw [closeBatch_claim]
  · rfl

theorem fullClose_keeps (s : State) (c : Claim) : Keeps s (fullClose s c) := by
  refine Keeps.trans (t := { s with cap := { s.cap with claim := none } })
    (.same (h11 := Nat.zero_le _) (h14 := fun x => by cases x)) ?_
  unfold fullClose; dsimp only; split
  · exact closeBatch_keeps _ _
  · exact .refl _

/-- The claimed record is free again once its claim ends (R30, R33). -/
theorem fullClose_pool (s : State) (c : Claim) (h : s.cap.claim = some c) :
    poolLevel (fullClose s c) + claimRecords (some c) ≤ poolLevel s := by
  generalize hu : ({ s with cap := { s.cap with claim := none } } : State) = u
  have hr : u.regions = s.regions := by subst hu; rfl
  have hc : u.cap.claim = none := by subst hu; rfl
  have e : poolLevel u + claimRecords (some c) = poolLevel s := by
    have := poolLevel_congr hr
    rw [h, hc] at this
    have z : claimRecords none = 0 := rfl
    omega
  have : poolLevel (fullClose s c) ≤ poolLevel u := by
    subst hu; unfold fullClose; dsimp only; split
    · exact closeBatch_pool _ _
    · exact Nat.le_refl _
  omega

/-- What the join leaves alone. -/
theorem joinWrite_same (s : State) (c : Claim) (a : Access) :
    (joinWrite s c a).pending = s.pending ∧ (joinWrite s c a).straps = s.straps ∧ (joinWrite s c a).mem = s.mem ∧
      (joinWrite s c a).path = s.path ∧ (joinWrite s c a).clock = s.clock ∧ (joinWrite s c a).agent = s.agent ∧
      (joinWrite s c a).inb = s.inb := by
  unfold joinWrite updPub; split <;> exact ⟨rfl, rfl, rfl, rfl, rfl, rfl, rfl⟩

/-- The close and the join of a captured write use the record that its claim held (R30, R33). -/
theorem joined_rest (s : State) (c : Claim) (a : Access) (hc : s.cap.claim = some c) :
    KeepsRest s (joinWrite (fullClose s c) c a) := by
  have k := fullClose_keeps s c
  have hp := fullClose_pool s c hc
  have hj := joinWrite_pool (fullClose s c) c a (fullClose_claim s c)
  obtain ⟨f1, f2, f3, f4, f5, f6, f7⟩ := joinWrite_same (fullClose s c) c a
  refine ⟨f1.trans k.pending, f2.trans k.straps, f3.trans k.mem, by rw [f4]; exact k.port, by rw [f4]; exact k.last,
    by rw [f5]; exact k.us, by rw [f5]; exact k.ticks, fun h => ?_, fun h => ?_, fun h => ?_, fun h => ?_,
    by rw [f6]; exact k.marks, by rw [f6]; exact k.prior⟩
  · have := k.events h; unfold EventsBounded at *; rw [f6]; exact this
  · have := k.slots h; unfold SlotsBounded at *; rw [f7]; exact this
  · exact joinWrite_retained _ c a (k.retained h)
  · unfold PoolBounded at *; omega

@[simp] theorem updPub_path (s : State) (r : RegionId) (f : PubRecord → PubRecord) : (updPub s r f).path = s.path := by
  unfold updPub; split <;> rfl

/-- A close leaves the memory path, the claim and the held write alone. -/
theorem closeBatch_host (s : State) (r : RegionId) :
    (closeBatch s r).path = s.path ∧ (closeBatch s r).cap.claim = s.cap.claim ∧
      (closeBatch s r).cap.held = s.cap.held := by
  unfold closeBatch
  split
  · split
    · split
      · simp
      · exact ⟨rfl, rfl, rfl⟩
    · exact ⟨rfl, rfl, rfl⟩
  · exact ⟨rfl, rfl, rfl⟩

theorem closeOrPend_host (s : State) (r : RegionId) :
    (closeOrPend s r).path = s.path ∧ (closeOrPend s r).cap.claim = s.cap.claim ∧
      (closeOrPend s r).cap.held = s.cap.held := by
  unfold closeOrPend
  split
  · split
    · exact ⟨rfl, rfl, rfl⟩
    · split
      · exact closeBatch_host s r
      · simp
  · exact ⟨rfl, rfl, rfl⟩

/-- The grant of a captured write leaves the memory path and the held write alone, and no claim (R33). -/
theorem grantCaptured_host (s : State) (c : Claim) (a : Access) :
    (grantCaptured s c a).path = s.path ∧ (grantCaptured s c a).cap.claim = none ∧
      (grantCaptured s c a).cap.held = s.cap.held := by
  have hf : (fullClose s c).path = s.path ∧ (fullClose s c).cap.held = s.cap.held := by
    unfold fullClose; dsimp only; split
    · obtain ⟨h1, _, h3⟩ := closeBatch_host { s with cap := { s.cap with claim := none } } c.region
      exact ⟨h1, h3⟩
    · exact ⟨rfl, rfl⟩
  have hj : (joinWrite (fullClose s c) c a).path = s.path ∧ (joinWrite (fullClose s c) c a).cap.claim = none ∧
      (joinWrite (fullClose s c) c a).cap.held = s.cap.held := by
    unfold joinWrite
    rw [updPub_path, updPub_cap]
    exact ⟨hf.1, fullClose_claim s c, hf.2⟩
  unfold grantCaptured
  extract_lets t
  have hj : t.path = s.path ∧ t.cap.claim = none ∧ t.cap.held = s.cap.held := hj
  clear_value t
  split
  · obtain ⟨h1, h2, h3⟩ := closeOrPend_host t c.region
    exact ⟨h1.trans hj.1, h2.trans hj.2.1, h3.trans hj.2.2⟩
  · exact hj

theorem grantCaptured_rest (s : State) (c : Claim) (a : Access) (hc : s.cap.claim = some c) :
    KeepsRest s (grantCaptured s c a) := by
  have k := joined_rest s c a hc
  unfold grantCaptured
  extract_lets t
  split
  · exact k.trans (closeOrPend_keeps _ _).rest
  · exact k

theorem hostGranted_rest (s : State) (h : HostAccess) : KeepsRest s (hostGranted s h) :=
  ⟨rfl, rfl, rfl, rfl, rfl, rfl, rfl, id, id, id, id, fun _ => id, rfl⟩

theorem releaseApply_keeps (s : State) : Keeps s (releaseApply s) := by
  unfold releaseApply; split
  · exact .same (h15 := fun x => by cases x)
  · exact .refl s

/-- The state in which the agent observes a granted host access: claim joined, apply let go (R79, R161). -/
theorem grantedHost_rest (s : State) (h : HostAccess) :
    KeepsRest (takePort s .host h.access .host)
      (grantClaim (releaseApply (takePort (hostGranted s h) .host h.access .host)) h.access) := by
  have k : KeepsRest (takePort s .host h.access .host) (takePort (hostGranted s h) .host h.access .host) :=
    ⟨rfl, rfl, rfl, rfl, rfl, rfl, rfl, id, id, id, id, fun _ => id, rfl⟩
  refine (k.trans (releaseApply_keeps _).rest).trans ?_
  unfold grantClaim; split
  · rename_i c hc; exact grantCaptured_rest _ _ _ hc
  · exact (Keeps.refl _).rest

theorem grantedHost_free {s : State} {h : HostAccess} (hw : waitingHost s = some h) (i : HostConsistent s) :
    HostConsistent (grantClaim (releaseApply (takePort (hostGranted s h) .host h.access .host)) h.access) := by
  have hh : s.cap.held = none := by
    cases e : s.cap.held with
    | none => rfl
    | some x =>
      exfalso
      have := i.2.2 (by rw [e]; rfl)
      unfold waitingHost at hw
      cases hs : s.path.host with
      | none => rw [hs] at hw; cases hw
      | some y =>
        rw [hs] at this hw
        have h2 : y.condition = .captureHeld := of_decide_eq_true this
        simp [Option.filter, h2] at hw
  generalize hu : releaseApply (takePort (hostGranted s h) .host h.access .host) = u
  have hu1 : u.path.apply ≠ .keptBack := by
    subst hu; unfold releaseApply; split
    · simp
    · assumption
  have hu2 : u.cap.held = none := by
    subst hu; unfold releaseApply; split <;> exact hh
  apply consistent_free
  unfold grantClaim; split
  · rename_i c hc
    obtain ⟨h1, h2, h3⟩ := grantCaptured_host u c h.access
    exact ⟨h2, by rw [h1]; exact hu1, by rw [h3]; exact hu2⟩
  · rename_i hc
    exact ⟨hc, hu1, hu2⟩

theorem grantHost_keeps (s : State) (h : HostAccess) (hw : waitingHost s = some h) :
    Keeps (takePort s .host h.access .host) (grantHost s h) := by
  unfold grantHost
  refine Keeps.trans ((grantedHost_rest s h).withHost fun i => grantedHost_free hw ?_) (observe_keeps _ _)
  exact i

theorem grantApplyPort_keeps (s : State) :
    Keeps (takePort s .apply (applyAccess s) .internal) (grantApplyPort s) :=
  Keeps.trans (.same (h15 := fun x => by cases x)) (grantApply_keeps _)

theorem grantSnapPort_keeps (s : State) :
    Keeps (takePort s .snap (snapAccess s) .internal) (grantSnapPort s) :=
  Keeps.trans (Keeps.trans .same (grantSnap_keeps _ _)) (pump_keeps _)

theorem grantAgentPort_keeps_marks (s : State) (q : AgentRequest) (h : WritesNoStatus q) :
    Keeps (takePort s .agent (agentAccess s q) .internal) (grantAgentPort s q) :=
  Keeps.trans .same (grantAgent_keeps_marks _ _ _ h)

theorem grantAgentPort_keeps (s : State) (q : AgentRequest) :
    KeepsButMarks (takePort s .agent (agentAccess s q) .internal) (grantAgentPort s q) :=
  KeepsButMarks.trans (Keeps.same (s := takePort s .agent (agentAccess s q) .internal)).toKeepsButMarks
    (grantAgent_keeps _ _ _)

/-- R169: a request that waits is granted: an access that clears no mark, or the agent's own. -/
theorem grantNext_cases {s t : State} (h : grantNext s = some t) :
    (∃ q a g, Keeps (takePort s q a g) t) ∨ ∃ q, s.path.agent = some q ∧ t = grantAgentPort s q := by
  have hi : ∀ {u}, grantInternal s = some u →
      (∃ q a g, Keeps (takePort s q a g) u) ∨ ∃ q, s.path.agent = some q ∧ u = grantAgentPort s q := by
    intro u hu
    unfold grantInternal at hu
    split at hu
    · cases hu; exact .inl ⟨_, _, _, grantApplyPort_keeps s⟩
    · split at hu
      · cases hu; exact .inl ⟨_, _, _, grantSnapPort_keeps s⟩
      · cases ha : s.path.agent with
        | none => rw [ha] at hu; cases hu
        | some q => rw [ha] at hu; cases hu; exact .inr ⟨q, rfl, rfl⟩
  unfold grantNext at h
  split at h
  · rename_i x hx
    split at h
    · cases h; exact .inl ⟨_, _, _, grantHost_keeps s _ hx⟩
    · cases hi' : grantInternal s with
      | none => rw [hi'] at h; cases h; exact .inl ⟨_, _, _, grantHost_keeps s _ hx⟩
      | some u => rw [hi'] at h; cases h; exact hi hi'
  · exact hi h

theorem arbitrate_none {s : State} (h : s.path.port = .free → grantNext s = none) : arbitrate s = s := by
  unfold arbitrate; split
  · rename_i e; rw [h e]; rfl
  · rfl

theorem arbitrate_some {s t : State} (hf : s.path.port = .free) (h : grantNext s = some t) : arbitrate s = t := by
  unfold arbitrate; rw [hf, h]; rfl

/-- R161, R169: the arbiter either grants nothing, or takes the port for one access, which alone acts on memory. -/
theorem arbitrate_cases (s : State) :
    (arbitrate s = s ∧ (s.path.port = .free → grantNext s = none)) ∨
      ∃ q a g, s.path.port = .free ∧ KeepsButMarks (takePort s q a g) (arbitrate s) := by
  by_cases h : s.path.port = .free → grantNext s = none
  · exact .inl ⟨arbitrate_none h, h⟩
  · obtain ⟨hf, hg⟩ := Classical.not_imp.mp h
    obtain ⟨t, hg⟩ := Option.ne_none_iff_exists'.mp hg
    rw [arbitrate_some hf hg]
    rcases grantNext_cases hg with ⟨q, a, g, k⟩ | ⟨q, _, rfl⟩
    · exact .inr ⟨q, a, g, hf, k.toKeepsButMarks⟩
    · exact .inr ⟨_, _, _, hf, grantAgentPort_keeps s q⟩

/-- The end of a step changes the marks alone, beside the grant. -/
theorem settle_keeps (s t : State) : KeepsButMarks (arbitrate t) (settle s t) :=
  (markStep_keeps _ _ _).toKeepsButMarks.trans (fixPrior_keeps _)

/-- No grant is due where nothing waits (R169). -/
theorem grantNext_none {s : State} (h : grantNext s = none) : NothingWaits s := by
  unfold grantNext at h
  split at h
  · rename_i x hx
    split at h
    · cases h
    · cases hi : grantInternal s <;> rw [hi] at h <;> cases h
  · rename_i hx
    unfold grantInternal at h
    split at h
    · cases h
    · rename_i h1
      split at h
      · cases h
      · rename_i h2
        refine ⟨hx, h1, by simpa using h2, ?_⟩
        cases ha : s.path.agent with
        | none => rfl
        | some q => rw [ha] at h; cases h

theorem nothingWaits_grantNext {s : State} (h : NothingWaits s) : grantNext s = none := by
  obtain ⟨h1, h2, h3, h4⟩ := h
  simp [grantNext, grantInternal, h1, h2, h3, h4]

/-- A port that serves leaves nothing to grant. -/
theorem arbitrate_id {s : State} (h : PortServes s) : arbitrate s = s :=
  arbitrate_none fun e => nothingWaits_grantNext (h e)

end Sys2Proof.Machine
end

