-- ==== Sys2Proof/Laws/Exec.lean ====
section
/-! SUPPORT. What the meaning of any command can do: an operation inside the part that leaves memory, the queue and the
straps alone and keeps the bounds, then the end of the step; or one of the two reset events. -/

namespace Sys2Proof.Machine

/-- What a command does before its step ends: as Keeps, but the port may become FREE (R168). -/
structure Inside (s t : State) : Prop where
  pending : t.pending = s.pending
  straps : t.straps = s.straps
  mem : t.mem = s.mem
  port : t.path.port = s.path.port ∨ t.path.port = .free
  us : t.clock.us = s.clock.us
  ticks : t.clock.ticks = s.clock.ticks
  events : EventsBounded s → EventsBounded t
  slots : SlotsBounded s → SlotsBounded t
  retained : RetainedBounded s → RetainedBounded t
  pool : PoolBounded s → PoolBounded t
  host : HostConsistent s → HostConsistent t
  marks : ∀ m, s.agent.marks.getLsbD m = true → t.agent.marks.getLsbD m = true
  prior : priorOf t.agent = priorOf s.agent

theorem Keeps.inside {s t : State} (h : Keeps s t) : Inside s t :=
  ⟨h.pending, h.straps, h.mem, .inl h.port, h.us, h.ticks, h.events, h.slots, h.retained, h.pool, h.host, h.marks, h.prior⟩

theorem Inside.thenKeeps {s t u : State} (h : Inside s t) (k : Keeps t u) : Inside s u :=
  ⟨k.pending.trans h.pending, k.straps.trans h.straps, k.mem.trans h.mem, by rw [k.port]; exact h.port,
    k.us.trans h.us, k.ticks.trans h.ticks, k.events ∘ h.events, k.slots ∘ h.slots, k.retained ∘ h.retained,
    k.pool ∘ h.pool, k.host ∘ h.host, fun m => k.marks m ∘ h.marks m, k.prior.trans h.prior⟩

/-- A command's outcome: a fault, or the operation inside and the end of the step. -/
def Ends (s : State) (o : Host.Outcome State Fault Refusal) : Prop :=
  (∃ f, o = .fault f) ∨ ∃ u, Keeps s u ∧ o = .next (settle s u)

theorem when_keeps {s t : State} (b : Bool) (h : Keeps s t) : Ends s (when s b t) := by
  cases b
  · exact .inr ⟨s, .refl s, rfl⟩
  · exact .inr ⟨t, h, rfl⟩

theorem elim_keeps {α : Type} {s : State} (o : Option α) {f : α → State} (h : ∀ a, Keeps s (f a)) :
    Keeps s (o.elim s f) := by
  cases o
  · exact .refl s
  · exact h _

theorem presentHost_ends (s : State) (a : Access) : Ends s (presentHost s a) := by
  unfold presentHost; split
  · exact .inl ⟨_, rfl⟩
  · rename_i h
    exact .inr ⟨_, present_keeps s a (by simpa using h), rfl⟩

/-- The completion of the GRANTED host access takes nothing from an access that awaits grant (R160). -/
theorem completeHost_keeps (s : State) : Keeps s (completeHost s) := by
  unfold completeHost; split
  · rename_i h e
    refine ⟨⟨rfl, rfl, rfl, rfl, rfl, rfl, rfl, id, id, Keeps.regions_retained rfl,
      Keeps.regions_pool rfl (Nat.le_refl _), fun i => consistent_free (s := { s with path := _ }) ?_⟩, fun _ => id, rfl⟩
    have hs : s.path.host = some h ∧ h.condition = .granted := by
      cases hh : s.path.host with
      | none => rw [hh] at e; cases e
      | some y =>
        rw [hh] at e
        simp only [Option.filter] at e
        split at e
        · rename_i hd; cases e; exact ⟨rfl, of_decide_eq_true hd⟩
        · cases e
    have hw : hostWaits s = false := by unfold hostWaits; rw [hs.1]; simp [hs.2]
    refine ⟨?_, fun x => ?_, ?_⟩
    · cases c : s.cap.claim with
      | none => rfl
      | some c' => have := i.1 (by rw [c]; rfl); rw [hw] at this; cases this
    · have := i.2.1 x; rw [hw] at this; cases this
    · cases c : s.cap.held with
      | none => rfl
      | some c' => have := i.2.2 (by rw [c]; rfl); rw [hs.1] at this; simp [hs.2] at this
  · exact .refl s

theorem completeAccess_inside (s : State) : Inside s (completeAccess s) := by
  unfold completeAccess; split
  · exact (Keeps.refl s).inside
  · have h : Inside s { s with path := { s.path with port := .free } } :=
      ⟨rfl, rfl, rfl, .inr rfl, rfl, rfl, id, id, Keeps.regions_retained rfl, Keeps.regions_pool rfl (Nat.le_refl _), id,
        fun _ => id, rfl⟩
    dsimp only
    split
    · exact h.thenKeeps (completeHost_keeps _)
    · exact h

theorem beginApply_keeps (s : State) : Keeps s (beginApply s) := elim_keeps _ (startApply_keeps s)
theorem requestAgent_keeps (s : State) : Keeps s (requestAgent s) := .same

/-- A write escapes with its host access (R44). -/
theorem escaping_held {s : State} {r : RegionId} (h : escaping s = some r) : s.cap.held.isSome := by
  unfold escaping at h
  cases e : s.cap.held with
  | none => rw [e] at h; cases h
  | some x => rfl

/-- The operations of an escape before the hold ends leave the held write and its host access alone. -/
theorem escapeRegion_keeps (s : State) (r : RegionId) (hh : s.cap.held.isSome) : Keeps s (escapeRegion s r) := by
  have h := ((abandonPass_keeps s r).trans (discard_keeps _ r)).trans
    (updPub_keeps_same _ r escapeRecord (fun _ => rfl) (fun _ => rfl))
  have e : (updPub (discard (abandonPass s r) r) r escapeRecord).cap.held.isSome := by
    rw [updPub_cap]
    show (discard (abandonPass s r) r).cap.held.isSome
    have : (discard (abandonPass s r) r).cap.held = (abandonPass s r).cap.held := by
      show (updPub (abandonPass s r) r discardRecord).cap.held = _
      rw [updPub_cap]
    rw [this]
    have : (abandonPass s r).cap = s.cap := by
      unfold abandonPass; split
      · unfold withdrawChunk; split
        · split <;> simp
        · simp
      · rfl
    rw [this]; exact hh
  have h := h.trans (releaseHeld_keeps _ (host_of_held e))
  unfold escapeRegion
  extract_lets t
  split
  · exact h.trans ((pump_keeps t).trans (postAmong_keeps _ _ _))
  · exact h

theorem escape_keeps (s : State) : Keeps s ((escaping s).elim s (escapeRegion s)) := by
  cases e : escaping s with
  | none => exact .refl s
  | some r => exact escapeRegion_keeps s r (escaping_held e)

theorem clearRoster_keeps (s : State) : Keeps s (clearRoster s) := .same

theorem losePlace_keeps (s : State) : Keeps s (losePlace s) := by
  unfold losePlace
  split
  · exact leaveRoster_keeps _
  · exact Keeps.trans .same (leaveRoster_keeps _)
  · exact .refl s
  · exact .refl s

theorem pumpAmong_keeps (n : Nat) (s : State) : Keeps s (pumpAmong n s) := by
  unfold pumpAmong
  dsimp only
  have h := pump_keeps { s with agent := { s.agent with events := [] } }
  revert h
  generalize pump { s with agent := { s.agent with events := [] } } = t
  intro h
  have k : Keeps s { t with agent := { t.agent with events := s.agent.events } } :=
    ⟨⟨h.pending, h.straps, h.mem, h.port, h.last, h.us, h.ticks, id, h.slots, h.retained, h.pool, h.host⟩, h.marks, h.prior⟩
  exact k.trans (Keeps.foldl (fun t e => postAmong_keeps n t e) _ _)

theorem loseRoster_keeps (s : State) : Keeps s (loseRoster s) := by
  unfold loseRoster
  exact (((clearRoster_keeps s).trans (losePlace_keeps _)).trans (rosterChanged_keeps _)).trans (pumpAmong_keeps _ _)

theorem lineLost_keeps (s : State) : Keeps s (lineLost s) := (loseRoster_keeps s).trans (postAmong_keeps _ _ _)

theorem missWatch_keeps (s : State) : Keeps s (missWatch s) := by
  unfold missWatch; split
  · exact endWatch_keeps _ _ _
  · exact .refl s

theorem replyExpires_keeps (s : State) : Keeps s (replyExpires s) := Keeps.trans .same (missWatch_keeps _)
theorem silenceExpires_keeps (s : State) : Keeps s (silenceExpires s) := Keeps.trans .same (missWatch_keeps _)
theorem pauseEnds_keeps (s : State) : Keeps s (pauseEnds s) := Keeps.trans .same (masterNext_keeps _)
theorem silenceWaitOver_keeps (s : State) : Keeps s (silenceWaitOver s) := Keeps.trans .same (masterNext_keeps _)

theorem cutTransmission_keeps (s : State) : Keeps s (cutTransmission s) := by
  unfold cutTransmission; dsimp only; split
  · exact (setTx_keeps s _).trans (setLineRx_keeps _ _)
  · exact setTx_keeps s _

theorem lapse_keeps (s : State) : Keeps s (lapse s) := (abortMemberTurn_keeps s).trans (cutTransmission_keeps _)

theorem gapPasses_keeps (s : State) : Keeps s (gapPasses s) := by
  unfold gapPasses; split
  · unfold beginBreak
    extract_lets t
    have h : Keeps s t := (enterEcho_keeps s).trans (setTx_keeps _ _)
    clear_value t
    exact h.trans .same
  · exact Keeps.trans .same (tryBegin_keeps _)

theorem breakEnds_keeps (s : State) : Keeps s (breakEnds s) := Keeps.trans .same (masterNext_keeps _)

theorem collision_keeps (s : State) (f : EchoFault) (e : Event) :
    Keeps s (post (collisionEndsStep (collisionStops s f)) e) := by
  refine Keeps.trans (t := collisionStops s f) ?_ (Keeps.trans ?_ (post_keeps _ _))
  · unfold collisionStops; dsimp only; split <;> exact .same
  · unfold collisionEndsStep; split
    · exact masterCollision_keeps _
    · exact abortMemberTurn_keeps _

theorem yieldSent_keeps (s : State) : Keeps s (yieldSent s) := by
  unfold yieldSent; dsimp only; split
  · exact Keeps.trans .same (masterNext_keeps _)
  · exact Keeps.trans .same (closeMemberTurn_keeps _)

theorem endTransmission_keeps (s : State) (x : TxFrame) : Keeps s (endTransmission s x) := .same

theorem reportSent_keeps (s : State) (x : TxFrame) : Keeps s (reportSent s x) := by
  unfold reportSent; split
  · exact startWatch_keeps _ _ _
  · exact dataSent_keeps _ _ _ _
  · exact chunkSent_keeps _ _ _
  · exact yieldSent_keeps _

theorem frameSent_keeps (s : State) (x : TxFrame) : Keeps s (frameSent s x) :=
  ((endTransmission_keeps s x).trans (reportSent_keeps _ x)).trans (pump_keeps _)

theorem gapTruncates_keeps (s : State) : Keeps s (gapTruncates s) := Keeps.trans .same (truncate_keeps _ _)

theorem startVoted_keeps (s : State) (v : Vote) : Keeps s (startVoted s v) := by
  unfold startVoted; split <;> exact .same

theorem noiseMoves_keeps (s : State) (c : VotedChar) : Keeps s (noiseMoves s c) := .same

theorem hearCharacter_keeps (s : State) (c : VotedChar) : Keeps s (hearCharacter s c) := by
  unfold hearCharacter
  refine (noiseMoves_keeps s c).trans ?_
  split
  · exact deliverCharacter_keeps _ _
  · split
    · exact (deliverCharacter_keeps _ _).trans (postAmong_keeps _ _ _)
    · exact deliverCharacter_keeps _ _

theorem characterHeard_keeps (s : State) (f : LineFormat) (c : VotedChar) : Keeps s (characterHeard s f c) := by
  have h := ((setLineRx_keeps s (if c.framingError then .lowWatch c.allZero else .idle)).trans
    (turnHears_keeps _ (characterEnd s f))).trans (hearCharacter_keeps _ c)
  unfold characterHeard
  extract_lets t u
  have h : Keeps s (hearCharacter (turnHears t (characterEnd s f)) c) := h
  exact h.trans .same

theorem takeLineReset_keeps (s : State) (n : Nat) : Keeps s (takeLineReset s n) := by
  refine Keeps.trans (t := resetTurn (resetFrame s)) ((resetFrame_keeps s).trans ?_)
    ((postRunning_keeps _ _).trans (setLineRx_keeps _ _))
  unfold resetTurn; split
  · exact abortMemberTurn_keeps _
  · exact .refl _

theorem frameReceived_keeps (s : State) (source : StationId) (f : Frame) : Keeps s (frameReceived s source f) :=
  (turnHears_keeps s _).trans (handOn_keeps _ _ _)

/-- Every command but the memory's completion and the two reset events ends as Ends says. -/
theorem exec_ends (c : Instr) (s : State) (h0 : c ≠ .memoryAccessComplete) (h1 : c ≠ .resetNAssert)
    (h2 : ∀ a b d, c ≠ .resetNDeassert a b d) : Ends s (exec c s) := by
  cases c with
  | hostAccess a => exact presentHost_ends s a
  | consumerIndexWrite l d => exact presentHost_ends s _
  | cbWordWrite w l d => exact presentHost_ends s _
  | load r t => exact presentHost_ends s _
  | start r t => exact presentHost_ends s _
  | stop r t => exact presentHost_ends s _
  | flush r t => exact presentHost_ends s _
  | resync r t => exact presentHost_ends s _
  | badCommand c r t => exact presentHost_ends s _
  | memoryAccessComplete => exact absurd rfl h0
  | applyStart => exact when_keeps _ (beginApply_keeps s)
  | agentAccessRequest => exact when_keeps _ (requestAgent_keeps s)
  | quietIntervalExpiry r => exact when_keeps _ (dueClose_keeps s r)
  | escape => exact when_keeps _ (escape_keeps s)
  | lineLost => exact when_keeps _ (lineLost_keeps s)
  | replyTimeout => exact when_keeps _ (replyExpires_keeps s)
  | turnSilenceTimeout => exact when_keeps _ (silenceExpires_keeps s)
  | frameCountReached => exact when_keeps _ (missWatch_keeps s)
  | turnLapse => exact when_keeps _ (lapse_keeps s)
  | gap => exact when_keeps _ (gapTruncates_keeps s)
  | turnaroundGap => exact when_keeps _ (gapPasses_keeps s)
  | pollPauseEnd => exact when_keeps _ (pauseEnds_keeps s)
  | silenceWaitEnd => exact when_keeps _ (silenceWaitOver_keeps s)
  | breakLowEnd => exact when_keeps _ (setTx_keeps s _)
  | breakHighEnd => exact when_keeps _ (breakEnds_keeps s)
  | trailingBitTimeEnd => exact when_keeps _ ((setTx_keeps s _).trans (setLineRx_keeps _ _))
  | receiverArmed => exact when_keeps _ (setLineRx_keeps s _)
  | characterReceived v => exact when_keeps _ (elim_keeps _ fun x => characterHeard_keeps s _ _)
  | lowWatchReturn => exact when_keeps _ ((setLineRx_keeps s _).trans (postHeldFraming_keeps _))
  | breakLengthReached => exact when_keeps _ (setLineRx_keeps s _)
  | lineReset n => exact when_keeps _ (takeLineReset_keeps s n)
  | collision f x => exact when_keeps _ (collision_keeps s f _)
  | frameTransmitComplete => exact when_keeps _ (elim_keeps _ (frameSent_keeps s))
  | pollReceived a b d => exact when_keeps _ (frameReceived_keeps s _ _)
  | dataReceived a d => exact when_keeps _ (frameReceived_keeps s _ _)
  | chunkReceived a d => exact when_keeps _ (frameReceived_keeps s _ _)
  | yieldReceived a d => exact when_keeps _ (frameReceived_keeps s _ _)
  | resetNAssert => exact absurd rfl h1
  | resetNDeassert a b d => exact absurd rfl (h2 a b d)
  | startBitVote v => exact when_keeps _ (startVoted_keeps s v)

/-- What the deassertion of RESET_N leaves alone (R172). -/
theorem leaveReset_same (s : State) (stn : StationId) (cba : Byte) (ald : Bool) :
    (leaveReset s stn cba ald).pending = s.pending ∧ (leaveReset s stn cba ald).mem = s.mem ∧
      (leaveReset s stn cba ald).regions = s.regions ∧ (leaveReset s stn cba ald).cap = s.cap ∧
      (leaveReset s stn cba ald).inb = s.inb ∧ (leaveReset s stn cba ald).agent.events = s.agent.events ∧
      (leaveReset s stn cba ald).path.port = s.path.port ∧ (leaveReset s stn cba ald).path.host = s.path.host ∧
      (leaveReset s stn cba ald).path.apply = s.path.apply ∧ (leaveReset s stn cba ald).path.snap = s.path.snap ∧
      (s.path.agent = none → (leaveReset s stn cba ald).path.agent = none) := by
  cases ald
  · exact ⟨rfl, rfl, rfl, rfl, rfl, rfl, rfl, rfl, rfl, rfl, id⟩
  · refine ⟨rfl, rfl, rfl, rfl, rfl, rfl, rfl, rfl, rfl, rfl, fun h => ?_⟩
    show withdrawForLoad s.path.agent = none
    rw [h]; rfl

/-- Everything a command that goes on can do: an operation inside and the end of the step, or one of the reset events. -/
theorem exec_next {c : Instr} {s t : State} (h : exec c s = .next t) :
    (c ≠ .memoryAccessComplete ∧ ∃ u, Keeps s u ∧ t = settle s u) ∨ (∃ u, Inside s u ∧ t = settle s u) ∧
      c = .memoryAccessComplete ∨ (c = .resetNAssert ∧ t = arbitrate (resetPart s)) ∨
      ∃ stn cba ald, c = .resetNDeassert stn cba ald ∧ s.top = .inReset ∧ t = leaveReset s stn cba ald := by
  by_cases h0 : c = .memoryAccessComplete
  · subst h0
    refine .inr (.inl ⟨?_, rfl⟩)
    simp only [exec, execMemoryAccessComplete, when] at h
    cases h
    split
    · exact ⟨_, completeAccess_inside s, rfl⟩
    · exact ⟨_, (Keeps.refl s).inside, rfl⟩
  by_cases h1 : c = .resetNAssert
  · subst h1; cases h; exact .inr (.inr (.inl ⟨rfl, rfl⟩))
  by_cases h2 : ∃ a b d, c = .resetNDeassert a b d
  · obtain ⟨a, b, d, rfl⟩ := h2
    simp only [exec, execResetNDeassert] at h
    split at h
    · cases h; exact .inr (.inr (.inr ⟨a, b, d, rfl, by assumption, rfl⟩))
    · cases h; exact .inl ⟨h0, s, .refl s, rfl⟩
  · rcases exec_ends c s h0 h1 fun a b d e => h2 ⟨a, b, d, e⟩ with ⟨f, e⟩ | ⟨u, k, e⟩
    · rw [e] at h; cases h
    · rw [e] at h; cases h; exact .inl ⟨h0, u, k, rfl⟩

/-- What a step ends with, from what was inside it: the same, beside one access granted at most (R161, R169). -/
theorem settle_cases (s u : State) :
    KeepsButMarks u (settle s u) ∨
      ∃ q a g, u.path.port = .free ∧ KeepsButMarks (takePort u q a g) (settle s u) := by
  rcases arbitrate_cases u with ⟨h, _⟩ | ⟨q, a, g, hf, k⟩
  · left; have := settle_keeps s u; rwa [h] at this
  · right; exact ⟨q, a, g, hf, k.trans (settle_keeps s u)⟩

end Sys2Proof.Machine
end

