-- ==== Sys2Proof/Laws/Settle.lean ====
section
/-! SUPPORT. The end of a step where nothing is granted, and where a host access is; regions after an update of one or of
all of them. -/

namespace Sys2Proof.Machine

@[simp] theorem unmarked_markStep (s t g : State) : unmarked (markStep s t g) = unmarked g := rfl

@[simp] theorem unmarked_fixPrior (t : State) : unmarked (fixPrior t) = unmarked t := by
  unfold fixPrior
  split
  · rename_i x e
    split
    · simp [unmarked, agentCore, e]
    · rfl
  · rfl

/-- The end of a step moves marks alone, once the arbiter has done its part. -/
theorem unmarked_settle (s t : State) : unmarked (settle s t) = unmarked (arbitrate t) := by simp [settle]

theorem unmarked_settle_of_serves {s t : State} (h : PortServes t) : unmarked (settle s t) = unmarked t := by
  rw [unmarked_settle, arbitrate_id h]

/-- What a step that grants nothing leaves, by field. -/
theorem settle_field {s t : State} {α : Type} (f : State → α) (hf : ∀ u v, unmarked u = unmarked v → f u = f v)
    (h : PortServes t) : f (settle s t) = f t := hf _ _ (unmarked_settle_of_serves h)

theorem when_true (s t : State) : when s true t = .next (settle s t) := rfl

/-- A port that serves goes on serving while the memory path stands. -/
theorem serves_congr {s t : State} (h : t.path = s.path) (k : PortServes s) : PortServes t := by
  unfold PortServes NothingWaits waitingHost at *; rw [h]; exact k

theorem serves_busy {s : State} (h : s.path.port ≠ .free) : PortServes s := fun e => absurd e h

/-! ## Regions -/

/-- A region with its publisher record changed. -/
def mapPub (f : PubRecord → PubRecord) (x : Region) : Region :=
  match x.record with
  | .published p => { x with record := .published (f p) }
  | _ => x

/-- A region with its subscriber record changed. -/
def mapSub (f : SubRecord → SubRecord) (x : Region) : Region :=
  match x.record with
  | .subscribed q => { x with record := .subscribed (f q) }
  | _ => x

theorem regionAt_updPub (s : State) (r q : RegionId) (f : PubRecord → PubRecord) :
    regionAt (updPub s r f) q = if q = r then mapPub f (regionAt s q) else regionAt s q := by
  unfold updPub
  split
  · rename_i p e
    rw [regionAt_setRegion]
    split
    · rename_i h; subst h; simp [mapPub, regionAt_pub e, descAt]
    · rfl
  · rename_i e
    split
    · rename_i h
      subst h
      unfold mapPub
      split
      · rename_i p e'; simp [pubAt, e'] at e
      · rfl
    · rfl

theorem regionAt_updSub (s : State) (r q : RegionId) (f : SubRecord → SubRecord) :
    regionAt (updSub s r f) q = if q = r then mapSub f (regionAt s q) else regionAt s q := by
  unfold updSub
  split
  · rename_i p e
    rw [regionAt_setRegion]
    split
    · rename_i h; subst h; simp [mapSub, regionAt_sub e, descAt]
    · rfl
  · rename_i e
    split
    · rename_i h
      subst h
      unfold mapSub
      split
      · rename_i p e'; simp [subAt, e'] at e
      · rfl
    · rfl

/-- A fold of an update over distinct regions updates each region of the list once. -/
theorem regionAt_foldl {up : State → RegionId → State} {g : Region → Region}
    (h : ∀ s r q, regionAt (up s r) q = if q = r then g (regionAt s q) else regionAt s q) (l : List RegionId)
    (hl : l.Nodup) (s : State) (q : RegionId) :
    regionAt (l.foldl up s) q = if q ∈ l then g (regionAt s q) else regionAt s q := by
  induction l generalizing s with
  | nil => simp
  | cons r l ih =>
    rw [List.foldl_cons, ih (List.nodup_cons.mp hl).2, h]
    by_cases e : q = r
    · subst e; simp [(List.nodup_cons.mp hl).1]
    · simp [e]

theorem mem_allIds (r : RegionId) : r ∈ allIds := by fin_cases r <;> decide

theorem allIds_nodup : allIds.Nodup := by decide

theorem regionAt_updAllPubs (s : State) (f : PubRecord → PubRecord) (q : RegionId) :
    regionAt (updAllPubs s f) q = mapPub f (regionAt s q) := by
  unfold updAllPubs
  rw [regionAt_foldl (fun s r q => regionAt_updPub s r q f) _ allIds_nodup]
  simp [mem_allIds]

theorem regionAt_updAllSubs (s : State) (f : SubRecord → SubRecord) (q : RegionId) :
    regionAt (updAllSubs s f) q = mapSub f (regionAt s q) := by
  unfold updAllSubs
  rw [regionAt_foldl (fun s r q => regionAt_updSub s r q f) _ allIds_nodup]
  simp [mem_allIds]

theorem pubAt_updPub {s : State} {r : RegionId} {p : PubRecord} (f : PubRecord → PubRecord) (h : pubAt s r = some p) :
    pubAt (updPub s r f) r = some (f p) := by
  unfold pubAt
  rw [regionAt_updPub]
  simp [mapPub, regionAt_pub h]

theorem subAt_updSub {s : State} {r : RegionId} {q : SubRecord} (f : SubRecord → SubRecord) (h : subAt s r = some q) :
    subAt (updSub s r f) r = some (f q) := by
  unfold subAt
  rw [regionAt_updSub]
  simp [mapSub, regionAt_sub h]

end Sys2Proof.Machine
end

