-- ==== Sys2Proof/Laws/Steps.lean ====
section
/-! SUPPORT. What a step leaves: an idle cycle, a command with its arbitration, and what the arbiter keeps. -/

namespace Sys2Proof.Machine

/-- A sample tick on the line moves the sampling, the fault found and the levels to come. -/
theorem sampleIfTick_same (s t : State) : sampleIfTick s t = { t with line := { t.line with
    sampling := (sampleIfTick s t).line.sampling, fault := (sampleIfTick s t).line.fault
    lrx := (sampleIfTick s t).line.lrx } } := by
  unfold sampleIfTick
  split
  · split <;> rfl
  · rfl

theorem queueDue_same (s : State) : queueDue s =
    { s with clock := (queueDue s).clock, pending := (queueDue s).pending } := by
  unfold queueDue; split <;> rfl

/-- The time stands while what is due joins the queue: the clock moves its choice count and what waits for its turn. -/
theorem queueDue_clock (s : State) : (queueDue s).clock =
    { s.clock with choices := (queueDue s).clock.choices, due := (queueDue s).clock.due } := by
  unfold queueDue; split <;> rfl

/-- A step of an empty queue changes the clock, the queue and what the sampling of LRX holds, and nothing else. -/
theorem idle_same (s : State) : idleCycle s =
    { s with
      clock := (idleCycle s).clock, pending := (idleCycle s).pending
      line := { s.line with
        sampling := (idleCycle s).line.sampling, fault := (idleCycle s).line.fault, lrx := (idleCycle s).line.lrx } } := by
  unfold idleCycle; split
  · rfl
  split
  · unfold serveDue; dsimp only; split <;> rfl
  · have h := queueDue_same (sampleIfTick s (tickClock s))
    have k := sampleIfTick_same s (tickClock s)
    generalize queueDue (sampleIfTick s (tickClock s)) = Y at h ⊢
    generalize sampleIfTick s (tickClock s) = X at h k
    rw [h, k]; rfl

theorem exec_split (c : Instr) (s t : State) (h : exec c s = .next t) :
   (∃ u, Inside s u ∧ t = settle s u) ∨ (c = .resetNAssert ∧ t = arbitrate (resetPart s)) ∨
   (∃ a b d, c = .resetNDeassert a b d ∧ s.top = .inReset ∧ t = leaveReset s a b d) := by
  rcases exec_next h with ⟨_,u,k,e⟩ | ⟨h,_⟩ | h
  · exact .inl ⟨u, k.inside, e⟩
  · exact .inl h
  · exact .inr h

theorem arbitrate_pending (s : State) : (arbitrate s).pending = s.pending := by
  rcases arbitrate_cases s with ⟨h,_⟩ | ⟨q,a,g,_,k⟩
  · rw [h]
  · exact k.pending

theorem step_cases (s t : State) (h : step s = .next t) : (t = idleCycle s) ∨ ∃ c rest, s.pending = c :: rest ∧
    exec c { s with pending := rest } = .next t := by
  unfold step at h; split at h
  · right; exact ⟨_,_,by assumption,h⟩
  · left; cases h; rfl

theorem arbitrate_memory (u : State) (h : MemoryOk u) : MemoryOk (arbitrate u) := by
  unfold MemoryOk at *
  rcases arbitrate_cases u with ⟨h',_⟩ | ⟨q,a,g,_,k⟩
  · rw [h']; exact h
  · rw [k.mem]; exact accessMemory_wf a h

theorem arbitrate_bounds (u : State) : (EventsBounded u → EventsBounded (arbitrate u)) ∧ (SlotsBounded u →
    SlotsBounded (arbitrate u)) ∧ (RetainedBounded u → RetainedBounded (arbitrate u)) ∧ (PoolBounded u → PoolBounded
    (arbitrate u)) ∧ (HostConsistent u → HostConsistent (arbitrate u)) := by
  rcases arbitrate_cases u with ⟨h',_⟩ | ⟨q,a,g,_,k⟩
  · rw [h']; exact ⟨id,id,id,id,id⟩
  · exact ⟨k.events, k.slots, k.retained, k.pool, k.host⟩

theorem arbitrate_serves (u : State) : PortServes (arbitrate u) := by
  rcases arbitrate_cases u with ⟨h',k⟩ | ⟨q,a,g,_,k⟩
  · rw [h']; exact fun hf => grantNext_none (k hf)
  · intro hf; rw [k.port] at hf; cases hf

end Sys2Proof.Machine
end

