-- ==== Sys2Proof/Laws/Sampled.lean ====
section
/-! SUPPORT. A sample tick of an idle part: what it leaves of the state, and which commands it makes due. -/

namespace Sys2Proof.Machine

theorem mem_insertByKey {α : Type} (key : α → Nat) (x y : α) (l : List α) : y ∈ insertByKey key x l ↔ y = x ∨ y ∈ l := by
  induction l with
  | nil => simp [insertByKey]
  | cons z l ih =>
    unfold insertByKey
    split
    · simp
    · simp only [List.mem_cons, ih]; tauto

theorem mem_sortByKey {α : Type} (key : α → Nat) (y : α) (l : List α) : y ∈ sortByKey key l ↔ y ∈ l := by
  induction l with
  | nil => simp [sortByKey]
  | cons z l ih => unfold sortByKey; rw [mem_insertByKey, ih, List.mem_cons]

/-- The free order changes nothing of what is due (log 10). -/
theorem mem_dueInOrder (s : State) (l : List Instr) (c : Instr) : c ∈ dueInOrder s l ↔ c ∈ l := by
  unfold dueInOrder
  simp only [List.mem_map, mem_sortByKey, Prod.exists, exists_and_right, exists_eq_right]
  constructor
  · rintro ⟨i, h⟩
    rw [List.mem_zipIdx_iff_getElem?] at h
    exact List.mem_of_getElem? h
  · intro h
    obtain ⟨i, hi⟩ := List.mem_iff_getElem?.mp h
    exact ⟨i, List.mem_zipIdx_iff_getElem?.mpr hi⟩

/-- What joins an empty queue, or waits for its turn behind it, is what is due. -/
theorem mem_queueDue {s : State} (h : s.pending = []) (hd : s.clock.due = []) (c : Instr) :
    c ∈ dueOf (queueDue s) ↔ c ∈ dueNow s := by
  rw [← mem_dueInOrder s (dueNow s) c]
  unfold queueDue dueOf
  split
  · rename_i e; rw [e, h, hd]; rfl
  · rename_i d ds e
    show c ∈ (s.pending ++ [d]) ++ ds ↔ _
    rw [h, e]; rfl

/-- One command joins the queue at a time, and what waits for its turn waits behind it (log 10). -/
theorem queueDue_queue {s : State} (h : s.pending = []) (hd : s.clock.due = []) :
    (queueDue s).pending.length ≤ 1 ∧ ((queueDue s).pending = [] → (queueDue s).clock.due = []) := by
  unfold queueDue
  split
  · rw [h, hd]; exact ⟨Nat.zero_le _, fun _ => rfl⟩
  · show (s.pending ++ [_]).length ≤ 1 ∧ (s.pending ++ [_] = [] → _)
    rw [h]; exact ⟨Nat.le_refl _, fun e => nomatch e⟩

/-- What joins the queue changes nothing of what is due. -/
theorem dueNow_queueDue (s : State) : dueNow (queueDue s) = dueNow s := by
  unfold queueDue; split <;> rfl

theorem tickClock_due (s : State) : (tickClock s).clock.due = s.clock.due := by
  have e : ∀ (x : Option LineFormat) (c : Clock), (tickSample x (tickMicro c)).due = c.due := by
    intro x c
    unfold tickSample tickMicro
    split <;> split <;> first | rfl | (split <;> rfl)
  exact e _ _

@[simp] theorem queueDue_line (s : State) : (queueDue s).line = s.line := by unfold queueDue; split <;> rfl

theorem mem_dueIf (b : Bool) (c d : Instr) : c ∈ dueIf b d ↔ b = true ∧ c = d := by
  unfold dueIf; cases b <;> simp

/-- The clock at a sample tick (R145). -/
theorem tickClock_ticks {s : State} {f : LineFormat} (hf : s.line.format = some f) (hd : f.divisor ≤ s.clock.tickPhase + 1) :
    (tickClock s).clock.ticks = s.clock.ticks + 1 ∧ (tickClock s).clock.tickPhase = 0 := by
  have e : ∀ c : Clock, c.ticks = s.clock.ticks → c.tickPhase = s.clock.tickPhase →
      (tickSample (some f) c).ticks = s.clock.ticks + 1 ∧ (tickSample (some f) c).tickPhase = 0 := by
    intro c h1 h2
    unfold tickSample
    simp only
    rw [if_neg (show ¬ c.tickPhase + 1 < f.divisor by omega)]
    exact ⟨by rw [h1], rfl⟩
  unfold tickClock
  rw [hf]
  exact e _ (by unfold tickMicro; split <;> rfl) (by unfold tickMicro; split <;> rfl)

/-- The clock between sample ticks (R145). -/
theorem tickClock_between {s : State} {f : LineFormat} (hf : s.line.format = some f)
    (hd : s.clock.tickPhase + 1 < f.divisor) :
    (tickClock s).clock.ticks = s.clock.ticks ∧ (tickClock s).clock.tickPhase = s.clock.tickPhase + 1 := by
  have e : ∀ c : Clock, c.ticks = s.clock.ticks → c.tickPhase = s.clock.tickPhase →
      (tickSample (some f) c).ticks = s.clock.ticks ∧ (tickSample (some f) c).tickPhase = s.clock.tickPhase + 1 := by
    intro c h1 h2
    unfold tickSample
    simp only
    rw [if_pos (show c.tickPhase + 1 < f.divisor by omega)]
    exact ⟨h1, by rw [h2]⟩
  unfold tickClock
  rw [hf]
  exact e _ (by unfold tickMicro; split <;> rfl) (by unfold tickMicro; split <;> rfl)

theorem tickClock_unformatted {s : State} (hf : s.line.format = none) :
    (tickClock s).clock.ticks = s.clock.ticks ∧ (tickClock s).clock.tickPhase = s.clock.tickPhase := by
  have e : tickClock s = { s with clock := tickMicro s.clock } := by unfold tickClock; rw [hf]; rfl
  rw [e]
  unfold tickMicro
  split <;> exact ⟨rfl, rfl⟩

/-- The microsecond timer moves with every cycle (R182). -/
theorem tickClock_micro (s : State) : (tickClock s).clock.us = (tickMicro s.clock).us ∧
    (tickClock s).clock.usPhase = (tickMicro s.clock).usPhase := by
  have e : ∀ c : Clock, (tickSample s.line.format c).us = c.us ∧ (tickSample s.line.format c).usPhase = c.usPhase := by
    intro c
    unfold tickSample
    split
    · split <;> exact ⟨rfl, rfl⟩
    · exact ⟨rfl, rfl⟩
  exact e _

/-- At a sample tick LRX is sampled, by the receiver's state (R147 to R149, R152, R153, R156). -/
theorem sampleTick_step {s : State} {f : LineFormat} (h : SampleTick s f) :
    step s = .next (queueDue (sampleLine (tickClock s) f)) ∧ (tickClock s).clock.ticks = s.clock.ticks + 1 := by
  obtain ⟨hp, hq, ht, hf, hd⟩ := h
  have k := (tickClock_ticks hf hd).1
  refine ⟨?_, k⟩
  unfold step
  rw [hp]
  show Host.Outcome.next (idleCycle s) = _
  unfold idleCycle
  rw [if_neg ht, hq]
  dsimp only
  unfold sampleIfTick
  rw [show (tickClock s).line.format = some f from hf]
  simp only
  rw [if_neg (by omega)]

theorem sampleLine_pending {s : State} {f : LineFormat} (h : SampleTick s f) : (sampleLine (tickClock s) f).pending = [] := h.1

theorem sampleLine_due {s : State} {f : LineFormat} (h : SampleTick s f) : (sampleLine (tickClock s) f).clock.due = [] :=
  (tickClock_due s).trans h.2.1

/-- The commands that the sampling of LRX makes due. -/
def fromSampling : Instr → Bool
  | .receiverArmed => true
  | .startBitVote _ => true
  | .characterReceived _ => true
  | .lowWatchReturn => true
  | .breakLengthReached => true
  | .lineReset _ => true
  | _ => false

theorem mem_dueSampled {s : State} {c : Instr} (h : c ∈ dueSampled s) : fromSampling c = true := by
  unfold dueSampled at h
  simp only at h
  split at h <;> simp only [List.mem_append, mem_dueIf, List.not_mem_nil] at h
  · obtain ⟨_, rfl⟩ := h; rfl
  · obtain ⟨_, rfl⟩ := h; rfl
  · obtain ⟨_, rfl⟩ := h; rfl
  · rcases h with ⟨_, rfl⟩ | ⟨_, rfl⟩ <;> rfl
  · obtain ⟨_, rfl⟩ := h; rfl

theorem mem_dueCollision {s : State} {c : Instr} (h : c ∈ dueCollision s) : ∃ f k, c = .collision f k := by
  unfold dueCollision at h
  split at h
  · exact ⟨_, _, List.mem_singleton.mp h⟩
  · rw [mem_dueIf] at h; exact ⟨_, _, h.2⟩
  · cases h

theorem mem_dueQuiet {s : State} {c : Instr} (h : c ∈ dueQuiet s) : ∃ r, c = .quietIntervalExpiry r := by
  unfold dueQuiet at h
  obtain ⟨r, _, e⟩ := List.mem_map.mp h
  exact ⟨r, e.symm⟩

/-- A command of the sampling is due exactly when the sampling makes it due. -/
theorem mem_dueNow_sampled (s : State) {c : Instr} (h : fromSampling c = true) : c ∈ dueNow s ↔ c ∈ dueSampled s := by
  have hq : c ∉ dueQuiet s := fun k => by obtain ⟨r, rfl⟩ := mem_dueQuiet k; cases h
  have hc : c ∉ dueCollision s := fun k => by obtain ⟨f, n, rfl⟩ := mem_dueCollision k; cases h
  unfold dueNow dueLine dueOwn
  simp only [List.mem_append, mem_dueIf, hq, hc]
  cases c <;> first | (cases h; done) | simp

theorem mem_dueNow_gap (s : State) : Instr.gap ∈ dueNow s ↔ dueGap s = true := by
  have hq : Instr.gap ∉ dueQuiet s := fun k => by obtain ⟨r, e⟩ := mem_dueQuiet k; cases e
  have hc : Instr.gap ∉ dueCollision s := fun k => by obtain ⟨f, n, e⟩ := mem_dueCollision k; cases e
  have hs : Instr.gap ∉ dueSampled s := fun k => by cases mem_dueSampled k
  unfold dueNow dueLine dueOwn
  simp only [List.mem_append, mem_dueIf, hq, hc, hs]
  simp

theorem mem_dueNow_collision (s : State) (f : EchoFault) (k : Byte) :
    Instr.collision f k ∈ dueNow s ↔ Instr.collision f k ∈ dueCollision s := by
  have hq : Instr.collision f k ∉ dueQuiet s := fun h => by obtain ⟨r, e⟩ := mem_dueQuiet h; cases e
  have hs : Instr.collision f k ∉ dueSampled s := fun h => by cases mem_dueSampled h
  unfold dueNow dueLine dueOwn
  simp only [List.mem_append, mem_dueIf, hq, hs]
  simp

theorem mem_dueNow_sent (s : State) : Instr.frameTransmitComplete ∈ dueNow s ↔ dueSent s = true := by
  have hq : Instr.frameTransmitComplete ∉ dueQuiet s := fun k => by obtain ⟨r, e⟩ := mem_dueQuiet k; cases e
  have hc : Instr.frameTransmitComplete ∉ dueCollision s := fun k => by obtain ⟨f, n, e⟩ := mem_dueCollision k; cases e
  have hs : Instr.frameTransmitComplete ∉ dueSampled s := fun k => by cases mem_dueSampled k
  unfold dueNow dueLine dueOwn
  simp only [List.mem_append, mem_dueIf, hq, hc, hs]
  simp

/-- What a sample tick leaves of the line, and what it makes due (R145, R147 to R149, R152, R153, R156). -/
theorem sampleTick_line {s : State} {f : LineFormat} {b : Bool} {rest : List Bool} (h : SampleTick s f)
    (hl : s.line.lrx = b :: rest) :
    ∃ u : State, u = sampleLine (tickClock s) f ∧ step s = .next (queueDue u) ∧ (queueDue u).line = u.line ∧
      (∀ c, c ∈ dueOf (queueDue u) ↔ c ∈ dueNow u) ∧
      u.line = { s.line with
        sampling := { (sampleReceiver (tickClock s) f b).1 with level := b }, fault := (sampleReceiver (tickClock s) f b).2
        lrx := rest } ∧
      u.clock.ticks = s.clock.ticks + 1 ∧ u.fu = s.fu := by
  obtain ⟨e, k⟩ := sampleTick_step h
  have hb : lrxLevel (tickClock s) = b := by unfold lrxLevel; rw [show (tickClock s).line.lrx = b :: rest from hl]
  refine ⟨_, rfl, e, queueDue_line _, fun c => mem_queueDue (sampleLine_pending h) (sampleLine_due h) c, ?_, k, rfl⟩
  unfold sampleLine
  simp only [hb]
  rw [show (tickClock s).line = s.line from rfl, hl]
  rfl

/-- A microsecond count is reached at the cycle in which the timer takes its value (R182). -/
theorem usReached_iff (s : State) (q : Word) (n : Nat) :
    usReached s q n = true ↔ s.clock.usPhase = 0 ∧ (s.clock.us - q).toNat = n := by
  unfold usReached nowUs; simp

theorem bitsPassed_iff (s : State) (q n : Nat) :
    bitsPassed s q n = true ↔ ∃ f, s.line.format = some f ∧ q + n * f.samplesPerBit ≤ s.clock.ticks := by
  unfold bitsPassed nowTick; simp [Option.any_eq_true]

theorem charsPassed_iff (s : State) (q n : Nat) :
    charsPassed s q n = true ↔ ∃ f, s.line.format = some f ∧ q + n * (charBits f * f.samplesPerBit) ≤ s.clock.ticks := by
  unfold charsPassed charTicks nowTick; simp [Option.any_eq_true]

/-- What LTX reads of the state (R154, R157). -/
theorem ltx_congr {s t : State} (h1 : s.line.tx = t.line.tx) (h2 : s.line.format = t.line.format)
    (h3 : s.fu.lineBuf = t.fu.lineBuf) (h4 : s.straps = t.straps) (h5 : s.clock.ticks = t.clock.ticks)
    (h6 : s.line.txSince = t.line.txSince) (h7 : s.line.fault = t.line.fault) : ltx s = ltx t := by
  unfold ltx charsSent txTicks nowTick; rw [h1, h2, h3, h4, h5, h6, h7]

theorem votesOf_get : ∀ (l : List Bool) (k : Nat) (x y z : Bool), l[3 * k]? = some x → l[3 * k + 1]? = some y → l[3 * k + 2]? = some z →
    (votesOf l)[k]? = some (voteOf x y z) := by
  intro l
  induction l using votesOf.induct with
  | case1 a b c rest ih =>
    intro k x y z h1 h2 h3
    cases k with
    | zero => simp at h1 h2 h3; subst h1 h2 h3; simp [votesOf]
    | succ k =>
      unfold votesOf
      rw [List.getElem?_cons_succ]
      refine ih k x y z ?_ ?_ ?_
      · rw [show 3 * (k+1) = 3 * k + 1 + 1 + 1 by omega] at h1; simpa using h1
      · rw [show 3 * (k+1) + 1 = (3 * k + 1) + 1 + 1 + 1 by omega] at h2; simpa using h2
      · rw [show 3 * (k+1) + 2 = (3 * k + 2) + 1 + 1 + 1 by omega] at h3; simpa using h3
  | case2 l h =>
    intro k x y z h1 h2 h3
    exfalso
    rcases l with _ | ⟨a, _ | ⟨b, _ | ⟨c, l⟩⟩⟩
    · simp at h1
    · cases k <;> simp at h2
    · cases k with
      | zero => simp at h3
      | succ k => rw [show 3 * (k+1) + 2 = (3 * k + 2) + 1 + 1 + 1 by omega] at h3; simp at h3
    · exact h a b c l rfl

theorem voteOf_bits (x y z : Bool) : (voteOf x y z).getLsbD 0 = x ∧ (voteOf x y z).getLsbD 1 = y ∧ (voteOf x y z).getLsbD 2 = z := by
  cases x <;> cases y <;> cases z <;> decide

theorem voteOf_iff (v : Vote) (x y z : Bool) : v = voteOf x y z ↔ v.getLsbD 0 = x ∧ v.getLsbD 1 = y ∧ v.getLsbD 2 = z := by
  constructor
  · rintro rfl; exact voteOf_bits x y z
  · rintro ⟨rfl, rfl, rfl⟩
    revert v; decide

theorem voteOf_majority (x y z : Bool) : majority (voteOf x y z) = ((x && y) || (x && z) || (y && z)) := by
  cases x <;> cases y <;> cases z <;> decide

end Sys2Proof.Machine
end

