-- ==== Sys2Proof/Laws/Granted.lean ====
section
/-! SUPPORT. The host port when it is open: an access passed, granted and observed in its own step. -/

namespace Sys2Proof.Machine

theorem presentHost_open {s : State} (a : Access) (h : s.path.host = none) : presentHost s a = .next (settle s
    (present s a)) := by
  unfold presentHost; simp [h, done]

theorem open_claim {s : State} (h : HostPortOpen s) : s.cap.claim = none ∧ s.path.apply = .none ∧ s.path.snap =
    false ∧ s.path.agent = none ∧ s.cap.held = none := by
  obtain ⟨⟨hs, h1, h2, h3⟩, hn, hf⟩ := h
  obtain ⟨_, n2, n3, n4⟩ := hs hf
  have hw : hostWaits s = false := by simp [hostWaits, hn]
  refine ⟨?_, ?_, n3, n4, ?_⟩
  · cases e : s.cap.claim with
    | none => rfl
    | some c => have := h1 (by simp [e]); rw [hw] at this; cases this
  · cases e : s.path.apply with
    | none => rfl
    | keptBack => have := h2 e; rw [hw] at this; cases this
    | waiting => exact absurd e n2
  · cases e : s.cap.held with
    | none => rfl
    | some c => have := h3 (by simp [e]); simp [hn] at this

theorem complete_exec {s : State} {q : Requester} {b : Access} (h : s.path.port = .busy q b) :
    exec .memoryAccessComplete s = .next (settle s (completeAccess s)) := by
  show execMemoryAccessComplete s = _
  unfold execMemoryAccessComplete
  have : portBusy s = true := by unfold portBusy; rw [h]
  rw [this]; rfl

theorem complete_internal {s : State} {q : Requester} {b : Access} (h : s.path.port = .busy q b) (hq : q ≠ .host) :
    completeAccess s = { s with path := { s.path with port := .free } } := by
  unfold completeAccess; rw [h]; simp only; rw [if_neg hq]

/-- The completion of the access on the port, as the statements say it. -/
theorem completeAccess_eq (s : State) : completeAccess s = portFreed s := by
  unfold completeAccess portFreed
  cases hp : s.path.port with
  | free => rfl
  | busy q b =>
    simp only
    cases q with
    | host =>
      rw [if_pos rfl]
      unfold completeHost
      cases hh : s.path.host with
      | none => rfl
      | some h =>
        simp only [Option.filter_some]
        by_cases hc : h.condition = .granted
        · rw [if_pos (decide_eq_true hc), if_pos hc]
        · rw [if_neg (by simp [hc]), if_neg hc]
    | apply => rfl
    | snap => rfl
    | agent => rfl

theorem freed_exec {s : State} (h : s.path.port ≠ .free) :
    exec .memoryAccessComplete s = .next (settle s (portFreed s)) := by
  cases e : s.path.port with
  | free => exact absurd e h
  | busy q b => rw [complete_exec e, completeAccess_eq]

/-- A completion touches the memory path alone; the internal requests stand. -/
theorem portFreed_only (s : State) : portFreed s = { s with path := (portFreed s).path } := by
  unfold portFreed; split
  · rfl
  · split <;> rfl
  · rfl

theorem portFreed_path (s : State) : (portFreed s).path.port = .free ∧ (portFreed s).path.last = s.path.last ∧
    (portFreed s).path.apply = s.path.apply ∧ (portFreed s).path.snap = s.path.snap ∧
    (portFreed s).path.agent = s.path.agent := by
  unfold portFreed; split
  · rename_i e; exact ⟨e, rfl, rfl, rfl, rfl⟩
  · split <;> exact ⟨rfl, rfl, rfl, rfl, rfl⟩
  · exact ⟨rfl, rfl, rfl, rfl, rfl⟩

theorem portFreed_free {s : State} (h : s.path.port = .free) : portFreed s = s := by unfold portFreed; rw [h]

theorem portFreed_internal {s : State} {q : Requester} {b : Access} (h : s.path.port = .busy q b) (hq : q ≠ .host) :
    portFreed s = { s with path := { s.path with port := .free } } := by
  rw [← completeAccess_eq, complete_internal h hq]

/-- No host access comes to wait by a completion. -/
theorem portFreed_waits {s : State} (h : waitingHost s = none) : waitingHost (portFreed s) = none := by
  unfold portFreed; split
  · exact h
  · split
    · rfl
    · exact h
  · exact h

theorem arbitrate_host {s : State} {h : HostAccess} (hp : s.path.port = .free) (hh : s.path.host = some h) (hc :
    h.condition = .awaitingGrant)
    (hl : s.path.last ≠ .host) : arbitrate s = grantHost s h := by
  have hw : waitingHost s = some h := by unfold waitingHost; rw [hh]; simp [hc]
  unfold arbitrate; rw [hp]; simp only
  unfold grantNext; rw [hw]; simp only; rw [if_pos hl]; rfl

theorem releaseApply_kept {g : State} (h : g.path.apply = .keptBack) : releaseApply g =
    { g with path := { g.path with apply := .waiting } } := if_pos h

theorem releaseApply_other {g : State} (h : g.path.apply ≠ .keptBack) : releaseApply g = g := if_neg h

/-- The grant of a host access that no claim belongs to (R79, R161). -/
theorem grantHost_unclaimed {s : State} {h : HostAccess} (hc : s.cap.claim = none) :
    grantHost s h = observe (grantedNow s h.access) h.access := by
  unfold grantHost
  congr 1
  have e : ∀ g : State, g.cap.claim = none → grantClaim g h.access = g := fun g hg => by unfold grantClaim; rw [hg]
  by_cases ha : s.path.apply = .keptBack
  · rw [releaseApply_kept (show (takePort (hostGranted s h) .host h.access .host).path.apply = _ from ha), e _ (by exact hc)]
    unfold grantedNow
    rw [if_pos ha]; rfl
  · rw [releaseApply_other (show (takePort (hostGranted s h) .host h.access .host).path.apply ≠ _ from ha), e _ (by exact hc)]
    unfold grantedNow
    rw [if_neg ha]; rfl

theorem arbitrate_pass {s : State} (a : Access) (h : HostPortOpen s) : arbitrate (passAccess s a) = observe
    (grantedNow s a) a := by
  obtain ⟨c1, c2, c3, c4, c5⟩ := open_claim h
  obtain ⟨_, hn, hf⟩ := h
  have : grantNext (passAccess s a) = some (grantHost (passAccess s a) { access := a, condition := .awaitingGrant, result := 0#32 }) := by
    have hw : waitingHost (passAccess s a) = some { access := a, condition := .awaitingGrant, result := 0#32 } := rfl
    unfold grantNext
    rw [hw]
    simp only
    split
    · rfl
    · have : grantInternal (passAccess s a) = none := by
        simp [grantInternal, passAccess, enterPart, c2, c3, c4]
      rw [this]; rfl
  have hp : (passAccess s a).path.port = .free := hf
  unfold arbitrate
  rw [hp, this]
  simp only [Option.getD_some]
  rw [grantHost_unclaimed (s := passAccess s a) c1]
  rfl

/-- What the grant of a host access is, in whichever step it comes (R161, R169). -/
theorem granted_exec {x c : Instr} {s : State} {a : Access} (h : GrantsAccess x c s a) (hx : exec c s = presentHost s a)
    (hp : present s a = passAccess s a) :
    ∃ u, exec x s = .next (settle s u) ∧ arbitrate u = observe (grantedNow s a) a := by
  rcases h with ⟨e, ho⟩ | ⟨e, _, ⟨q, b, hb, hq⟩, ⟨w, hw, hc, ha⟩, hl, hk⟩
  · subst e
    refine ⟨passAccess s a, ?_, arbitrate_pass a ho⟩
    rw [hx, presentHost_open a ho.2.1, hp]
  · subst e ha
    refine ⟨{ s with path := { s.path with port := .free } }, ?_, ?_⟩
    · rw [complete_exec hb, complete_internal hb hq]
    · rw [arbitrate_host (s := { s with path := { s.path with port := .free } }) (h := w) rfl hw hc hl,
        grantHost_unclaimed (s := { s with path := { s.path with port := .free } }) hk]
      rfl

/-- No write is held while another access is granted (R42, R160). -/
theorem grants_held {x c : Instr} {s : State} {a : Access} (h : GrantsAccess x c s a) : s.cap.held = none := by
  rcases h with ⟨_, ho⟩ | ⟨_, hs, _, ⟨w, hw, hc, _⟩, _⟩
  · exact (open_claim ho).2.2.2.2
  · cases e : s.cap.held with
    | none => rfl
    | some y =>
      have := hs.2.2.2 (by simp [e])
      rw [hw] at this
      simp [hc] at this

theorem grants_claim {x c : Instr} {s : State} {a : Access} (h : GrantsAccess x c s a) : s.cap.claim = none := by
  rcases h with ⟨_, ho⟩ | ⟨_, _, _, _, _, hk⟩
  · exact (open_claim ho).1
  · exact hk

theorem observe_id (s : State) {a : Access} (g : State) (h : Unobserved s a) (ht : g.top = s.top) (hm :
    matchAddress g a.addr = matchAddress s a.addr) : observe g a = g := by
  unfold observe
  rcases h with h | h | h
  · simp [ht, h]
  · simp [h]
  · split
    · rfl
    · split
      · rename_i i e
        rw [hm] at e
        obtain ⟨h1, h2⟩ := h i e
        have : ¬ (i = commandIndex ∧ a.lanes = 15#4) := fun ⟨x, y⟩ => h2 x y
        simp [this]; intro x; exact absurd x h1
      · rfl

theorem owned_iff (i : Nat) : hostOwned i = true ↔ i ≤ 68 ∨ i = 70 := by
  unfold hostOwned; rw [Bool.or_eq_true]; exact or_congr decide_eq_true_iff decide_eq_true_iff

theorem not_owned {i : Nat} (h1 : ¬ i ≤ 68) (h2 : i ≠ 70) : (!hostOwned i) = true := by
  cases e : hostOwned i
  · rfl
  · rcases (owned_iff i).mp e with h | h
    · exact absurd h h1
    · exact absurd h h2

theorem present_passed {s : State} {a : Access} (h : PassedByTable s a) : present s a = passAccess s a := by
  unfold PassedByTable at h
  unfold present
  have hb : ∀ i, (a.write = true → i ≤ 68 ∨ i = 70) → presentBlock s a i = passAccess s a := by
    intro i h
    unfold presentBlock
    rw [if_neg]
    intro ⟨hw, hn⟩
    rw [(owned_iff i).mpr (h hw)] at hn; cases hn
  cases e1 : s.top <;> cases e2 : matchAddress s a.addr <;> simp only [e1, e2] at h <;> simp only
  · exact hb _ h
  · exact hb _ h
  · unfold presentRegion
    cases e3 : (descAt s _).role <;> simp only [e3] at h <;> simp only
    · split
      · rename_i hw; simp [presentCapture, h hw]
      · rfl
    · rw [if_neg (fun ⟨x, y⟩ => by rw [h.1 x] at y; cases y), presentFenced, if_neg h.2]

theorem block_addr (s : State) {i : Nat} (h : i < 172) : matchAddress s (BitVec.ofNat 24
    (65536 * s.straps.cba.toNat + 4 * i)) = .block i := by
  have := s.straps.cba.isLt
  have e : (BitVec.ofNat 24 (65536 * s.straps.cba.toNat + 4 * i)).toNat = 65536 * s.straps.cba.toNat + 4 * i := by
    rw [BitVec.toNat_ofNat, Nat.mod_eq_of_lt]; omega
  unfold matchAddress wordAddress blockBase Config.blockWords
  simp only [e]
  rw [if_pos (by omega)]
  congr 1; omega

theorem blockWrite_eq (s : State) (i : Nat) (l : Lanes) (d : Word) : blockWrite s i l d = cbWrite s i l d := by
  unfold blockWrite cbWrite blockAddress blockBase; rw [Nat.mul_comm]

theorem present_owned {s : State} {i : Nat} {l : Lanes} {d : Word} (hi : i ≤ 68 ∨ i = 70) : present s
    (cbWrite s i l d) = passAccess s (cbWrite s i l d) := by
  apply present_passed
  unfold PassedByTable
  have : matchAddress s (cbWrite s i l d).addr = .block i := block_addr s (by omega)
  rw [this]
  cases s.top <;> simp [hi]

/-- A write to a host-owned word of the control block, granted (R164). -/
theorem owned_granted {x c : Instr} {s : State} {i : Nat} {l : Lanes} {d : Word} (h : GrantsAccess x c s (cbWrite s i l d))
    (hx : exec c s = presentHost s (cbWrite s i l d)) (hi : i ≤ 68 ∨ i = 70) :
    ∃ t, exec x s = .next t ∧ unmarked t = unmarked (observe (grantedNow s (cbWrite s i l d)) (cbWrite s i l d)) := by
  obtain ⟨u, e, k⟩ := granted_exec h hx (present_owned hi)
  exact ⟨_, e, by rw [unmarked_settle, k]⟩

end Sys2Proof.Machine
end

