-- ==== Sys2Proof/Laws/Captured.lean ====
section
/-! SUPPORT. The capture unit: a region record replaced, a captured or held write, a close, and the releases of a chain. -/

namespace Sys2Proof.Machine

theorem updPub_eq {s : State} {r : RegionId} {p : PubRecord} (f : PubRecord → PubRecord) (h : pubAt s r = some p) :
    updPub s r f = setRegion s r { desc := descAt s r, record := .published (f p) } := by unfold updPub; rw [h]

theorem updPub_congr {s : State} {r : RegionId} {p : PubRecord} {f g : PubRecord → PubRecord} (h : pubAt s r =
    some p) (e : f p = g p) :
    updPub s r f = updPub s r g := by rw [updPub_eq f h, updPub_eq g h, e]

theorem quiet_serves {s : State} {r : RegionId} (h : PortServes s) : PortServes (dueClose s r) := by
  apply serves_congr _ h
  unfold dueClose
  split
  · rfl
  · unfold closeOrPend closeBatch
    repeat' split
    all_goals first | rfl | exact updPub_path _ _ _

theorem observe_region {s : State} (g : State) {a : Access} {r : RegionId} {o : Nat} (hm : matchAddress s a.addr =
    .region r o)
    (hg : g.straps = s.straps) : observe g a = g := by
  unfold observe
  split
  · rfl
  · have : ∀ i, matchAddress g a.addr ≠ .block i := by
      intro i hi
      unfold matchAddress at hm hi
      simp only at hm
      simp only [hg] at hi
      split at hm
      · cases hm
      · rename_i hn
        rw [if_neg hn] at hi
        split at hi <;> cases hi
    split
    · rename_i i e; exact absurd e (this i)
    · rfl

theorem cap_eta {s : State} (h1 : s.cap.claim = none) (h2 : s.cap.held = none) :
    ({ sendQueue := s.cap.sendQueue, claim := none, held := none } : Capture) = s.cap := by
  cases e : s.cap; simp_all

theorem closeBatch_straps (s : State) (r : RegionId) : (closeBatch s r).straps = s.straps :=
    (closeBatch_keeps s r).straps

theorem arbitrate_claim {s : State} {a : Access} {r : RegionId} {o : Nat} (h : HostPortOpen s) (w : Byte) (d :
    CaptureDecision)
    (hm : matchAddress s a.addr = .region r o) :
    arbitrate (captureClaim (passAccess s a) r w d) = grantCaptured { grantedNow s a with cap := { s.cap with claim := some { region := r, offset := w, decision := d, deferred := false } } } { region := r, offset := w, decision := d, deferred := false } a := by
  obtain ⟨c1, c2, c3, c4, c5⟩ := open_claim h
  obtain ⟨_, hn, hf⟩ := h
  let H : HostAccess := { access := a, condition := .awaitingGrant, result := 0#32 }
  have hw : waitingHost (captureClaim (passAccess s a) r w d) = some H := rfl
  have : grantNext (captureClaim (passAccess s a) r w d) = some (grantHost (captureClaim (passAccess s a) r w d) H) := by
    unfold grantNext
    rw [hw]
    simp only
    split
    · rfl
    · have : grantInternal (captureClaim (passAccess s a) r w d) = none := by
        simp [grantInternal, captureClaim, setHostCondition, passAccess, enterPart, c2, c3, c4]
      rw [this]; rfl
  have hp : (captureClaim (passAccess s a) r w d).path.port = .free := hf
  unfold arbitrate
  rw [hp, this]
  simp only [Option.getD_some]
  unfold grantHost
  have e1 : ∀ g : State, g.path.apply = .none → releaseApply g = g := fun g hg => by unfold releaseApply; rw [if_neg (by rw [hg]; simp)]
  have E1 := e1 (takePort (hostGranted (captureClaim (passAccess s a) r w d) H) .host a .host) c2
  have E2 : takePort (hostGranted (captureClaim (passAccess s a) r w d) H) .host a .host = { grantedNow s a with cap := { s.cap with claim := some { region := r, offset := w, decision := d, deferred := false } } } := by
    unfold takePort hostGranted captureClaim setHostCondition passAccess enterPart grantedNow
    simp only [c2, c5, reduceCtorEq, if_false]
    rfl
  show observe (grantClaim (releaseApply (takePort (hostGranted (captureClaim (passAccess s a) r w d) H) .host a .host)) a) a = _
  rw [E1, E2]
  rw [observe_region _ hm]
  · rfl
  · unfold grantClaim
    simp only
    exact (grantCaptured_rest _ _ a rfl).straps

/-- The decision of a host write to a LIVE published region, whatever the memory port is doing (R29). -/
theorem written_exec {s : State} {a : Access} {r : RegionId} {o : Nat} {p : PubRecord} (hn : s.path.host = none)
    (ht : s.top = .running) (hw : a.write = true) (hm : matchAddress s a.addr = .region r o)
    (hr : (descAt s r).role = .publish) (hp : pubAt s r = some p) (hl : p.state = .live) (out : CaptureOutcome)
    (e : decideCapture (descAt s r) p (recordFree s) (BitVec.ofNat 8 o) = out) :
    exec (.hostAccess a) s = .next (settle s (applyOutcome (passAccess s a)
      { region := r, offset := BitVec.ofNat 8 o, lanes := a.lanes, data := a.data &&& laneMask a.lanes, reason := .pool,
        since := s.clock.us } out)) := by
  show presentHost s a = _
  rw [presentHost_open a hn]
  congr 2
  unfold present
  simp only [ht, hm, presentRegion, hr, hw, if_true]
  have : isLive s r = true := by simp [isLive, hp, hl]
  unfold presentCapture
  rw [if_pos this]
  unfold decideWrite
  have : pubAt (passAccess s a) r = some p := hp
  simp only [this]
  have : decideCapture (descAt (passAccess s a) r) p (recordFree (passAccess s a)) (byteOf o) = out := e
  rw [this]
  rfl

theorem recordFree_of_lt {s : State} (h : poolLevel s < 64) : recordFree s = true := decide_eq_true h

theorem recordFree_of_le {s : State} (h : 64 ≤ poolLevel s) : recordFree s = false := decide_eq_false
    (by unfold Config.poolSize; omega)

theorem captured_join {s : State} {a : Access} {r : RegionId} {o : Nat} {p : PubRecord} (h : CaptureMeets s a r o p)
    (d : CaptureDecision)
    (e : decideCapture (descAt s r) p (recordFree s) (BitVec.ofNat 8 o) = .captured d) :
    ∃ t, exec (.hostAccess a) s = .next t ∧ unmarked t = unmarked (
      let c : Claim := { region := r, offset := BitVec.ofNat 8 o, decision := d, deferred := false }
      let f := if d = .full then closeBatch (grantedNow s a) r else grantedNow s a
      let u := updPub f r fun p => { p with openBatch := joinedBatch c a.lanes a.data p.openBatch, quiet := if (descAt f r).quietInterval = 0 then none else some (nowUs f) }
      if (descAt u r).closeOffset = some (BitVec.ofNat 8 o) then closeOrPend u r else u) := by
  obtain ⟨ho, ht, hw, hm, hr, hp, hl⟩ := h
  refine ⟨_, written_exec ho.2.1 ht hw hm hr hp hl _ e, ?_⟩
  rw [unmarked_settle]
  show unmarked (arbitrate (captureClaim (passAccess s a) r (BitVec.ofNat 8 o) d)) = _
  rw [arbitrate_claim ho _ d hm]
  congr 1
  unfold grantCaptured fullClose joinWrite
  have : ({ grantedNow s a with cap := { s.cap with claim := none } } : State) = grantedNow s a := by
    have := (open_claim ho).1
    unfold grantedNow
    rw [← this]
  simp only [Bool.false_eq_true, or_false]
  rw [this]

theorem descAt_updPub (s : State) (r q : RegionId) (f : PubRecord → PubRecord) : descAt (updPub s r f) q =
    descAt s q := by
  unfold descAt; rw [regionAt_updPub]; split
  · unfold mapPub; split <;> rfl
  · rfl

theorem descAt_closeBatch (s : State) (r q : RegionId) : descAt (closeBatch s r) q = descAt s q := by
  unfold closeBatch
  repeat' split
  all_goals first | rfl | exact descAt_updPub _ _ _ _

theorem closeBatch_clock (s : State) (r : RegionId) : (closeBatch s r).clock = s.clock := by
  unfold closeBatch updPub
  repeat' split
  all_goals rfl

theorem hold_serves {s : State} {h : HeldWrite} {x : HoldReason} {a : Access} (k : PortServes s) (g : State) (hg :
    g.path = (passAccess s a).path) : PortServes (captureHold g h x) := by
  intro hf
  have hf : s.path.port = .free := by
    have : (captureHold g h x).path.port = g.path.port := rfl
    rw [this, hg] at hf; exact hf
  obtain ⟨n1, n2, n3, n4⟩ := k hf
  refine ⟨?_, ?_, ?_, ?_⟩
  · unfold waitingHost captureHold setHostCondition; simp only [hg]; rfl
  · show g.path.apply ≠ _; rw [hg]; exact n2
  · show g.path.snap = _; rw [hg]; exact n3
  · show g.path.agent = _; rw [hg]; exact n4

theorem closeBatch_eq {s : State} {r : RegionId} {p : PubRecord} {b : Batch} (hp : pubAt s r = some p) (hb :
    p.openBatch = some b)
    (hl : p.retained.length < 4) : closeBatch s r = setRegion { s with cap := { s.cap with sendQueue := s.cap.sendQueue ++ [(r, p.nextSeq)] } } r { desc := descAt s r, record := .published (closeRecord p b) } := by
  unfold closeBatch; rw [hp]; simp only [hb]; rw [if_pos (show p.retained.length < Config.retainedLimit from hl)]
  exact updPub_eq _ hp

theorem closeBatch_noop {s : State} {r : RegionId} (h : ∀ p b, pubAt s r = some p → p.openBatch = some b →
    ¬ p.retained.length < 4) : closeBatch s r = s := by
  unfold closeBatch
  split
  · rename_i p hp
    split
    · rename_i b hb; rw [if_neg (show ¬ p.retained.length < Config.retainedLimit from h p b hp hb)]
    · rfl
  · rfl

theorem closeBatch_pass (s : State) (a : Access) (r : RegionId) : closeBatch (passAccess s a) r =
    { closeBatch s r with path := (passAccess s a).path } := by
  by_cases h : ∃ p b, pubAt s r = some p ∧ p.openBatch = some b ∧ p.retained.length < 4
  · obtain ⟨p, b, hp, hb, hl⟩ := h
    rw [closeBatch_eq (s := passAccess s a) hp hb hl, closeBatch_eq hp hb hl]; rfl
  · rw [closeBatch_noop (s := passAccess s a) (fun p b hp hb hl => h ⟨p, b, hp, hb, hl⟩), closeBatch_noop (fun p b hp hb hl => h ⟨p, b, hp, hb, hl⟩)]
    rfl

def ahead (s : State) (r : RegionId) : Nat := (pubAt s r).elim 0 fun p => (p.retained.takeWhile (·.sent)).length

theorem takeWhile_snoc (l : List Batch) (b : Batch) (h : b.sent = false) : (l ++ [b]).takeWhile (·.sent) =
    l.takeWhile (·.sent) := by
  induction l with
  | nil => simp [h]
  | cons x l ih => simp only [List.cons_append, List.takeWhile_cons, ih]

theorem pubAt_updPub_ne {s : State} {r q : RegionId} (f : PubRecord → PubRecord) (h : q ≠ r) : pubAt
    (updPub s r f) q = pubAt s q := by
  unfold pubAt; rw [regionAt_updPub, if_neg h]

theorem ahead_closeBatch (s : State) (q r : RegionId) : ahead (closeBatch s q) r = ahead s r := by
  by_cases h : ∃ p b, pubAt s q = some p ∧ p.openBatch = some b ∧ p.retained.length < 4
  · obtain ⟨p, b, hp, hb, hl⟩ := h
    rw [closeBatch_eq hp hb hl]
    unfold ahead pubAt
    rw [regionAt_setRegion]
    by_cases e : r = q
    · subst e
      rw [if_pos rfl, regionAt_pub hp]
      simp only [Option.elim_some, closeRecord]
      rw [takeWhile_snoc _ _ rfl]
    · rw [if_neg e]; rfl
  · rw [closeBatch_noop (fun p b hp hb hl => h ⟨p, b, hp, hb, hl⟩)]

theorem ahead_reevaluate (s : State) (r : RegionId) : ahead (reevaluate s) r = ahead s r := by
  unfold reevaluate
  split
  · split
    · unfold decideWrite
      split
      · unfold applyOutcome
        split
        · rfl
        · rfl
        · show ahead (closeBatch _ _) r = _; exact ahead_closeBatch _ _ _
      · rfl
    · rfl
  · rfl

theorem releasable_ahead {s : State} {r : RegionId} (h : releasable s r = true) : ahead
    (releaseOldest s r) r < ahead s r := by
  unfold releasable at h
  split at h
  · rename_i p hp
    split at h
    · rename_i b rest hb
      simp only [Bool.and_eq_true] at h
      have hs : b.sent = true := h.1.2
      have h1 : ahead s r = (rest.takeWhile (·.sent)).length + 1 := by
        unfold ahead; rw [hp]; simp only [Option.elim_some, hb, List.takeWhile_cons, hs, if_true, List.length_cons]
      have h2 : ahead (updPub s r releaseRecord) r = (rest.takeWhile (·.sent)).length := by
        unfold ahead; rw [pubAt_updPub _ hp]; simp only [Option.elim_some, releaseRecord, hb]
      unfold releaseOldest
      simp only
      rw [ahead_reevaluate]
      split
      · split
        · show ahead (updPub s r releaseRecord) r < _; omega
        · rw [ahead_closeBatch]; omega
      · omega
    · cases h
  · cases h

theorem chain_end (n : Nat) (s : State) (r : RegionId) (h : ahead s r ≤ n) : releasable (releaseChain n s r) r =
    false := by
  induction n generalizing s with
  | zero =>
    cases e : releasable s r
    · exact e
    · have := releasable_ahead e; omega
  | succ n ih =>
    unfold releaseChain
    split
    · rename_i e; exact ih _ (by have := releasable_ahead e; omega)
    · rename_i e; simpa using e

theorem closeBatch_closed {s : State} {r : RegionId} {p : PubRecord} {b : Batch} (hp : pubAt s r = some p) (hb : p.openBatch = some b)
    (hl : p.retained.length < 4) : closeBatch s r = closedBatch s r p b := by
  rw [closeBatch_eq hp hb hl]; rfl

theorem capture_case {s : State} {r : RegionId} {p : PubRecord} {w : Byte} {d : CaptureDecision} (h : CaptureCase s r p w d) :
    decideCapture (descAt s r) p (recordFree s) w = .captured d := by
  unfold decideCapture
  cases d with
  | merge =>
    obtain ⟨b, hb, hw⟩ := h
    rw [hb]; simp only; exact if_pos hw
  | append =>
    obtain ⟨b, hb, hw, hl, hf⟩ := h
    rw [hb]; simp only; rw [if_neg (by rw [show holdsWord b _ = false from hw]; simp), if_pos hl, recordFree_of_lt hf]; rfl
  | full =>
    obtain ⟨b, hb, hw, hl, hr, hf⟩ := h
    rw [hb]; simp only
    rw [if_neg (by rw [show holdsWord b _ = false from hw]; simp), if_neg (by omega), if_pos (show p.retained.length < Config.retainedLimit from hr), recordFree_of_lt hf]; rfl
  | opening =>
    obtain ⟨hb, hf⟩ := h
    rw [hb]; simp only; rw [recordFree_of_lt hf]; rfl

theorem chain_enough (n : Nat) : ∀ (m : Nat) (s : State) (r : RegionId), ahead s r ≤ n → ahead s r ≤ m →
    releaseChain n s r = releaseChain m s r := by
  induction n with
  | zero =>
    intro m s r h _
    have : releasable s r = false := by
      cases e : releasable s r
      · rfl
      · have := releasable_ahead e; omega
    cases m with
    | zero => rfl
    | succ m => unfold releaseChain; rw [this]; rfl
  | succ n ih =>
    intro m s r h1 h2
    cases e : releasable s r with
    | false =>
      cases m with
      | zero => unfold releaseChain; rw [e]; rfl
      | succ m => unfold releaseChain; rw [e]; rfl
    | true =>
      have := releasable_ahead e
      cases m with
      | zero => omega
      | succ m =>
        unfold releaseChain; rw [e]; simp only [if_true]
        exact ih m _ r (by omega) (by omega)

theorem ahead_le (s : State) (r : RegionId) : ahead s r ≤ (pubAt s r).elim 0 fun p => p.retained.length := by
  unfold ahead
  cases pubAt s r with
  | none => exact Nat.le_refl _
  | some p => exact (List.takeWhile_sublist _).length_le

theorem releaseCheck_step {s : State} {r : RegionId} (h : releasable s r = true) :
    releaseCheck s r = releaseCheck (releaseOldest s r) r := by
  have h1 := ahead_le s r
  have h2 := ahead_le (releaseOldest s r) r
  have h3 := releasable_ahead h
  unfold releaseCheck
  generalize ((pubAt s r).elim 0 fun p => p.retained.length) = n at *
  cases n with
  | zero => omega
  | succ n =>
    rw [releaseChain, if_pos h]
    exact chain_enough _ _ _ _ (by omega) h2

theorem hold_case {s : State} {r : RegionId} {p : PubRecord} {w : Byte} {x : HoldReason} (h : HoldCase s r p w x) :
    decideCapture (descAt s r) p (recordFree s) w = .hold x := by
  unfold decideCapture
  cases x with
  | pool =>
    obtain ⟨hf, hb | ⟨b, hb, hw, hl⟩⟩ := h
    · rw [hb]; simp only; rw [recordFree_of_le hf]; rfl
    · rw [hb]; simp only; rw [if_neg (by rw [show holdsWord b _ = false from hw]; simp), if_pos hl, recordFree_of_le hf]; rfl
  | limit =>
    obtain ⟨b, hb, hw, hl, hr⟩ := h
    rw [hb]; simp only
    rw [if_neg (by rw [show holdsWord b _ = false from hw]; simp), if_neg (by omega), if_neg (by unfold Config.retainedLimit; omega)]

theorem closehold_case {s : State} {r : RegionId} {p : PubRecord} {w : Byte} {b : Batch} (hb : p.openBatch = some b)
    (hw : (b.records.any fun x => decide (x.offset = w)) = false) (hl : (descAt s r).batchLimit ≤ b.records.length)
    (hr : p.retained.length < 4) (hf : 64 ≤ poolLevel s) : decideCapture (descAt s r) p (recordFree s) w = .closeThenHold := by
  unfold decideCapture
  rw [hb]; simp only
  rw [if_neg (by rw [show holdsWord b _ = false from hw]; simp), if_neg (by omega), if_pos (show p.retained.length < Config.retainedLimit from hr), recordFree_of_le hf]
  rfl

theorem reevaluate_held {s : State} {h : HeldWrite} {p : PubRecord} (hh : s.cap.held = some h) (hp : pubAt s h.region = some p)
    (hl : p.state = .live) : reevaluate s = applyOutcome s h (decideCapture (descAt s h.region) p (recordFree s) h.offset) := by
  unfold reevaluate
  rw [hh]
  simp only
  rw [if_pos (by simp [isLive, hp, hl])]
  unfold decideWrite
  rw [hp]

theorem close_closed {s : State} {r : RegionId} {p : PubRecord} {b : Batch} (hp : pubAt s r = some p) (hb : p.openBatch = some b)
    (hl : p.retained.length < 4) : closeOrPend s r = closedBatch s r p b := by
  unfold closeOrPend; rw [hp]; simp only [hb, Option.isNone_some, Bool.false_eq_true, if_false]
  rw [if_pos (show p.retained.length < Config.retainedLimit from hl), closeBatch_eq hp hb hl]; rfl

end Sys2Proof.Machine
end

