-- ==== Sys2Proof/Laws/State.lean ====
section
/-! SUPPORT. What each plain update of the state leaves alone: one lemma for a field and an update, true by rfl. -/

namespace Sys2Proof.Machine

@[simp] theorem setRegion_pending (s : State) (r : RegionId) (x : Region) : (setRegion s r x).pending = s.pending := rfl
@[simp] theorem setRegion_top (s : State) (r : RegionId) (x : Region) : (setRegion s r x).top = s.top := rfl
@[simp] theorem setRegion_straps (s : State) (r : RegionId) (x : Region) : (setRegion s r x).straps = s.straps := rfl
@[simp] theorem setRegion_mem (s : State) (r : RegionId) (x : Region) : (setRegion s r x).mem = s.mem := rfl
@[simp] theorem setRegion_clock (s : State) (r : RegionId) (x : Region) : (setRegion s r x).clock = s.clock := rfl
@[simp] theorem setRegion_path (s : State) (r : RegionId) (x : Region) : (setRegion s r x).path = s.path := rfl
@[simp] theorem setRegion_cap (s : State) (r : RegionId) (x : Region) : (setRegion s r x).cap = s.cap := rfl
@[simp] theorem setRegion_del (s : State) (r : RegionId) (x : Region) : (setRegion s r x).del = s.del := rfl
@[simp] theorem setRegion_inb (s : State) (r : RegionId) (x : Region) : (setRegion s r x).inb = s.inb := rfl
@[simp] theorem setRegion_fu (s : State) (r : RegionId) (x : Region) : (setRegion s r x).fu = s.fu := rfl
@[simp] theorem setRegion_tc (s : State) (r : RegionId) (x : Region) : (setRegion s r x).tc = s.tc := rfl
@[simp] theorem setRegion_line (s : State) (r : RegionId) (x : Region) : (setRegion s r x).line = s.line := rfl
@[simp] theorem setRegion_params (s : State) (r : RegionId) (x : Region) : (setRegion s r x).params = s.params := rfl
@[simp] theorem setRegion_agent (s : State) (r : RegionId) (x : Region) : (setRegion s r x).agent = s.agent := rfl
@[simp] theorem useChoice_pending (s : State) : (useChoice s).pending = s.pending := rfl
@[simp] theorem useChoice_top (s : State) : (useChoice s).top = s.top := rfl
@[simp] theorem useChoice_straps (s : State) : (useChoice s).straps = s.straps := rfl
@[simp] theorem useChoice_mem (s : State) : (useChoice s).mem = s.mem := rfl
@[simp] theorem useChoice_regions (s : State) : (useChoice s).regions = s.regions := rfl
@[simp] theorem useChoice_path (s : State) : (useChoice s).path = s.path := rfl
@[simp] theorem useChoice_cap (s : State) : (useChoice s).cap = s.cap := rfl
@[simp] theorem useChoice_del (s : State) : (useChoice s).del = s.del := rfl
@[simp] theorem useChoice_inb (s : State) : (useChoice s).inb = s.inb := rfl
@[simp] theorem useChoice_fu (s : State) : (useChoice s).fu = s.fu := rfl
@[simp] theorem useChoice_tc (s : State) : (useChoice s).tc = s.tc := rfl
@[simp] theorem useChoice_line (s : State) : (useChoice s).line = s.line := rfl
@[simp] theorem useChoice_params (s : State) : (useChoice s).params = s.params := rfl
@[simp] theorem useChoice_agent (s : State) : (useChoice s).agent = s.agent := rfl
@[simp] theorem setHostCondition_pending (s : State) (c : HostCondition) : (setHostCondition s c).pending = s.pending := rfl
@[simp] theorem setHostCondition_top (s : State) (c : HostCondition) : (setHostCondition s c).top = s.top := rfl
@[simp] theorem setHostCondition_straps (s : State) (c : HostCondition) : (setHostCondition s c).straps = s.straps := rfl
@[simp] theorem setHostCondition_mem (s : State) (c : HostCondition) : (setHostCondition s c).mem = s.mem := rfl
@[simp] theorem setHostCondition_clock (s : State) (c : HostCondition) : (setHostCondition s c).clock = s.clock := rfl
@[simp] theorem setHostCondition_regions (s : State) (c : HostCondition) : (setHostCondition s c).regions = s.regions := rfl
@[simp] theorem setHostCondition_cap (s : State) (c : HostCondition) : (setHostCondition s c).cap = s.cap := rfl
@[simp] theorem setHostCondition_del (s : State) (c : HostCondition) : (setHostCondition s c).del = s.del := rfl
@[simp] theorem setHostCondition_inb (s : State) (c : HostCondition) : (setHostCondition s c).inb = s.inb := rfl
@[simp] theorem setHostCondition_fu (s : State) (c : HostCondition) : (setHostCondition s c).fu = s.fu := rfl
@[simp] theorem setHostCondition_tc (s : State) (c : HostCondition) : (setHostCondition s c).tc = s.tc := rfl
@[simp] theorem setHostCondition_line (s : State) (c : HostCondition) : (setHostCondition s c).line = s.line := rfl
@[simp] theorem setHostCondition_params (s : State) (c : HostCondition) : (setHostCondition s c).params = s.params := rfl
@[simp] theorem setHostCondition_agent (s : State) (c : HostCondition) : (setHostCondition s c).agent = s.agent := rfl
@[simp] theorem reachResult_pending (s : State) (r : ResultCode) : (reachResult s r).pending = s.pending := rfl
@[simp] theorem reachResult_top (s : State) (r : ResultCode) : (reachResult s r).top = s.top := rfl
@[simp] theorem reachResult_straps (s : State) (r : ResultCode) : (reachResult s r).straps = s.straps := rfl
@[simp] theorem reachResult_mem (s : State) (r : ResultCode) : (reachResult s r).mem = s.mem := rfl
@[simp] theorem reachResult_clock (s : State) (r : ResultCode) : (reachResult s r).clock = s.clock := rfl
@[simp] theorem reachResult_regions (s : State) (r : ResultCode) : (reachResult s r).regions = s.regions := rfl
@[simp] theorem reachResult_path (s : State) (r : ResultCode) : (reachResult s r).path = s.path := rfl
@[simp] theorem reachResult_cap (s : State) (r : ResultCode) : (reachResult s r).cap = s.cap := rfl
@[simp] theorem reachResult_del (s : State) (r : ResultCode) : (reachResult s r).del = s.del := rfl
@[simp] theorem reachResult_inb (s : State) (r : ResultCode) : (reachResult s r).inb = s.inb := rfl
@[simp] theorem reachResult_fu (s : State) (r : ResultCode) : (reachResult s r).fu = s.fu := rfl
@[simp] theorem reachResult_tc (s : State) (r : ResultCode) : (reachResult s r).tc = s.tc := rfl
@[simp] theorem reachResult_line (s : State) (r : ResultCode) : (reachResult s r).line = s.line := rfl
@[simp] theorem reachResult_params (s : State) (r : ResultCode) : (reachResult s r).params = s.params := rfl
@[simp] theorem beginCommand_pending (s : State) (code tag : Byte) : (beginCommand s code tag).pending = s.pending := rfl
@[simp] theorem beginCommand_top (s : State) (code tag : Byte) : (beginCommand s code tag).top = s.top := rfl
@[simp] theorem beginCommand_straps (s : State) (code tag : Byte) : (beginCommand s code tag).straps = s.straps := rfl
@[simp] theorem beginCommand_mem (s : State) (code tag : Byte) : (beginCommand s code tag).mem = s.mem := rfl
@[simp] theorem beginCommand_clock (s : State) (code tag : Byte) : (beginCommand s code tag).clock = s.clock := rfl
@[simp] theorem beginCommand_regions (s : State) (code tag : Byte) : (beginCommand s code tag).regions = s.regions := rfl
@[simp] theorem beginCommand_path (s : State) (code tag : Byte) : (beginCommand s code tag).path = s.path := rfl
@[simp] theorem beginCommand_cap (s : State) (code tag : Byte) : (beginCommand s code tag).cap = s.cap := rfl
@[simp] theorem beginCommand_del (s : State) (code tag : Byte) : (beginCommand s code tag).del = s.del := rfl
@[simp] theorem beginCommand_inb (s : State) (code tag : Byte) : (beginCommand s code tag).inb = s.inb := rfl
@[simp] theorem beginCommand_fu (s : State) (code tag : Byte) : (beginCommand s code tag).fu = s.fu := rfl
@[simp] theorem beginCommand_tc (s : State) (code tag : Byte) : (beginCommand s code tag).tc = s.tc := rfl
@[simp] theorem beginCommand_line (s : State) (code tag : Byte) : (beginCommand s code tag).line = s.line := rfl
@[simp] theorem beginCommand_params (s : State) (code tag : Byte) : (beginCommand s code tag).params = s.params := rfl
@[simp] theorem deferClose_pending (s : State) : (deferClose s).pending = s.pending := rfl
@[simp] theorem deferClose_top (s : State) : (deferClose s).top = s.top := rfl
@[simp] theorem deferClose_straps (s : State) : (deferClose s).straps = s.straps := rfl
@[simp] theorem deferClose_mem (s : State) : (deferClose s).mem = s.mem := rfl
@[simp] theorem deferClose_clock (s : State) : (deferClose s).clock = s.clock := rfl
@[simp] theorem deferClose_regions (s : State) : (deferClose s).regions = s.regions := rfl
@[simp] theorem deferClose_path (s : State) : (deferClose s).path = s.path := rfl
@[simp] theorem deferClose_del (s : State) : (deferClose s).del = s.del := rfl
@[simp] theorem deferClose_inb (s : State) : (deferClose s).inb = s.inb := rfl
@[simp] theorem deferClose_fu (s : State) : (deferClose s).fu = s.fu := rfl
@[simp] theorem deferClose_tc (s : State) : (deferClose s).tc = s.tc := rfl
@[simp] theorem deferClose_line (s : State) : (deferClose s).line = s.line := rfl
@[simp] theorem deferClose_params (s : State) : (deferClose s).params = s.params := rfl
@[simp] theorem deferClose_agent (s : State) : (deferClose s).agent = s.agent := rfl
@[simp] theorem releaseHeld_pending (s : State) : (releaseHeld s).pending = s.pending := rfl
@[simp] theorem releaseHeld_top (s : State) : (releaseHeld s).top = s.top := rfl
@[simp] theorem releaseHeld_straps (s : State) : (releaseHeld s).straps = s.straps := rfl
@[simp] theorem releaseHeld_mem (s : State) : (releaseHeld s).mem = s.mem := rfl
@[simp] theorem releaseHeld_clock (s : State) : (releaseHeld s).clock = s.clock := rfl
@[simp] theorem releaseHeld_regions (s : State) : (releaseHeld s).regions = s.regions := rfl
@[simp] theorem releaseHeld_del (s : State) : (releaseHeld s).del = s.del := rfl
@[simp] theorem releaseHeld_inb (s : State) : (releaseHeld s).inb = s.inb := rfl
@[simp] theorem releaseHeld_fu (s : State) : (releaseHeld s).fu = s.fu := rfl
@[simp] theorem releaseHeld_tc (s : State) : (releaseHeld s).tc = s.tc := rfl
@[simp] theorem releaseHeld_line (s : State) : (releaseHeld s).line = s.line := rfl
@[simp] theorem releaseHeld_params (s : State) : (releaseHeld s).params = s.params := rfl
@[simp] theorem releaseHeld_agent (s : State) : (releaseHeld s).agent = s.agent := rfl
@[simp] theorem setTx_pending (s : State) (x : LineTx) : (setTx s x).pending = s.pending := rfl
@[simp] theorem setTx_top (s : State) (x : LineTx) : (setTx s x).top = s.top := rfl
@[simp] theorem setTx_straps (s : State) (x : LineTx) : (setTx s x).straps = s.straps := rfl
@[simp] theorem setTx_mem (s : State) (x : LineTx) : (setTx s x).mem = s.mem := rfl
@[simp] theorem setTx_clock (s : State) (x : LineTx) : (setTx s x).clock = s.clock := rfl
@[simp] theorem setTx_regions (s : State) (x : LineTx) : (setTx s x).regions = s.regions := rfl
@[simp] theorem setTx_path (s : State) (x : LineTx) : (setTx s x).path = s.path := rfl
@[simp] theorem setTx_cap (s : State) (x : LineTx) : (setTx s x).cap = s.cap := rfl
@[simp] theorem setTx_del (s : State) (x : LineTx) : (setTx s x).del = s.del := rfl
@[simp] theorem setTx_inb (s : State) (x : LineTx) : (setTx s x).inb = s.inb := rfl
@[simp] theorem setTx_fu (s : State) (x : LineTx) : (setTx s x).fu = s.fu := rfl
@[simp] theorem setTx_tc (s : State) (x : LineTx) : (setTx s x).tc = s.tc := rfl
@[simp] theorem setTx_params (s : State) (x : LineTx) : (setTx s x).params = s.params := rfl
@[simp] theorem setTx_agent (s : State) (x : LineTx) : (setTx s x).agent = s.agent := rfl
@[simp] theorem setLineRx_pending (s : State) (x : LineRx) : (setLineRx s x).pending = s.pending := rfl
@[simp] theorem setLineRx_top (s : State) (x : LineRx) : (setLineRx s x).top = s.top := rfl
@[simp] theorem setLineRx_straps (s : State) (x : LineRx) : (setLineRx s x).straps = s.straps := rfl
@[simp] theorem setLineRx_mem (s : State) (x : LineRx) : (setLineRx s x).mem = s.mem := rfl
@[simp] theorem setLineRx_clock (s : State) (x : LineRx) : (setLineRx s x).clock = s.clock := rfl
@[simp] theorem setLineRx_regions (s : State) (x : LineRx) : (setLineRx s x).regions = s.regions := rfl
@[simp] theorem setLineRx_path (s : State) (x : LineRx) : (setLineRx s x).path = s.path := rfl
@[simp] theorem setLineRx_cap (s : State) (x : LineRx) : (setLineRx s x).cap = s.cap := rfl
@[simp] theorem setLineRx_del (s : State) (x : LineRx) : (setLineRx s x).del = s.del := rfl
@[simp] theorem setLineRx_inb (s : State) (x : LineRx) : (setLineRx s x).inb = s.inb := rfl
@[simp] theorem setLineRx_fu (s : State) (x : LineRx) : (setLineRx s x).fu = s.fu := rfl
@[simp] theorem setLineRx_tc (s : State) (x : LineRx) : (setLineRx s x).tc = s.tc := rfl
@[simp] theorem setLineRx_params (s : State) (x : LineRx) : (setLineRx s x).params = s.params := rfl
@[simp] theorem setLineRx_agent (s : State) (x : LineRx) : (setLineRx s x).agent = s.agent := rfl
@[simp] theorem setRx_pending (s : State) (x : FrameRx) : (setRx s x).pending = s.pending := rfl
@[simp] theorem setRx_top (s : State) (x : FrameRx) : (setRx s x).top = s.top := rfl
@[simp] theorem setRx_straps (s : State) (x : FrameRx) : (setRx s x).straps = s.straps := rfl
@[simp] theorem setRx_mem (s : State) (x : FrameRx) : (setRx s x).mem = s.mem := rfl
@[simp] theorem setRx_clock (s : State) (x : FrameRx) : (setRx s x).clock = s.clock := rfl
@[simp] theorem setRx_regions (s : State) (x : FrameRx) : (setRx s x).regions = s.regions := rfl
@[simp] theorem setRx_path (s : State) (x : FrameRx) : (setRx s x).path = s.path := rfl
@[simp] theorem setRx_cap (s : State) (x : FrameRx) : (setRx s x).cap = s.cap := rfl
@[simp] theorem setRx_del (s : State) (x : FrameRx) : (setRx s x).del = s.del := rfl
@[simp] theorem setRx_inb (s : State) (x : FrameRx) : (setRx s x).inb = s.inb := rfl
@[simp] theorem setRx_tc (s : State) (x : FrameRx) : (setRx s x).tc = s.tc := rfl
@[simp] theorem setRx_line (s : State) (x : FrameRx) : (setRx s x).line = s.line := rfl
@[simp] theorem setRx_params (s : State) (x : FrameRx) : (setRx s x).params = s.params := rfl
@[simp] theorem setRx_agent (s : State) (x : FrameRx) : (setRx s x).agent = s.agent := rfl
@[simp] theorem setMember_pending (s : State) (m : MemberState) : (setMember s m).pending = s.pending := rfl
@[simp] theorem setMember_top (s : State) (m : MemberState) : (setMember s m).top = s.top := rfl
@[simp] theorem setMember_straps (s : State) (m : MemberState) : (setMember s m).straps = s.straps := rfl
@[simp] theorem setMember_mem (s : State) (m : MemberState) : (setMember s m).mem = s.mem := rfl
@[simp] theorem setMember_clock (s : State) (m : MemberState) : (setMember s m).clock = s.clock := rfl
@[simp] theorem setMember_regions (s : State) (m : MemberState) : (setMember s m).regions = s.regions := rfl
@[simp] theorem setMember_path (s : State) (m : MemberState) : (setMember s m).path = s.path := rfl
@[simp] theorem setMember_cap (s : State) (m : MemberState) : (setMember s m).cap = s.cap := rfl
@[simp] theorem setMember_del (s : State) (m : MemberState) : (setMember s m).del = s.del := rfl
@[simp] theorem setMember_inb (s : State) (m : MemberState) : (setMember s m).inb = s.inb := rfl
@[simp] theorem setMember_fu (s : State) (m : MemberState) : (setMember s m).fu = s.fu := rfl
@[simp] theorem setMember_line (s : State) (m : MemberState) : (setMember s m).line = s.line := rfl
@[simp] theorem setMember_params (s : State) (m : MemberState) : (setMember s m).params = s.params := rfl
@[simp] theorem setMember_agent (s : State) (m : MemberState) : (setMember s m).agent = s.agent := rfl
@[simp] theorem setMiss_pending (s : State) (st : StationId) (n : Nat) : (setMiss s st n).pending = s.pending := rfl
@[simp] theorem setMiss_top (s : State) (st : StationId) (n : Nat) : (setMiss s st n).top = s.top := rfl
@[simp] theorem setMiss_straps (s : State) (st : StationId) (n : Nat) : (setMiss s st n).straps = s.straps := rfl
@[simp] theorem setMiss_mem (s : State) (st : StationId) (n : Nat) : (setMiss s st n).mem = s.mem := rfl
@[simp] theorem setMiss_clock (s : State) (st : StationId) (n : Nat) : (setMiss s st n).clock = s.clock := rfl
@[simp] theorem setMiss_regions (s : State) (st : StationId) (n : Nat) : (setMiss s st n).regions = s.regions := rfl
@[simp] theorem setMiss_path (s : State) (st : StationId) (n : Nat) : (setMiss s st n).path = s.path := rfl
@[simp] theorem setMiss_cap (s : State) (st : StationId) (n : Nat) : (setMiss s st n).cap = s.cap := rfl
@[simp] theorem setMiss_del (s : State) (st : StationId) (n : Nat) : (setMiss s st n).del = s.del := rfl
@[simp] theorem setMiss_inb (s : State) (st : StationId) (n : Nat) : (setMiss s st n).inb = s.inb := rfl
@[simp] theorem setMiss_fu (s : State) (st : StationId) (n : Nat) : (setMiss s st n).fu = s.fu := rfl
@[simp] theorem setMiss_line (s : State) (st : StationId) (n : Nat) : (setMiss s st n).line = s.line := rfl
@[simp] theorem setMiss_params (s : State) (st : StationId) (n : Nat) : (setMiss s st n).params = s.params := rfl
@[simp] theorem setMiss_agent (s : State) (st : StationId) (n : Nat) : (setMiss s st n).agent = s.agent := rfl
@[simp] theorem stage_pending (s : State) (x : Slot) : (stage s x).pending = s.pending := rfl
@[simp] theorem stage_top (s : State) (x : Slot) : (stage s x).top = s.top := rfl
@[simp] theorem stage_straps (s : State) (x : Slot) : (stage s x).straps = s.straps := rfl
@[simp] theorem stage_mem (s : State) (x : Slot) : (stage s x).mem = s.mem := rfl
@[simp] theorem stage_clock (s : State) (x : Slot) : (stage s x).clock = s.clock := rfl
@[simp] theorem stage_regions (s : State) (x : Slot) : (stage s x).regions = s.regions := rfl
@[simp] theorem stage_path (s : State) (x : Slot) : (stage s x).path = s.path := rfl
@[simp] theorem stage_cap (s : State) (x : Slot) : (stage s x).cap = s.cap := rfl
@[simp] theorem stage_del (s : State) (x : Slot) : (stage s x).del = s.del := rfl
@[simp] theorem stage_fu (s : State) (x : Slot) : (stage s x).fu = s.fu := rfl
@[simp] theorem stage_tc (s : State) (x : Slot) : (stage s x).tc = s.tc := rfl
@[simp] theorem stage_line (s : State) (x : Slot) : (stage s x).line = s.line := rfl
@[simp] theorem stage_params (s : State) (x : Slot) : (stage s x).params = s.params := rfl
@[simp] theorem stage_agent (s : State) (x : Slot) : (stage s x).agent = s.agent := rfl
@[simp] theorem enterPart_pending (s : State) (a : Access) (c : HostCondition) : (enterPart s a c).pending = s.pending := rfl
@[simp] theorem enterPart_top (s : State) (a : Access) (c : HostCondition) : (enterPart s a c).top = s.top := rfl
@[simp] theorem enterPart_straps (s : State) (a : Access) (c : HostCondition) : (enterPart s a c).straps = s.straps := rfl
@[simp] theorem enterPart_mem (s : State) (a : Access) (c : HostCondition) : (enterPart s a c).mem = s.mem := rfl
@[simp] theorem enterPart_clock (s : State) (a : Access) (c : HostCondition) : (enterPart s a c).clock = s.clock := rfl
@[simp] theorem enterPart_regions (s : State) (a : Access) (c : HostCondition) : (enterPart s a c).regions = s.regions := rfl
@[simp] theorem enterPart_cap (s : State) (a : Access) (c : HostCondition) : (enterPart s a c).cap = s.cap := rfl
@[simp] theorem enterPart_del (s : State) (a : Access) (c : HostCondition) : (enterPart s a c).del = s.del := rfl
@[simp] theorem enterPart_inb (s : State) (a : Access) (c : HostCondition) : (enterPart s a c).inb = s.inb := rfl
@[simp] theorem enterPart_fu (s : State) (a : Access) (c : HostCondition) : (enterPart s a c).fu = s.fu := rfl
@[simp] theorem enterPart_tc (s : State) (a : Access) (c : HostCondition) : (enterPart s a c).tc = s.tc := rfl
@[simp] theorem enterPart_line (s : State) (a : Access) (c : HostCondition) : (enterPart s a c).line = s.line := rfl
@[simp] theorem enterPart_params (s : State) (a : Access) (c : HostCondition) : (enterPart s a c).params = s.params := rfl
@[simp] theorem enterPart_agent (s : State) (a : Access) (c : HostCondition) : (enterPart s a c).agent = s.agent := rfl
@[simp] theorem takePort_pending (s : State) (q : Requester) (a : Access) (g : LastGrant) : (takePort s q a g).pending = s.pending := rfl
@[simp] theorem takePort_top (s : State) (q : Requester) (a : Access) (g : LastGrant) : (takePort s q a g).top = s.top := rfl
@[simp] theorem takePort_straps (s : State) (q : Requester) (a : Access) (g : LastGrant) : (takePort s q a g).straps = s.straps := rfl
@[simp] theorem takePort_clock (s : State) (q : Requester) (a : Access) (g : LastGrant) : (takePort s q a g).clock = s.clock := rfl
@[simp] theorem takePort_regions (s : State) (q : Requester) (a : Access) (g : LastGrant) : (takePort s q a g).regions = s.regions := rfl
@[simp] theorem takePort_cap (s : State) (q : Requester) (a : Access) (g : LastGrant) : (takePort s q a g).cap = s.cap := rfl
@[simp] theorem takePort_del (s : State) (q : Requester) (a : Access) (g : LastGrant) : (takePort s q a g).del = s.del := rfl
@[simp] theorem takePort_inb (s : State) (q : Requester) (a : Access) (g : LastGrant) : (takePort s q a g).inb = s.inb := rfl
@[simp] theorem takePort_fu (s : State) (q : Requester) (a : Access) (g : LastGrant) : (takePort s q a g).fu = s.fu := rfl
@[simp] theorem takePort_tc (s : State) (q : Requester) (a : Access) (g : LastGrant) : (takePort s q a g).tc = s.tc := rfl
@[simp] theorem takePort_line (s : State) (q : Requester) (a : Access) (g : LastGrant) : (takePort s q a g).line = s.line := rfl
@[simp] theorem takePort_params (s : State) (q : Requester) (a : Access) (g : LastGrant) : (takePort s q a g).params = s.params := rfl
@[simp] theorem takePort_agent (s : State) (q : Requester) (a : Access) (g : LastGrant) : (takePort s q a g).agent = s.agent := rfl

/-! ## What a plain update sets -/

@[simp] theorem setTx_tx (s : State) (x : LineTx) : (setTx s x).line.tx = x := rfl
@[simp] theorem setTx_rx (s : State) (x : LineTx) : (setTx s x).line.rx = s.line.rx := rfl
@[simp] theorem setTx_format (s : State) (x : LineTx) : (setTx s x).line.format = s.line.format := rfl
@[simp] theorem setTx_txSince (s : State) (x : LineTx) : (setTx s x).line.txSince = s.clock.ticks := rfl
@[simp] theorem setTx_fault (s : State) (x : LineTx) : (setTx s x).line.fault = none := rfl
@[simp] theorem setTx_sampling (s : State) (x : LineTx) : (setTx s x).line.sampling = s.line.sampling := rfl
@[simp] theorem setTx_lrx (s : State) (x : LineTx) : (setTx s x).line.lrx = s.line.lrx := rfl
@[simp] theorem setLineRx_sampling (s : State) (x : LineRx) :
    (setLineRx s x).line.sampling = samplingAt s.line.format x s.line.sampling := rfl
@[simp] theorem setLineRx_fault (s : State) (x : LineRx) : (setLineRx s x).line.fault = s.line.fault := rfl
@[simp] theorem setLineRx_lrx (s : State) (x : LineRx) : (setLineRx s x).line.lrx = s.line.lrx := rfl
@[simp] theorem restart_level (p : Sampling) : p.restart.level = p.level := rfl
@[simp] theorem restart_ones (p : Sampling) : p.restart.ones = 0 := rfl
@[simp] theorem restart_sample (p : Sampling) : p.restart.sample = none := rfl
@[simp] theorem restart_centre (p : Sampling) : p.restart.centre = [] := rfl
@[simp] theorem samplingAt_off (f : Option LineFormat) (p : Sampling) : samplingAt f .off p = p.restart := by
  cases f <;> rfl
@[simp] theorem samplingAt_arming (f : Option LineFormat) (p : Sampling) : samplingAt f .arming p = p.restart := by
  cases f <;> rfl
@[simp] theorem samplingAt_idle (f : Option LineFormat) (p : Sampling) : samplingAt f .idle p = p.restart := by
  cases f <;> rfl
@[simp] theorem samplingAt_echo (f : Option LineFormat) (p : Sampling) : samplingAt f .echo p = p.restart := by
  cases f <;> rfl
@[simp] theorem setLineRx_rx (s : State) (x : LineRx) : (setLineRx s x).line.rx = x := rfl
@[simp] theorem setLineRx_tx (s : State) (x : LineRx) : (setLineRx s x).line.tx = s.line.tx := rfl
@[simp] theorem setLineRx_format (s : State) (x : LineRx) : (setLineRx s x).line.format = s.line.format := rfl
@[simp] theorem setRx_rx (s : State) (x : FrameRx) : (setRx s x).fu.rx = x := rfl
@[simp] theorem setMember_member (s : State) (m : MemberState) : (setMember s m).tc.member = m := rfl
@[simp] theorem setMember_roster (s : State) (m : MemberState) : (setMember s m).tc.roster = s.tc.roster := rfl
@[simp] theorem takePort_port (s : State) (q : Requester) (a : Access) (g : LastGrant) :
    (takePort s q a g).path.port = .busy q a := rfl
@[simp] theorem takePort_mem (s : State) (q : Requester) (a : Access) (g : LastGrant) :
    (takePort s q a g).mem = accessMemory s.mem a := rfl
@[simp] theorem enterPart_host (s : State) (a : Access) (c : HostCondition) :
    (enterPart s a c).path.host = some { access := a, condition := c, result := 0#32 } := rfl
@[simp] theorem setHostCondition_port (s : State) (c : HostCondition) :
    (setHostCondition s c).path.port = s.path.port := rfl
@[simp] theorem reachResult_events (s : State) (r : ResultCode) : (reachResult s r).agent.events = s.agent.events := rfl

end Sys2Proof.Machine
end

