-- ==== Sys2Proof/Laws/Commands.lean ====
section
/-! SUPPORT. Command writes and their words; updates that touch the regions alone; START, STOP, FLUSH and RESYNC. -/

namespace Sys2Proof.Machine

theorem or_add_disjoint {a b : Nat} (n : Nat) (h : b < 2 ^ n) : a * 2 ^ n ||| b = a * 2 ^ n + b := by
  rw [← Nat.shiftLeft_eq, Nat.shiftLeft_add_eq_or_of_lt h]

theorem append3_toNat (c r t : Byte) : (0#8 ++ t ++ r ++ c : BitVec 32).toNat =
    t.toNat * 65536 + r.toNat * 256 + c.toNat := by
  have h1 := c.isLt; have h2 := r.isLt; have h3 := t.isLt
  simp only [BitVec.toNat_append, BitVec.toNat_ofNat, Nat.shiftLeft_eq, Nat.zero_mod, Nat.zero_mul, Nat.zero_or]
  rw [or_add_disjoint 8 h2, or_add_disjoint 8 h1]; omega

theorem place_byte (b : Byte) (lo : Nat) : (place b.toNat lo 8).toNat = (b.toNat * 2 ^ lo) % 2 ^ 32 := by
  have := b.isLt
  unfold place
  rw [Nat.mod_eq_of_lt this, BitVec.toNat_ofNat, Nat.shiftLeft_eq]

theorem commandWord_eq (c r t : Byte) : commandWord c r t = (0#8 ++ t ++ r ++ c : BitVec 32) := by
  have h1 := c.isLt; have h2 := r.isLt; have h3 := t.isLt
  apply BitVec.eq_of_toNat_eq
  rw [append3_toNat]
  unfold commandWord
  simp only [BitVec.toNat_or, place_byte]
  rw [Nat.mod_eq_of_lt (by omega), Nat.mod_eq_of_lt (by omega), Nat.mod_eq_of_lt (by omega)]
  rw [Nat.lor_comm, Nat.lor_comm (c.toNat * 2^0), or_add_disjoint 16 (b := r.toNat * 2 ^ 8 ||| c.toNat * 2 ^ 0) (Nat.or_lt_two_pow (by omega) (by omega)), or_add_disjoint 8 (by omega)]
  omega

theorem laneByte_toNat (w : Word) (k : Nat) : (laneByte w k).toNat = w.toNat / 2 ^ (8 * k) % 256 := by
  unfold laneByte
  rw [BitVec.extractLsb'_toNat, Nat.shiftRight_eq_div_pow]

theorem laneByte_word (c r t : Byte) : commandCode (0#8 ++ t ++ r ++ c : BitVec 32) = c ∧ commandRegion
    (0#8 ++ t ++ r ++ c : BitVec 32) = r ∧ commandTag (0#8 ++ t ++ r ++ c : BitVec 32) = t := by
  have h1 := c.isLt; have h2 := r.isLt; have h3 := t.isLt
  unfold commandCode commandRegion commandTag
  refine ⟨?_, ?_, ?_⟩ <;> apply BitVec.eq_of_toNat_eq <;> rw [laneByte_toNat, append3_toNat] <;> omega

theorem commandWrite_eq (s : State) (c r t : Byte) : commandWrite s c r t = cbWrite s 68 15#4
    (0#8 ++ t ++ r ++ c) := by
  unfold commandWrite cbWrite; norm_num

theorem exec_command {c : Instr} {code region tag : Byte} (hc : commandFields c = some (code, region, tag)) (s :
    State) :
    exec c s = presentHost s (commandWrite s code region tag) := by
  have key : ∀ a b d, presentCommand a b d s = presentHost s (commandWrite s a b d) := by
    intro a b d
    unfold presentCommand
    rw [blockWrite_eq, commandWord_eq, commandWrite_eq]; rfl
  cases c <;> cases hc <;> exact key _ _ _

theorem command_exec {x c : Instr} {code region tag : Byte} (hc : commandFields c = some (code, region, tag))
    {s : State} (h : GrantsAccess x c s (commandWrite s code region tag)) :
    ∃ u, exec x s = .next (settle s u) ∧
      arbitrate u = observe (grantedNow s (commandWrite s code region tag)) (commandWrite s code region tag) :=
  granted_exec h (exec_command hc s) (by rw [commandWrite_eq]; exact present_owned (.inl (by omega)))

theorem command_granted {x c : Instr} {code region tag : Byte} (hc : commandFields c = some (code, region, tag))
    {s : State} (h : GrantsAccess x c s (commandWrite s code region tag)) :
    ∃ t, exec x s = .next t ∧
      unmarked t = unmarked (observe (grantedNow s (commandWrite s code region tag)) (commandWrite s code region tag)) := by
  obtain ⟨u, e, k⟩ := command_exec hc h
  exact ⟨_, e, by rw [unmarked_settle, k]⟩

theorem observe_command {s : State} (code region tag : Byte) (ht : s.top ≠ .inReset) :
    observe (grantedNow s (commandWrite s code region tag)) (commandWrite s code region tag) =
      observeCommand (grantedNow s (commandWrite s code region tag)) (0#8 ++ tag ++ region ++ code) := by
  have hm : matchAddress (grantedNow s (commandWrite s code region tag)) (commandWrite s code region tag).addr = .block 68 := by
    rw [commandWrite_eq]; exact block_addr s (by omega)
  unfold observe
  rw [if_neg (by simp [commandWrite, grantedNow, ht]), hm]
  simp only
  rw [if_pos ⟨rfl, rfl⟩]; rfl

theorem command_taken {x c : Instr} {code region tag : Byte} (hc : commandFields c = some (code, region, tag))
    {s : State} (h : GrantsAccess x c s (commandWrite s code region tag))
    (ht : s.top ≠ .inReset) (hx : s.agent.executing = none) :
    ∃ t, exec x s = .next t ∧ unmarked t = unmarked (decideCommand (commandTaken s code region tag none) code region) := by
  obtain ⟨t, e, k⟩ := command_granted hc h
  refine ⟨t, e, ?_⟩
  rw [k, observe_command _ _ _ ht]
  unfold observeCommand
  rw [if_neg (by show ¬ s.agent.executing.isSome = true; rw [hx]; simp)]
  obtain ⟨h1, h2, h3⟩ := laneByte_word code region tag
  rw [h1, h2, h3]; rfl

theorem argRegion_pub (s : State) (arg : Byte) : ((argRegion arg).bind fun r => (pubAt s r).map fun p => (r, p)) =
    (if h : arg.toNat < 16 then (pubAt s ⟨arg.toNat, h⟩).map fun p => (⟨arg.toNat, h⟩, p) else none) := by
  unfold argRegion regionByte; split <;> rfl

theorem updPub_only (s : State) (r : RegionId) (f : PubRecord → PubRecord) : updPub s r f =
    { s with regions := (updPub s r f).regions } := by
  unfold updPub; split <;> rfl

theorem updSub_only (s : State) (r : RegionId) (f : SubRecord → SubRecord) : updSub s r f =
    { s with regions := (updSub s r f).regions } := by
  unfold updSub; split <;> rfl

theorem foldl_only {up : State → RegionId → State} (h : ∀ s r, up s r = { s with regions := (up s r).regions }) (l :
    List RegionId) (s : State) :
    l.foldl up s = { s with regions := (l.foldl up s).regions } := by
  induction l generalizing s with
  | nil => rfl
  | cons r l ih =>
    have e := ih (up s r)
    have e2 := h s r
    rw [List.foldl_cons]
    generalize l.foldl up (up s r) = X at e ⊢
    rw [e2] at e
    exact e

theorem updAllPubs_only (s : State) (f : PubRecord → PubRecord) : updAllPubs s f =
    { s with regions := (updAllPubs s f).regions } :=
  foldl_only (fun s r => updPub_only s r f) _ s

theorem updAllSubs_only (s : State) (f : SubRecord → SubRecord) : updAllSubs s f =
    { s with regions := (updAllSubs s f).regions } :=
  foldl_only (fun s r => updSub_only s r f) _ s

theorem both_only (s : State) (f : PubRecord → PubRecord) (g : SubRecord → SubRecord) :
    updAllSubs (updAllPubs s f) g = { s with regions := (updAllSubs (updAllPubs s f) g).regions } := by
  have e1 := updAllPubs_only s f
  have e2 := updAllSubs_only (updAllPubs s f) g
  generalize updAllSubs (updAllPubs s f) g = X at e2 ⊢
  generalize updAllPubs s f = Y at e1 e2
  rw [e1] at e2
  exact e2

theorem startPart_regions (s : State) : (startPart s).regions = (startRegions s).regions := by
  unfold startPart
  generalize startRegions s = X
  simp only
  split <;> rfl

theorem startRegions_only (s : State) : startRegions s =
    { s with top := .running, regions := (startRegions s).regions } := by
  have e := both_only { s with top := .running } (startPub (isMaster s)) startSub
  unfold startRegions
  generalize updAllSubs (updAllPubs { s with top := .running } (startPub (isMaster s))) startSub = X at e ⊢
  exact e

theorem stopRegions_only (s : State) (hh : releaseHeldIfAny { s with top := .configured } =
    { s with top := .configured }) : stopRegions s =
    { s with top := .configured, regions := (stopRegions s).regions } := by
  have e := both_only { s with top := .configured } stopPub stopSub
  unfold stopRegions
  rw [hh]
  generalize updAllSubs (updAllPubs { s with top := .configured } stopPub) stopSub = X at e ⊢
  exact e

theorem stopLine_regions (s : State) : (stopLine s).regions = s.regions := by
  have h : (cutShort s).regions = s.regions := by unfold cutShort; split <;> rfl
  unfold stopLine; simp only; split <;> split <;> exact h

theorem stopPart_regions (s : State) : (stopPart s).regions = (stopRegions s).regions := by
  unfold stopPart
  generalize stopRegions s = Y
  have e : (stopLine (emptyBuffers Y)).regions = Y.regions := stopLine_regions (emptyBuffers Y)
  generalize stopLine (emptyBuffers Y) = X at e ⊢
  rw [← e]
  simp only
  split <;> rfl

/-- A receiver state that counts afresh from its entry. -/
theorem setLineRx_anew {s : State} {x : LineRx} (h : samplingAt s.line.format x s.line.sampling = s.line.sampling.restart) :
    setLineRx s x = { s with line := { s.line with rx := x, sampling := sampledAnew s } } := by
  unfold setLineRx; rw [h]; rfl

theorem setLineRx_arming (s : State) : setLineRx s .arming =
    { s with line := { s.line with rx := .arming, sampling := sampledAnew s } } := setLineRx_anew (samplingAt_arming _ _)

theorem setLineRx_idle (s : State) : setLineRx s .idle =
    { s with line := { s.line with rx := .idle, sampling := sampledAnew s } } := setLineRx_anew (samplingAt_idle _ _)

theorem setLineRx_echo (s : State) : setLineRx s .echo =
    { s with line := { s.line with rx := .echo, sampling := sampledAnew s } } := setLineRx_anew (samplingAt_echo _ _)

/-- What an end of the transmission out of turn leaves of the line's last moment (R113, R158; log 35). -/
theorem cutShort_eq (s : State) : cutShort s = { s with tc := { s.tc with lineLast :=
    if s.line.tx = .character ∨ s.line.tx = .breakLow ∨ s.line.tx = .breakHigh then s.clock.ticks else s.tc.lineLast } } := by
  unfold cutShort onTheLine
  cases e : s.line.tx <;> simp [nowTick]

theorem stopLine_eq (s : State) : stopLine s = { s with
    tc := { s.tc with lineLast :=
      if s.line.tx = .character ∨ s.line.tx = .breakLow ∨ s.line.tx = .breakHigh then s.clock.ticks else s.tc.lineLast }
    line := { s.line with
          tx := if s.line.tx = .off then .off else .idle
          txSince := if s.line.tx = .off then s.line.txSince else s.clock.ticks
          fault := if s.line.tx = .off then s.line.fault else none
          rx := if s.line.rx = .echo then .arming else s.line.rx
          sampling := if s.line.rx = .echo then sampledAnew s else s.line.sampling } } := by
  have e := cutShort_eq s
  unfold stopLine
  rw [e]
  cases s
  rename_i ln pr ag
  cases ln
  rename_i f rx tx ts no cl gf sa fa lr
  cases f <;> cases rx <;> cases tx <;> simp <;> rfl

theorem argRegion_ofNat (r : RegionId) : argRegion (BitVec.ofNat 8 r.val) = some r := by fin_cases r <;> rfl

theorem updSub_eq {s : State} {r : RegionId} {p : SubRecord} (f : SubRecord → SubRecord) (h : subAt s r = some p) :
    updSub s r f = setRegion s r { desc := descAt s r, record := .subscribed (f p) } := by unfold updSub; rw [h]

theorem reachResult_post (s : State) (e : Event) (x : ResultCode) : reachResult (post s e) x = post
    (reachResult s x) e := by
  unfold post countLost
  by_cases h : Config.pendingEvents ≤ s.agent.events.length ∨ Config.ringRoom ≤ unconsumed s
  · rw [if_pos h, if_pos (show Config.pendingEvents ≤ (reachResult s x).agent.events.length ∨ Config.ringRoom ≤ unconsumed (reachResult s x) from h)]
    show reachResult (if s.agent.lost = _ then _ else _) x = if s.agent.lost = _ then _ else _
    split <;> rfl
  · rw [if_neg h, if_neg (show ¬ (Config.pendingEvents ≤ (reachResult s x).agent.events.length ∨ Config.ringRoom ≤ unconsumed (reachResult s x)) from h)]; rfl

end Sys2Proof.Machine
end

