-- ==== Sys2Proof/Laws/Port.lean ====
section
/-! SUPPORT. The completion of a memory access, the grant that follows, and the items of an apply. -/

namespace Sys2Proof.Machine

theorem applystart_exec {s : State} {x : Slot} {rest : List Slot} (he : s.inb.engine = none) (hs : s.inb.slots =
    x :: rest) (hx : x.inProgress = false) :
    exec .applyStart s = .next (settle s (startApply s x)) := by
  show execApplyStart s = _
  unfold execApplyStart beginApply
  have : nextApply s = some x := by unfold nextApply; rw [he, hs]; simp [hx]
  rw [this]; rfl

theorem startApply_eq {s : State} {x : Slot} {rest : List Slot} {pos : Nat} {i : ApplyItem} (hs : s.inb.slots =
    x :: rest)
    (hi : seekItem (descAt s x.region).length (slotItems x) 0 = some (pos, i)) :
    startApply s x = { s with
        inb := { slots := { x with inProgress := true } :: rest, engine := some pos, fence := some x.region }
        path := { s.path with apply := if hostAwaitsRegion s x.region then .keptBack else .waiting } } := by
  unfold startApply; rw [hi, hs]; rfl

theorem nextItem_spec (len : Nat) : ∀ (items : List ApplyItem) (p k : Nat) (x : ApplyItem), nextItem len p items =
    some (k, x) →
    p ≤ k ∧ items[k - p]? = some x ∧ x.offset < len ∧ ∀ j y, j < k - p → items[j]? = some y → len ≤ y.offset := by
  intro items
  induction items with
  | nil => intro p k x h; cases h
  | cons i is ih =>
    intro p k x h
    unfold nextItem at h
    split at h
    · rename_i hl; cases h; refine ⟨Nat.le_refl _, by simp, hl, ?_⟩
      intro j y hj; omega
    · rename_i hl
      obtain ⟨h1, h2, h3, h4⟩ := ih _ _ _ h
      refine ⟨by omega, ?_, h3, ?_⟩
      · rw [show k - p = (k - (p + 1)) + 1 by omega]; simpa using h2
      · intro j y hj hy
        cases j with
        | zero => simp at hy; subst hy; omega
        | succ j => exact h4 j y (by omega) (by simpa using hy)

theorem seek_again {len : Nat} {items : List ApplyItem} {p k : Nat} {x : ApplyItem} (h : seekItem len items p = some
    (k, x)) :
    seekItem len items k = some (k, x) := by
  unfold seekItem at *
  obtain ⟨h1, h2, h3, h4⟩ := nextItem_spec _ _ _ _ _ h
  rw [List.getElem?_drop] at h2
  rw [show p + (k - p) = k by omega] at h2
  obtain ⟨hk, e⟩ := List.getElem?_eq_some_iff.mp h2
  rw [List.drop_eq_getElem_cons hk, e]
  unfold nextItem; rw [if_pos h3]

theorem wordItems_get (ws : List Word) : ∀ (o k : Nat) (w : Word), ws[k]? = some w → (wordItems o ws)[k]? = some
    { offset := o + k, lanes := 15#4, data := w } := by
  induction ws with
  | nil => intro o k w h; simp at h
  | cons v ws ih =>
    intro o k w h
    cases k with
    | zero => simp at h; subst h; simp [wordItems]
    | succ k =>
      have := ih (o + 1) k w (by simpa using h)
      unfold wordItems
      rw [List.getElem?_cons_succ, this]
      congr 2; omega

theorem arbitrate_apply {s : State} (hp : s.path.port = .free) (hw : waitingHost s = none) (ha : s.path.apply =
    .waiting) : arbitrate s = grantApplyPort s := by
  unfold arbitrate; rw [hp]; simp only
  unfold grantNext; rw [hw]; simp only
  unfold grantInternal; rw [if_pos ha]; rfl

theorem grantApply_next {g : State} {x : Slot} {k n : Nat} {i j : ApplyItem} (h : applyItem g = some (x, k, i))
    (hn : seekItem (descAt g x.region).length (slotItems x) (k + 1) = some (n, j)) :
    grantApply g = { g with inb := { g.inb with engine := some n }, path := { g.path with apply := .waiting } } := by
  unfold grantApply; rw [h]; dsimp only; rw [hn]

theorem grantApply_last {g : State} {x : Slot} {k : Nat} {i : ApplyItem} (h : applyItem g = some (x, k, i))
    (hn : seekItem (descAt g x.region).length (slotItems x) (k + 1) = none) : grantApply g = completeApply g x := by
  unfold grantApply; rw [h]; dsimp only; rw [hn]

theorem grantApplyPort_eq {g : State} {a : Access} (h : applyAccess g = a) : grantApplyPort g = grantApply
    { takePort g .apply a .internal with path := { (takePort g .apply a .internal).path with apply := .none } } := by
  unfold grantApplyPort; rw [h]

theorem releaseFenced_eq (s : State) : releaseFenced s =
    { s with path := { s.path with host := fenceReleased s.path.host } } := by
  unfold releaseFenced
  by_cases h : (s.path.host.any fun h => decide (h.condition = .fenceHeld)) = true
  · rw [if_pos h]; unfold setHostCondition fenceReleased
    cases e : s.path.host with
    | none => rfl
    | some x =>
      rw [e] at h
      simp only [Option.any_some, decide_eq_true_eq] at h
      simp only [Option.map_some, if_pos h]
  · rw [if_neg h]
    have : fenceReleased s.path.host = s.path.host := by
      unfold fenceReleased
      cases e : s.path.host with
      | none => rfl
      | some x =>
        rw [e] at h
        simp only [Option.any_some, decide_eq_true_eq] at h
        simp only [Option.map_some, if_neg h]
    rw [this]

theorem stopWaitOver_id {s : State} (h : (s.agent.executing.all fun e => decide (e.code ≠ 3)) = true) :
    stopWaitOver s = s := by
  unfold stopWaitOver
  rw [if_neg]
  cases e : s.agent.executing with
  | none => simp
  | some x => rw [e] at h; simp at h; simp [h]

theorem newer_iff (a b : Byte) : newer a b = true ↔ 1 ≤ (a - b).toNat ∧ (a - b).toNat ≤ 127 := by
  unfold newer; rw [Bool.and_eq_true]; exact and_congr decide_eq_true_iff decide_eq_true_iff

theorem atOrPast_iff (a b : Byte) : atOrPast a b = true ↔ (a - b).toNat ≤ 127 := decide_eq_true_iff

end Sys2Proof.Machine
end

