-- ==== Sys2Proof/Laws/AgentPort.lean ====
section
/-! SUPPORT. The control block agent: its choice, its grants, its marks, and the configuration checks by their fields. -/

namespace Sys2Proof.Machine

theorem lowestMark_of_isLowest (b : BitVec 38) (m : Fin 38) (h : IsLowest b m) : lowestMark b = some m := by
  unfold lowestMark allMarks
  rw [List.find?_eq_some_iff_getElem]
  refine ⟨h.1, m.val, by simp, by simp, ?_⟩
  intro j hj
  simp
  exact h.2 ⟨j, by omega⟩ hj

theorem lowestMark_zero : lowestMark 0#38 = none := by unfold lowestMark; simp

theorem arbitrate_agent {s : State} {q : AgentRequest} (h : AgentMeets s q) : arbitrate (portFreed s) = grantAgentPort
    (portFreed s) q := by
  obtain ⟨_, hw, ha, hs, hq⟩ := h
  obtain ⟨p1, _, p3, p4, p5⟩ := portFreed_path s
  unfold arbitrate
  rw [p1]
  show (grantNext (portFreed s)).getD (portFreed s) = _
  unfold grantNext
  rw [portFreed_waits hw]
  unfold grantInternal
  rw [p3, p4, p5, if_neg ha, hs, if_neg (by simp), hq]; rfl

theorem agent_exec {s : State} {q : AgentRequest} (h : AgentMeets s q) :
    exec .memoryAccessComplete s = .next (settle s (portFreed s)) ∧
      arbitrate (portFreed s) = grantAgentPort (portFreed s) q :=
  ⟨freed_exec h.1, arbitrate_agent h⟩

theorem agentAccess_freed (s : State) (q : AgentRequest) : agentAccess (portFreed s) q = agentAccess s q := by
  have e := portFreed_only s
  generalize (portFreed s).path = p at e
  rw [e]; rfl

theorem agent_write_eq (s : State) (i : Nat) (w : Word) : agentWrite s i w =
    cbWrite s i 15#4 w := blockWrite_eq s i 15#4 w

theorem grantPort_eq {s : State} {q : AgentRequest} {a : Access} (ha : agentAccess s q = a) :
    grantAgentPort (portFreed s) q = grantAgent (agentGranted s a) q (readWord s.mem (wordAddress a.addr)) := by
  unfold grantAgentPort agentGranted
  rw [agentAccess_freed, ha]
  have e := portFreed_only s
  generalize (portFreed s).path = p at e
  rw [e]; rfl

theorem agent_step {s : State} {q : AgentRequest} {a : Access} (h : AgentMeets s q) (ha : agentAccess s q = a) (G :
    State)
    (hG : unmarked (grantAgent (agentGranted s a) q (readWord s.mem (wordAddress a.addr))) = unmarked G) :
    ∃ t, exec .memoryAccessComplete s = .next t ∧ unmarked t = unmarked G := by
  obtain ⟨e, k⟩ := agent_exec h
  refine ⟨_, e, ?_⟩
  rw [unmarked_settle, k, grantPort_eq ha, hG]

/-- The marks at the end of a step: what the effect changed and what the grant changed (R180). -/
theorem marks_settle (s u : State) : (settle s u).agent.marks =
    (arbitrate u).agent.marks ||| (changedMarks s u ||| changedMarks u (arbitrate u)) := by
  unfold settle fixPrior
  split
  · split <;> rfl
  · rfl

theorem foldl_marks (P : Fin 38 → Prop) [DecidablePred P] (l : List (Fin 38)) (b : BitVec 38) (h : ∀ m, ¬ P m) :
    l.foldl (fun b m => if P m then b ||| markBit m else b) b = b := by
  induction l generalizing b with
  | nil => rfl
  | cons m l ih => rw [List.foldl_cons, if_neg (h m), ih]

theorem changed_none {s t : State} (h : ∀ m, m ≠ markConsumer → statusValue s m = statusValue t m) :
    changedMarks s t = 0#38 :=
  foldl_marks _ _ _ (fun m ⟨h1, h2⟩ => h2 (h m h1))

theorem clear_unmarked (s : State) (m : Fin 38) : unmarked (clearMark s m) = unmarked s := by
  unfold clearMark unmarked agentCore
  simp only
  congr 2
  cases s.agent.executing <;> rfl

theorem cleared_bit (b : BitVec 38) (m : Fin 38) : (b &&& ~~~ markBit m).getLsbD m.val = false := by
  unfold markBit
  simp

theorem statusValue_congr {s t : State} (h1 : t.agent.copy = s.agent.copy) (h2 : t.agent.producer =
    s.agent.producer) (h3 : t.agent.lost = s.agent.lost)
   (h4 : t.top = s.top) (h5 : t.tc = s.tc) (h6 : t.straps = s.straps) (h7 : t.agent.loadError = s.agent.loadError) (h8 : t.agent.errorIndex = s.agent.errorIndex)
   (h9 : t.regions = s.regions) (h10 : t.cap = s.cap) (m : Fin 38) : statusValue s m = statusValue t m := by
  unfold statusValue partStateWord rosterWord poolWord lastCycleNumber phaseField poolLevel isMaster regionAt
  rw [h1, h2, h3, h4, h5, h6, h7, h8, h9, h10]

/-- The marks of a step depend on the status words alone of the state it begins in (R180). -/
theorem settle_values {s w : State} (u : State) (h : ∀ m, statusValue s m = statusValue w m) : settle s u = settle w u := by
  unfold settle markStep changedMarks
  simp only [h]

/-- A completion changes no status word (R180). -/
theorem portFreed_value (s : State) (m : Fin 38) : statusValue (portFreed s) m = statusValue s m := by
  rw [portFreed_only s]; exact statusValue_congr rfl rfl rfl rfl rfl rfl rfl rfl rfl rfl m

theorem markBit_iff : ∀ n m : Fin 38, (markBit n).getLsbD m.val = true ↔ m = n := by unfold markBit; decide

theorem foldl_mark_iff (P : Fin 38 → Prop) [DecidablePred P] (l : List (Fin 38)) (b : BitVec 38) (m : Fin 38) :
    (l.foldl (fun b m => if P m then b ||| markBit m else b) b).getLsbD m.val = true ↔
      b.getLsbD m.val = true ∨ (m ∈ l ∧ P m) := by
  induction l generalizing b with
  | nil => simp
  | cons n l ih =>
    have bit := markBit_iff n m
    rw [List.foldl_cons, ih, List.mem_cons]
    by_cases h : P n
    · rw [if_pos h, BitVec.getLsbD_or, Bool.or_eq_true, bit]
      constructor
      · rintro ((k | rfl) | k)
        · exact .inl k
        · exact .inr ⟨.inl rfl, h⟩
        · exact .inr ⟨.inr k.1, k.2⟩
      · rintro (k | ⟨rfl | k, q⟩)
        · exact .inl (.inl k)
        · exact .inl (.inr rfl)
        · exact .inr ⟨k, q⟩
    · rw [if_neg h]
      constructor
      · rintro (k | k)
        · exact .inl k
        · exact .inr ⟨.inr k.1, k.2⟩
      · rintro (k | ⟨rfl | k, q⟩)
        · exact .inl k
        · exact absurd q h
        · exact .inr ⟨k, q⟩

/-- The marks of a moment are those of the words that it changes (R180). -/
theorem changedMarks_iff (s t : State) (m : Fin 38) : (changedMarks s t).getLsbD m.val = true ↔
    m ≠ markConsumer ∧ statusValue t m ≠ statusValue s m := by
  unfold changedMarks
  rw [foldl_mark_iff]
  exact ⟨fun h => by
    rcases h with h | ⟨_, h1, h2⟩
    · simp at h
    · exact ⟨h1, h2.symm⟩, fun h => .inr ⟨List.mem_finRange m, h.1, h.2.symm⟩⟩

theorem statusValue_settle (s u : State) (m : Fin 38) : statusValue (settle s u) m = statusValue (arbitrate u) m := by
  refine (statusValue_congr ?_ ?_ ?_ ?_ ?_ ?_ ?_ ?_ ?_ ?_ m).symm <;> (unfold settle fixPrior; split <;> [split <;> rfl; rfl])

/-- A mark that the taken command sets stands at the step's end (R180). -/
theorem command_marks {x c : Instr} {code region tag : Byte} (hc : commandFields c = some (code, region, tag)) {s t : State}
    (h : GrantsAccess x c s (commandWrite s code region tag)) (ht : s.top ≠ .inReset) (hx : s.agent.executing = none)
    (he : exec x s = .next t) {m : Nat}
    (hm : (decideCommand (commandTaken s code region tag none) code region).agent.marks.getLsbD m = true) :
    t.agent.marks.getLsbD m = true := by
  obtain ⟨u, e, k⟩ := command_exec hc h
  rw [e] at he
  cases he
  replace k : arbitrate u = decideCommand (commandTaken s code region tag none) code region := by
    rw [k, observe_command _ _ _ ht]
    unfold observeCommand
    rw [if_neg (by show ¬ s.agent.executing.isSome = true; rw [hx]; simp)]
    obtain ⟨h1, h2, h3⟩ := laneByte_word code region tag
    rw [h1, h2, h3]; rfl
  rw [marks_settle, k]
  simp [hm]

/-- A word that a step's effect or its grant changes is marked at the step's end (R180). -/
theorem marked_settle {s u : State} {m : Fin 38} (hm : m ≠ markConsumer)
    (h : statusValue u m ≠ statusValue s m ∨ statusValue (settle s u) m ≠ statusValue u m) :
    (settle s u).agent.marks.getLsbD m.val = true := by
  rw [statusValue_settle] at h
  rw [marks_settle]
  have mem : ∀ {x y : State}, statusValue y m ≠ statusValue x m → (changedMarks x y).getLsbD m.val = true :=
    fun hne => (changedMarks_iff _ _ m).mpr ⟨hm, hne⟩
  rcases h with h | h <;> simp [mem h]

theorem foldl_setRegion (f : RegionId → Region) (l : List RegionId) (s : State) (q : RegionId) :
    regionAt (l.foldl (fun t r => setRegion t r (f r)) s) q = if q ∈ l then f q else regionAt s q := by
  induction l generalizing s with
  | nil => simp
  | cons r l ih =>
    rw [List.foldl_cons, ih, regionAt_setRegion]
    by_cases h : q ∈ l
    · simp [h]
    · by_cases e : q = r
      · subst e; simp
      · simp [h, e]

theorem loadTable_at (s : State) (q : RegionId) : regionAt (loadTable s) q = loadedRegion
    (descriptorOf s.agent.loadWords q.val) := by
  unfold loadTable
  rw [foldl_setRegion (fun r => loadedRegion (descriptorOf s.agent.loadWords r.val))]
  simp [mem_allIds]

theorem loadTable_only (s : State) : loadTable s = { s with regions := (loadTable s).regions } :=
  foldl_only (up := fun t r => setRegion t r (loadedRegion (descriptorOf s.agent.loadWords r.val))) (fun _ _ => rfl) allIds s

theorem loadedRegion_eq (d : Descriptor) : loadedRegion d = regionLoaded d := rfl

theorem loadCheck_ok {s : State} (h : checkConfig s.straps.stn s.straps.cba s.agent.loadWords = none) : loadCheck s =
    loadSucceeds s := by
  unfold loadCheck; rw [h]

theorem loadCheck_bad {s : State} {e : LoadError} {i : Fin 16} (h :
    checkConfig s.straps.stn s.straps.cba s.agent.loadWords = some (e, i)) : loadCheck s = loadFails s e i := by
  unfold loadCheck; rw [h]

theorem failIf_none {b : Bool} {e : LoadError} : failIf b e = none ↔ b = false := by cases b <;> simp [failIf]

theorem orElse_none {α : Type} (a b : Option α) : ((a <|> b) = none) ↔ a = none ∧ b = none := by cases a <;> simp

theorem firstFailing_none (c : Nat → Option LoadError) : firstFailing c = none ↔ ∀ i : Fin 16, c i.val = none := by
  unfold firstFailing
  rw [List.findSome?_eq_none_iff]
  constructor
  · intro h i; have := h i (mem_allIds i); simpa using this
  · intro h i _; rw [h i]; rfl

theorem bits_eq (w : Word) (lo n : Nat) : bits w lo n = w.toNat / 2 ^ lo % 2 ^ n := by
  unfold bits; rw [BitVec.extractLsb'_toNat, Nat.shiftRight_eq_div_pow]

theorem runs_false (a la b lb : Nat) : runsOverlap a la b lb = false ↔ a + la ≤ b ∨ b + lb ≤ a := by
  unfold runsOverlap
  rw [Bool.and_eq_false_iff, decide_eq_false_iff_not, decide_eq_false_iff_not]; omega



theorem bits_field (ws : List Word) (i lo n : Nat) : bits (configWord ws i) lo n = wordField ws i lo n := bits_eq _ _ _

theorem role_field (ws : List Word) (i : Nat) : roleCode ws i = wordField ws (5 + 4 * i) 9 2 := by
  unfold roleCode descWord; rw [bits_field]; congr 1; omega

theorem desc_base (ws : List Word) (i : Nat) : (descriptorOf ws i).base.toNat = wordField ws (4 + 4 * i) 0 24 := by
  show ((descWord ws i 0).extractLsb' 0 24).toNat = _
  exact bits_eq (descWord ws i 0) 0 24

theorem desc_len (ws : List Word) (i : Nat) : (descriptorOf ws i).length = wordField ws (5 + 4 * i) 0 9 := by
  show bits (descWord ws i 1) 0 9 = _
  unfold descWord; rw [bits_field]; congr 1; omega

theorem desc_role (ws : List Word) (i : Nat) : (descriptorOf ws i).role = (match wordField ws
    (5 + 4 * i) 9 2 with | 1 => .publish | 2 => .subscribe | _ => .off) := by
  rw [← role_field]; rfl

theorem field_lt (ws : List Word) (i lo n : Nat) : wordField ws i lo n < 2 ^ n := Nat.mod_lt _ (Nat.two_pow_pos n)

theorem placement_iff (ws : List Word) (i : Nat) :
    ((failIf (!(decide (1 ≤ (descriptorOf ws i).length) && decide ((descriptorOf ws i).length ≤ 256))) .badLength <|>
      failIf (!(decide ((descriptorOf ws i).base.toNat % 4 = 0) &&
      decide ((descriptorOf ws i).base.toNat + 4 * (descriptorOf ws i).length - 1 ≤ Config.highestAddress))) .badPlacement) = none) ↔
    (1 ≤ wordField ws (5 + 4 * i) 0 9 ∧ wordField ws (5 + 4 * i) 0 9 ≤ 256 ∧ wordField ws (4 + 4 * i) 0 24 % 4 = 0 ∧
      wordField ws (4 + 4 * i) 0 24 + 4 * wordField ws (5 + 4 * i) 0 9 - 1 ≤ 0xFFFFFF) := by
  rw [orElse_none, failIf_none, failIf_none, desc_len, desc_base, Bool.not_eq_false', Bool.not_eq_false', Bool.and_eq_true, Bool.and_eq_true]
  simp only [decide_eq_true_eq]
  unfold Config.highestAddress
  constructor
  · rintro ⟨⟨a, b⟩, c, d⟩; exact ⟨a, b, c, d⟩
  · rintro ⟨a, b, c, d⟩; exact ⟨⟨a, b⟩, c, d⟩

theorem pub_subs (ws : List Word) (i : Nat) (s : StationId) : member s (descriptorOf ws i).subscribers = (ws.getD
    (6 + 4 * i) 0#32).getLsbD s.val := by
  show ((descWord ws i 2).extractLsb' 0 16).getLsbD s.val = _
  rw [BitVec.getLsbD_extractLsb']
  have := s.isLt
  have h : descWord ws i 2 = ws.getD (6 + 4 * i) 0#32 := by unfold descWord configWord; congr 1; omega
  rw [h]; simp [this]

theorem fin_lemma (n : Nat) (h : n < 16) (s : StationId) : (Fin.ofNat 16 n = s) ↔ n = s.val := by
  rw [Fin.ext_iff]; show n % 16 = _ ↔ _; rw [Nat.mod_eq_of_lt h]

theorem descriptor_iff (stn : StationId) (ws : List Word) (i : Nat) : checkDescriptor stn ws i = none ↔
    (wordField ws (5 + 4 * i) 9 2 ≠ 3) ∧
    (wordField ws (5 + 4 * i) 9 2 ≠ 0 → 1 ≤ wordField ws (5 + 4 * i) 0 9 ∧ wordField ws (5 + 4 * i) 0 9 ≤ 256 ∧ wordField ws (4 + 4 * i) 0 24 % 4 = 0 ∧
      wordField ws (4 + 4 * i) 0 24 + 4 * wordField ws (5 + 4 * i) 0 9 - 1 ≤ 0xFFFFFF) ∧
    (wordField ws (5 + 4 * i) 9 2 = 1 →
      (ws.getD (6 + 4 * i) 0#32).getLsbD 15 = false ∧ (ws.getD (6 + 4 * i) 0#32).getLsbD stn.val = false ∧
      (wordField ws (6 + 4 * i) 24 1 = 1 → wordField ws (6 + 4 * i) 16 8 < wordField ws (5 + 4 * i) 0 9) ∧
      (1 ≤ wordField ws (5 + 4 * i) 17 5 ∧ wordField ws (5 + 4 * i) 17 5 ≤ 16) ∧ 1 ≤ wordField ws (7 + 4 * i) 16 12) ∧
    (wordField ws (5 + 4 * i) 9 2 = 2 →
      wordField ws (5 + 4 * i) 13 4 ≠ 15 ∧ wordField ws (5 + 4 * i) 13 4 ≠ stn.val ∧ wordField ws (5 + 4 * i) 11 2 < 2) := by
  have hpl := placement_iff ws i
  have hlt : wordField ws (5 + 4 * i) 9 2 < 4 := field_lt _ _ _ _
  unfold checkDescriptor
  rw [role_field]
  simp only
  generalize hr : wordField ws (5 + 4 * i) 9 2 = r at *
  have hr4 : r = 0 ∨ r = 1 ∨ r = 2 ∨ r = 3 := by omega
  rcases hr4 with rfl | rfl | rfl | rfl
  · simp
  · simp only [orElse_none]
    rw [← orElse_none, hpl]
    simp only [failIf_none]
    rw [show member 15 (descriptorOf ws i).subscribers = _ from pub_subs ws i 15, pub_subs]
    have hc : ((descriptorOf ws i).closeOffset.any fun c => !decide (c.toNat < (descriptorOf ws i).length)) = false ↔ (wordField ws (6 + 4 * i) 24 1 = 1 → wordField ws (6 + 4 * i) 16 8 < wordField ws (5 + 4 * i) 0 9) := by
      rw [desc_len]
      have h2 : descWord ws i 2 = configWord ws (6 + 4 * i) := by unfold descWord; congr 1; omega
      show (Option.any _ (if bits (descWord ws i 2) 24 1 = 1 then some ((descWord ws i 2).extractLsb' 16 8) else none)) = false ↔ _
      rw [h2, bits_field]
      have h3 : ((configWord ws (6 + 4 * i)).extractLsb' 16 8).toNat = wordField ws (6 + 4 * i) 16 8 := bits_eq _ 16 8
      split
      · rename_i h; simp only [Option.any_some, h3, h]; simp
      · rename_i h; simp [h]
    rw [hc]
    have hb : (descriptorOf ws i).batchLimit = wordField ws (5 + 4 * i) 17 5 := by
      show bits (descWord ws i 1) 17 5 = _
      unfold descWord; rw [bits_field]; congr 1; omega
    have hh : (descriptorOf ws i).holdLimit = wordField ws (7 + 4 * i) 16 12 := by
      show bits (descWord ws i 3) 16 12 = _
      unfold descWord; rw [bits_field]; congr 1; omega
    rw [hb, hh]
    have := field_lt ws (7 + 4 * i) 16 12
    have h15 : (15 : StationId).val = 15 := rfl
    simp only [Bool.or_eq_false_iff, Bool.not_eq_false', Bool.and_eq_true, decide_eq_true_eq, h15]
    constructor
    · rintro ⟨a, ⟨b1, b2⟩, c, d, e⟩
      exact ⟨by omega, fun _ => a, fun _ => ⟨b1, b2, c, d, e.1⟩, fun h => by omega⟩
    · rintro ⟨_, a, b, _⟩
      obtain ⟨b1, b2, c, d, e⟩ := b trivial
      exact ⟨a (by omega), ⟨b1, b2⟩, c, d, e, by omega⟩
  · simp only [orElse_none]
    rw [← orElse_none, hpl]
    simp only [failIf_none]
    have h1 : ∀ s : StationId, ((descriptorOf ws i).publisher = s) ↔ wordField ws (5 + 4 * i) 13 4 = s.val := by
      intro s
      have h2 : bits (descWord ws i 1) 13 4 = wordField ws (5 + 4 * i) 13 4 := by unfold descWord; rw [bits_field]; congr 1; omega
      show (Fin.ofNat 16 (bits (descWord ws i 1) 13 4) = s) ↔ _
      rw [h2]; exact fin_lemma _ (field_lt _ _ _ 4) _
    have h2 : bits (descWord ws i 1) 11 2 = wordField ws (5 + 4 * i) 11 2 := by unfold descWord; rw [bits_field]; congr 1; omega
    simp only [h1, h2, Bool.or_eq_false_iff, decide_eq_false_iff_not]
    constructor
    · rintro ⟨a, ⟨b, c⟩, d⟩
      exact ⟨by omega, fun _ => a, fun h => by omega, fun _ => ⟨b, c, by omega⟩⟩
    · rintro ⟨_, a, _, b⟩
      obtain ⟨b, c, d⟩ := b trivial
      exact ⟨a (by omega), ⟨b, c⟩, by omega⟩
  · simp

theorem role_off (ws : List Word) (i : Nat) : (descriptorOf ws i).role = .off ↔ (wordField ws (5 + 4 * i) 9 2 ≠ 1 ∧
    wordField ws (5 + 4 * i) 9 2 ≠ 2) := by
  rw [desc_role]
  split <;> simp_all

theorem overlap_iff (cba : Byte) (ws : List Word) (i : Nat) : checkOverlap cba ws i = none ↔
    ((wordField ws (5 + 4 * i) 9 2 = 1 ∨ wordField ws (5 + 4 * i) 9 2 = 2) →
      (wordField ws (4 + 4 * i) 0 24 + 4 * wordField ws (5 + 4 * i) 0 9 ≤ 65536 * cba.toNat ∨ 65536 * cba.toNat + 688 ≤ wordField ws (4 + 4 * i) 0 24) ∧
      ∀ j, j < i → (wordField ws (5 + 4 * j) 9 2 = 1 ∨ wordField ws (5 + 4 * j) 9 2 = 2) →
        wordField ws (4 + 4 * i) 0 24 + 4 * wordField ws (5 + 4 * i) 0 9 ≤ wordField ws (4 + 4 * j) 0 24 ∨ wordField ws (4 + 4 * j) 0 24 + 4 * wordField ws (5 + 4 * j) 0 9 ≤ wordField ws (4 + 4 * i) 0 24) := by
  unfold checkOverlap
  simp only
  split
  · rename_i h; rw [role_off] at h; simp [h]
  · rename_i h
    rw [role_off] at h
    rw [failIf_none, Bool.or_eq_false_iff, runs_false, List.any_eq_false]
    rw [desc_base, desc_len]
    unfold blockBase Config.blockWords
    simp only [List.mem_range, Bool.and_eq_true, not_and, Bool.not_eq_true, runs_false, decide_eq_true_eq, desc_base, desc_len, ne_eq, role_off]
    rw [Nat.mul_comm cba.toNat]
    constructor
    · rintro ⟨a, b⟩ _
      exact ⟨a, fun j hj hr => b j hj (by omega)⟩
    · intro k
      obtain ⟨a, b⟩ := k (by omega)
      exact ⟨a, fun j hj hr => b j hj (by by_contra hc; exact hr (fun x => hc (.inl x)) (fun x => hc (.inr x)))⟩

end Sys2Proof.Machine
end

