-- ==== Sys2Proof/Laws/Turned.lean ====
section
/-! SUPPORT. Turns: the pump, the pass and the discard, the watch, aborts, the receiver in ECHO, and the posting of an event. -/

namespace Sys2Proof.Machine

theorem when_eq {s t : State} {b : Bool} (h : b = true) : when s b t = .next (settle s t) := by subst h; rfl

theorem pump_id {s : State} (h1 : s.del.turn = none) (h2 : s.fu.assembly = .empty) : pump s = s := by
  have hh : handover s = s := by unfold handover; rw [h2]
  have hc : choose s = s := by unfold choose; rw [h1]
  unfold pump; rw [hh, hc, hh, hc]

theorem withdrawChunk_id {s : State} (r : RegionId) (h2 : s.fu.assembly = .empty) : withdrawChunk s r =
    s := by unfold withdrawChunk; rw [h2]

theorem setPub_pub {s : State} {r : RegionId} (p : PubRecord) : pubAt (withPub s r p) r = some p := by
  unfold withPub pubAt; rw [regionAt_setRegion, if_pos rfl]

theorem withPub_desc (s : State) (r q : RegionId) (p : PubRecord) : descAt (withPub s r p) q = descAt s q := by
  unfold descAt withPub; rw [regionAt_setRegion]; split
  · rename_i h; subst h; rfl
  · rfl

theorem regions_set_set (v : Vector Region 16) (i : Nat) (h : i < 16) (a b : Region) : (v.set i a h).set i b h =
    v.set i b h := by
  apply Vector.ext; intro j hj; rw [Vector.getElem_set, Vector.getElem_set, Vector.getElem_set]; split <;> rfl

theorem updPub_withPub (s : State) (r : RegionId) (p : PubRecord) (f : PubRecord → PubRecord) : updPub
    (withPub s r p) r f = withPub s r (f p) := by
  rw [updPub_eq _ (setPub_pub p), withPub_desc]
  unfold withPub setRegion; simp only; rw [regions_set_set]

theorem withPub_self {s : State} {r : RegionId} {p : PubRecord} (h : pubAt s r = some p) : withPub s r p = s := by
  have e := regionAt_pub h
  unfold withPub setRegion
  have h3 : s.regions.set r.val { desc := descAt s r, record := .published p } r.isLt = s.regions := by
    have h4 : ({ desc := descAt s r, record := .published p } : Region) = s.regions.get r := by
      show _ = regionAt s r
      unfold descAt; rw [← e]
    rw [h4]
    apply Vector.ext
    intro j hj
    rw [Vector.getElem_set]
    split
    · rename_i e; subst e; rfl
    · rfl
  rw [h3]

theorem updPub_with {s : State} {r : RegionId} {p : PubRecord} (f : PubRecord → PubRecord) (h : pubAt s r = some p) :
    updPub s r f = withPub s r (f p) := updPub_eq f h

theorem abandonPass_eq {s : State} {r : RegionId} {p : PubRecord} (h : pubAt s r = some p) (h2 : s.fu.assembly =
    .empty) :
    abandonPass s r = withPub s r { p with pass := none } := by
  unfold abandonPass
  rw [h]
  simp only [Option.any_some]
  split
  · rw [updPub_with _ h]; exact withdrawChunk_id r h2
  · rename_i hn
    have : p.pass = none := by simpa using hn
    have e : ({ p with pass := none } : PubRecord) = p := by rw [← this]
    rw [e, withPub_self h]

theorem claimOf_congr {s t : State} (r : RegionId) (h : t.cap = s.cap) : claimOf t r =
    claimOf s r := by unfold claimOf; rw [h]

theorem discard_withPub {s : State} {r : RegionId} (p : PubRecord) (hc : claimOf s r = false) :
    Machine.discard (withPub s r p) r = { withPub s r (discardRecord p) with cap := { s.cap with sendQueue := s.cap.sendQueue.filter fun e => decide (e.1 ≠ r) } } := by
  unfold Machine.discard
  rw [updPub_withPub]
  simp only
  have : claimOf (withPub s r (discardRecord p)) r = false := hc
  rw [this]
  rfl

theorem withPub_withPub (s : State) (r : RegionId) (x y : PubRecord) : withPub (withPub s r x) r y = withPub s r y := by
  rw [← updPub_with (s := withPub s r x) (fun _ => y) (setPub_pub x), updPub_withPub]

theorem updPub_capd (s : State) (r : RegionId) (p : PubRecord) (f : PubRecord → PubRecord) (c : Capture) :
   updPub { withPub s r p with cap := c } r f = { withPub s r (f p) with cap := c } := by
  rw [updPub_eq (s := { withPub s r p with cap := c }) (p := p) f (setPub_pub p)]
  have : descAt { withPub s r p with cap := c } r = descAt s r := withPub_desc s r r p
  rw [this]
  unfold withPub setRegion; simp only; rw [regions_set_set]

theorem clearRoster_eq (s : State) : clearRoster s =
    { s with tc := { s.tc with lost := .expired, roster := 0 } } := rfl

theorem leaveRoster_eq (s : State) : leaveRoster s = unsyncNotEnrolled (suspendAll
    { s with tc := { s.tc with member := .listening } }) := rfl

theorem endWatch_miss (s : State) (w : Watch) : endWatch s w false = masterNext
    { s with tc := afterMiss s.tc s.params w } := by
  unfold endWatch afterMiss
  simp only
  by_cases hp : w.probe = true
  · rw [if_pos hp, if_pos hp]; rfl
  · rw [if_neg hp, if_neg hp]
    congr 1
    unfold scorePoll missOf
    simp only [Bool.false_eq_true, if_false]
    show advancePoll (if s.params.missLimit ≤ s.tc.misses.get w.station + 1 then _ else _) = _
    by_cases hm : s.params.missLimit ≤ s.tc.misses.get w.station + 1
    · rw [if_pos hm, if_pos hm]; rfl
    · rw [if_neg hm, if_neg hm]; rfl

theorem openTurn_eq (s : State) (k : TurnKind) (b : Nat) (c : Byte) : openTurn s k b c =
    pump { (updAllPubs s fun p => { p with endGuard := false }) with del := { s.del with
      ownTurn := s.del.ownTurn + 1, turnList := [], kept := none
      turn := some { kind := k, budget := b, cycle := c, yieldHanded := false, pollEnd := s.tc.lineLast } } } := by
  unfold openTurn
  have e := updAllPubs_only s fun p => { p with endGuard := false }
  generalize updAllPubs s (fun p => { p with endGuard := false }) = X at e ⊢
  have e4 : X.del = s.del := by rw [e]
  have e5 : X.tc = s.tc := by rw [e]
  rw [← e4, ← e5]

theorem turns_nochange {t : Turns} (h1 : t.removals = 0) (h2 : t.additions = 0) :
    ({ t with removals := 0#16, additions := 0#16 } : Turns) = t := by
  cases t; simp only at h1 h2; subst h1; subst h2; rfl

theorem applyRosterChanges_none {s : State} (h1 : s.tc.removals = 0) (h2 : s.tc.additions = 0) :
    applyRosterChanges s = s := by
  unfold applyRosterChanges
  have e : members (0 : StationSet) = [] := by decide
  rw [h1, h2, e]
  simp only [List.foldl_nil]
  rw [turns_nochange h1 h2]
  exact if_pos trivial

theorem fixPollList_eq (s : State) : fixPollList s = { s with tc := { s.tc with
    pollList := (members s.tc.roster).filter fun i => decide (i ≠ 0)
    pollPos := if ((members s.tc.roster).filter fun i => decide (i ≠ 0)) = [] then none else some 0 } } := by
  unfold fixPollList
  simp only [List.isEmpty_iff]

theorem setBackPasses_only (s : State) : setBackPasses s = { s with regions := (setBackPasses s).regions } :=
  foldl_only (up := fun t r => updPub t r (setBackRecord s.del.turnList r)) (fun t r => updPub_only t r _) allIds s

theorem setBackPasses_cap (s : State) (c : Capture) : setBackPasses { s with cap := c } =
    { setBackPasses s with cap := c } := by
  have h : ∀ (l : List RegionId) (t : State), l.foldl (fun t r => updPub t r (setBackRecord s.del.turnList r)) { t with cap := c } = { l.foldl (fun t r => updPub t r (setBackRecord s.del.turnList r)) t with cap := c } := by
    intro l
    induction l with
    | nil => intro t; rfl
    | cons r l ih =>
      intro t
      rw [List.foldl_cons, List.foldl_cons, ← ih]
      congr 1
      unfold updPub
      show (match pubAt t r with | some p => _ | none => _) = _
      cases pubAt t r <;> rfl
  exact h allIds s

theorem abortMemberTurn_eq (s : State) : abortMemberTurn s = memberAborted s := by
  unfold abortMemberTurn abortTurn
  unfold returnBatches
  rw [setBackPasses_cap]
  have e := setBackPasses_only s
  unfold memberAborted turnAborted
  generalize (setBackPasses s).regions = R at e
  rw [e]
  rfl

theorem cutTransmission_eq (s : State) : cutTransmission s =
    { s with line := { s.line with
        tx := .idle, txSince := s.clock.ticks, fault := none, rx := if s.line.rx = .echo then .arming else s.line.rx
        sampling := if s.line.rx = .echo then sampledAnew s else s.line.sampling } } := by
  unfold cutTransmission
  simp only
  by_cases h : s.line.rx = .echo
  · rw [if_pos (show (setTx s .idle).line.rx = .echo from h), if_pos h, if_pos h, setLineRx_arming]; rfl
  · rw [if_neg (show ¬ (setTx s .idle).line.rx = .echo from h), if_neg h, if_neg h]; rfl

theorem serves_snap {s t : State} (hs : PortServes s) (h : t.path = { s.path with snap := false }) :
    PortServes t := by
  intro hf
  rw [h] at hf
  obtain ⟨n1, n2, n3, n4⟩ := hs hf
  refine ⟨?_, ?_, ?_, ?_⟩
  · unfold waitingHost; rw [h]; exact n1
  · rw [h]; exact n2
  · rw [h]
  · rw [h]; exact n4

def postAgent (us : Word) (a : Agent) (e : Event) : Agent :=
  if Config.pendingEvents ≤ a.events.length ∨ Config.ringRoom ≤ (a.producer - a.consumer).toNat then
    (if a.lost = 0xFFFF#16 then a else { a with lost := a.lost + 1 })
  else { a with events := a.events ++ [{ e with stamp := us }] }

theorem post_eq (s : State) (e : Event) : post s e = { s with agent := postAgent s.clock.us s.agent e } := by
  unfold post postAgent unconsumed countLost
  split
  · split <;> rfl
  · rfl

/-- An event with none posted together before it is posted as any other (R183). -/
theorem postAmong_alone {n : Nat} {s : State} (e : Event) (h : s.agent.events.length ≤ n) : postAmong n s e = post s e := by
  unfold postAmong
  exact if_pos (Or.inl (Nat.sub_eq_zero_of_le h))

/-- All that the posting of an event among `m` others does (R183; log 25): its place is the free one. -/
theorem postAmong_placed {n m : Nat} {s : State} (e : Event) (hm : s.agent.events.length = n + m) (h0 : m ≠ 0)
    (hr : unconsumed s < Config.ringRoom) :
    let k := n + (Config.eventPlace s.clock.choices m).val
    let l := s.agent.events.take k ++ { e with stamp := s.clock.us } :: s.agent.events.drop k
    postAmong n s e = { s with
      clock := { s.clock with choices := s.clock.choices + 1 }
      agent := { s.agent with
        events := l.take 8
        lost := if 8 ≤ n + m ∧ s.agent.lost ≠ 65535#16 then s.agent.lost + 1 else s.agent.lost } } := by
  obtain rfl : m = s.agent.events.length - n := by omega
  intro k l
  unfold postAmong
  dsimp only
  rw [if_neg (by omega), ← hm]
  by_cases hl : 8 ≤ s.agent.events.length
  · rw [if_pos (show Config.pendingEvents ≤ _ from hl)]
    unfold countLost
    by_cases hx : s.agent.lost = 65535#16
    · rw [if_pos hx, if_neg (fun h => h.2 hx)]; rfl
    · rw [if_neg hx, if_pos ⟨hl, hx⟩]; rfl
  · rw [if_neg (show ¬ Config.pendingEvents ≤ _ from hl), if_neg (fun h => hl h.1)]; rfl

theorem post_split (s : State) (e : Event) : ∃ a, post s e = { s with agent := a } := ⟨_, post_eq s e⟩

theorem post_tc (s : State) (x : Turns) (e : Event) : post { s with tc := x } e = { post s e with tc := x } := by
  rw [post_eq, post_eq]

/-- The entry to ECHO, from whatever state the receiver is in (R154). -/
theorem enterEcho_eq (s : State) : enterEcho s = echoEntered s := by
  unfold enterEcho echoEntered
  cases hx : s.line.rx with
  | lowWatch z =>
    simp only
    unfold postHeldFraming
    cases hh : s.fu.heldFraming with
    | none => exact setLineRx_echo s
    | some e =>
      simp only
      unfold postRunning
      by_cases hr : s.top = .running
      · rw [if_pos (show isRunning { s with fu := { s.fu with heldFraming := none } } = true from decide_eq_true hr),
          if_pos hr, setLineRx_echo, post_eq]
        rfl
      · rw [if_neg (show ¬ isRunning { s with fu := { s.fu with heldFraming := none } } = true from
            fun k => hr (of_decide_eq_true k)), if_neg hr, setLineRx_echo]
        rfl
  | inBreak => exact setLineRx_echo _
  | off => exact setLineRx_echo _
  | arming => exact setLineRx_echo _
  | idle => exact setLineRx_echo _
  | character => exact setLineRx_echo _
  | echo => exact setLineRx_echo _

theorem echoEntered_tc (s : State) (x : Turns) : echoEntered { s with tc := x } = { echoEntered s with tc := x } := by
  unfold echoEntered
  simp only
  cases s.line.rx <;> cases s.fu.heldFraming <;> first | rfl | (
    dsimp only; split <;> first | rfl | (simp only [post_eq]; rfl))

theorem echoEntered_clock (s : State) : (echoEntered s).clock = s.clock := by
  unfold echoEntered
  cases s.line.rx <;> cases s.fu.heldFraming <;> first | rfl | (
    dsimp only; split <;> first | rfl | (simp only [post_eq]))

theorem beginFrame_eq (u : State) : beginFrame u = { echoEntered u with
    line := { (echoEntered u).line with tx := .character, txSince := u.clock.ticks, fault := none }
    tc := { (echoEntered u).tc with gap := .notAwaited } } := by
  unfold beginFrame setTx nowTick
  rw [enterEcho_eq, ← echoEntered_clock u]

/-- A frame in the line buffer begins as the line allows (R140, R154). -/
theorem tryBegin_eq {u : State} (h : u.fu.lineBuf.isNone = false) : tryBegin u =
    if u.line.tx = .holding false ∨ (u.line.tx = .idle ∧ u.tc.gap = .passed) then beginFrame u else u := by
  unfold tryBegin
  rw [h, if_neg (by simp)]
  cases u.line.tx with
  | idle => by_cases hg : u.tc.gap = .passed <;> simp [hg]
  | holding b => cases b <;> simp
  | _ => simp

/-- The handover of a COMPLETE frame to an EMPTY line buffer (R140). -/
theorem handover_complete {s : State} {f : TxFrame} (ha : s.fu.assembly = .complete f) (hl : s.fu.lineBuf = none) :
    handover s = frameHandedOver s f := by
  unfold handover
  rw [ha, hl]
  dsimp only
  rw [tryBegin_eq rfl, beginFrame_eq]
  rfl

theorem frameHandedOver_fu (s : State) (f : TxFrame) :
    (frameHandedOver s f).fu.assembly = .empty ∧ (frameHandedOver s f).fu.lineBuf = some f := by
  have he : ∀ u : State, (echoEntered u).fu.assembly = u.fu.assembly ∧ (echoEntered u).fu.lineBuf = u.fu.lineBuf := by
    intro u
    unfold echoEntered
    cases u.line.rx <;> cases u.fu.heldFraming <;>
      first | exact ⟨rfl, rfl⟩ | (dsimp only; split <;> first | exact ⟨rfl, rfl⟩ | (rw [post_eq]; exact ⟨rfl, rfl⟩))
  unfold frameHandedOver
  dsimp only
  split
  · exact he _
  · exact ⟨rfl, rfl⟩

/-- A POLL is handed over to the line buffer (R113, R140). -/
theorem sendPoll_eq {s : State} (p : Phase) (st : StationId) (b : Nat) (h : s.fu.lineBuf = none) :
    sendPoll s p st b = frameHandedOver { s with tc := { s.tc with phase := p, gap := .counting s.tc.lineLast } }
      { frame := .poll st s.tc.cycle (BitVec.ofNat 8 b), serial := 0 } := by
  unfold sendPoll
  rw [handover_complete (s := assembleWhole (awaitGap s p) _ _) rfl h]
  rfl

theorem done_serves {s u : State} {o : Host.Outcome State Fault Refusal} (h : PortServes s) (hp : u.path = s.path)
    (e : o = .next (settle s u)) :
    ∃ t, o = .next t ∧ unmarked t = unmarked u := by
  refine ⟨_, e, unmarked_settle_of_serves (serves_congr hp h)⟩

theorem abortTurn_eq (s : State) : abortTurn s = turnAborted s := by
  unfold abortTurn returnBatches
  rw [setBackPasses_cap]
  have e := setBackPasses_only s
  unfold turnAborted
  generalize (setBackPasses s).regions = R at e
  rw [e]
  rfl

theorem collisionStops_eq (s : State) (f : EchoFault) : collisionStops s f = collided s f := by
  unfold collisionStops
  rw [setLineRx_arming]
  cases f <;> rfl

theorem enterSilenceWait_eq (s : State) : enterSilenceWait s = waitsForSilence s := rfl

end Sys2Proof.Machine
end

