-- ==== Sys2Proof/Laws/Received.lean ====
section
/-! SUPPORT. Characters and frames as they are heard, and what each kind of frame does at its region. -/

namespace Sys2Proof.Machine

theorem turnHears_eq (s : State) (e : Nat) : turnHears s e = heardAt s e := by
  unfold turnHears heardAt lineHeard watchHears isRunning isMaster
  by_cases hr : s.top = .running
  · simp only [hr, decide_true, if_true, decide_eq_true_eq]; rfl
  · simp only [hr, decide_false, if_false, decide_eq_true_eq, Bool.false_eq_true]

theorem countFrame_eq (s : State) : countFrame s = frameCounted s := by
  unfold countFrame frameCounted isRunning
  by_cases hr : s.top = .running
  · simp only [hr, decide_true, if_true]
  · simp only [hr, decide_false, if_false, Bool.false_eq_true]

theorem restartLost_eq (s : State) : restartLost s = { s with tc := { s.tc with lost := lostRestarted s } } := by
  unfold restartLost lostRestarted
  cases h : s.tc.lost <;> simp only <;> first | rfl | rw [← h]

theorem frameHeard_eq (s : State) : restartLost (turnHears s (nowTick s)) = frameHeard s := by
  rw [turnHears_eq, restartLost_eq]; rfl

theorem leadReported_eq (s : State) : leadReported s =
    { s with tc := { s.tc with lost := if s.top = .running then lostRestarted s else s.tc.lost } } := by
  unfold leadReported
  by_cases hr : s.top = .running
  · rw [if_pos (show isRunning s = true from decide_eq_true hr), if_pos hr]; exact restartLost_eq s
  · rw [if_neg (show ¬ isRunning s = true from fun hc => hr (of_decide_eq_true hc)), if_neg hr]

def leadState (s : State) (c : VotedChar) : State := { s with
      fu := { s.fu with rx := .receiving [c.byte] (crcByte 0xFFFF c.byte) }
      tc := { s.tc with lost := if s.top = .running then lostRestarted s else s.tc.lost } }

def LeadOk (s : State) (c : VotedChar) : Prop := c.lead = true ∧ c.framingError = false ∧ c.parityError = false ∧
    s.fu.rx = .idle ∧
    (1 ≤ kindOf c.byte ∧ kindOf c.byte ≤ 4) ∧ (destinationOf c.byte = s.straps.stn ∨ destinationOf c.byte = 15)

theorem deliver_lead {s : State} {c : VotedChar} (h : LeadOk s c) : deliverCharacter s c = leadState s c := by
  obtain ⟨hl, hf, hp, hr, hk, hd⟩ := h
  unfold deliverCharacter
  rw [hl, hf, hp]
  simp only [Bool.false_eq_true, if_false, if_true]
  rw [leadReported_eq]
  unfold truncate
  simp only [hr]
  unfold beginReception
  rw [if_neg (by rintro ⟨h1, h2⟩; rcases hd with h | h; exact h1 h; exact h2 h), if_pos hk]
  rfl

theorem hearCharacter_clean {u : State} {c : VotedChar} (h : noiseEvent u c = none) : hearCharacter u c =
    deliverCharacter (noiseMoves u c) c := by
  unfold hearCharacter; rw [h]

theorem postRunning_eq {u : State} (x : Event) (hu : u.top = .running) : postRunning u x =
    { u with agent := postAgent u.clock.us u.agent x } := by
  unfold postRunning
  rw [if_pos (show isRunning u = true from decide_eq_true hu), post_eq]

theorem hearCharacter_noisy {u : State} {c : VotedChar} {e : Event} (h : noiseEvent u c = some e) (ht : u.top =
    .running) (hc : LeadOk u c) :
    hearCharacter u c = post (leadState (noiseMoves u c) c) e := by
  unfold hearCharacter; rw [h]
  simp only
  rw [show isRunning u = true from decide_eq_true ht, if_pos rfl, deliver_lead (s := noiseMoves u c) hc]
  exact postAmong_alone e (Nat.le_refl _)

theorem noiseMoves_eq (u : State) (c : VotedChar) : noiseMoves u c = { u with line := { u.line with
   noisy := (noiseAfter u.line.noisy u.line.clean c.firstNoisy.isSome).1, clean := (noiseAfter u.line.noisy u.line.clean c.firstNoisy.isSome).2 } } := rfl

theorem characterHeard_eq (s : State) (f : LineFormat) (c : VotedChar) (v : State) (hv : inReception v = true)
   (h : hearCharacter (heardAt (setLineRx s (if c.framingError then .lowWatch c.allZero else .idle)) (characterEnd s f)) c = v) :
   characterHeard s f c = { v with line := { v.line with gapFrom := some (characterEnd s f) } } := by
  unfold characterHeard
  simp only
  rw [turnHears_eq, h, hv]
  rfl

theorem lostRestarted_congr {u s : State} (h1 : u.tc.lost = s.tc.lost) (h2 : u.clock.us = s.clock.us) :
    lostRestarted u = lostRestarted s := by
  unfold lostRestarted; rw [h1, h2]

theorem resetFrame_eq (s : State) : resetFrame s = (
    let c : State := if s.fu.rx = .idle then s else frameCounted { s with fu := { s.fu with rx := .idle } }
    { c with fu := { c.fu with heldFraming := none } }) := by
  unfold resetFrame endFrame
  rw [countFrame_eq]
  cases h : s.fu.rx <;> rfl

theorem resetFrame_fields (s : State) : (resetFrame s).del = s.del ∧ (resetFrame s).line = s.line ∧
    (resetFrame s).straps = s.straps ∧ (resetFrame s).top = s.top ∧
    (resetFrame s).tc.cycle = s.tc.cycle ∧ (resetFrame s).tc.lastCycle = s.tc.lastCycle := by
  rw [resetFrame_eq]
  simp only
  split <;> exact ⟨rfl, rfl, rfl, rfl, rfl, rfl⟩

theorem resetTurn_eq (s : State) : resetTurn s = if (s.del.turn.any fun x => decide (x.kind ≠ .own)) = true ∧
    s.line.tx = .idle then memberAborted s else s := by
  unfold resetTurn memberTurnOpen
  rw [abortMemberTurn_eq]
  simp only [Bool.and_eq_true, decide_eq_true_eq]

theorem resetTurn_fields (s : State) : (resetTurn s).straps = s.straps ∧ (resetTurn s).top = s.top ∧
    (resetTurn s).tc.cycle = s.tc.cycle ∧
    (resetTurn s).tc.lastCycle = s.tc.lastCycle ∧ (resetTurn s).line = s.line := by
  rw [resetTurn_eq]
  by_cases h : (s.del.turn.any fun x => decide (x.kind ≠ .own)) = true ∧ s.line.tx = .idle
  · rw [if_pos h]
    unfold memberAborted turnAborted
    simp only [and_self]
  · rw [if_neg h]
    refine ⟨rfl, rfl, rfl, rfl, rfl⟩

theorem unsync_eq {t : State} {r : RegionId} {q : SubRecord} (c : UnsyncCause) (h : subAt t r = some q) (hf :
    following q = true) :
    unsync t r c = unsynced t r q c.kind c.detail := by
  unfold unsync
  rw [h]; simp only [hf, if_true]
  rw [updSub_eq _ h]
  rfl

theorem acceptData_eq {t : State} {d : DataFrame} {q : SubRecord} (src : StationId) (h : subAt t d.region = some q) :
    acceptData t src d =
    if t.inb.slots.length < 2 then { withSub t d.region { q with accepted := d.seq } with
              inb := { t.inb with slots := t.inb.slots ++
                [{ region := d.region, seq := d.seq, content := .data d.records, inProgress := false }] } }
    else post t (mkEvent .inboundOverrun d.region src d.seq 2) := by
  unfold acceptData slotFree
  simp only [decide_eq_true_eq]
  rw [updSub_eq _ h]
  rfl

theorem hearsFrames_of {s : State} (hx : s.line.rx = .idle) : hearsFrames s = true := decide_eq_true hx

/-- A whole frame is taken only by a receiver that looks for a start. -/
theorem hearsFrames_not {s : State} (hx : s.line.rx ≠ .idle) : hearsFrames s = false := decide_eq_false hx

/-- A whole frame that the receiver takes is heard and handed on. -/
theorem frame_exec {s : State} {source : StationId} {f : Frame} (hx : s.line.rx = .idle) :
    when s (hearsFrames s) (frameReceived s source f) = .next (settle s (handOn (heardAt s s.clock.ticks) source f)) := by
  rw [when_eq (hearsFrames_of hx), ← turnHears_eq]; rfl

/-- Outside RUNNING a good frame goes to no block (R71, R138). -/
theorem handOn_outside {s : State} (source : StationId) (f : Frame) (ht : s.top ≠ .running) : handOn s source f = s :=
  if_neg fun h => ht (of_decide_eq_true h)

theorem turnHears_running (s : State) : isRunning (turnHears s (nowTick s)) = isRunning s := by
  rw [turnHears_eq]; rfl

theorem chunk_exec {s : State} {source : StationId} {c : ChunkFrame} (ht : s.top = .running) (hx : s.line.rx = .idle) :
    exec (.chunkReceived source c) s = .next (settle s (inboundChunk (frameCounted (frameHeard s)) source c)) := by
  have : exec (.chunkReceived source c) s = _ := frame_exec (source := source) (f := .chunk c) hx
  rw [this, ← turnHears_eq, ← nowTick]
  unfold handOn
  rw [turnHears_running, show isRunning s = true from decide_eq_true ht]
  simp only [if_true]
  rw [frameHeard_eq, countFrame_eq]

theorem inRoster_iff {s : State} (ht : s.top = .running) : inRoster s = true ↔ (s.straps.stn = 0 ∨ s.tc.member =
    .enrolled ∨ s.tc.member = .speaking) := by
  unfold inRoster isMaster isRunning
  rw [ht]
  by_cases h : s.straps.stn = 0
  · simp [h]
  · simp only [h, decide_false, Bool.false_eq_true, if_false, false_or]
    cases s.tc.member <;> simp

theorem takeChunk0_eq {t : State} {c : ChunkFrame} {q : SubRecord} (source : StationId) (h : subAt t c.region =
    some q) :
    takeChunk0 t source c q = if t.inb.slots.length < 2 then { withSub t c.region { q with
            state := .refreshing, generation := c.generation, accepted := c.baseSeq, applied := c.baseSeq
            baseSeq := some c.baseSeq, expected := some 1, settle := c.settle } with
          inb := { t.inb with slots :=
            (t.inb.slots.filter fun x => x.inProgress || decide (x.region ≠ c.region) ||
              (match x.content with | .data _ => false | .chunk _ _ _ => true)) ++
            [{ region := c.region, seq := c.baseSeq, content := .chunk c.index c.settle.isSome c.words
               inProgress := false }] } }
      else if following q = true then unsynced t c.region q .refreshBroken 2 else post t (mkEvent .inboundOverrun c.region source c.baseSeq 3) := by
  unfold takeChunk0 slotFree
  simp only [decide_eq_true_eq]
  by_cases hl : t.inb.slots.length < 2
  · rw [if_pos hl, if_pos (show t.inb.slots.length < Config.slotCount from hl), updSub_eq _ h]
    rfl
  · rw [if_neg hl, if_neg (show ¬ t.inb.slots.length < Config.slotCount from hl)]
    by_cases hf : following q = true
    · rw [if_pos hf, if_pos hf, unsync_eq _ h hf]; rfl
    · rw [if_neg hf, if_neg hf]; rfl

theorem takeChunkNext_accept (t : State) (c : ChunkFrame) (q : SubRecord) :
    stage (setRegion t c.region { desc := descAt t c.region, record := .subscribed { q with expected := some (c.index.val + 1), settle := c.settle <|> q.settle } }) (chunkSlot c)
    = { withSub t c.region { q with
          expected := some (c.index.val + 1), settle := if c.settle.isSome then c.settle else q.settle } with
        inb := { t.inb with slots := t.inb.slots ++
          [{ region := c.region, seq := c.baseSeq, content := .chunk c.index c.settle.isSome c.words
             inProgress := false }] } } := by
  have : (c.settle <|> q.settle) = if c.settle.isSome then c.settle else q.settle := by cases c.settle <;> rfl
  rw [this]; rfl

theorem openMemberTurn_eq (s : State) (k : TurnKind) (b : Nat) (c : Byte) : openMemberTurn s k b c =
    memberOpened s k b c := by
  unfold openMemberTurn
  rw [openTurn_eq]
  rfl

theorem yield_exec {s : State} {source : StationId} {y : YieldFrame} (ht : s.top = .running) (hx : s.line.rx = .idle) :
    exec (.yieldReceived source y) s = .next (settle s (pump (y.summaries.foldl (fun t x => takeSummary t source x)
        (y.acks.foldl (fun t x => markChanges t (processAck t source x))
          (markChanges (frameHeard s) (turnTakesYield (frameHeard s) source y)))))) := by
  have : exec (.yieldReceived source y) s = _ := frame_exec (source := source) (f := .yield y) hx
  rw [this, ← turnHears_eq, ← nowTick]
  unfold handOn
  rw [turnHears_running, show isRunning s = true from decide_eq_true ht]
  simp only [if_true]
  rw [frameHeard_eq]
  rfl

theorem endWatch_success (h : State) (w : Watch) : endWatch h w true = masterNext { h with tc :=
        if w.probe then { h.tc with watch := none, additions := h.tc.additions ||| (1#16 <<< w.station.val) }
        else
          { h.tc with
            watch := none, misses := h.tc.misses.set w.station.val 0 w.station.isLt
            pollPos := h.tc.pollPos.bind fun i => if i + 1 < h.tc.pollList.length then some (i + 1) else none } } := by
  unfold endWatch
  simp only
  by_cases hp : w.probe = true
  · rw [if_pos hp, if_pos hp]; rfl
  · rw [if_neg hp, if_neg hp]; rfl

theorem inWindow_iff (x a b : Byte) : inWindow x a b = true ↔ (x - a).toNat ≤ 127 ∧ (b - x).toNat ≤ 127 := by
  unfold inWindow atOrPast
  rw [Bool.and_eq_true, decide_eq_true_iff, decide_eq_true_iff]

theorem failFrame_eq (s : State) (buffer : List Byte) (x : FrameFault) : failFrame s buffer x = frameFailed s buffer x := by
  unfold failFrame endFrame frameFailed
  rw [countFrame_eq]
  unfold postRunning isRunning
  show (if decide (s.top = .running) = true then _ else _) = _
  simp only [decide_eq_true_eq]
  rfl

theorem endFrame_eq (s : State) : endFrame s = frameCounted { s with fu := { s.fu with rx := .idle } } := by
  unfold endFrame; rw [countFrame_eq]; rfl

theorem nib (b : Byte) : kindOf b = (b.extractLsb' 4 4).toNat := rfl

theorem begin_eq (s : State) (b : Byte) : beginReception s b = leadDecided s b := by
  unfold beginReception leadDecided
  have h1 : ∀ x : StationId, destinationOf b = x ↔ b.extractLsb' 0 4 = BitVec.ofNat 4 x.val := by
    intro x
    unfold destinationOf
    rw [Fin.ext_iff, ← BitVec.toNat_inj]
    simp only [BitVec.toNat_ofNat]
    have := x.isLt
    rw [Nat.mod_eq_of_lt (by omega)]
  have h2 := h1 s.straps.stn
  have h3 := h1 15
  simp only [ne_eq, h2, h3]
  rw [failFrame_eq, endFrame_eq]
  rfl

theorem lead_eq (s : State) : leadReported s = leadHeard s := leadReported_eq s

theorem post_running (t : State) (e : Event) : postRunning t e = if t.top = .running then post t e else t := by
  unfold postRunning isRunning; simp only [decide_eq_true_eq]

theorem mutedRegion_iff (s : State) (chars : List Byte) : mutedRegion s chars = true ↔
    ∃ c0 c1 m r, chars = [c0, c1, m, r] ∧ m ≠ 0 ∧ (kindOf c0 = 2 ∨ kindOf c0 = 3) ∧ ∀ i : RegionId, i.val = r.toNat → subAt s i = none := by
  have key : ∀ r : Byte, ((regionByte r).all fun r => (subAt s r).isNone) = true ↔ ∀ i : RegionId, i.val = r.toNat → subAt s i = none := by
    intro r
    unfold regionByte
    split
    · rename_i h
      simp only [Option.all_some, Option.isNone_iff_eq_none]
      constructor
      · intro hh i hi
        have : i = ⟨r.toNat, h⟩ := Fin.ext hi
        rw [this]; exact hh
      · intro hh; exact hh _ rfl
    · rename_i h
      simp only [Option.all_none, true_iff]
      intro i hi; have := i.isLt; omega
  unfold mutedRegion
  split
  · rename_i c0 c1 n r
    rw [Bool.and_eq_true, Bool.and_eq_true, Bool.or_eq_true, decide_eq_true_eq, decide_eq_true_eq, decide_eq_true_eq, key]
    constructor
    · rintro ⟨⟨a, b⟩, c⟩; exact ⟨_, _, _, _, rfl, b, a, c⟩
    · rintro ⟨_, _, _, _, h, b, a, c⟩
      cases h; exact ⟨⟨a, b⟩, c⟩
  · rename_i h
    simp only [Bool.false_eq_true, false_iff]
    rintro ⟨a, b, c, d, e, _⟩
    exact h _ _ _ _ e

theorem clean_not {c : VotedChar} (h : ¬ (c.framingError = false ∧ c.parityError = false)) : c.framingError = true ∨ (c.framingError = false ∧ c.parityError = true) := by
  cases h1 : c.framingError <;> cases h2 : c.parityError <;> simp_all

end Sys2Proof.Machine
end

