-- ==== Sys2Proof/Laws/Codec.lean ====
section
/-! SUPPORT. Frames as bytes: each field read back from the bytes that carry it. -/

namespace Sys2Proof.Machine

theorem charLevel_byte (f : LineFormat) (b : Byte) (lead : Bool) (p : Nat) (h1 : 1 ≤ p) (h2 : p ≤ 8) :
    charLevel f b lead p = b.getLsbD (p - 1) := by
  unfold charLevel
  rw [if_neg (by omega), if_pos h2]

theorem lane_merge (l : Lanes) (old new : Word) (k : Nat) (hk : k < 4) : laneByte (mergeLanes l old new) k =
    if l.getLsbD k then laneByte new k else laneByte old k := by
  have : ∀ l : Lanes, ∀ k < 4, laneMask l = laneMask l := fun _ _ _ => rfl
  unfold laneByte mergeLanes
  apply BitVec.eq_of_getLsbD_eq
  intro j hj
  simp only [BitVec.getLsbD_extractLsb', BitVec.getLsbD_or, BitVec.getLsbD_and, BitVec.getLsbD_not, hj, decide_true, Bool.true_and]
  have hm : (laneMask l).getLsbD (8 * k + j) = l.getLsbD k := by
    have : ∀ l : Lanes, ∀ k : Fin 4, ∀ j : Fin 8, (laneMask l).getLsbD (8 * k.val + j.val) = l.getLsbD k.val := by decide
    exact this l ⟨k, hk⟩ ⟨j, hj⟩
  rw [hm]
  have h32 : decide (8 * k + j < 32) = true := decide_eq_true (by omega)
  rw [h32]
  by_cases hl : l.getLsbD k = true
  · rw [hl]; simp [hj]
  · have : l.getLsbD k = false := by simpa using hl
    rw [this]; simp [hj]

theorem twoBytes_back (x : BitVec 16) : x.extractLsb' 8 8 ++ x.extractLsb' 0 8 = x := by
  apply BitVec.eq_of_getLsbD_eq
  intro i hi
  rw [BitVec.getLsbD_append]
  simp only [BitVec.getLsbD_extractLsb']
  by_cases h : i < 8
  · simp [h]
  · simp [h]; rw [show 8 + (i - 8) = i from by omega]; simp [show i - 8 < 8 from by omega]

theorem wordBytes_back (w : Word) : wordOfLanes (laneByte w 0) (laneByte w 1) (laneByte w 2) (laneByte w 3) = w := by
  unfold wordOfLanes laneByte
  apply BitVec.eq_of_getLsbD_eq
  intro i hi
  simp only [BitVec.getLsbD_append, BitVec.getLsbD_extractLsb']
  by_cases h : i < 8
  · simp [h]
  · by_cases h2 : i - 8 < 8
    · simp [h, h2]; rw [show 8 + (i - 8) = i from by omega]
    · by_cases h3 : i - 8 - 8 < 8
      · simp [h, h2, h3]; rw [show 16 + (i - 8 - 8) = i from by omega]
      · simp [h, h2, h3]; rw [show 24 + (i - 8 - 8 - 8) = i from by omega]; simp [show i - 8 - 8 - 8 < 8 from by omega]

theorem region_byte (r : RegionId) : regionByte (byteOf r.val) = some r := by revert r; decide

theorem station_of_nibble (r : StationId) : sourceOf (byteOf r.val) = r := by revert r; decide

theorem kind_byte (f : Frame) : kindOf (byteOf (16 * frameKind f + (frameDestination f).val)) = frameKind f := by
  have : ∀ (k : Fin 5) (d : Fin 16), kindOf (byteOf (16 * k.val + d.val)) = k.val := by decide
  cases f
  · exact this 1 _
  · exact this 2 _
  · exact this 3 _
  · exact this 4 _

theorem dest_byte (f : Frame) : destinationOf (byteOf (16 * frameKind f + (frameDestination f).val)) =
    frameDestination f := by
  have : ∀ (k : Fin 5) (d : Fin 16), destinationOf (byteOf (16 * k.val + d.val)) = d := by decide
  cases f
  · exact this 1 _
  · exact this 2 _
  · exact this 3 _
  · exact this 4 _

theorem byte_nat {n : Nat} (h : n < 256) : (byteOf n).toNat = n := by unfold byteOf; rw [BitVec.toNat_ofNat]; omega

theorem lanes_back (l : Lanes) : (l.zeroExtend 8).extractLsb' 0 4 = l := by revert l; decide

theorem take_lanes (l : Lanes) (d : Word) (rest : List Byte) (h : d &&& ~~~ laneMask l = 0#32) :
    takeLanes (laneList l) 0#32 ((laneList l).map (laneByte d) ++ rest) = some (d, rest) := by
  have key : ∀ l : Lanes, ∃ ks, laneList l = ks ∧ True := fun l => ⟨_, rfl, trivial⟩
  have gen : ∀ (ks : List Nat) (w : Word), takeLanes ks w (ks.map (laneByte d) ++ rest) = some (ks.foldl (fun w k => w ||| ((laneByte d k).zeroExtend 32 <<< (8 * k))) w, rest) := by
    intro ks
    induction ks with
    | nil => intro w; rfl
    | cons k ks ih => intro w; exact ih _
  rw [gen]
  congr 2
  apply BitVec.eq_of_getLsbD_eq
  intro i hi
  have hd : d.getLsbD i = (d.getLsbD i && (laneMask l).getLsbD i) := by
    have := congrArg (fun x => BitVec.getLsbD x i) h
    simp only [BitVec.getLsbD_and, BitVec.getLsbD_not, hi, decide_true, Bool.true_and, BitVec.getLsbD_zero] at this
    cases h1 : d.getLsbD i <;> cases h2 : (laneMask l).getLsbD i <;> simp_all
  have hm : (laneMask l).getLsbD i = l.getLsbD (i / 8) := by
    have : ∀ l : Lanes, ∀ i : Fin 32, (laneMask l).getLsbD i.val = l.getLsbD (i.val / 8) := by decide
    exact this l ⟨i, hi⟩
  have fold : ∀ (ks : List Nat) (w : Word), (ks.foldl (fun w k => w ||| ((laneByte d k).zeroExtend 32 <<< (8 * k))) w).getLsbD i
      = (w.getLsbD i || ks.any fun k => decide (i / 8 = k) && d.getLsbD i) := by
    intro ks
    induction ks with
    | nil => intro w; simp
    | cons k ks ih =>
      intro w
      rw [List.foldl_cons, ih, List.any_cons, ← Bool.or_assoc]
      congr 1
      rw [BitVec.getLsbD_or]
      congr 1
      unfold laneByte
      rw [BitVec.getLsbD_shiftLeft]
      simp only [BitVec.truncate_eq_setWidth, BitVec.getLsbD_setWidth, BitVec.getLsbD_extractLsb', hi, decide_true, Bool.true_and]
      by_cases hk : i / 8 = k
      · have h1 : ¬ i < 8 * k := by omega
        have h2 : i - 8 * k < 8 := by omega
        have h3 : i - 8 * k < 32 := by omega
        simp [h1, h2, h3, hk, show 8 * k + (i - 8 * k) = i from by omega]
      · simp only [hk, decide_false, Bool.false_and]
        by_cases h1 : i < 8 * k
        · simp [h1]
        · have h2 : ¬ i - 8 * k < 8 := by omega
          simp [h2]
  rw [fold]
  rw [hd, hm]
  simp only [BitVec.getLsbD_zero, Bool.false_or]
  have hk : i / 8 < 4 := by omega
  have : ∀ l : Lanes, ∀ k : Fin 4, ∀ x : Bool, ((laneList l).any fun j => decide (k.val = j) && (x && l.getLsbD k.val)) = (x && l.getLsbD k.val) := by decide
  exact this l ⟨i / 8, hk⟩ _

theorem take_record (r : UpdateRecord) (rest : List Byte) (h : r.wf = true) : takeRecord (recordBytes r ++ rest) =
    some (r, rest) := by
  unfold UpdateRecord.wf lanesWf at h
  rw [Bool.and_eq_true] at h
  obtain ⟨h1, h2⟩ := h
  unfold recordBytes
  show takeRecord (r.offset :: r.lanes.zeroExtend 8 :: ((laneList r.lanes).map (laneByte r.data) ++ rest)) = _
  unfold takeRecord
  simp only [lanes_back]
  rw [if_neg (by simpa using h1), take_lanes _ _ _ (by simpa using h2)]
  rfl

theorem take_records (rs : List UpdateRecord) (rest : List Byte) (h : rs.all UpdateRecord.wf = true) :
    takeRecords rs.length (rs.flatMap recordBytes ++ rest) = some (rs, rest) := by
  induction rs with
  | nil => rfl
  | cons r rs ih =>
    rw [List.all_cons, Bool.and_eq_true] at h
    rw [List.flatMap_cons, List.append_assoc, List.length_cons]
    unfold takeRecords
    rw [take_record r _ h.1]
    simp only
    rw [ih h.2]; rfl

theorem take_words (ws : List Word) (rest : List Byte) : takeWords ws.length (ws.flatMap wordBytes ++ rest) = some
    (ws, rest) := by
  induction ws with
  | nil => rfl
  | cons w ws ih =>
    rw [List.flatMap_cons, List.append_assoc, List.length_cons]
    show (takeWords ws.length (ws.flatMap wordBytes ++ rest)).map _ = _
    rw [ih]
    simp only [Option.map_some, wordBytes_back]

theorem reported_back (x : ReportedState) : reportedOf (reportedCode x) = some x := by cases x <;> rfl

theorem take_acks (xs : List AckEntry) (rest : List Byte) : takeAcks xs.length (xs.flatMap ackBytes ++ rest) = some
    (xs, rest) := by
  induction xs with
  | nil => rfl
  | cons a xs ih =>
    rw [List.flatMap_cons, List.append_assoc, List.length_cons]
    show (match ackOf (byteOf a.region.val) a.generation a.appliedSeq (reportedCode a.state) with | none => none | some a => (takeAcks xs.length (xs.flatMap ackBytes ++ rest)).map fun (z : List AckEntry × List Byte) => (a :: z.1, z.2)) = _
    have : ackOf (byteOf a.region.val) a.generation a.appliedSeq (reportedCode a.state) = some a := by
      unfold ackOf; rw [region_byte, reported_back]
    rw [this]
    simp only
    rw [ih]; rfl

theorem take_summaries (xs : List Summary) (rest : List Byte) : takeSummaries xs.length
    (xs.flatMap summaryBytes ++ rest) = some (xs, rest) := by
  induction xs with
  | nil => rfl
  | cons a xs ih =>
    rw [List.flatMap_cons, List.append_assoc, List.length_cons]
    show (match summaryOf (byteOf a.region.val) a.generation with | none => none | some a => (takeSummaries xs.length (xs.flatMap summaryBytes ++ rest)).map fun (z : List Summary × List Byte) => (a :: z.1, z.2)) = _
    have : summaryOf (byteOf a.region.val) a.generation = some a := by
      unfold summaryOf; rw [region_byte]; rfl
    rw [this]
    simp only
    rw [ih]; rfl

theorem content_back (f : Frame) (h : f.wf = true) : contentOf (frameKind f) (frameDestination f) (payloadOf f) =
    some f := by
  cases f with
  | poll d c b =>
    unfold Frame.wf at h
    rw [Bool.and_eq_true, decide_eq_true_iff, decide_eq_true_iff] at h
    show (if d = 15 then none else pollContent d [c, b]) = _
    rw [if_neg h.1]
    unfold pollContent
    simp only
    rw [if_pos h.2]
  | data d =>
    have h' : d.wf = true := h
    unfold DataFrame.wf at h'
    rw [Bool.and_eq_true, Bool.and_eq_true, decide_eq_true_iff, decide_eq_true_iff] at h'
    show (dataContent ([byteOf d.region.val, d.generation, d.seq, byteOf d.records.length] ++ d.records.flatMap recordBytes)).map Frame.data = _
    have : dataContent ([byteOf d.region.val, d.generation, d.seq, byteOf d.records.length] ++ d.records.flatMap recordBytes) = some d := by
      simp only [List.cons_append, List.nil_append]
      unfold dataContent
      simp only
      have n1 : d.records.length < 256 := by omega
      rw [byte_nat n1, if_pos h'.1, region_byte]
      have := take_records d.records [] h'.2
      rw [List.append_nil] at this
      rw [this]; rfl
    rw [this]; rfl
  | chunk c =>
    have h' : c.wf = true := h
    unfold ChunkFrame.wf at h'
    rw [Bool.and_eq_true, Bool.and_eq_true, decide_eq_true_iff, decide_eq_true_iff] at h'
    have ix : regionByte (byteOf (c.index.val + 128 * flag c.settle.isSome) &&& 0x7F#8) = some c.index ∧ (byteOf (c.index.val + 128 * flag c.settle.isSome)).getLsbD 7 = c.settle.isSome := by
      have : ∀ (i : Fin 16) (b : Bool), regionByte (byteOf (i.val + 128 * flag b) &&& 0x7F#8) = some i ∧ (byteOf (i.val + 128 * flag b)).getLsbD 7 = b := by decide
      exact this _ _
    have tail : ∀ st, chunkContentFrom c.region c.generation c.targets c.baseSeq c.index st (byteOf c.words.length :: c.words.flatMap wordBytes) = some { c with settle := st } := by
      intro st
      unfold chunkContentFrom
      simp only
      have n1 : c.words.length < 256 := by omega
      rw [byte_nat n1, if_pos h'.1]
      have := take_words c.words []
      rw [List.append_nil] at this
      rw [this]; rfl
    have : chunkContent (payloadOf (.chunk c)) = some c := by
      have e : payloadOf (.chunk c) = byteOf c.region.val :: c.generation :: c.targets.extractLsb' 8 8 :: c.targets.extractLsb' 0 8 :: c.baseSeq ::
        byteOf (c.index.val + 128 * flag c.settle.isSome) :: (c.settle.toList ++ byteOf c.words.length :: c.words.flatMap wordBytes) := by
        show ([byteOf c.region.val, c.generation] ++ twoBytes c.targets ++ [c.baseSeq, byteOf (c.index.val + 128 * flag c.settle.isSome)] ++ c.settle.toList ++
    [byteOf c.words.length] ++ c.words.flatMap wordBytes) = _
        unfold twoBytes
        simp
      rw [e]
      unfold chunkContent
      simp only
      rw [region_byte, ix.1]
      simp only
      rw [twoBytes_back, if_pos h'.2, ix.2]
      cases hs : c.settle with
      | none => simp only [Option.isSome_none, Bool.false_eq_true, if_false, Option.toList_none, List.nil_append]; rw [tail, ← hs]
      | some x => simp only [Option.isSome_some, if_true, Option.toList_some, List.singleton_append]; rw [tail, ← hs]
    show (chunkContent (payloadOf (.chunk c))).map Frame.chunk = _
    rw [this]; rfl
  | yield y =>
    have h' : y.wf = true := h
    unfold YieldFrame.wf at h'
    rw [Bool.and_eq_true, decide_eq_true_iff] at h'
    have tail : ∀ ro, yieldContentFrom y.cycle ro y.acks.length y.summaries.length (y.acks.flatMap ackBytes ++ y.summaries.flatMap summaryBytes) = some { y with roster := ro } := by
      intro ro
      unfold yieldContentFrom
      rw [take_acks]
      simp only
      have := take_summaries y.summaries []
      rw [List.append_nil] at this
      rw [this]; rfl
    have fl : ∀ b : Bool, (byteOf (flag b)).getLsbD 0 = b := by decide
    have : yieldContent (payloadOf (.yield y)) = some y := by
      have e : payloadOf (.yield y) = y.cycle :: byteOf (flag y.roster.isSome) :: byteOf y.acks.length :: byteOf y.summaries.length ::
        ((y.roster.elim [] twoBytes) ++ (y.acks.flatMap ackBytes ++ y.summaries.flatMap summaryBytes)) := by
        show ([y.cycle, byteOf (flag y.roster.isSome), byteOf y.acks.length, byteOf y.summaries.length] ++ (y.roster.elim [] twoBytes) ++ y.acks.flatMap ackBytes ++ y.summaries.flatMap summaryBytes) = _
        simp
      rw [e]
      unfold yieldContent
      simp only
      have n1 : y.acks.length < 256 := by omega
      have n2 : y.summaries.length < 256 := by omega
      rw [byte_nat n1, byte_nat n2, if_pos h'.1, fl]
      cases hr : y.roster with
      | none => simp only [Option.isSome_none, Bool.false_eq_true, if_false, Option.elim_none, List.nil_append]; rw [tail, ← hr]
      | some ro =>
        have hw : stationSetWf ro = true := by have := h'.2; rw [hr] at this; simpa using this
        simp only [Option.isSome_some, if_true, Option.elim_some, twoBytes, List.cons_append, List.nil_append]
        rw [twoBytes_back, if_pos hw, tail, ← hr]
    show (yieldContent (payloadOf (.yield y))).map Frame.yield = _
    rw [this]; rfl

theorem records_len (rs : List UpdateRecord) : (rs.flatMap recordBytes).length ≤ 6 * rs.length := by
  induction rs with
  | nil => simp
  | cons r rs ih =>
    rw [List.flatMap_cons, List.length_append, List.length_cons]
    have : (recordBytes r).length ≤ 6 := by
      unfold recordBytes
      simp only [List.length_cons, List.length_map]
      have : ∀ l : Lanes, (laneList l).length ≤ 4 := by decide
      have := this r.lanes
      omega
    omega

theorem flat_len {α : Type} (g : α → List Byte) (k : Nat) (hg : ∀ x, (g x).length = k) (xs : List α) :
    (xs.flatMap g).length = k * xs.length := by
  induction xs with
  | nil => simp
  | cons x xs ih => rw [List.flatMap_cons, List.length_append, List.length_cons, ih, hg]; ring

theorem payload_len (f : Frame) (h : f.wf = true) : 2 ≤ (payloadOf f).length ∧ (payloadOf f).length ≤ 160 := by
  cases f with
  | poll d c b => simp [payloadOf]
  | data d =>
    have h' : d.wf = true := h
    unfold DataFrame.wf at h'
    rw [Bool.and_eq_true, Bool.and_eq_true, decide_eq_true_iff, decide_eq_true_iff] at h'
    have := records_len d.records
    unfold payloadOf
    rw [List.length_append]
    simp only [List.length_cons, List.length_nil]
    omega
  | chunk c =>
    have h' : c.wf = true := h
    unfold ChunkFrame.wf at h'
    rw [Bool.and_eq_true, Bool.and_eq_true, decide_eq_true_iff, decide_eq_true_iff] at h'
    have := flat_len wordBytes 4 (fun _ => rfl) c.words
    unfold payloadOf twoBytes
    simp only [List.length_append, List.length_cons, List.length_nil, Option.length_toList]
    have : (if c.settle.isSome then 1 else 0) ≤ 1 := by split <;> omega
    omega
  | yield y =>
    have h' : y.wf = true := h
    unfold YieldFrame.wf at h'
    rw [Bool.and_eq_true, decide_eq_true_iff] at h'
    have := flat_len ackBytes 4 (fun _ => rfl) y.acks
    have := flat_len summaryBytes 2 (fun _ => rfl) y.summaries
    unfold payloadOf
    simp only [List.length_append, List.length_cons, List.length_nil]
    have : (y.roster.elim [] twoBytes).length ≤ 2 := by cases y.roster <;> simp [twoBytes]
    omega

theorem frameBytes_eq (source : StationId) (f : Frame) : frameBytes source f = byteOf (16 * frameKind f +
    (frameDestination f).val) :: byteOf source.val :: byteOf (payloadOf f).length :: (payloadOf f ++ twoBytes (crc16
    (bodyOf source f))) := by
  unfold frameBytes
  simp only
  generalize twoBytes (crc16 (bodyOf source f)) = t
  unfold bodyOf
  simp

theorem frame_take (source : StationId) (f : Frame) : (frameBytes source f).take ((payloadOf f).length + 3) =
    bodyOf source f := by
  rw [frameBytes_eq]
  unfold bodyOf
  simp

theorem frame_len (source : StationId) (f : Frame) : (frameBytes source f).length = (payloadOf f).length + 5 := by
  rw [frameBytes_eq]
  simp [twoBytes]

theorem payload_region (f : Frame) (h : frameKind f = 2 ∨ frameKind f = 3) : ∃ t, payloadOf f = byteOf
    (frameRegion f).val :: t := by
  cases f with
  | poll => simp [frameKind] at h
  | data d => exact ⟨_, rfl⟩
  | chunk c => exact ⟨_, rfl⟩
  | yield => simp [frameKind] at h

theorem muted_no {s : State} {source : StationId} {f : Frame} {buf : List Byte} (rest : List Byte) (h :
    frameBytes source f = buf ++ rest)
    (hr : frameKind f = 2 ∨ frameKind f = 3 → (subAt s (frameRegion f)).isSome = true) : mutedRegion s buf = false := by
  unfold mutedRegion
  split
  · rename_i c0 c1 n r
    rw [frameBytes_eq] at h
    by_cases hk : frameKind f = 2 ∨ frameKind f = 3
    · obtain ⟨t, ht⟩ := payload_region f hk
      rw [ht] at h
      simp only [List.cons_append, List.cons.injEq] at h
      obtain ⟨_, _, _, h4, _⟩ := h
      rw [← h4, region_byte]
      have := hr hk
      simp
      intro _ _
      exact this
    · simp only [List.cons_append, List.cons.injEq] at h
      obtain ⟨h1, _⟩ := h
      rw [← h1, kind_byte]
      have : (decide (frameKind f = 2) || decide (frameKind f = 3)) = false := by
        rw [Bool.or_eq_false_iff, decide_eq_false_iff_not, decide_eq_false_iff_not]
        exact ⟨fun x => hk (.inl x), fun x => hk (.inr x)⟩
      rw [this]; rfl
  · rfl

theorem crc_take (n : Nat) (buf : List Byte) (b : Byte) : crc16 ((buf ++ [b]).take (n + 3)) = if (buf ++
    [b]).length ≤ n + 3 then crcByte (crc16 (buf.take (n + 3))) b else crc16 (buf.take (n + 3)) := by
  by_cases h : (buf ++ [b]).length ≤ n + 3
  · rw [if_pos h, List.take_of_length_le h, List.take_of_length_le (by rw [List.length_append] at h; simp at h; omega)]
    unfold crc16; rw [List.foldl_append]; rfl
  · rw [if_neg h]
    rw [List.length_append, List.length_cons, List.length_nil] at h
    rw [List.take_append_of_le_length (by omega)]

/-! ## What a payload carries (R137, R187) -/

/-- The data of a record has bytes on its lanes alone, in the form the mask gives (R24). -/
theorem lanes_clear {l : Lanes} {d : Word} (h : ∀ k, k < 4 → l.getLsbD k = false → d.extractLsb' (8 * k) 8 = 0) :
    d &&& ~~~ laneMask l = 0#32 := by
  apply BitVec.eq_of_getLsbD_eq
  intro i hi
  have hm : (laneMask l).getLsbD i = l.getLsbD (i / 8) := by
    have : ∀ l : Lanes, ∀ i : Fin 32, (laneMask l).getLsbD i.val = l.getLsbD (i.val / 8) := by decide
    exact this l ⟨i, hi⟩
  simp only [BitVec.getLsbD_and, BitVec.getLsbD_not, hi, decide_true, Bool.true_and, BitVec.getLsbD_zero, hm]
  cases hl : l.getLsbD (i / 8) with
  | true => simp
  | false =>
    have := congrArg (fun x => BitVec.getLsbD x (i % 8)) (h (i / 8) (by omega) hl)
    simp only [BitVec.getLsbD_extractLsb', show i % 8 < 8 from by omega, decide_true, Bool.true_and,
      show 8 * (i / 8) + i % 8 = i from by omega] at this
    rw [this]; simp

/-- The lane bytes of a word with one more byte put in. -/
theorem laneByte_put (w : Word) (b : Byte) (k j : Nat) (hk : k < 4) (hj : j < 4) :
    laneByte (w ||| (b.zeroExtend 32 <<< (8 * k))) j = if j = k then laneByte w j ||| b else laneByte w j := by
  apply BitVec.eq_of_getLsbD_eq
  intro i hi
  have e : (laneByte (w ||| (b.zeroExtend 32 <<< (8 * k))) j).getLsbD i =
      (w.getLsbD (8 * j + i) || (decide (¬ 8 * j + i < 8 * k) && b.getLsbD (8 * j + i - 8 * k))) := by
    unfold laneByte
    simp only [BitVec.getLsbD_extractLsb', hi, decide_true, Bool.true_and, BitVec.getLsbD_or, BitVec.getLsbD_shiftLeft,
      BitVec.truncate_eq_setWidth, BitVec.getLsbD_setWidth, show 8 * j + i < 32 from by omega,
      show 8 * j + i - 8 * k < 32 from by omega]
    by_cases h : 8 * j + i < 8 * k <;> simp [h]
  rw [e]
  by_cases h : j = k
  · subst h
    rw [if_pos rfl, BitVec.getLsbD_or]
    unfold laneByte
    simp [hi]
  · rw [if_neg h]
    have : (decide (¬ 8 * j + i < 8 * k) && b.getLsbD (8 * j + i - 8 * k)) = false := by
      by_cases h2 : 8 * j + i < 8 * k
      · simp [h2]
      · rw [BitVec.getLsbD_of_ge _ _ (by omega)]; simp
    rw [this]
    unfold laneByte
    simp [hi]

/-- The lane bytes taken, and what follows them. -/
theorem take_lanes_out : ∀ (ks : List Nat) (w : Word) (bs : List Byte) (d : Word) (rest : List Byte), ks.Nodup →
    (∀ k ∈ ks, k < 4 ∧ laneByte w k = 0) → takeLanes ks w bs = some (d, rest) →
    bs = ks.map (laneByte d) ++ rest ∧ ∀ j, j < 4 → j ∉ ks → laneByte d j = laneByte w j := by
  intro ks
  induction ks with
  | nil =>
    intro w bs d rest _ _ h
    unfold takeLanes at h
    cases h
    exact ⟨rfl, fun _ _ _ => rfl⟩
  | cons k ks ih =>
    intro w bs d rest hn hz h
    cases bs with
    | nil => unfold takeLanes at h; cases h
    | cons b bs =>
      have hk := hz k (List.mem_cons_self ..)
      rw [List.nodup_cons] at hn
      obtain ⟨h1, h2⟩ := ih _ bs d rest hn.2 (fun j hj => by
        have hj' := hz j (List.mem_cons_of_mem _ hj)
        refine ⟨hj'.1, ?_⟩
        rw [laneByte_put _ _ _ _ hk.1 hj'.1, if_neg (fun e : j = k => hn.1 (e ▸ hj))]
        exact hj'.2) h
      refine ⟨?_, fun j hj hm => ?_⟩
      · rw [List.map_cons, List.cons_append, ← h1, h2 k hk.1 hn.1, laneByte_put _ _ _ _ hk.1 hk.1, if_pos rfl, hk.2]
        simp
      · rw [List.mem_cons, not_or] at hm
        rw [h2 j hj hm.2, laneByte_put _ _ _ _ hk.1 hj, if_neg hm.1]

theorem received_lanes (z l : Lanes) : (z ++ l : Byte).extractLsb' 0 4 = l := by
  have : ∀ z l : Lanes, (z ++ l : Byte).extractLsb' 0 4 = l := by decide
  exact this z l

theorem split_lanes (b : Byte) : b = (b.extractLsb' 4 4 ++ b.extractLsb' 0 4 : BitVec 8) := by
  revert b; decide

/-- All that taking a record does: it takes exactly the bytes that carry it (R131, R137, R187). -/
theorem take_record_iff {bs rest : List Byte} {r : UpdateRecord} : takeRecord bs = some (r, rest) ↔
    (r.lanes ≠ 0 ∧ ∀ k, k < 4 → r.lanes.getLsbD k = false → r.data.extractLsb' (8 * k) 8 = 0) ∧
      ∃ z, bs = receivedRecord z r ++ rest := by
  constructor
  · intro h
    unfold takeRecord at h
    split at h
    · rename_i o l bs
      dsimp only at h
      split at h
      · cases h
      · rename_i hl
        obtain ⟨x, hx, he⟩ := Option.map_eq_some_iff.mp h
        obtain ⟨d, tail⟩ := x
        cases he
        obtain ⟨h1, h2⟩ := take_lanes_out _ _ _ _ _ (by
          unfold laneList; exact List.Nodup.filter _ (by decide)) (by
            intro k hk
            refine ⟨?_, ?_⟩
            · have := (List.mem_filter.mp hk).1
              simp only [List.mem_cons, List.not_mem_nil, or_false] at this
              omega
            · unfold laneByte; simp) hx
        refine ⟨⟨hl, fun k hk hb => ?_⟩, l.extractLsb' 4 4, ?_⟩
        · have := h2 k hk (by
            intro hm
            have := (List.mem_filter.mp hm).2
            rw [hb] at this; cases this)
          show laneByte d k = 0
          rw [this]; unfold laneByte; simp
        · unfold receivedRecord
          rw [List.cons_append, List.cons_append, ← split_lanes, h1]
          rfl
    · cases h
  · rintro ⟨⟨h1, h2⟩, z, rfl⟩
    unfold receivedRecord
    rw [List.cons_append, List.cons_append]
    unfold takeRecord
    simp only [received_lanes]
    rw [if_neg (show ¬ r.lanes = 0#4 from h1)]
    have := take_lanes r.lanes r.data rest (lanes_clear h2)
    show ((takeLanes (laneList r.lanes) 0#32 ((laneList r.lanes).map (laneByte r.data) ++ rest)).map _) = _
    rw [this]; rfl

/-- All that taking records does. -/
theorem take_records_iff : ∀ {n : Nat} {bs rest : List Byte} {rs : List UpdateRecord},
    takeRecords n bs = some (rs, rest) ↔ rs.length = n ∧
      (∀ r ∈ rs, r.lanes ≠ 0 ∧ ∀ k, k < 4 → r.lanes.getLsbD k = false → r.data.extractLsb' (8 * k) 8 = 0) ∧
      ∃ zs : List (BitVec 4), zs.length = rs.length ∧ bs = (List.zipWith receivedRecord zs rs).flatten ++ rest := by
  intro n
  induction n with
  | zero =>
    intro bs rest rs
    constructor
    · intro h
      unfold takeRecords at h
      cases h
      exact ⟨rfl, nofun, [], rfl, rfl⟩
    · rintro ⟨h, _, zs, _, e⟩
      obtain rfl := List.length_eq_zero_iff.mp h
      unfold takeRecords
      rw [e]; simp
  | succ n ih =>
    intro bs rest rs
    constructor
    · intro h
      unfold takeRecords at h
      split at h
      · cases h
      · rename_i r tail hr
        obtain ⟨x, hx, he⟩ := Option.map_eq_some_iff.mp h
        obtain ⟨rs', rest'⟩ := x
        cases he
        obtain ⟨h1, h2, zs, h3, rfl⟩ := ih.mp hx
        obtain ⟨hw, z, rfl⟩ := take_record_iff.mp hr
        refine ⟨by simp [h1], fun x hx => ?_, z :: zs, by simp [h3], by simp⟩
        rcases List.mem_cons.mp hx with rfl | hx
        · exact hw
        · exact h2 x hx
    · rintro ⟨h1, h2, zs, h3, e⟩
      cases rs with
      | nil => cases h1
      | cons r rs =>
        cases zs with
        | nil => cases h3
        | cons z zs =>
          unfold takeRecords
          have hr : takeRecord bs = some (r, (List.zipWith receivedRecord zs rs).flatten ++ rest) :=
            take_record_iff.mpr ⟨h2 r (List.mem_cons_self ..), z, by rw [e]; simp⟩
          rw [hr]
          dsimp only
          rw [ih.mpr ⟨Nat.succ.inj h1, fun x hx => h2 x (List.mem_cons_of_mem _ hx), zs, Nat.succ.inj h3, rfl⟩]
          rfl

theorem wordBytes_of (b0 b1 b2 b3 : Byte) : wordBytes (wordOfLanes b0 b1 b2 b3) = [b0, b1, b2, b3] := by
  have key : ∀ k : Nat, k < 4 → laneByte (wordOfLanes b0 b1 b2 b3) k = [b0, b1, b2, b3].getD k 0 := by
    intro k hk
    apply BitVec.eq_of_getLsbD_eq
    intro i hi
    unfold laneByte wordOfLanes
    simp only [BitVec.getLsbD_extractLsb', BitVec.getLsbD_append, hi, decide_true, Bool.true_and]
    have : k = 0 ∨ k = 1 ∨ k = 2 ∨ k = 3 := by omega
    rcases this with rfl | rfl | rfl | rfl
    · simp [hi]
    · simp [show ¬ 8 + i < 8 by omega, hi]
    · simp [show ¬ 16 + i < 8 by omega, show ¬ 16 + i - 8 < 8 by omega, show 16 + i - 8 - 8 = i by omega, hi]
    · simp [show ¬ 24 + i < 8 by omega, show ¬ 24 + i - 8 < 8 by omega, show ¬ 24 + i - 8 - 8 < 8 by omega,
        show 24 + i - 8 - 8 - 8 = i by omega]
  unfold wordBytes
  rw [key 0 (by omega), key 1 (by omega), key 2 (by omega), key 3 (by omega)]
  rfl

/-- All that taking words does: it takes the bytes of that many. -/
theorem take_words_iff : ∀ {n : Nat} {bs rest : List Byte} {ws : List Word},
    takeWords n bs = some (ws, rest) ↔ ws.length = n ∧ bs = ws.flatMap wordBytes ++ rest := by
  intro n
  induction n with
  | zero =>
    intro bs rest ws
    constructor
    · intro h
      unfold takeWords at h
      cases h; exact ⟨rfl, rfl⟩
    · rintro ⟨h, e⟩
      obtain rfl := List.length_eq_zero_iff.mp h
      unfold takeWords; rw [e]; rfl
  | succ n ih =>
    intro bs rest ws
    constructor
    · intro h
      unfold takeWords at h
      split at h
      · cases ‹_ = 0›
      · rename_i b0 b1 b2 b3 bs hn
        cases hn
        obtain ⟨x, hx, he⟩ := Option.map_eq_some_iff.mp h
        obtain ⟨ws', rest'⟩ := x
        cases he
        obtain ⟨h1, rfl⟩ := ih.mp hx
        refine ⟨by simp [h1], ?_⟩
        rw [List.flatMap_cons, List.append_assoc]
        exact congrArg (· ++ _) (wordBytes_of b0 b1 b2 b3).symm
      · cases h
    · rintro ⟨h, rfl⟩
      rw [← h]
      exact take_words ws rest

theorem region_of_byte {b : Byte} {r : RegionId} : regionByte b = some r ↔ b = byteOf r.val := by
  constructor
  · intro h
    unfold regionByte at h
    split at h
    · cases h
      apply BitVec.eq_of_toNat_eq
      show b.toNat = (byteOf b.toNat).toNat
      rw [byte_nat b.isLt]
    · cases h
  · rintro rfl; exact region_byte r

theorem reported_of_byte {b : Byte} {x : ReportedState} : reportedOf b = some x ↔ b = reportedCode x := by
  constructor
  · intro h
    unfold reportedOf at h
    repeat' split at h
    all_goals first | cases h; subst_vars; rfl | cases h
  · rintro rfl; exact reported_back x

/-- All that taking ack entries does. -/
theorem take_acks_iff : ∀ {n : Nat} {bs rest : List Byte} {xs : List AckEntry},
    takeAcks n bs = some (xs, rest) ↔ xs.length = n ∧ bs = xs.flatMap ackBytes ++ rest := by
  intro n
  induction n with
  | zero =>
    intro bs rest xs
    constructor
    · intro h
      unfold takeAcks at h
      cases h; exact ⟨rfl, rfl⟩
    · rintro ⟨h, e⟩
      obtain rfl := List.length_eq_zero_iff.mp h
      unfold takeAcks; rw [e]; rfl
  | succ n ih =>
    intro bs rest xs
    constructor
    · intro h
      unfold takeAcks at h
      split at h
      · cases ‹_ = 0›
      · rename_i r g q st bs hn
        cases hn
        split at h
        · cases h
        · rename_i a ha
          obtain ⟨x, hx, he⟩ := Option.map_eq_some_iff.mp h
          obtain ⟨xs', rest'⟩ := x
          cases he
          obtain ⟨h1, rfl⟩ := ih.mp hx
          refine ⟨by simp [h1], ?_⟩
          unfold ackOf at ha
          split at ha
          · rename_i region state hr hs
            cases ha
            rw [region_of_byte.mp hr, reported_of_byte.mp hs]
            rfl
          · cases ha
      · cases h
    · rintro ⟨h, rfl⟩
      rw [← h]
      exact take_acks xs rest

/-- All that taking summaries does. -/
theorem take_summaries_iff : ∀ {n : Nat} {bs rest : List Byte} {xs : List Summary},
    takeSummaries n bs = some (xs, rest) ↔ xs.length = n ∧ bs = xs.flatMap summaryBytes ++ rest := by
  intro n
  induction n with
  | zero =>
    intro bs rest xs
    constructor
    · intro h
      unfold takeSummaries at h
      cases h; exact ⟨rfl, rfl⟩
    · rintro ⟨h, e⟩
      obtain rfl := List.length_eq_zero_iff.mp h
      unfold takeSummaries; rw [e]; rfl
  | succ n ih =>
    intro bs rest xs
    constructor
    · intro h
      unfold takeSummaries at h
      split at h
      · cases ‹_ = 0›
      · rename_i r g bs hn
        cases hn
        split at h
        · cases h
        · rename_i a ha
          obtain ⟨x, hx, he⟩ := Option.map_eq_some_iff.mp h
          obtain ⟨xs', rest'⟩ := x
          cases he
          obtain ⟨h1, rfl⟩ := ih.mp hx
          refine ⟨by simp [h1], ?_⟩
          obtain ⟨region, hr, he⟩ := Option.map_eq_some_iff.mp ha
          cases he
          rw [region_of_byte.mp hr]
          rfl
      · cases h
    · rintro ⟨h, rfl⟩
      rw [← h]
      exact take_summaries xs rest

theorem whole_iff {α : Type} {x : Option (α × List Byte)} {a : α} : whole x = some a ↔ x = some (a, []) := by
  unfold whole
  split
  · simp
  · rename_i h
    constructor
    · intro h; cases h
    · intro e; exact absurd e (h a)

end Sys2Proof.Machine
end

