-- ==== Sys2Proof/Laws/Choices.lean ====
section
/-! SUPPORT. The choice of a frame while another is sent, and what a release leaves of the frame unit. -/

namespace Sys2Proof.Machine

theorem pump_one {s u : State} {x : TxFrame} (ha : s.fu.assembly = .empty) (hc : choose s = u) (hl : u.fu.lineBuf =
    some x) (hu : u.fu.assembly ≠ .empty) : pump s = u := by
  have h1 : handover s = s := by unfold handover; rw [ha]
  have h2 : handover u = u := by unfold handover; rw [hl]; cases u.fu.assembly <;> rfl
  have h3 : choose u = u := by
    unfold choose
    split
    · rw [if_neg (by simp [hu])]
    · rfl
  unfold pump; rw [h1, hc, h2, h3]

theorem pump_empty_id {s : State} (ha : s.fu.assembly = .empty) (hy : ∀ t, s.del.turn = some t → t.yieldHanded = true) :
    pump s = s := by
  have h1 : handover s = s := by unfold handover; rw [ha]
  have h2 : choose s = s := by
    unfold choose
    split
    · rename_i t e; rw [if_neg (by simp [hy t e])]
    · rfl
  unfold pump; rw [h1, h2, h1, h2]

theorem choose_full {s : State} (h : s.fu.assembly ≠ .empty) : choose s = s := by
  unfold choose
  split
  · rw [if_neg (by simp [h])]
  · rfl

theorem pump_assembling {s : State} {r : RegionId} {k n : Nat} {ws : List Word} (h : s.fu.assembly = .assembling r k n ws) :
    pump s = s := by
  have h1 : handover s = s := by unfold handover; rw [h]
  have h2 : choose s = s := by
    unfold choose
    split
    · rw [if_neg (by simp [h])]
    · rfl
  unfold pump; rw [h1, h2, h1, h2]

/-- A frame waits while the line buffer is full (R140). -/
theorem pump_waits {s : State} {f x : TxFrame} (ha : s.fu.assembly = .complete f) (hl : s.fu.lineBuf = some x) :
    pump s = s := by
  have h1 : handover s = s := by unfold handover; rw [ha, hl]
  have h2 : choose s = s := choose_full (by rw [ha]; simp)
  unfold pump; rw [h1, h2, h1, h2]

/-- A COMPLETE frame moves to an EMPTY line buffer, and the choices go on from there (R140). -/
theorem pump_complete {s : State} {f : TxFrame} (ha : s.fu.assembly = .complete f) (hl : s.fu.lineBuf = none) :
    pump s = pump (frameHandedOver s f) := by
  have h : handover (frameHandedOver s f) = frameHandedOver s f := by
    unfold handover; rw [(frameHandedOver_fu s f).1]
  show choose (handover (choose (handover s))) = choose (handover (choose (handover (frameHandedOver s f))))
  rw [h, handover_complete ha hl]

theorem updPub_fu (s : State) (r : RegionId) (f : PubRecord → PubRecord) : (updPub s r f).fu = s.fu := by
  unfold updPub; split <;> rfl

theorem closeBatch_fu (s : State) (r : RegionId) : (closeBatch s r).fu = s.fu := by
  unfold closeBatch
  split
  · split
    · split
      · exact updPub_fu _ _ _
      · rfl
    · rfl
  · rfl

theorem decideWrite_fu (s : State) (h : HeldWrite) : (decideWrite s h).fu = s.fu := by
  unfold decideWrite
  split
  · generalize decideCapture _ _ _ _ = o
    cases o
    · rfl
    · rfl
    · exact closeBatch_fu s h.region
  · rfl

theorem reevaluate_fu (s : State) : (reevaluate s).fu = s.fu := by
  unfold reevaluate
  split
  · split
    · exact decideWrite_fu _ _
    · rfl
  · rfl

theorem releaseOldest_fu (s : State) (r : RegionId) : (releaseOldest s r).fu = s.fu := by
  unfold releaseOldest
  simp only
  rw [reevaluate_fu]
  split
  · split
    · exact updPub_fu _ _ _
    · exact (closeBatch_fu _ _).trans (updPub_fu _ _ _)
  · exact updPub_fu _ _ _

theorem releaseCheck_fu (s : State) (r : RegionId) : (releaseCheck s r).fu = s.fu := by
  unfold releaseCheck
  generalize ((pubAt s r).elim 0 fun p => p.retained.length) = n
  induction n generalizing s with
  | zero => rfl
  | succ n ih =>
    unfold releaseChain
    split
    · rw [ih, releaseOldest_fu]
    · rfl

/-- The state but for what a release may change: the region table, the capture unit and the memory path. -/
theorem updPub_part (s : State) (r : RegionId) (f : PubRecord → PubRecord) :
    updPub s r f = { s with regions := (updPub s r f).regions, cap := (updPub s r f).cap, path := (updPub s r f).path } := by
  unfold updPub; split <;> rfl

theorem part_trans {s t u : State} (h : t = { s with regions := t.regions, cap := t.cap, path := t.path })
    (k : u = { t with regions := u.regions, cap := u.cap, path := u.path }) :
    u = { s with regions := u.regions, cap := u.cap, path := u.path } := by
  rw [k]; rw [h]

theorem closeBatch_part (s : State) (r : RegionId) :
    closeBatch s r = { s with regions := (closeBatch s r).regions, cap := (closeBatch s r).cap, path := (closeBatch s r).path } := by
  unfold closeBatch
  split
  · split
    · split
      · exact part_trans (t := { s with cap := _ }) rfl (updPub_part _ _ _)
      · rfl
    · rfl
  · rfl

theorem reevaluate_part (s : State) :
    reevaluate s = { s with regions := (reevaluate s).regions, cap := (reevaluate s).cap, path := (reevaluate s).path } := by
  unfold reevaluate
  split
  · split
    · unfold decideWrite
      split
      · generalize decideCapture _ _ _ _ = o
        cases o
        · rfl
        · rfl
        · exact part_trans (closeBatch_part s _) rfl
      · rfl
    · rfl
  · rfl

theorem releaseOldest_part (s : State) (r : RegionId) : releaseOldest s r =
    { s with regions := (releaseOldest s r).regions, cap := (releaseOldest s r).cap, path := (releaseOldest s r).path } := by
  unfold releaseOldest
  refine part_trans ?_ (reevaluate_part _)
  split
  · split
    · exact part_trans (updPub_part s r _) rfl
    · exact part_trans (updPub_part s r _) (closeBatch_part _ _)
  · exact updPub_part s r _

/-- What a release check can change (R55). -/
theorem releaseCheck_part (s : State) (r : RegionId) : releaseCheck s r =
    { s with regions := (releaseCheck s r).regions, cap := (releaseCheck s r).cap, path := (releaseCheck s r).path } := by
  unfold releaseCheck
  generalize ((pubAt s r).elim 0 fun p => p.retained.length) = n
  induction n generalizing s with
  | zero => rfl
  | succ n ih =>
    unfold releaseChain
    split
    · exact part_trans (releaseOldest_part s r) (ih _)
    · rfl

/-- The pass of a region (R90). -/
def passOf (s : State) (r : RegionId) : Option Pass := (pubAt s r).bind PubRecord.pass

theorem passOf_updPub (s : State) (r q : RegionId) (f : PubRecord → PubRecord) (h : ∀ p, (f p).pass = p.pass) :
    passOf (updPub s r f) q = passOf s q := by
  unfold passOf
  by_cases e : q = r
  · subst e
    cases hp : pubAt s q with
    | none => unfold updPub; rw [hp]; simp only; rw [hp]
    | some p => rw [pubAt_updPub _ hp]; simp [h]
  · rw [pubAt_updPub_ne _ e]

theorem passOf_closeBatch (s : State) (r q : RegionId) : passOf (closeBatch s r) q = passOf s q := by
  unfold closeBatch
  split
  · split
    · split
      · exact passOf_updPub _ _ _ _ fun p => rfl
      · rfl
    · rfl
  · rfl

theorem passOf_reevaluate (s : State) (q : RegionId) : passOf (reevaluate s) q = passOf s q := by
  unfold reevaluate
  split
  · split
    · unfold decideWrite
      split
      · generalize decideCapture _ _ _ _ = o
        cases o
        · rfl
        · rfl
        · exact passOf_closeBatch s _ q
      · rfl
    · rfl
  · rfl

theorem passOf_releaseOldest (s : State) (r q : RegionId) : passOf (releaseOldest s r) q = passOf s q := by
  have hr : ∀ p, (releaseRecord p).pass = p.pass := fun p => by unfold releaseRecord; split <;> rfl
  unfold releaseOldest
  simp only
  rw [passOf_reevaluate]
  split
  · split
    · exact passOf_updPub _ _ _ _ hr
    · exact (passOf_closeBatch _ _ _).trans (passOf_updPub _ _ _ _ hr)
  · exact passOf_updPub _ _ _ _ hr

/-- A release check leaves the passes (R55). -/
theorem passOf_releaseCheck (s : State) (r q : RegionId) : passOf (releaseCheck s r) q = passOf s q := by
  unfold releaseCheck
  generalize ((pubAt s r).elim 0 fun p => p.retained.length) = n
  induction n generalizing s with
  | zero => rfl
  | succ n ih =>
    unfold releaseChain
    split
    · rw [ih, passOf_releaseOldest]
    · rfl

theorem startPass_eq {s : State} {r : RegionId} {p : PubRecord} (hp : pubAt s r = some p) :
    startPass s r = releaseCheck { withPub s r (passStarted s r p) with
      del := { s.del with passSerial := s.del.passSerial + 1 } } r := by
  unfold startPass
  simp only
  rw [updPub_with _ hp]
  have : startRecord p s.tc.roster (chunkCount (descAt s r).length) s.del.passSerial = passStarted s r p := by
    unfold startRecord passStarted passAtStart
    cases p.pass <;> rfl
  rw [this]
  rfl

theorem takeRefresh_start {s : State} {r : RegionId} {p : PubRecord} (hp : pubAt s r = some p)
    (h : ∀ c, p.pass = some c → c.nextChunk = 0) {c : Pass} (hc : (passStarted s r p).pass = some c) :
    takeRefresh s r = beginChunk (enterTurn { startPass s r with del := { (startPass s r).del with roundRobin := r } }
      (.chunk r 0 c.serial)) r 0 c.serial := by
  have hs : ((pubAt s r).any fun p => p.pass.all fun c => decide (c.nextChunk = 0)) = true := by
    rw [hp]
    cases e : p.pass with
    | none => simp [e]
    | some c => simp [e, h c e]
  unfold takeRefresh
  simp only [hs, if_true]
  have : ((pubAt (startPass s r) r).elim 0 fun p => p.pass.elim 0 fun c => c.serial) = c.serial := by
    have k : passOf (startPass s r) r = some c := by
      rw [startPass_eq hp, passOf_releaseCheck]
      unfold passOf
      rw [show pubAt { withPub s r (passStarted s r p) with del := { s.del with passSerial := s.del.passSerial + 1 } } r = some (passStarted s r p) from setPub_pub _]
      exact hc
    unfold passOf at k
    cases e : pubAt (startPass s r) r with
    | none => rw [e] at k; cases k
    | some u => rw [e] at k; simp only [Option.bind_some] at k; simp [k]
  rw [this]

theorem takeRefresh_next {s : State} {r : RegionId} {p : PubRecord} (hp : pubAt s r = some p) {c : Pass}
    (hc : p.pass = some c) (hn : c.nextChunk ≠ 0) :
    takeRefresh s r = beginChunk (enterTurn { withPub s r { p with pass := some { c with nextChunk := c.nextChunk + 1 } } with
      del := { s.del with roundRobin := r } } (.chunk r c.nextChunk c.serial)) r c.nextChunk c.serial := by
  unfold takeRefresh
  have hs : ((pubAt s r).any fun p => p.pass.all fun c => decide (c.nextChunk = 0)) = false := by
    rw [hp]; simp [hc, hn]
  simp only [hs, Bool.false_eq_true, if_false]
  rw [updPub_with _ hp]
  have k : pubAt (withPub s r { p with pass := p.pass.map fun c => { c with nextChunk := c.nextChunk + 1 } }) r = some { p with pass := p.pass.map fun c => { c with nextChunk := c.nextChunk + 1 } } := setPub_pub _
  rw [k, hp]
  simp only [Option.elim_some, hc, Option.map_some]
  rfl

theorem findSome_ids {α : Type} (f : RegionId → Option α) : ∀ (l : List RegionId), l.Pairwise (· < ·) → ∀ r x, r ∈ l →
    f r = some x → (∀ q, q ∈ l → q < r → f q = none) → l.findSome? f = some x := by
  intro l
  induction l with
  | nil => intro _ r x h; cases h
  | cons y l ih =>
    intro hl r x hr hf hq
    rw [List.findSome?_cons]
    rcases List.mem_cons.mp hr with e | e
    · subst e; rw [hf]
    · rw [hq y (by simp) ((List.pairwise_cons.mp hl).1 r e)]
      exact ih (List.pairwise_cons.mp hl).2 r x e hf fun q h k => hq q (by simp [h]) k

theorem find_first {l : List Batch} {P : Batch → Prop} {f : Batch → Bool} (hf : ∀ b, f b = true ↔ P b) (b : Batch) :
    l.find? f = some b ↔ FirstOf l P b := by
  rw [List.find?_eq_some_iff_append]
  constructor
  · rintro ⟨hb, as, bs, e, h⟩
    exact ⟨as, bs, e, (hf b).mp hb, fun x hx k => by have := h x hx; rw [(hf x).mpr k] at this; cases this⟩
  · rintro ⟨as, bs, e, hb, h⟩
    exact ⟨(hf b).mpr hb, as, bs, e, fun x hx => by
      cases k : f x
      · rfl
      · exact absurd ((hf x).mp k) (h x hx)⟩

theorem sent_iff (s : State) (r : RegionId) (p : PubRecord) (b : Batch) :
    (sentEarlier b s.del.ownTurn && !inTurnList s.del.turnList r (b.seq.getD 0) p.epoch) = true ↔ SentBefore s r p b := by
  unfold sentEarlier SentBefore
  have : inTurnList s.del.turnList r (b.seq.getD 0) p.epoch = true ↔
      (TurnEntry.first r (b.seq.getD 0) p.epoch ∈ s.del.turnList ∨ TurnEntry.repeated r (b.seq.getD 0) p.epoch ∈ s.del.turnList) := by
    unfold inTurnList
    rw [List.any_eq_true]
    constructor
    · rintro ⟨e, he, h⟩
      split at h
      · simp only [Bool.and_eq_true, decide_eq_true_eq] at h
        obtain ⟨⟨rfl, rfl⟩, rfl⟩ := h; exact .inl he
      · simp only [Bool.and_eq_true, decide_eq_true_eq] at h
        obtain ⟨⟨rfl, rfl⟩, rfl⟩ := h; exact .inr he
      · cases h
    · rintro (h | h)
      · exact ⟨_, h, by simp⟩
      · exact ⟨_, h, by simp⟩
  rw [Bool.and_eq_true, Bool.and_eq_true, decide_eq_true_eq, Bool.not_eq_true', ← Bool.not_eq_true, this, not_or]

theorem needs_iff (s : State) (r : RegionId) (p : PubRecord) (b : Batch) : needsRepeat s.del r p b = true ↔ NeedsRepeat s r p b := by
  unfold needsRepeat NeedsRepeat
  rw [Bool.and_eq_true, sent_iff, List.any_eq_true]
  refine and_congr Iff.rfl ⟨?_, ?_⟩
  · rintro ⟨⟨st, a⟩, he, h⟩
    unfold lackedBy at h
    split at h
    · rename_i q x e
      simp only at e; subst e
      unfold atOrPast at h
      simp only [Bool.and_eq_true, decide_eq_true_eq, Bool.not_eq_true', decide_eq_false_iff_not] at h
      exact ⟨st, q, x, he, h.1, by omega⟩
    · cases h
  · rintro ⟨st, q, x, he, h1, h2⟩
    refine ⟨_, he, ?_⟩
    unfold lackedBy atOrPast
    simp only [Bool.and_eq_true, decide_eq_true_eq, Bool.not_eq_true', decide_eq_false_iff_not]
    exact ⟨h1, by omega⟩

theorem repeats_iff (s : State) (r : RegionId) (p : PubRecord) (g : Byte) (b : Batch) :
    (atOrPast (b.seq.getD 0) g && sentEarlier b s.del.ownTurn && !inTurnList s.del.turnList r (b.seq.getD 0) p.epoch) = true ↔ RepeatsFrom s r p g b := by
  rw [Bool.and_assoc, Bool.and_eq_true, sent_iff]
  unfold RepeatsFrom atOrPast
  rw [decide_eq_true_eq]

theorem liveAt_iff {s : State} {r : RegionId} {p : PubRecord} : liveAt s r = some p ↔ pubAt s r = some p ∧ p.state = .live := by
  unfold liveAt
  rw [Option.filter_eq_some_iff, decide_eq_true_eq]

theorem repeatAt_some {s : State} {r : RegionId} {g : Byte} {p : PubRecord} {b : Batch} (hp : pubAt s r = some p ∧ p.state = .live)
    (h : FirstOf p.retained (RepeatsFrom s r p g) b) : repeatAt s (r, g) = some (r, g, b) := by
  unfold repeatAt
  simp only
  rw [liveAt_iff.mpr hp]
  simp only [Option.bind_some]
  unfold repeatFrom
  rw [(find_first (repeats_iff s r p g) b).mpr h]
  rfl

theorem repeatAt_none {s : State} {r : RegionId} {g : Byte} (h : ∀ p, pubAt s r = some p ∧ p.state = .live → ∀ b ∈ p.retained, ¬ RepeatsFrom s r p g b) :
    repeatAt s (r, g) = none := by
  unfold repeatAt
  simp only
  cases e : liveAt s r with
  | none => rfl
  | some p =>
    simp only [Option.bind_some]
    unfold repeatFrom
    have : p.retained.find? (fun b => atOrPast (b.seq.getD 0) g && sentEarlier b s.del.ownTurn && !inTurnList s.del.turnList r (b.seq.getD 0) p.epoch) = none := by
      rw [List.find?_eq_none]
      intro b hb k
      exact h p (liveAt_iff.mp e) b hb ((repeats_iff s r p g b).mp k)
    rw [this]; rfl

theorem allIds_sorted : allIds.Pairwise (· < ·) := by decide

theorem goBack_none {s : State} {r : RegionId} (h : ∀ u, (pubAt s r = some u ∧ u.state = .live) → ∀ y ∈ u.retained, ¬ NeedsRepeat s r u y) :
    ((liveAt s r).bind fun p => (p.retained.find? (needsRepeat s.del r p)).map fun b => (r, b.seq.getD 0)) = none := by
  cases e : liveAt s r with
  | none => rfl
  | some u =>
    simp only [Option.bind_some]
    have : u.retained.find? (needsRepeat s.del r u) = none := by
      rw [List.find?_eq_none]
      intro b hb k
      exact h u (liveAt_iff.mp e) b hb ((needs_iff s r u b).mp k)
    rw [this]; rfl

theorem work_iff (s : State) (r : RegionId) : hasRefreshWork s r = true ↔ RefreshWork s r := by
  unfold hasRefreshWork RefreshWork
  rw [Option.any_eq_true]
  constructor
  · rintro ⟨p, hp, h⟩
    obtain ⟨h1, h2⟩ := liveAt_iff.mp hp
    refine ⟨p, h1, h2, ?_⟩
    cases e : p.pass with
    | none => rw [e] at h; simpa using h
    | some c => rw [e] at h; simpa using h
  · rintro ⟨p, h1, h2, h⟩
    refine ⟨p, liveAt_iff.mpr ⟨h1, h2⟩, ?_⟩
    cases e : p.pass with
    | none => rw [e] at h; simpa using h
    | some c => rw [e] at h; simpa using h

/-- The place of an id after a position (R60). -/
def placeAfter (a r : RegionId) : Nat := (r.val + 15 - a.val) % 16

theorem idsAfter_sorted (a : RegionId) : (idsAfter a).Pairwise fun x y => placeAfter a x < placeAfter a y := by
  revert a; decide

theorem mem_idsAfter (a r : RegionId) : r ∈ idsAfter a := by revert a r; decide

theorem placeAfter_inj (a r q : RegionId) (h : placeAfter a r = placeAfter a q) : r = q := by
  apply Fin.ext
  unfold placeAfter at h
  omega

theorem find_least {f : RegionId → Bool} (k : RegionId → Nat) : ∀ (l : List RegionId), l.Pairwise (fun x y => k x < k y) → ∀ r,
    l.find? f = some r → f r = true ∧ ∀ q ∈ l, f q = true → k r ≤ k q := by
  intro l
  induction l with
  | nil => intro _ r h; cases h
  | cons y l ih =>
    intro hl r h
    rw [List.find?_cons] at h
    cases e : f y with
    | true =>
      rw [e] at h
      cases h
      refine ⟨e, fun q hq _ => ?_⟩
      rcases List.mem_cons.mp hq with x | x
      · subst x; exact Nat.le_refl _
      · exact Nat.le_of_lt ((List.pairwise_cons.mp hl).1 q x)
    | false =>
      rw [e] at h
      obtain ⟨h1, h2⟩ := ih (List.pairwise_cons.mp hl).2 r h
      refine ⟨h1, fun q hq hf => ?_⟩
      rcases List.mem_cons.mp hq with x | x
      · subst x; rw [e] at hf; cases hf
      · exact h2 q x hf

theorem repeatAt_pub {s : State} {k : RegionId × Byte} {r : RegionId} {g : Byte} {b : Batch} (h : repeatAt s k = some (r, g, b)) :
    ∃ p, pubAt s r = some p := by
  unfold repeatAt at h
  rw [Option.map_eq_some_iff] at h
  obtain ⟨x, h1, h2⟩ := h
  rw [Option.bind_eq_some_iff] at h1
  obtain ⟨p, h3, _⟩ := h1
  cases h2
  exact ⟨p, (liveAt_iff.mp h3).1⟩

/-- A retransmission is of a published region (R59). -/
theorem chooseRepeat_pub {s : State} {r : RegionId} {g : Byte} {b : Batch} (h : chooseRepeat s = some (r, g, b)) :
    ∃ p, pubAt s r = some p := by
  unfold chooseRepeat at h
  have : (s.del.kept.bind (repeatAt s)) = some (r, g, b) ∨ (findGoBack s).bind (repeatAt s) = some (r, g, b) := by
    cases e : s.del.kept.bind (repeatAt s) with
    | none => rw [e] at h; exact .inr h
    | some x => rw [e] at h; exact .inl h
  rcases this with h | h
  all_goals
    obtain ⟨k, _, e⟩ := Option.bind_eq_some_iff.mp h
    exact repeatAt_pub e

theorem startPass_fu (s : State) (r : RegionId) : (startPass s r).fu = s.fu := by
  unfold startPass; dsimp only; rw [releaseCheck_fu]; exact updPub_fu _ _ _

/-- A choice fills the assembly buffer and leaves the line buffer (R58, R141). -/
theorem chooseFrame_fu (s : State) (t : Turn) :
    (chooseFrame s t).fu.assembly ≠ .empty ∧ (chooseFrame s t).fu.lineBuf = s.fu.lineBuf := by
  unfold chooseFrame
  split
  · split
    · rename_i r g b e
      obtain ⟨p, hp⟩ := chooseRepeat_pub e
      unfold takeRepeat handData
      rw [show pubAt (enterTurn { s with del := { s.del with kept := some (r, g) } } (.repeated r (b.seq.getD 0) (epochOf s r))) r
        = some p from hp]
      exact ⟨by simp [assembleWhole], rfl⟩
    · split
      · unfold takeRefresh
        dsimp only
        refine ⟨by simp [beginChunk], ?_⟩
        split
        · show (startPass s _).fu.lineBuf = _
          rw [startPass_fu]
        · show (updPub s _ _).fu.lineBuf = _
          rw [updPub_fu]
      · split
        · rename_i r q rest _
          unfold takeNew
          dsimp only
          split
          · rename_i b e
            obtain ⟨p, hp, _⟩ := Option.bind_eq_some_iff.mp e
            unfold handData
            rw [show pubAt (enterTurn { s with cap := { s.cap with sendQueue := rest } } _) r = some p from hp]
            exact ⟨by simp [assembleWhole], rfl⟩
          · exact ⟨by simp [handYield, assembleWhole], rfl⟩
        · exact ⟨by simp [handYield, assembleWhole], rfl⟩
  · exact ⟨by simp [handYield, assembleWhole], rfl⟩

theorem choose_lineBuf (s : State) : (choose s).fu.lineBuf = s.fu.lineBuf := by
  unfold choose
  split
  · split
    · exact (chooseFrame_fu s _).2
    · rfl
  · rfl

/-- One choice is made at a time (R58). -/
theorem choose_twice (s : State) : choose (choose s) = choose s := by
  by_cases h : (choose s).fu.assembly = .empty
  · have : choose s = s := by
      unfold choose at h ⊢
      split at h
      · split at h
        · exact absurd h (chooseFrame_fu s _).1
        · rename_i k; exact if_neg k
      · rfl
    rw [this, this]
  · exact choose_full h

/-- Where a choice leaves the part: it stays with the line buffer full, and goes on with the line buffer EMPTY (R140). -/
theorem pump_chosen {s v : State} (ha : s.fu.assembly = .empty) (hc : choose s = v) (hv : v.fu.assembly ≠ .empty) :
    pump s = if s.fu.lineBuf = none then pump v else v := by
  have hl : v.fu.lineBuf = s.fu.lineBuf := by rw [← hc, choose_lineBuf]
  cases e : s.fu.lineBuf with
  | some x => exact (pump_one ha hc (hl.trans e) hv).trans (if_neg (by simp)).symm
  | none =>
    rw [if_pos rfl]
    have h1 : handover s = s := by unfold handover; rw [ha]
    have hp : pump s = choose (handover v) := by unfold pump; rw [h1, hc]
    rw [hp]
    cases k : v.fu.assembly with
    | empty => exact absurd k hv
    | assembling r i n ws =>
      have h2 : handover v = v := by unfold handover; rw [k]
      unfold pump; rw [h2, choose_full hv, h2, choose_full hv]
    | complete f =>
      have hn := hl.trans e
      have h4 := frameHandedOver_fu v f
      have h5 : handover (frameHandedOver v f) = frameHandedOver v f := by unfold handover; rw [h4.1]
      have h6 : handover (choose (frameHandedOver v f)) = choose (frameHandedOver v f) := by
        unfold handover; rw [choose_lineBuf, h4.2]
        cases (choose (frameHandedOver v f)).fu.assembly <;> rfl
      rw [pump_complete k hn, handover_complete k hn]
      unfold pump; rw [h5, h6, choose_twice]

end Sys2Proof.Machine
end

