-- ==== Sys2Proof/Laws/Rosters.lean ====
section
/-! SUPPORT. A change of the roster: the regions that become UNSYNCED together, the stations that leave and join at a cycle
start, and what neither touches. -/

namespace Sys2Proof.Machine

theorem insertByKey_perm {α : Type} (key : α → Nat) (x : α) : ∀ l : List α, (insertByKey key x l).Perm (x :: l) := by
  intro l
  induction l with
  | nil => exact .refl _
  | cons y l ih =>
    unfold insertByKey
    split
    · exact .refl _
    · exact (ih.cons y).trans (.swap x y l)

theorem sortByKey_perm {α : Type} (key : α → Nat) : ∀ l : List α, (sortByKey key l).Perm l := by
  intro l
  induction l with
  | nil => exact .refl _
  | cons x l ih => exact (insertByKey_perm key x _).trans (ih.cons x)

theorem post_rinb (s : State) (e : Event) (R : Vector Region 16) (I : Inbound) (k : Clock) (hk : k.us = s.clock.us) :
    post { s with regions := R, inb := I, clock := k } e = { post s e with regions := R, inb := I, clock := k } := by
  unfold post countLost unconsumed nowUs
  simp only [hk]
  split
  · split <;> rfl
  · rfl

theorem post_clock (s : State) (e : Event) : (post s e).clock = s.clock := by
  unfold post countLost
  split
  · split <;> rfl
  · rfl

theorem foldl_post_rinb (es : List Event) (R : Vector Region 16) (I : Inbound) (k : Clock) : ∀ s : State, k.us = s.clock.us →
    es.foldl post { s with regions := R, inb := I, clock := k } = { es.foldl post s with regions := R, inb := I, clock := k } := by
  induction es with
  | nil => intro s _; rfl
  | cons e es ih => intro s hk; rw [List.foldl_cons, List.foldl_cons, post_rinb _ _ _ _ _ hk, ih _ (by rw [post_clock]; exact hk)]

theorem unsync_following {t : State} {r : RegionId} {q : SubRecord} {c : UnsyncCause} (hq : subAt t r = some q) (hf : following q = true) :
    unsync t r c = post { t with regions := t.regions.set r.val { desc := descAt t r, record := .subscribed (unsyncRecord q) } r.isLt
                                 inb := { t.inb with slots := dropWaiting t.inb.slots r } }
      (mkEvent c.kind r (descAt t r).publisher q.applied c.detail) := by
  unfold unsync
  rw [hq]
  simp only
  rw [if_pos hf, updSub_eq _ hq]
  rfl

/-- The region that UNSYNCED leaves (R18). -/
def leftRegion (t : State) (r : RegionId) : Region :=
  { desc := descAt t r, record := .subscribed (unsyncRecord ((subAt t r).getD SubRecord.loaded)) }

/-- The event of a region that enters UNSYNCED (R18). -/
def leftEvent (t : State) (c : UnsyncCause) (r : RegionId) : Event :=
  mkEvent c.kind r (descAt t r).publisher ((subAt t r).elim 0 SubRecord.applied) c.detail

theorem fold_unsync (c : UnsyncCause) : ∀ (l : List RegionId), l.Nodup → ∀ t : State,
    (∀ r ∈ l, ∃ q, subAt t r = some q ∧ following q = true) →
    let u := l.foldl (fun t r => unsync t r c) t
    u = { (l.map (leftEvent t c)).foldl post t with
      regions := u.regions, inb := { t.inb with slots := u.inb.slots } } ∧
    u.inb.slots = t.inb.slots.filter (fun x => x.inProgress || decide (x.region ∉ l)) ∧
    ∀ r, regionAt u r = if r ∈ l then leftRegion t r else regionAt t r := by
  intro l
  induction l with
  | nil =>
    intro _ t _
    refine ⟨rfl, ?_, fun r => by simp⟩
    simp
  | cons r l ih =>
    intro hn t hf
    obtain ⟨q, hq, hfq⟩ := hf r (by simp)
    have hr : r ∉ l := (List.nodup_cons.mp hn).1
    simp only [List.foldl_cons]
    rw [unsync_following hq hfq]
    generalize hR : t.regions.set r.val { desc := descAt t r, record := .subscribed (unsyncRecord q) } r.isLt = R
    have hpe : post { t with regions := R, inb := { t.inb with slots := dropWaiting t.inb.slots r } } (mkEvent c.kind r (descAt t r).publisher q.applied c.detail) =
        { post t (leftEvent t c r) with regions := R, inb := { t.inb with slots := dropWaiting t.inb.slots r } } := by
      have := post_rinb t (leftEvent t c r) R { t.inb with slots := dropWaiting t.inb.slots r } t.clock rfl
      have e : leftEvent t c r = mkEvent c.kind r (descAt t r).publisher q.applied c.detail := by unfold leftEvent; rw [hq]; rfl
      rw [e] at this ⊢
      have hc := post_clock t (mkEvent c.kind r (descAt t r).publisher q.applied c.detail)
      refine this.trans ?_
      rw [← hc]
    rw [hpe]
    generalize hW : { post t (leftEvent t c r) with regions := R, inb := { t.inb with slots := dropWaiting t.inb.slots r } } = w
    have hwr : ∀ x, regionAt w x = if x = r then leftRegion t r else regionAt t x := by
      intro x
      rw [← hW]
      show R.get x = _
      rw [← hR]
      show (t.regions.set r.val _ r.isLt)[x.val] = _
      rw [Vector.getElem_set]
      by_cases e : x = r
      · subst e; rw [if_pos rfl, if_pos rfl]; unfold leftRegion; rw [hq]; rfl
      · rw [if_neg (fun h => e (Fin.ext h.symm)), if_neg e]; rfl
    have hother : ∀ x ∈ l, regionAt w x = regionAt t x := fun x hx => by
      rw [hwr, if_neg (fun (e : x = r) => hr (by rw [← e]; exact hx))]
    have hs : ∀ x ∈ l, subAt w x = subAt t x := fun x hx => by unfold subAt; rw [hother x hx]
    have hd : ∀ x ∈ l, descAt w x = descAt t x := fun x hx => by unfold descAt; rw [hother x hx]
    obtain ⟨h1, h2, h3⟩ := ih (List.nodup_cons.mp hn).2 w fun x hx => by rw [hs x hx]; exact hf x (by simp [hx])
    have hev : l.map (leftEvent w c) = l.map (leftEvent t c) := List.map_congr_left fun x hx => by
      unfold leftEvent; rw [hs x hx, hd x hx]
    have hwi : w.inb = { t.inb with slots := dropWaiting t.inb.slots r } := by rw [← hW]
    generalize l.foldl (fun t r => unsync t r c) w = u at h1 h2 h3 ⊢
    refine ⟨?_, ?_, fun x => ?_⟩
    · refine h1.trans ?_
      rw [hev, hwi, ← hW]
      have := foldl_post_rinb (l.map (leftEvent t c)) R { t.inb with slots := dropWaiting t.inb.slots r } (post t (leftEvent t c r)).clock (post t (leftEvent t c r)) rfl
      rw [List.map_cons, List.foldl_cons]
      rw [show ({ post t (leftEvent t c r) with regions := R, inb := { t.inb with slots := dropWaiting t.inb.slots r } } : State) = { post t (leftEvent t c r) with regions := R, inb := { t.inb with slots := dropWaiting t.inb.slots r }, clock := (post t (leftEvent t c r)).clock } from rfl, this]
      have hc : ∀ (es : List Event) (s : State), (es.foldl post s).clock = s.clock := by
        intro es
        induction es with
        | nil => intro s; rfl
        | cons e es ih => intro s; rw [List.foldl_cons, ih, post_clock]
      rw [← hc (l.map (leftEvent t c)) (post t (leftEvent t c r))]
    · rw [h2, hwi]
      unfold dropWaiting
      rw [List.filter_filter]
      apply List.filter_congr
      intro x _
      by_cases e1 : x.inProgress = true
      · simp [e1]
      · by_cases e2 : x.region = r <;> simp [e1, e2]
    · rw [h3]
      by_cases e : x = r
      · subst e
        rw [if_neg hr, if_pos (by simp), hwr, if_pos rfl]
      · by_cases hx : x ∈ l
        · rw [if_pos hx, if_pos (by simp [hx])]
          unfold leftRegion; rw [hs x hx, hd x hx]
        · rw [if_neg hx, if_neg (by simp [e, hx]), hwr, if_neg e]

theorem following_iff (q : SubRecord) : following q = true ↔ q.state = .refreshing ∨ q.state = .settling ∨ q.state = .current := by
  unfold following; cases q.state <;> simp

theorem mem_following (s : State) (p : RegionId → Bool) (r : RegionId) :
    r ∈ followingRegions s p ↔ ∃ q, subAt s r = some q ∧ following q = true ∧ p r = true := by
  unfold followingRegions
  rw [List.mem_filter, Bool.and_eq_true, Option.any_eq_true]
  constructor
  · rintro ⟨_, ⟨q, h1, h2⟩, h3⟩; exact ⟨q, h1, h2, h3⟩
  · rintro ⟨q, h1, h2, h3⟩; exact ⟨mem_allIds r, ⟨q, h1, h2⟩, h3⟩

theorem unsyncAll_spec (s : State) (p : RegionId → Bool) (c : UnsyncCause) (hc : c.kind = .regionUnsynced) :
    let t := unsyncAll s (followingRegions s p) c
    let moved (r : RegionId) (q : SubRecord) : Prop := following q = true ∧ p r = true
    (∀ r q, subAt s r = some q → moved r q →
        let left : SubRecord := { q with state := .unsynced, baseSeq := none, expected := none, settle := none }
        regionAt t r = { desc := descAt s r, record := .subscribed left }) ∧
      (∀ r, (∀ q, subAt s r = some q → ¬ moved r q) → regionAt t r = regionAt s r) ∧
      (∀ x, x ∈ t.inb.slots ↔ x ∈ s.inb.slots ∧
        (x.inProgress = true ∨ ∀ q, subAt s x.region = some q → ¬ moved x.region q)) ∧
      t.inb.slots.Sublist s.inb.slots ∧
      ∃ es : List Event, es.Nodup ∧
        (∀ e, e ∈ es ↔ ∃ r q, subAt s r = some q ∧ moved r q ∧
          e = mkEvent .regionUnsynced r (descAt s r).publisher q.applied c.detail) ∧
        t = { es.foldl post s with
          regions := t.regions, inb := { s.inb with slots := t.inb.slots }
          clock := { s.clock with choices := s.clock.choices + 1 } } := by
  intro t moved
  have hperm := sortByKey_perm (Config.postKey s.clock.choices) (followingRegions s p)
  have hmem : ∀ r, r ∈ freeOrder s (followingRegions s p) ↔ ∃ q, subAt s r = some q ∧ moved r q := fun r =>
    (hperm.mem_iff).trans (mem_following s p r)
  have hnd : (freeOrder s (followingRegions s p)).Nodup := (hperm.nodup_iff).mpr (allIds_nodup.filter _)
  have hmr : ∀ r, r ∈ freeOrder s (followingRegions s p) ↔ ∀ h : (∀ q, subAt s r = some q → ¬ moved r q), False := fun r => by
    rw [hmem]
    constructor
    · rintro ⟨q, h1, h2⟩ h; exact h q h1 h2
    · intro h
      cases e : subAt s r with
      | none => exact absurd (fun q hq => by rw [e] at hq; cases hq) (fun x => h x)
      | some q =>
        by_cases hm : moved r q
        · exact ⟨q, rfl, hm⟩
        · exact absurd (fun q' hq' => by rw [e] at hq'; cases hq'; exact hm) (fun x => h x)
  have ht : t = (freeOrder s (followingRegions s p)).foldl (fun t r => unsync t r c) (useChoice s) := rfl
  generalize freeOrder s (followingRegions s p) = l at *
  obtain ⟨h1, h2, h3⟩ := fold_unsync c l hnd (useChoice s) fun r hr => by
    obtain ⟨q, h1, h2⟩ := (hmem r).mp hr; exact ⟨q, h1, h2.1⟩
  rw [← ht] at h1 h2 h3
  clear_value t
  have hle : ∀ r, leftEvent (useChoice s) c r = leftEvent s c r := fun r => rfl
  refine ⟨fun r q hq hm => ?_, fun r hr => ?_, fun x => ?_, ?_, l.map (leftEvent s c), ?_, fun e => ?_, ?_⟩
  · show regionAt t r = { desc := descAt s r, record := .subscribed _ }
    rw [h3, if_pos ((hmem r).mpr ⟨q, hq, hm⟩)]
    unfold leftRegion
    rw [show subAt (useChoice s) r = some q from hq]
    rfl
  · rw [h3, if_neg (fun h => (hmr r).mp h hr)]; rfl
  · rw [h2, List.mem_filter, Bool.or_eq_true, decide_eq_true_eq]
    refine and_congr Iff.rfl (or_congr Iff.rfl ?_)
    rw [hmr]
    constructor
    · intro h; exact Classical.byContradiction h
    · intro h k; exact k h
  · rw [h2]; exact List.filter_sublist
  · refine List.Nodup.map ?_ hnd
    intro a b h
    exact congrArg Event.region h
  · rw [List.mem_map]
    constructor
    · rintro ⟨r, hr, rfl⟩
      obtain ⟨q, hq, hm⟩ := (hmem r).mp hr
      refine ⟨r, q, hq, hm, ?_⟩
      unfold leftEvent; rw [hq, hc]; rfl
    · rintro ⟨r, q, hq, hm, rfl⟩
      refine ⟨r, (hmem r).mpr ⟨q, hq, hm⟩, ?_⟩
      unfold leftEvent; rw [hq, hc]; rfl
  · refine h1.trans ?_
    have e : (l.map (leftEvent (useChoice s) c)).foldl post (useChoice s) = { (l.map (leftEvent s c)).foldl post s with clock := { s.clock with choices := s.clock.choices + 1 } } := by
      have k := foldl_post_rinb (l.map (leftEvent s c)) s.regions s.inb { s.clock with choices := s.clock.choices + 1 } s rfl
      have hp : ∀ (es : List Event) (s : State), (es.foldl post s).regions = s.regions ∧ (es.foldl post s).inb = s.inb := by
        intro es
        induction es with
        | nil => intro s; exact ⟨rfl, rfl⟩
        | cons e es ih =>
          intro s; rw [List.foldl_cons, (ih _).1, (ih _).2]
          unfold post countLost; split
          · split <;> exact ⟨rfl, rfl⟩
          · exact ⟨rfl, rfl⟩
      refine Eq.trans k ?_
      rw [← (hp (l.map (leftEvent s c)) s).1, ← (hp (l.map (leftEvent s c)) s).2]
    rw [e]
    rfl

theorem regionAt_updAll (f : PubRecord → PubRecord) (r : RegionId) : ∀ (l : List RegionId), l.Nodup → ∀ (t : State),
    regionAt (l.foldl (fun t r => updPub t r f) t) r = if r ∈ l then mapPub f (regionAt t r) else regionAt t r := by
  intro l hl
  induction l with
  | nil => intro t; simp
  | cons q l ih =>
    intro t
    rw [List.foldl_cons, ih (List.nodup_cons.mp hl).2, regionAt_updPub]
    by_cases e : r = q
    · subst e; simp [(List.nodup_cons.mp hl).1]
    · simp [e]

theorem post_setTc (s : State) (e : Event) (x : Turns) : post { s with tc := x } e = { post s e with tc := x } := by
  unfold post countLost unconsumed nowUs
  simp only
  split
  · split <;> rfl
  · rfl

theorem foldl_post_setTc (es : List Event) (x : Turns) : ∀ s : State, es.foldl post { s with tc := x } = { es.foldl post s with tc := x } := by
  induction es with
  | nil => intro s; rfl
  | cons e es ih => intro s; rw [List.foldl_cons, List.foldl_cons, post_setTc, ih]

theorem fold_roster (F : StationId → StationSet → StationSet) (E : State → StationId → Event) (step : State → StationId → State)
    (hstep : ∀ t st, step t st = post { t with tc := { t.tc with roster := F st t.tc.roster, misses := t.tc.misses.set st.val 0 st.isLt } } (E t st))
    (hE : ∀ s t st, t.tc.cycle = s.tc.cycle → t.params = s.params → E t st = E s st) : ∀ (l : List StationId) (s : State),
    l.foldl step s = { (l.map (E s)).foldl post s with tc := { s.tc with
      roster := l.foldl (fun x st => F st x) s.tc.roster, misses := l.foldl (fun m st => m.set st.val 0 st.isLt) s.tc.misses } } := by
  intro l
  induction l with
  | nil => intro s; rfl
  | cons st l ih =>
    intro s
    rw [List.foldl_cons, ih, hstep, post_setTc]
    have e : l.map (E { post s (E s st) with tc := { s.tc with roster := F st s.tc.roster, misses := s.tc.misses.set st.val 0 st.isLt } }) = l.map (E s) :=
      List.map_congr_left fun x _ => hE _ _ _ rfl (by
        show (post s (E s st)).params = _
        unfold post countLost; split
        · split <;> rfl
        · rfl)
    rw [e, foldl_post_setTc, List.map_cons, List.foldl_cons]
    rfl

theorem removed_eq (s : State) (l : List StationId) : l.foldl removeStation s = { (l.map (stationLost s)).foldl post s with tc := { s.tc with
      roster := l.foldl (fun x st => dropStation st x) s.tc.roster, misses := l.foldl (fun m st => m.set st.val 0 st.isLt) s.tc.misses } } :=
  fold_roster (fun st x => dropStation st x) stationLost removeStation (fun _ _ => rfl)
    (fun s t st h1 h2 => by unfold stationLost; rw [h1, h2]) l s

theorem joined_eq (s : State) (l : List StationId) : l.foldl joinStation s = { (l.map (stationJoined s)).foldl post s with tc := { s.tc with
      roster := l.foldl (fun x st => addStation st x) s.tc.roster, misses := l.foldl (fun m st => m.set st.val 0 st.isLt) s.tc.misses } } :=
  fold_roster (fun st x => addStation st x) stationJoined joinStation (fun _ _ => rfl)
    (fun s t st h1 h2 => by unfold stationJoined; rw [h1]) l s

theorem joined_after (s A : State) (x : Turns) (l : List StationId) (hc : x.cycle = s.tc.cycle) :
    l.foldl joinStation { A with tc := x } = { (l.map (stationJoined s)).foldl post A with tc := { x with
      roster := l.foldl (fun x st => addStation st x) x.roster, misses := l.foldl (fun m st => m.set st.val 0 st.isLt) x.misses } } := by
  rw [joined_eq]
  have e : l.map (stationJoined { A with tc := x }) = l.map (stationJoined s) := List.map_congr_left fun st _ => by
    unfold stationJoined
    show mkEvent _ _ _ (x.cycle + 1) _ = _
    rw [hc]
  rw [e, foldl_post_setTc]

theorem drop_bits (l : List StationId) (i : Nat) (hi : i < 16) : ∀ x : StationSet,
    (l.foldl (fun x st => dropStation st x) x).getLsbD i = (x.getLsbD i && !(l.any fun st => decide (st.val = i))) := by
  induction l with
  | nil => intro x; simp
  | cons st l ih =>
    intro x
    rw [List.foldl_cons, ih]
    have : (dropStation st x).getLsbD i = (x.getLsbD i && !decide (st.val = i)) := by
      unfold dropStation only
      rw [BitVec.getLsbD_and, BitVec.getLsbD_not, BitVec.getLsbD_shiftLeft]
      have := st.isLt
      by_cases e : st.val = i
      · subst e; simp [hi]
      · by_cases h : i < st.val
        · simp [hi, h, e]
        · have : i - st.val ≠ 0 := by omega
          simp [hi, h, e, this]
    rw [this, List.any_cons]
    cases x.getLsbD i <;> cases decide (st.val = i) <;> simp

theorem add_bits (l : List StationId) (i : Nat) (hi : i < 16) : ∀ x : StationSet,
    (l.foldl (fun x st => addStation st x) x).getLsbD i = (x.getLsbD i || (l.any fun st => decide (st.val = i))) := by
  induction l with
  | nil => intro x; simp
  | cons st l ih =>
    intro x
    rw [List.foldl_cons, ih]
    have : (addStation st x).getLsbD i = (x.getLsbD i || decide (st.val = i)) := by
      unfold addStation only
      rw [BitVec.getLsbD_or, BitVec.getLsbD_shiftLeft]
      have := st.isLt
      by_cases e : st.val = i
      · subst e; simp [hi]
      · by_cases h : i < st.val
        · simp [hi, h, e]
        · have : i - st.val ≠ 0 := by omega
          simp [hi, h, e, this]
    rw [this, List.any_cons]
    cases x.getLsbD i <;> cases decide (st.val = i) <;> simp

theorem members_any (x : StationSet) (i : Nat) (hi : i < 16) : ((members x).any fun st => decide (st.val = i)) = x.getLsbD i := by
  rw [Bool.eq_iff_iff, List.any_eq_true]
  constructor
  · rintro ⟨st, h1, h2⟩
    unfold members at h1
    rw [List.mem_filter] at h1
    rw [decide_eq_true_eq] at h2
    rw [← h2]; exact h1.2
  · intro h
    refine ⟨⟨i, hi⟩, ?_, by simp⟩
    unfold members
    rw [List.mem_filter]
    exact ⟨mem_allIds _, h⟩

theorem mem_members (x : StationSet) (st : StationId) : st ∈ members x ↔ x.getLsbD st.val = true := by
  unfold members
  rw [List.mem_filter]
  exact ⟨fun h => h.2, fun h => ⟨mem_allIds _, h⟩⟩

theorem miss_get (st : StationId) : ∀ (l : List StationId) (m : Vector Nat 16),
    (l.foldl (fun m st => m.set st.val 0 st.isLt) m).get st = if st ∈ l then 0 else m.get st := by
  intro l
  induction l with
  | nil => intro m; simp
  | cons x l ih =>
    intro m
    rw [List.foldl_cons, ih]
    by_cases h : st ∈ l
    · simp [h]
    · have : (m.set x.val 0 x.isLt).get st = if st = x then 0 else m.get st := by
        show (m.set x.val 0 x.isLt)[st.val] = _
        rw [Vector.getElem_set]
        by_cases e : st = x
        · subst e; simp
        · have : ¬ x.val = st.val := fun h => e (Fin.ext h.symm)
          rw [if_neg this, if_neg e]; rfl
      rw [this]
      by_cases e : st = x <;> simp [h, e]

theorem foldl_post_rest (es : List Event) : ∀ s : State, (es.foldl post s).tc = s.tc ∧ (es.foldl post s).params = s.params := by
  induction es with
  | nil => intro s; exact ⟨rfl, rfl⟩
  | cons e es ih =>
    intro s; rw [List.foldl_cons, (ih _).1, (ih _).2]
    unfold post countLost; split
    · split <;> exact ⟨rfl, rfl⟩
    · exact ⟨rfl, rfl⟩

theorem unsyncAbsent_rest (s : State) : (unsyncAbsent s).tc = s.tc ∧ (unsyncAbsent s).params = s.params := by
  obtain ⟨_, _, _, _, es, _, _, h⟩ := unsyncAll_spec s (fun r => !member (descAt s r).publisher s.tc.roster) .publisherAbsent rfl
  unfold unsyncAbsent
  rw [h]
  exact foldl_post_rest es s

theorem abandonIfEmpty_rest (s : State) (r : RegionId) : (abandonIfEmpty s r).tc = s.tc ∧ (abandonIfEmpty s r).params = s.params := by
  unfold abandonIfEmpty abandonPass withdrawChunk updPub
  repeat' split
  all_goals exact ⟨rfl, rfl⟩

/-- A change of the roster leaves the turn controller and its parameters (R20, R54, R101). -/
theorem rosterChanged_rest (s : State) : (rosterChanged s).tc = s.tc ∧ (rosterChanged s).params = s.params := by
  have fold : ∀ (f : State → RegionId → State), (∀ s r, (f s r).tc = s.tc ∧ (f s r).params = s.params) →
      ∀ (l : List RegionId) (s : State), (l.foldl f s).tc = s.tc ∧ (l.foldl f s).params = s.params := by
    intro f hf l
    induction l with
    | nil => intro s; exact ⟨rfl, rfl⟩
    | cons r l ih => intro s; rw [List.foldl_cons, (ih _).1, (ih _).2]; exact hf s r
  have h1 : ∀ s r, (releaseCheck s r).tc = s.tc ∧ (releaseCheck s r).params = s.params := fun s r => by
    rw [releaseCheck_part]; exact ⟨rfl, rfl⟩
  have h2 : ∀ (s : State) (f : PubRecord → PubRecord) r, (updPub s r f).tc = s.tc ∧ (updPub s r f).params = s.params := fun s f r => by
    rw [updPub_part]; exact ⟨rfl, rfl⟩
  unfold rosterChanged rosterChangedForPubs releaseCheckAll updAllPubs
  have a := fold releaseCheck h1 allIds
  have b := fold abandonIfEmpty abandonIfEmpty_rest allIds
  have d := fun f => fold (fun t r => updPub t r f) (fun s r => h2 s f r) allIds
  rw [(a _).1, (a _).2, (b _).1, (b _).2, (d _ _).1, (d _ _).2]
  exact unsyncAbsent_rest s

theorem abandon_form {s : State} {r : RegionId} {p : PubRecord} (hp : pubAt s r = some p) :
    pubAt (abandonPass s r) r = some { p with pass := none } ∧ (abandonPass s r).cap = s.cap ∧ (abandonPass s r).path.host = s.path.host := by
  have hg : (updPub s r fun p => { p with pass := none }) = withPub s r { p with pass := none } := updPub_with _ hp
  unfold abandonPass
  rw [hp, Option.any_some]
  split
  · rw [hg]
    unfold withdrawChunk
    split
    · split
      · exact ⟨setPub_pub _, rfl, rfl⟩
      · exact ⟨setPub_pub _, rfl, rfl⟩
    · exact ⟨setPub_pub _, rfl, rfl⟩
  · rename_i hn
    have : p.pass = none := by simpa using hn
    refine ⟨?_, rfl, rfl⟩
    rw [hp, ← this]

theorem claim_filter (c : Option Claim) (r : RegionId) :
    (if (c.any fun c => decide (c.region = r)) = true then none else c) = c.filter fun c => decide (c.region ≠ r) := by
  cases c with
  | none => rfl
  | some c => by_cases h : c.region = r <;> simp [h, Option.filter]

theorem setBack_at (s : State) (r : RegionId) : regionAt (setBackPasses s) r = mapPub (setBackRecord s.del.turnList r) (regionAt s r) := by
  unfold setBackPasses
  have : ∀ (l : List RegionId), l.Nodup → ∀ (t : State), regionAt (l.foldl (fun t r => updPub t r (setBackRecord s.del.turnList r)) t) r = if r ∈ l then mapPub (setBackRecord s.del.turnList r) (regionAt t r) else regionAt t r := by
    intro l hl
    induction l with
    | nil => intro t; simp
    | cons q l ih =>
      intro t
      rw [List.foldl_cons, ih (List.nodup_cons.mp hl).2, regionAt_updPub]
      by_cases e : r = q
      · subst e; simp [(List.nodup_cons.mp hl).1]
      · simp [e]
  rw [this _ allIds_nodup, if_pos (mem_allIds r)]

/-- The escape of a held write of a published region (R13, R44, R102). -/
theorem escapeRegion_eq {s : State} {r : RegionId} {p : PubRecord} (hp : pubAt s r = some p) :
    escapeRegion s r = postAmong s.agent.events.length (pump { withPub (abandonPass s r) r { discarded p with
          generation := p.generation + 1, acks := p.acks.map fun e => (e.1, .unknown), pass := none, pendingTargets := 0 } with
        cap := { sendQueue := s.cap.sendQueue.filter fun e => decide (e.1 ≠ r)
                 claim := s.cap.claim.filter fun c => decide (c.region ≠ r), held := none }
        path := { (abandonPass s r).path with host := s.path.host.map fun x => { x with condition := .awaitingGrant } } })
      (mkEvent .escape r 15 (p.nextSeq - 1) (p.generation + 1).toNat) := by
  obtain ⟨ha, hac, hah⟩ := abandon_form hp
  have k : updPub (Machine.discard (abandonPass s r) r) r escapeRecord = { withPub (abandonPass s r) r { discarded p with
          generation := p.generation + 1, acks := p.acks.map fun e => (e.1, .unknown), pass := none, pendingTargets := 0 } with
        cap := { s.cap with
          sendQueue := s.cap.sendQueue.filter fun e => decide (e.1 ≠ r)
          claim := s.cap.claim.filter fun c => decide (c.region ≠ r) } } := by
    unfold Machine.discard
    simp only
    have e : claimOf (updPub (abandonPass s r) r discardRecord) r = (s.cap.claim.any fun c => decide (c.region = r)) := by
      unfold claimOf; rw [updPub_cap, hac]
    rw [e, updPub_cap, hac, claim_filter]
    rw [updPub_with _ ha, updPub_capd]
    rfl
  unfold escapeRegion
  rw [k]
  unfold releaseHeld setHostCondition
  simp only
  have hpub : ∀ (q : PubRecord) c y, pubAt { withPub (abandonPass s r) r q with cap := c, path := y } r = some q := fun _ _ _ => setPub_pub _
  rw [hpub]
  simp only
  rw [← hah]
  rfl

end Sys2Proof.Machine
end

