-- ==== Sys2Proof/Laws/Applied.lean ====
section
/-! SUPPORT. How an apply starts and completes, the grant of a SNAP read, and a subscribed region's record replaced. -/

namespace Sys2Proof.Machine

/-- The grant of an apply's write at the completion of another access (R80, R81, R169). -/
theorem applyWrite_exec {s : State} {x : Slot} {k : Nat} {i : ApplyItem} (h : ApplyWriteMeets s x k i) :
    exec .memoryAccessComplete s = .next (settle s (portFreed s)) ∧
      arbitrate (portFreed s) = grantApply (applyGranted s x.region i) := by
  obtain ⟨hp, hw, ha, rest, pos, he, hs, hi⟩ := h
  refine ⟨freed_exec hp, ?_⟩
  have hf := portFreed_path s
  have e0 := portFreed_only s
  have e1 : applyAccess (portFreed s) = itemWrite s x.region i := by
    rw [e0]
    unfold applyAccess
    rw [show applyItem { s with path := (portFreed s).path } = some (x, k, i) by
      unfold applyItem
      dsimp only
      rw [he, hs]
      dsimp only
      rw [show descAt { s with path := (portFreed s).path } x.region = descAt s x.region from rfl, hi]; rfl]
    rfl
  rw [arbitrate_apply hf.1 (portFreed_waits hw) (hf.2.2.1.trans ha), grantApplyPort_eq e1]
  rw [e0]
  rfl

theorem applyWrite_item {s : State} {x : Slot} {k : Nat} {i : ApplyItem} (h : ApplyWriteMeets s x k i) :
    applyItem (applyGranted s x.region i) = some (x, k, i) := by
  obtain ⟨_, _, _, rest, pos, he, hs, hi⟩ := h
  unfold applyItem
  rw [show (applyGranted s x.region i).inb = s.inb from rfl, he, hs]
  dsimp only
  rw [show descAt (applyGranted s x.region i) x.region = descAt s x.region from rfl, hi]; rfl

theorem last_arb {s : State} {x : Slot} {k : Nat} {i : ApplyItem} (h : ApplyWriteMeets s x k i)
    (hn : seekItem (descAt s x.region).length (slotItems x) (k + 1) = none) :
    exec .memoryAccessComplete s = .next (settle s (portFreed s)) ∧
      arbitrate (portFreed s) = stopWaitOver (slotApplied (applyEnded s x.region i) x) := by
  refine ⟨(applyWrite_exec h).1, ?_⟩
  rw [(applyWrite_exec h).2, grantApply_last (applyWrite_item h) (by exact hn)]
  unfold completeApply
  rw [releaseFenced_eq]
  rfl

/-- A write of an apply that is not its last: the next one inside the region is requested (R81). -/
theorem next_arb {s : State} {x : Slot} {k n : Nat} {i j : ApplyItem} (h : ApplyWriteMeets s x k i)
    (hn : seekItem (descAt s x.region).length (slotItems x) (k + 1) = some (n, j)) :
    arbitrate (portFreed s) = { applyGranted s x.region i with
      inb := { s.inb with engine := some n }, path := { (applyGranted s x.region i).path with apply := .waiting } } := by
  rw [(applyWrite_exec h).2, grantApply_next (applyWrite_item h) (by exact hn)]
  rfl

theorem withSub_self {G : State} {r : RegionId} {q' : SubRecord} (hq' : subAt G r = some q') : withSub G r q' = G := by
  have := regionAt_sub hq'
  unfold withSub setRegion
  have h3 : G.regions.set r.val { desc := descAt G r, record := .subscribed q' } r.isLt = G.regions := by
    have h4 : ({ desc := descAt G r, record := .subscribed q' } : Region) = G.regions.get r := by
      show _ = regionAt G r
      unfold descAt
      rw [← this]
    rw [h4]
    apply Vector.ext
    intro j hj
    rw [Vector.getElem_set]
    split
    · rename_i e; subst e; rfl
    · rfl
  rw [h3]

theorem withSub_sub {G : State} {r : RegionId} (q : SubRecord) : subAt (withSub G r q) r = some q := by
  unfold withSub subAt; rw [regionAt_setRegion, if_pos rfl]

theorem withSub_desc (G : State) (r : RegionId) (q : SubRecord) : descAt (withSub G r q) r = descAt G r := by
  unfold descAt withSub; rw [regionAt_setRegion, if_pos rfl]; rfl

theorem withSub_with (G : State) (r : RegionId) (p q : SubRecord) : withSub (withSub G r p) r q = withSub G r q := by
  unfold withSub setRegion
  have hd : descAt { G with regions := G.regions.set r.val { desc := descAt G r, record := .subscribed p } r.isLt } r = descAt G r := withSub_desc G r p
  rw [hd]
  congr 1
  apply Vector.ext
  intro j hj
  rw [Vector.getElem_set, Vector.getElem_set, Vector.getElem_set]
  split <;> rfl

theorem postCurrent_eq {G : State} {r : RegionId} (q : SubRecord) : postCurrent (withSub G r q) r =
    post (withSub G r q) (mkEvent .regionCurrent r (descAt G r).publisher q.applied 0) := by
  unfold postCurrent; rw [withSub_sub, withSub_desc]

theorem post_executing (s : State) (e : Event) : (post s e).agent.executing = s.agent.executing := by
  unfold post countLost
  split
  · split <;> rfl
  · rfl

theorem arbitrate_snap {s : State} (hp : s.path.port = .free) (hw : waitingHost s = none) (ha : s.path.apply ≠ .waiting)
    (hs : s.path.snap = true) : arbitrate s = grantSnapPort s := by
  unfold arbitrate; rw [hp]; simp only
  unfold grantNext; rw [hw]; simp only
  unfold grantInternal; rw [if_neg ha, if_pos hs]; rfl

theorem port_settle {s t : State} (h : t.path.port ≠ .free) : unmarked (settle s t) = unmarked t :=
  unmarked_settle_of_serves (serves_busy h)

theorem dataApplied_eq {g : State} {r : RegionId} {n : Byte} {u : SubRecord} (hu : subAt g r = some u) (hoff : u.state ≠ .off) :
    dataApplied g r n =
      let q := appliedRecord n u
      if q.applied ≠ u.applied ∧ u.state = .settling ∧ (u.settle.any fun x => atOrPast q.applied x) then
        post (withSub g r (currentRecord q)) (mkEvent .regionCurrent r (descAt g r).publisher q.applied 0)
      else withSub g r q := by
  unfold dataApplied
  rw [hu]
  dsimp only
  rw [if_neg hoff, show (updSub g r fun _ => appliedRecord n u) = withSub g r (appliedRecord n u) from updSub_eq _ hu,
    updSub_eq _ (withSub_sub _)]
  split
  · show postCurrent (withSub (withSub g r _) r _) r = _
    rw [withSub_with, postCurrent_eq]
    rfl
  · rfl

theorem appliedRecord_eq (n : Byte) (u : SubRecord) : appliedRecord n u =
    if 1 ≤ (n - u.applied).toNat ∧ (n - u.applied).toNat ≤ 127 ∧ (u.accepted - n).toNat ≤ 127 then { u with applied := n }
    else u := by
  unfold appliedRecord
  by_cases h : 1 ≤ (n - u.applied).toNat ∧ (n - u.applied).toNat ≤ 127 ∧ (u.accepted - n).toNat ≤ 127
  · rw [if_pos h, if_pos (by rw [Bool.and_eq_true, newer_iff, atOrPast_iff]; exact ⟨⟨h.1, h.2.1⟩, h.2.2⟩)]
  · rw [if_neg h, if_neg]
    intro k; apply h
    rw [Bool.and_eq_true, newer_iff, atOrPast_iff] at k
    exact ⟨k.1.1, k.1.2, k.2⟩

/-- The end of an apply, wherever it falls: what the slot's kind does to its region, and the result of a STOP that waits
(R82, R87). -/
theorem applyCompletes_of {c : Instr} {s g u : State} {x : Slot} (hexec : exec c s = .next (settle s u))
    (harb : unmarked (arbitrate u) = unmarked (stopWaitOver (slotApplied g x))) (hr : g.regions = s.regions)
    (ha : g.agent = s.agent) : ApplyCompletes c s g x := by
  have hsub : ∀ r, subAt g r = subAt s r := fun r => by unfold subAt regionAt; rw [hr]
  have hdesc : ∀ r, descAt g r = descAt s r := fun r => by unfold descAt regionAt; rw [hr]
  have fin : ∀ G : State, slotApplied g x = G → G.agent.executing = s.agent.executing →
      (s.agent.executing.all fun e => decide (e.code ≠ 3)) = true →
      ∃ t, exec c s = .next t ∧ unmarked t = unmarked G := by
    intro G hG hagent hx
    exact ⟨_, hexec, by rw [unmarked_settle, harb, hG, stopWaitOver_id (by rw [hagent]; exact hx)]⟩
  refine ⟨fun rs u hx hn hu hoff => ?_, fun j last ws u hx hn hu => ?_, fun u e hu hoff he hc hres => ?_⟩
  · have hs : slotApplied g x = dataApplied g x.region x.seq := by unfold slotApplied; rw [hx]
    rw [← hsub] at hu
    rw [dataApplied_eq hu hoff, appliedRecord_eq] at hs
    intro takes
    by_cases ht : takes
    · rw [if_pos ht] at hs
      have hne : x.seq ≠ u.applied := fun k => by have := ht.1; rw [k] at this; simp at this
      refine ⟨fun h => absurd ht h, fun _ hst => ?_, fun v _ hst hv hl => ?_, fun v _ hst hv hl => ?_⟩
      · exact fin _ (hs.trans (if_neg fun k => hst k.2.1)) (congrArg Agent.executing ha) hn
      · refine fin _ (hs.trans (if_neg fun k => ?_)) (congrArg Agent.executing ha) hn
        have := k.2.2; rw [hv, Option.any_some, atOrPast_iff] at this; dsimp only at this; omega
      · refine fin _ (hs.trans ((if_pos ⟨hne, hst, by rw [hv, Option.any_some, atOrPast_iff]; exact hl⟩).trans ?_)) ?_ hn
        · rw [hdesc]; rfl
        · rw [post_executing]; exact congrArg Agent.executing ha
    · rw [if_neg ht] at hs
      refine ⟨fun _ => ?_, fun h => absurd h ht, fun v h => absurd h ht, fun v h => absurd h ht⟩
      refine fin _ (hs.trans ((if_neg fun k => k.1 rfl).trans (withSub_self hu))) (congrArg Agent.executing ha) hn
  · have hs : slotApplied g x = chunkApplied g x.region x.seq last := by unfold slotApplied; rw [hx]
    rw [← hsub] at hu
    unfold chunkApplied at hs
    rw [hu] at hs
    dsimp only at hs
    intro ends
    refine ⟨fun h => fin _ (hs.trans ?_) (congrArg Agent.executing ha) hn, fun v he hv hl => ?_, fun v he hv hl => ?_⟩
    · rcases h with h | h
      · cases u.settle with
        | none => rfl
        | some v => exact if_neg h
      · rw [h]
    · rw [hv] at hs
      refine fin _ (hs.trans ((if_pos he).trans ((if_pos ((atOrPast_iff _ _).mpr hl)).trans ?_))) ?_ hn
      · rw [updSub_eq _ hu]
        show postCurrent (withSub g x.region _) x.region = _
        rw [postCurrent_eq, hdesc]
        rfl
      · rw [post_executing]; exact congrArg Agent.executing ha
    · rw [hv] at hs
      refine fin _ (hs.trans ((if_pos he).trans ((if_neg (by rw [atOrPast_iff]; omega)).trans ?_))) ?_ hn
      · rw [updSub_eq _ hu]
        unfold withSub; rw [hv]
      · exact congrArg Agent.executing ha
  · rw [← hsub] at hu
    refine ⟨_, hexec, ?_⟩
    have hs : slotApplied g x = g := by
      unfold slotApplied
      split
      · unfold dataApplied; rw [hu]; exact if_pos hoff
      · unfold chunkApplied; rw [hu]; dsimp only
        split
        · exact if_neg fun k => by rw [hoff] at k; cases k.2.1
        · rfl
    rw [unmarked_settle, harb, hs]
    unfold stopWaitOver reachResult
    rw [if_pos (by rw [ha, he]; simp [hc, hres]), ha, he]
    rfl

theorem applied_path (s : State) (x : Slot) : (stopWaitOver (slotApplied s x)).path = s.path := by
  have hu : ∀ (s : State) (r : RegionId) (f : SubRecord → SubRecord), (updSub s r f).path = s.path := by
    intro s r f; unfold updSub; split <;> rfl
  have hp : ∀ (s : State) (r : RegionId), (postCurrent s r).path = s.path := by
    intro s r; unfold postCurrent; split
    · rw [post_eq]
    · rfl
  have h1 : (slotApplied s x).path = s.path := by
    unfold slotApplied
    split
    · unfold dataApplied
      split
      · split
        · rfl
        · dsimp only
          split
          · rw [hp, hu, hu]
          · rw [hu]
      · rfl
    · unfold chunkApplied
      split
      · split
        · split
          · split
            · rw [hp, hu]
            · rw [hu]
          · rfl
        · rfl
      · rfl
  unfold stopWaitOver
  split
  · exact h1
  · exact h1

/-- An apply with no item to write is complete at its start (R79, R82). -/
theorem startApply_none {s : State} {x : Slot} {rest : List Slot} (hs : s.inb.slots = x :: rest)
    (hi : seekItem (descAt s x.region).length (slotItems x) 0 = none) :
    startApply s x = stopWaitOver (slotApplied { s with
      inb := { slots := rest.filter fun y => !y.inProgress, engine := none, fence := none }
      path := { s.path with host := fenceReleased s.path.host, apply := .none } } x) := by
  unfold startApply
  rw [hi, hs]
  dsimp only
  unfold completeApply
  rw [releaseFenced_eq]
  rfl

theorem fenceReleased_id {h : Option HostAccess} (k : ∀ x, h = some x → x.condition ≠ .fenceHeld) : fenceReleased h = h := by
  cases h with
  | none => rfl
  | some x => unfold fenceReleased; rw [Option.map_some, if_neg (k x rfl)]

/-- The first item is the last, and the port FREE: the apply is complete at that item's grant (R80 to R82). -/
theorem startApply_last {s : State} {x : Slot} {rest : List Slot} {pos : Nat} {i : ApplyItem} (hv : PortServes s)
    (hp : s.path.port = .free) (hs : s.inb.slots = x :: rest)
    (hi : seekItem (descAt s x.region).length (slotItems x) 0 = some (pos, i))
    (hn : seekItem (descAt s x.region).length (slotItems x) (pos + 1) = none) :
    arbitrate (startApply s x) =
      stopWaitOver (slotApplied (applyEnded { s with inb := { s.inb with slots := rest } } x.region i) x) := by
  obtain ⟨n1, n2, n3, n4⟩ := hv hp
  have ha : hostAwaitsRegion s x.region = false := by
    cases e : hostAwaitsRegion s x.region
    · rfl
    · have := hostAwaitsRegion_waits e
      unfold hostWaits at this; unfold waitingHost at n1
      cases h : s.path.host with
      | none => rw [h] at this; cases this
      | some y => rw [h] at this n1; simp at this n1; exact absurd this n1
  rw [startApply_eq hs hi, ha]
  let u : State := { s with
    inb := { slots := { x with inProgress := true } :: rest, engine := some pos, fence := some x.region }
    path := { s.path with apply := .waiting } }
  show arbitrate u = _
  have hd : ∀ G : State, G.regions = s.regions → descAt G x.region = descAt s x.region :=
    fun G h => by unfold descAt regionAt; rw [h]
  have hitem : ∀ G : State, G.regions = s.regions → G.inb = u.inb → applyItem G = some ({ x with inProgress := true }, pos, i) := by
    intro G h1 h2
    unfold applyItem
    rw [h2]
    dsimp only [u]
    rw [hd G h1, show slotItems { x with inProgress := true } = slotItems x from rfl, seek_again hi]; rfl
  have e1 : applyAccess u = itemWrite s x.region i := by
    unfold applyAccess; rw [hitem u rfl rfl]; rfl
  have e2 : ∀ G : State, G.regions = s.regions →
      seekItem (descAt G x.region).length (slotItems { x with inProgress := true }) (pos + 1) = none :=
    fun G h => by rw [hd G h]; exact hn
  have harb : arbitrate u = completeApply { u with
      mem := accessMemory s.mem (itemWrite s x.region i)
      path := { s.path with
        port := .busy .apply (itemWrite s x.region i), last := if s.top = .inReset then .none else .internal
        apply := .none } } { x with inProgress := true } := by
    rw [arbitrate_apply (s := u) hp n1 rfl, grantApplyPort_eq e1]
    refine Eq.trans (grantApply_last (hitem _ ?_ ?_) (e2 _ ?_)) ?_ <;> rfl
  rw [harb]
  unfold completeApply
  rw [releaseFenced_eq]
  unfold applyEnded applyGranted
  rw [portFreed_free (s := { s with inb := { s.inb with slots := rest } }) hp]
  rfl

theorem nextItem_none (len : Nat) : ∀ (items : List ApplyItem) (p : Nat),
    nextItem len p items = none ↔ ∀ (j : Nat) (y : ApplyItem), items[j]? = some y → len ≤ y.offset := by
  intro items
  induction items with
  | nil => intro p; simp [nextItem]
  | cons i is ih =>
    intro p
    unfold nextItem
    split
    · rename_i h
      refine ⟨fun k => (nomatch k), fun k => ?_⟩
      have := k 0 i rfl; omega
    · rename_i h
      rw [ih]
      constructor
      · intro k j y hy
        cases j with
        | zero => cases hy; omega
        | succ j => exact k j y hy
      · intro k j y hy; exact k (j + 1) y hy

/-- No item is left to write: every item from the position on lies outside the region (R5, R80, R81). -/
theorem seekItem_none (len : Nat) (items : List ApplyItem) (p : Nat) :
    seekItem len items p = none ↔ ∀ j y, p ≤ j → items[j]? = some y → len ≤ y.offset := by
  unfold seekItem
  rw [nextItem_none]
  constructor
  · intro h j y hj hy
    refine h (j - p) y ?_
    rw [List.getElem?_drop, show p + (j - p) = j by omega]; exact hy
  · intro h j y hy
    rw [List.getElem?_drop] at hy
    exact h (p + j) y (by omega) hy

theorem inRegion_iff (d : Descriptor) (w : Nat) : inRegion d w = true ↔
    (d.role = .publish ∨ d.role = .subscribe) ∧ d.base.toNat ≤ w ∧ w < d.base.toNat + 4 * d.length := by
  unfold inRegion
  simp only [Bool.and_eq_true, decide_eq_true_eq, and_assoc]
  refine and_congr ?_ Iff.rfl
  cases d.role <;> simp

end Sys2Proof.Machine
end

