-- ==== Sys2Proof/Laws/Marks.lean ====
section
/-! SUPPORT. The dirty marks and the marks before a result: an arbitration clears those of the word that it writes and no
others, and the end of a step fixes those that precede a result. -/

namespace Sys2Proof.Machine

/-- The AGENT accesses whose grant clears a mark: a status word's write, and for word 1 the third write of an event. -/
def WritesMark (q : AgentRequest) (m : Fin 38) : Prop := q = .statusWord m ∨ (q = .eventThird ∧ m = 1)

theorem WritesMark.index {q : AgentRequest} {m : Fin 38} (h : WritesMark q m) (s : State) :
    ∃ w, agentAccess s q = cbWrite s (70 + m.val) 15#4 w := by
  rcases h with rfl | ⟨rfl, rfl⟩
  · exact ⟨_, agent_write_eq s _ _⟩
  · exact ⟨_, agent_write_eq s _ _⟩

theorem result_index (s : State) : ∃ w, agentAccess s .result = cbWrite s 69 15#4 w := ⟨_, agent_write_eq s _ _⟩

theorem clear_bit_iff (b : BitVec 38) (n m : Fin 38) :
    (b &&& ~~~ markBit n).getLsbD m.val = true ↔ b.getLsbD m.val = true ∧ m ≠ n := by
  have h := markBit_iff n m
  have hm := m.isLt
  simp only [BitVec.getLsbD_and, BitVec.getLsbD_not, hm, decide_true, Bool.true_and, Bool.and_eq_true, Bool.not_eq_true']
  constructor
  · rintro ⟨h1, h2⟩; exact ⟨h1, fun e => by rw [h.mpr e] at h2; cases h2⟩
  · rintro ⟨h1, h2⟩; exact ⟨h1, by cases e : (markBit n).getLsbD m.val with | false => rfl | true => exact absurd (h.mp e) h2⟩

/-- What becomes of the marks before a result while none joins them: those that are gone are of the words of `W`. -/
def PriorShrinks (s t : Agent) (W : Fin 38 → Prop) : Prop :=
  ∀ b, priorOf s = some b → ∃ b', priorOf t = some b' ∧ ∀ m : Fin 38,
    (b'.getLsbD m.val = true → b.getLsbD m.val = true) ∧ (b.getLsbD m.val = true → ¬ W m → b'.getLsbD m.val = true)

theorem PriorShrinks.of_eq {s t : Agent} {W : Fin 38 → Prop} (h : priorOf t = priorOf s) : PriorShrinks s t W :=
  fun b hb => ⟨b, h.trans hb, fun _ => ⟨id, fun k _ => k⟩⟩

theorem clearMark_prior (s : State) (n : Fin 38) :
    priorOf (clearMark s n).agent = (priorOf s.agent).map (· &&& ~~~ markBit n) := by
  unfold priorOf clearMark
  cases s.agent.executing <;> rfl

/-- What a grant leaves of the marks and of those before the result: `t` after it, `s` before it. -/
structure MarksAfterGrant (s t : State) (q : AgentRequest) : Prop where
  marks : ∀ m : Fin 38, s.agent.marks.getLsbD m.val = true → ¬ WritesMark q m → t.agent.marks.getLsbD m.val = true
  prior : q ≠ .result → PriorShrinks s.agent t.agent (WritesMark q)
  ended : q = .result → t.agent.executing = none
  noPrior : priorOf s.agent = none → priorOf t.agent = none

theorem marksAfterClear {s u : State} {q : AgentRequest} {n : Fin 38} (hn : WritesMark q n) (hq : q ≠ .result)
    (h1 : u.agent.marks = s.agent.marks) (h2 : u.agent.executing = s.agent.executing) :
    MarksAfterGrant s (clearMark u n) q where
  marks m h k := (clear_bit_iff _ _ _).mpr ⟨by rw [h1]; exact h, fun e => k (by rw [e]; exact hn)⟩
  prior _ b hb := by
    refine ⟨b &&& ~~~ markBit n, ?_, fun m => ⟨fun h => ((clear_bit_iff _ _ _).mp h).1, fun h k =>
      (clear_bit_iff _ _ _).mpr ⟨h, fun e => k (by rw [e]; exact hn)⟩⟩⟩
    rw [clearMark_prior, show priorOf u.agent = priorOf s.agent by unfold priorOf; rw [h2], hb]; rfl
  ended e := absurd e hq
  noPrior h := by rw [clearMark_prior, show priorOf u.agent = priorOf s.agent by unfold priorOf; rw [h2], h]; rfl

theorem marksAfterKeep {s t : State} {q : AgentRequest} (hq : q ≠ .result) (k : Keeps s t) : MarksAfterGrant s t q where
  marks _ h _ := k.marks _ h
  prior _ := .of_eq k.prior
  ended e := absurd e hq
  noPrior h := k.prior.trans h

/-- The grant of an AGENT access clears the mark of the word that it writes, and the result's ends the command (R180, R181). -/
theorem grantAgent_marks (s : State) (q : AgentRequest) (word : Word) : MarksAfterGrant s (grantAgent s q word) q := by
  cases q with
  | loadRead => exact marksAfterKeep (by simp) (grantAgent_keeps_marks s _ word (.inl rfl))
  | eventFirst => exact marksAfterKeep (by simp) (grantAgent_keeps_marks s _ word (.inr (.inl rfl)))
  | eventSecond => exact marksAfterKeep (by simp) (grantAgent_keeps_marks s _ word (.inr (.inr rfl)))
  | eventThird =>
    show MarksAfterGrant s (grantEventThird s) _
    unfold grantEventThird; split
    · exact marksAfterClear (.inr ⟨rfl, rfl⟩) (by simp) rfl rfl
    · exact marksAfterKeep (by simp) (.refl s)
  | statusWord n =>
    have h : MarksAfterGrant s (clearMark s n) (.statusWord n) := marksAfterClear (.inl rfl) (by simp) rfl rfl
    unfold grantAgent
    dsimp only
    split
    · exact ⟨h.marks, h.prior, fun e => (by cases e), h.noPrior⟩
    · exact h
  | result => exact ⟨fun _ h _ => h, fun h => absurd rfl h, fun _ => rfl, fun _ => rfl⟩

/-- What the arbiter leaves of the marks: nothing is granted that clears one, or an AGENT access is. -/
theorem arbitrate_marks (u : State) :
    ((∀ m, u.agent.marks.getLsbD m = true → (arbitrate u).agent.marks.getLsbD m = true) ∧
      priorOf (arbitrate u).agent = priorOf u.agent) ∨
    ∃ q, u.path.port = .free ∧ (arbitrate u).path.port = .busy .agent (agentAccess u q) ∧
      MarksAfterGrant u (arbitrate u) q := by
  by_cases h : u.path.port = .free → grantNext u = none
  · rw [arbitrate_none h]; exact .inl ⟨fun _ => id, rfl⟩
  · obtain ⟨hf, hg⟩ := Classical.not_imp.mp h
    obtain ⟨t, hg⟩ := Option.ne_none_iff_exists'.mp hg
    rw [arbitrate_some hf hg]
    rcases grantNext_cases hg with ⟨q, a, g, k⟩ | ⟨q, _, rfl⟩
    · exact .inl ⟨k.marks, k.prior⟩
    · refine .inr ⟨q, hf, (grantAgentPort_keeps u q).port, ?_⟩
      have k := grantAgent_marks { takePort u .agent (agentAccess u q) .internal with
        path := { (takePort u .agent (agentAccess u q) .internal).path with agent := none } } q
        (readWord u.mem (wordAddress (agentAccess u q).addr))
      exact ⟨k.marks, k.prior, k.ended, k.noPrior⟩

/-- The end of a step fixes the marks before a result that has none yet, as the marks that then stand (R181). -/
theorem settle_executing (s u : State) : (settle s u).agent.executing = (arbitrate u).agent.executing.map fun x =>
    if x.result.isSome ∧ x.prior = none then { x with prior := some (settle s u).agent.marks } else x := by
  unfold settle
  generalize hg : markStep s u (arbitrate u) = g
  have he : g.agent.executing = (arbitrate u).agent.executing := by subst hg; rfl
  rw [← he]
  unfold fixPrior
  cases hx : g.agent.executing with
  | none => simp only [hx]; rfl
  | some x =>
    cases hr : x.result with
    | none => simp [hx, hr]
    | some r =>
      cases hp : x.prior with
      | none => simp [hr, hp]
      | some b => simp [hx, hp]

/-- A command other than RESET_N_ASSERT is an operation inside and the end of the step, which finds the port FREE only where it
was FREE or its access completes; or RESET_N is deasserted. -/
theorem exec_port {c : Instr} {s t : State} (h : exec c s = .next t) (hc : c ≠ .resetNAssert) :
    (∃ u, Inside s u ∧ t = settle s u ∧ (u.path.port = .free → s.path.port = .free ∨ c = .memoryAccessComplete)) ∨
    (∃ a b d, c = .resetNDeassert a b d ∧ s.top = .inReset ∧ t = leaveReset s a b d) := by
  rcases exec_next h with ⟨_, u, k, e⟩ | ⟨⟨u, k, e⟩, h⟩ | h | h
  · exact .inl ⟨u, k.inside, e, fun f => .inl (k.port ▸ f)⟩
  · exact .inl ⟨u, k, e, fun _ => .inr h⟩
  · exact absurd h.1 hc
  · exact .inr h

/-- An AGENT write that the end of a step grants is the step's. -/
theorem agentWrites_of {c : Instr} {s t u : State} {q : AgentRequest} {i : Nat} (k : Inside s u) (e : t = settle s u)
    (hp : u.path.port = .free → s.path.port = .free ∨ c = .memoryAccessComplete)
    (hf : u.path.port = .free) (hb : (arbitrate u).path.port = .busy .agent (agentAccess u q))
    (hw : ∃ w, agentAccess u q = cbWrite u i 15#4 w) : AgentWrites c s t i := by
  obtain ⟨w, hw⟩ := hw
  refine ⟨hp hf, w, ?_⟩
  subst e
  rw [(settle_keeps s u).port, hb, hw]
  unfold cbWrite; rw [k.straps]

end Sys2Proof.Machine
end

