-- ==== Sys2Proof/Laws/Words.lean ====
section
/-! SUPPORT. The fields of the words that the agent writes, and the first configuration check that fails. -/

namespace Sys2Proof.Machine

/-- One more field of a word above those placed already. -/
theorem or_place {x lo : Nat} (v n : Nat) (h : x < 2 ^ lo) : BitVec.ofNat 32 x ||| place v lo n = BitVec.ofNat 32 (v % 2 ^ n * 2 ^ lo + x) := by
  unfold place
  apply BitVec.eq_of_toNat_eq
  rw [BitVec.toNat_or, BitVec.toNat_ofNat, BitVec.toNat_ofNat, BitVec.toNat_ofNat, ← Nat.or_mod_two_pow, Nat.or_comm,
    ← Nat.shiftLeft_add_eq_or_of_lt h, Nat.shiftLeft_eq]

theorem place_zero (v n : Nat) : place v 0 n = BitVec.ofNat 32 (v % 2 ^ n) := by unfold place; rw [Nat.shiftLeft_zero]

theorem word_of {w : Word} {x : Nat} (h : w = BitVec.ofNat 32 x) (k : x < 2 ^ 32) : w.toNat = x := by
  rw [h, BitVec.toNat_ofNat, Nat.mod_eq_of_lt k]

theorem code_bounds (t : TopState) (p : Phase) (m : MemberState) (e : LoadError) (a : PubState) (b : SubState) (c : ResultCode) (k : EventKind) :
    t.code < 16 ∧ p.code < 16 ∧ m.code < 16 ∧ e.code < 16 ∧ a.code < 8 ∧ b.code < 8 ∧ c.code < 256 ∧ eventCode k < 64 := by
  refine ⟨?_, ?_, ?_, ?_, ?_, ?_, ?_, ?_⟩
  · cases t <;> decide
  · cases p <;> decide
  · cases m <;> decide
  · cases e <;> decide
  · cases a <;> decide
  · cases b <;> decide
  · cases c <;> decide
  · cases k <;> decide

theorem status_region (s : State) (r : RegionId) (m k : Fin 38) (hm : m.val = 6 + 2 * r.val) (hk : k.val = 7 + 2 * r.val) :
    statusValue s m = regionWord0 (regionAt s r) ∧ statusValue s k = regionWord1 (regionAt s r) := by
  have hr := r.isLt
  have e1 : ∀ (x : Fin 38) (j : Nat), x.val = 6 + j → (x ≠ markConsumer ∧ x ≠ markProducer ∧ x ≠ markLost ∧ x ≠ markPart ∧ x ≠ markRoster ∧ x ≠ markPool) := by
    intro x j hx
    refine ⟨?_, ?_, ?_, ?_, ?_, ?_⟩ <;> intro h <;> rw [h] at hx <;> simp [markConsumer, markProducer, markLost, markPart, markRoster, markPool] at hx <;> omega
  constructor
  · obtain ⟨h0, h1, h2, h3, h4, h5⟩ := e1 m _ hm
    unfold statusValue
    rw [if_neg h0, if_neg h1, if_neg h2, if_neg h3, if_neg h4, if_neg h5]
    have : (Fin.ofNat 16 ((m.val - 6) / 2) : RegionId) = r := by
      apply Fin.ext; show (m.val - 6) / 2 % 16 = r.val; omega
    simp only [this]
    rw [if_pos (by omega)]
  · obtain ⟨h0, h1, h2, h3, h4, h5⟩ := e1 k (1 + 2 * r.val) (by omega)
    unfold statusValue
    rw [if_neg h0, if_neg h1, if_neg h2, if_neg h3, if_neg h4, if_neg h5]
    have : (Fin.ofNat 16 ((k.val - 6) / 2) : RegionId) = r := by
      apply Fin.ext; show (k.val - 6) / 2 % 16 = r.val; omega
    simp only [this]
    rw [if_neg (by omega)]

open Classical in
/-- The first entry of a list whose condition fails. -/
noncomputable def firstFault {α : Type} : List (Prop × α) → Option α
  | [] => none
  | x :: l => if x.1 then firstFault l else some x.2

theorem firstFault_append {α : Type} (a b : List (Prop × α)) : firstFault (a ++ b) = (firstFault a <|> firstFault b) := by
  induction a with
  | nil => rfl
  | cons x a ih =>
    rw [List.cons_append, firstFault, firstFault]
    split
    · exact ih
    · rfl

theorem firstFault_cons {α : Type} (P : Prop) (x : α) (l : List (Prop × α)) (b : Bool) (h : b = false ↔ P) :
    firstFault ((P, x) :: l) = ((if b then some x else none) <|> firstFault l) := by
  rw [firstFault]
  cases b with
  | true => rw [if_neg (fun p => by have := h.mpr p; cases this)]; rfl
  | false => rw [if_pos (h.mp rfl)]; rfl

theorem firstFault_at {α : Type} (before after : List (Prop × α)) (P : Prop) (x : α) (h : ∀ y ∈ before, y.1) (hp : ¬ P) :
    firstFault (before ++ (P, x) :: after) = some x := by
  induction before with
  | nil => rw [List.nil_append, firstFault, if_neg hp]
  | cons y l ih =>
    rw [List.cons_append, firstFault, if_pos (h y (by simp))]
    exact ih fun z hz => h z (by simp [hz])

theorem firstFault_flat {α β : Type} (f : α → List (Prop × β)) (l : List α) :
    firstFault (l.flatMap f) = l.findSome? fun i => firstFault (f i) := by
  induction l with
  | nil => rfl
  | cons i l ih =>
    rw [List.flatMap_cons, firstFault_append, ih, List.findSome?_cons]
    cases firstFault (f i) <;> rfl

theorem firstFault_single {α : Type} (P : Prop) (x : α) (b : Bool) (h : b = false ↔ P) : firstFault [(P, x)] = if b then some x else none := by
  rw [firstFault_cons P x [] b h, firstFault]
  cases b <;> rfl

theorem fail_map (b : Bool) (e : LoadError) (i : Fin 16) : (failIf b e).map (fun e => (e, i)) = if b then some (e, i) else none := by
  unfold failIf; cases b <;> rfl

theorem map_orElse {α β : Type} (f : α → β) (a b : Option α) : (a <|> b).map f = (a.map f <|> b.map f) := by cases a <;> rfl

theorem firstFault_skip {α : Type} (P : Prop) (x : α) (l : List (Prop × α)) (h : P) : firstFault ((P, x) :: l) = firstFault l := by
  rw [firstFault, if_pos h]

theorem orElse_assoc_eq {α : Type} (a b c : Option α) : ((a <|> b) <|> c) = (a <|> (b <|> c)) := by cases a <;> rfl

theorem orElse_congr {α : Type} (a : Option α) {x y : Option α} (h : x = y) : (a <|> x) = (a <|> y) := by rw [h]

theorem descriptor_fault (stn : StationId) (ws : List Word) (i : Fin 16) :
    (checkDescriptor stn ws i.val).map (fun e => (e, i)) = firstFault (descriptorChecks stn ws i) := by
  have hlt : wordField ws (5 + 4 * i.val) 9 2 < 4 := Nat.mod_lt _ (by decide)
  have hlen : (descriptorOf ws i.val).length = wordField ws (5 + 4 * i.val) 0 9 := desc_len ws i.val
  have hbase : (descriptorOf ws i.val).base.toNat = wordField ws (4 + 4 * i.val) 0 24 := desc_base ws i.val
  have hrole : roleCode ws i.val = wordField ws (5 + 4 * i.val) 9 2 := role_field ws i.val
  have L : ((!(decide (1 ≤ (descriptorOf ws i.val).length) && decide ((descriptorOf ws i.val).length ≤ 256))) = false) ↔ (1 ≤ wordField ws (5 + 4 * i.val) 0 9 ∧ wordField ws (5 + 4 * i.val) 0 9 ≤ 256) := by
    rw [hlen, Bool.not_eq_false', Bool.and_eq_true, decide_eq_true_eq, decide_eq_true_eq]
  have Pl : ((!(decide ((descriptorOf ws i.val).base.toNat % 4 = 0) && decide ((descriptorOf ws i.val).base.toNat + 4 * (descriptorOf ws i.val).length - 1 ≤ Config.highestAddress))) = false) ↔ (wordField ws (4 + 4 * i.val) 0 24 % 4 = 0 ∧ wordField ws (4 + 4 * i.val) 0 24 + 4 * wordField ws (5 + 4 * i.val) 0 9 - 1 ≤ 0xFFFFFF) := by
    rw [hlen, hbase, Bool.not_eq_false', Bool.and_eq_true, decide_eq_true_eq, decide_eq_true_eq]
    rfl
  unfold checkDescriptor descriptorChecks
  rw [hrole]
  simp only
  generalize hr : wordField ws (5 + 4 * i.val) 9 2 = r at *
  have hr4 : r = 0 ∨ r = 1 ∨ r = 2 ∨ r = 3 := by omega
  rcases hr4 with rfl | rfl | rfl | rfl
  · simp [firstFault]
  · have hc : ((descriptorOf ws i.val).closeOffset.any fun c => !decide (c.toNat < (descriptorOf ws i.val).length)) = false ↔ (wordField ws (6 + 4 * i.val) 24 1 = 1 → wordField ws (6 + 4 * i.val) 16 8 < wordField ws (5 + 4 * i.val) 0 9) := by
      rw [hlen]
      have h2 : descWord ws i.val 2 = configWord ws (6 + 4 * i.val) := by unfold descWord; congr 1; omega
      show (Option.any _ (if bits (descWord ws i.val 2) 24 1 = 1 then some ((descWord ws i.val 2).extractLsb' 16 8) else none)) = false ↔ _
      rw [h2, bits_field]
      have h3 : ((configWord ws (6 + 4 * i.val)).extractLsb' 16 8).toNat = wordField ws (6 + 4 * i.val) 16 8 := bits_eq _ 16 8
      show _ ↔ (wordField ws (6 + 4 * i.val) 24 1 = 1 → wordField ws (6 + 4 * i.val) 16 8 < _)
      split
      · rename_i h; simp only [Option.any_some, h3, h]; simp
      · rename_i h; simp [h]
    have hb : (descriptorOf ws i.val).batchLimit = wordField ws (5 + 4 * i.val) 17 5 := by
      show bits (descWord ws i.val 1) 17 5 = _
      unfold descWord; rw [bits_field]; show wordField ws _ _ _ = wordField ws _ _ _; congr 1; omega
    have hh : (descriptorOf ws i.val).holdLimit = wordField ws (7 + 4 * i.val) 16 12 := by
      show bits (descWord ws i.val 3) 16 12 = _
      unfold descWord; rw [bits_field]; show wordField ws _ _ _ = wordField ws _ _ _; congr 1; omega
    have hh2 : wordField ws (7 + 4 * i.val) 16 12 < 4096 := Nat.mod_lt _ (by decide)
    have h15 : (15 : StationId).val = 15 := rfl
    simp only [map_orElse, fail_map]
    rw [firstFault_skip _ _ _ (by omega), firstFault_cons _ _ _ (!(decide (1 ≤ (descriptorOf ws i.val).length) && decide ((descriptorOf ws i.val).length ≤ 256))) (by rw [L]; simp),
      firstFault_cons _ _ _ (!(decide ((descriptorOf ws i.val).base.toNat % 4 = 0) && decide ((descriptorOf ws i.val).base.toNat + 4 * (descriptorOf ws i.val).length - 1 ≤ Config.highestAddress))) (by rw [Pl]; simp),
      firstFault_skip _ _ _ (by omega), firstFault_skip _ _ _ (by omega),
      firstFault_cons _ _ _ (member 15 (descriptorOf ws i.val).subscribers || member stn (descriptorOf ws i.val).subscribers) (by rw [Bool.or_eq_false_iff, show member 15 (descriptorOf ws i.val).subscribers = _ from pub_subs ws i.val 15, pub_subs, h15]; simp),
      firstFault_cons _ _ _ _ (show _ ↔ (True → wordField ws (6 + 4 * i.val) 24 1 = 1 → wordField ws (6 + 4 * i.val) 16 8 < wordField ws (5 + 4 * i.val) 0 9) by rw [hc]; simp),
      firstFault_cons _ _ _ (!(decide (1 ≤ (descriptorOf ws i.val).batchLimit) && decide ((descriptorOf ws i.val).batchLimit ≤ 16))) (by rw [hb]; simp),
      firstFault_single _ _ (!(decide (1 ≤ (descriptorOf ws i.val).holdLimit) && decide ((descriptorOf ws i.val).holdLimit ≤ 4095))) (by rw [hh]; simp; omega)]
    simp only [orElse_assoc_eq]
  · have h1 : ∀ s : StationId, ((descriptorOf ws i.val).publisher = s) ↔ wordField ws (5 + 4 * i.val) 13 4 = s.val := by
      intro s
      have h2 : bits (descWord ws i.val 1) 13 4 = wordField ws (5 + 4 * i.val) 13 4 := by unfold descWord; rw [bits_field]; congr 1; omega
      show (Fin.ofNat 16 (bits (descWord ws i.val 1) 13 4) = s) ↔ _
      rw [h2]; exact fin_lemma _ (field_lt _ _ _ 4) _
    have h2 : bits (descWord ws i.val 1) 11 2 = wordField ws (5 + 4 * i.val) 11 2 := by unfold descWord; rw [bits_field]; show wordField ws _ _ _ = wordField ws _ _ _; congr 1; omega
    have h15 : (15 : StationId).val = 15 := rfl
    simp only [map_orElse, fail_map]
    rw [firstFault_skip _ _ _ (by omega), firstFault_cons _ _ _ (!(decide (1 ≤ (descriptorOf ws i.val).length) && decide ((descriptorOf ws i.val).length ≤ 256))) (by rw [L]; simp),
      firstFault_cons _ _ _ (!(decide ((descriptorOf ws i.val).base.toNat % 4 = 0) && decide ((descriptorOf ws i.val).base.toNat + 4 * (descriptorOf ws i.val).length - 1 ≤ Config.highestAddress))) (by rw [Pl]; simp),
      firstFault_cons _ _ _ (decide ((descriptorOf ws i.val).publisher = 15) || decide ((descriptorOf ws i.val).publisher = stn)) (by simp [h1]),
      firstFault_cons _ _ _ (decide (2 ≤ bits (descWord ws i.val 1) 11 2)) (by rw [h2]; simp),
      firstFault_skip _ _ _ (by omega), firstFault_skip _ _ _ (by omega), firstFault_skip _ _ _ (by omega), firstFault_skip _ _ _ (by omega)]
    rw [firstFault]
    simp only [orElse_assoc_eq]
    congr 2
    cases (if decide (2 ≤ bits (descWord ws i.val 1) 11 2) = true then some (LoadError.badField, i) else none) <;> rfl
  · rw [firstFault, if_neg (by simp)]; rfl

theorem firstFault_map {α β : Type} (P : α → Prop) (x : α → β) (g : α → Option β) (l : List α)
    (h : ∀ i, (P i → g i = none) ∧ (¬ P i → g i = some (x i))) : firstFault (l.map fun i => (P i, x i)) = l.findSome? g := by
  induction l with
  | nil => rfl
  | cons i l ih =>
    rw [List.map_cons, firstFault, List.findSome?_cons]
    split
    · rename_i hp; rw [(h i).1 hp]; exact ih
    · rename_i hp; rw [(h i).2 hp]

end Sys2Proof.Machine
end

