-- ==== Sys2Proof/Tests/Slice0.lean ====
section
/-! SUPPORT. Small tests by evaluation: the well-formedness checks, worked values of the spec, and for each statement with
hypotheses a state and operands that meet them, clause by clause. -/

set_option Elab.async false

namespace Sys2Proof.Tests

open Sys2Proof.Machine

/-! ## Well-formedness: each check refuses an ill-formed command -/

/-- An access with a lane set. -/
def accessOf (addr : Addr) (write : Bool) (l : Lanes) (d : Word) : Access := { addr := addr, write := write, lanes := l, data := d }

/-- A record of one byte on lane 0. -/
def byteRecord (o : Byte) (b : Byte) : UpdateRecord := { offset := o, lanes := 1#4, data := b.zeroExtend 32 }

/-- A DATA frame of region 1. -/
def dataOf (g q : Byte) (rs : List UpdateRecord) : DataFrame := { region := 1, generation := g, seq := q, records := rs }

/-- A CHUNK frame of region 1 for station 3. -/
def chunkOf (g : Byte) (i : Fin 16) (ws : List Word) : ChunkFrame :=
  { region := 1, generation := g, targets := 8#16, baseSeq := 5, index := i, settle := none, words := ws }

/-- A YIELD with a roster. -/
def yieldOf (c : Byte) (ro : Option StationSet) : YieldFrame := { cycle := c, roster := ro, acks := [], summaries := [] }

theorem test_wf_lanes : (Instr.hostAccess (accessOf 0 true 0#4 0)).wf = false ∧ (Instr.consumerIndexWrite 0#4 0).wf = false ∧
    (Instr.cbWordWrite 0 0#4 0).wf = false := by decide

theorem test_wf_cbWord : (Instr.cbWordWrite 69 15#4 0).wf = false ∧ (Instr.cbWordWrite 68 15#4 0).wf = false ∧
    (Instr.cbWordWrite 68 7#4 0).wf = true ∧ (Instr.cbWordWrite 67 15#4 0).wf = true := by decide

theorem test_wf_badCommand : (Instr.badCommand 1 0 0).wf = false ∧ (Instr.badCommand 5 0 0).wf = false ∧
    (Instr.badCommand 0 0 0).wf = true ∧ (Instr.badCommand 6 0 0).wf = true := by decide

theorem test_wf_character : (Instr.characterReceived (List.replicate 11 0#3)).wf = false := by decide

theorem test_wf_collision : (Instr.collision .mismatch 165).wf = false ∧ (Instr.collision .mismatch 164).wf = true := by decide

theorem test_wf_poll : (Instr.pollReceived 15 0 1).wf = false ∧ (Instr.pollReceived 0 0 9).wf = false ∧
    (Instr.pollReceived 0 0 8).wf = true := by decide

theorem test_wf_data : (Instr.dataReceived 15 (dataOf 0 0 [byteRecord 0 1])).wf = false ∧
    (Instr.dataReceived 2 (dataOf 0 0 [])).wf = false ∧
    (Instr.dataReceived 2 (dataOf 0 0 (List.replicate 17 (byteRecord 0 1)))).wf = false ∧
    (Instr.dataReceived 2 (dataOf 0 0 [{ offset := 0, lanes := 0#4, data := 0 }])).wf = false ∧
    (Instr.dataReceived 2 (dataOf 0 0 [{ offset := 0, lanes := 1#4, data := 0x100#32 }])).wf = false := by decide

theorem test_wf_chunk : (Instr.chunkReceived 15 (chunkOf 0 0 [0])).wf = false ∧ (Instr.chunkReceived 2 (chunkOf 0 0 [])).wf = false ∧
    (Instr.chunkReceived 2 (chunkOf 0 0 (List.replicate 17 0))).wf = false ∧
    (Instr.chunkReceived 2 { chunkOf 0 0 [0] with targets := 0x8000#16 }).wf = false := by decide

theorem test_wf_yield : (Instr.yieldReceived 15 (yieldOf 0 none)).wf = false ∧
    (Instr.yieldReceived 2 { yieldOf 0 none with summaries := List.replicate 17 { region := 0, generation := 0 } }).wf = false ∧
    (Instr.yieldReceived 2 (yieldOf 0 (some 0x8000#16))).wf = false := by decide

theorem test_wf_frame : Frame.wf (.poll 15 0 1) = false ∧ Frame.wf (.poll 3 0 9) = false := by decide

/-! ## Values that the spec works out -/

/-- R129: the check value of the CRC over the digits 1 to 9. -/
theorem test_crc_check : crc16 [0x31, 0x32, 0x33, 0x34, 0x35, 0x36, 0x37, 0x38, 0x39] = 0x29B1#16 := by
  decide +kernel

/-- R31's example. -/
theorem test_merge_example :
    mergeRecord { offset := 6, lanes := 3#4, data := 0x2010#32 } 6#4 0x302100#32 =
      { offset := 6, lanes := 7#4, data := 0x302110#32 } := by decide

/-- R6 at the corners of the seq comparison; R74's classes at theirs. -/
theorem test_seqs : atOrPast 127 0 = true ∧ atOrPast 128 0 = false ∧ newer 0 0 = false ∧ newer 1 0 = true ∧
    seqClass 128 0 = .gap ∧ seqClass 129 0 = .duplicate ∧ seqClass 0 255 = .inOrder := by decide

/-- R187, R193: a POLL of station 3 with cycle 0x12 and budget 4, from station 0. -/
theorem test_poll_bytes : bodyOf 0 (.poll 3 0x12 4) = [0x13, 0x00, 0x02, 0x12, 0x04] := by decide

/-! ## States of a small part -/

/-- Region 0, published: 8 words at 0x100000, subscribers 2 and 4, batch limit 2, close word 7. -/
def pubDesc : Descriptor :=
  { base := 0x100000, length := 8, role := .publish, publisher := 0, subscribers := 0x14#16, guard := .guarded
    batchLimit := 2, closeOffset := some 7, quietInterval := 100, holdLimit := 10 }

/-- Region 1, subscribed from station 2: 8 words at 0x200000. -/
def subDesc (g : GuardMode) : Descriptor :=
  { base := 0x200000, length := 8, role := .subscribe, publisher := 2, subscribers := 0, guard := g
    batchLimit := 16, closeOffset := none, quietInterval := 0, holdLimit := 4095 }

/-- A LIVE record with no batch. -/
def livePub : PubRecord :=
  { state := .live, generation := 1, nextSeq := 4, lastReleased := 3, openBatch := none, retained := [], closePending := false
    acks := [(2, .unknown), (4, .unknown)], pass := none, pendingTargets := 0, endGuard := false, quiet := none, epoch := 0 }

/-- A CURRENT record. -/
def currentSub : SubRecord :=
  { state := .current, generation := 7, accepted := 9, applied := 9, baseSeq := none, expected := none, settle := none }

/-- A batch of `n` records. -/
def batchOf (seq : Option Byte) (n : Nat) (sent : Bool) : Batch :=
  { region := 0, seq := seq, records := (List.range n).map fun k => byteRecord (BitVec.ofNat 8 k) 1, sent := sent
    lastTurn := none }

/-- A line format of 8 samples per bit, no parity, one stop bit. -/
def lineFormat : LineFormat := { divisor := 2, samplesPerBit := 8, parity := .none, twoStops := false }

/-- A part with one published and one subscribed region. -/
def part (stn : StationId) (top : TopState) (p : PubRecord) (q : SubRecord) (g : GuardMode) : State :=
  setRegion (setRegion { State.reset with
      top := top, straps := { stn := stn, cba := 0, ald := false }
      line := { Line.reset with format := some lineFormat, rx := .idle, tx := .idle }
      tc := { Turns.reset with roster := 0x1D#16, member := .enrolled } }
    0 { desc := pubDesc, record := .published p }) 1 { desc := subDesc g, record := .subscribed q }

/-- Station 3 in RUNNING. -/
def member3 : State := part 3 .running livePub currentSub .guarded

/-- Station 0 in RUNNING. -/
def master : State := part 0 .running livePub currentSub .guarded

/-- The line unit in other states. -/
def withLine (s : State) (f : Line → Line) : State := { s with line := f s.line }

/-- A part whose next REFCLK cycle is a sample tick at the level `b`. -/
def ticking (s : State) (rx : LineRx) (tx : LineTx) (p : Sampling) (b : Bool) : State :=
  { withLine s (fun l => { l with rx := rx, tx := tx, sampling := p, lrx := [b] }) with
    clock := { s.clock with tickPhase := 1 } }

/-- The port BUSY with an access of the agent. -/
def busy (s : State) : State := { s with path := { s.path with port := .busy .agent (accessOf 0 false 15#4 0) } }

/-- Whether a command goes on. -/
def goesOn (c : Instr) (s : State) : Bool :=
  match exec c s with
  | .next _ => true
  | .fault _ => false
  | .refused _ => false

/-- Nothing at the host port or the memory port. -/
theorem test_open {s : State} (h1 : s.path = MemoryPath.reset) (h2 : s.cap = Capture.reset) : HostPortOpen s := by
  refine ⟨⟨fun _ => ?_, ?_⟩, ?_, ?_⟩ <;> (try unfold NothingWaits waitingHost) <;> (try unfold HostConsistent) <;> rw [h1]
  · simp [MemoryPath.reset]
  · rw [h2]; simp [MemoryPath.reset, Capture.reset]
  · rfl
  · rfl

theorem test_serves {s : State} (h : s.path = MemoryPath.reset) : PortServes s := by
  intro _; unfold NothingWaits waitingHost; rw [h]; simp [MemoryPath.reset]

/-- A region whose record is published, in a part. -/
def withRecord (s : State) (p : PubRecord) : State := setRegion s 0 { desc := pubDesc, record := .published p }

/-- A subscribed region's record, in a part. -/
def withFollow (s : State) (q : SubRecord) : State := setRegion s 1 { desc := subDesc .guarded, record := .subscribed q }

/-! ## The step and the memory port -/

theorem test_meets_StepRunsFrontCommand :
    ({ member3 with pending := [.gap] } : State).pending = .gap :: [] ∧ goesOn .gap member3 = true := by decide

theorem test_meets_EmptyQueueIsOneRefclkCycle :
    State.reset.pending = [] ∧ State.reset.top = .inReset ∧ member3.pending = [] ∧ member3.top ≠ .inReset ∧
    (({ member3.clock with usPhase := 38 } : Clock).usPhase + 1 < 40) ∧
    (40 ≤ ({ member3.clock with usPhase := 39 } : Clock).usPhase + 1) ∧ State.reset.line.format = none ∧
    member3.line.format = some lineFormat ∧ member3.clock.tickPhase + 1 < lineFormat.divisor ∧
    lineFormat.divisor ≤ (ticking member3 .idle .idle Sampling.reset false).clock.tickPhase + 1 ∧
    (ticking member3 .idle .idle Sampling.reset false).line.lrx = false :: [] ∧ member3.line.lrx = [] := by decide

/-- A master whose turnaround gap of 2 bit times passes at tick 16, the gap counted from tick `since`. -/
def gapAt (since : Nat) : State :=
  { master with
    clock := { master.clock with ticks := 16, due := [.turnaroundGap, .gap] }
    params := { master.params with turnaround := 2 }
    tc := { master.tc with gap := .counting since, phase := .breaking } }

/-- The two queues after a step. -/
def queuesAfter (s : State) : Option (List Instr × List Instr) :=
  match step s with
  | .next t => some (t.pending, t.clock.due)
  | .fault _ => none
  | .refused _ => none

/-- R113: of two commands due in one cycle the second is served where it is due still, and dropped where the first has set
its timer anew (log 10). -/
theorem test_due_in_turn :
    queuesAfter (gapAt 0) = some ([.turnaroundGap], [.gap]) ∧ queuesAfter (gapAt 1) = some ([], [.gap]) ∧
    Instr.turnaroundGap ∈ dueNow (gapAt 0) ∧ Instr.turnaroundGap ∉ dueNow (gapAt 1) := by
  decide +kernel

/-- R125: LINE_LOST that fell due with the character that restarts its timer is dropped. -/
theorem test_lost_in_turn :
    let s (since : Word) : State := { member3 with
      clock := { member3.clock with us := 16000, due := [.lineLost] }
      params := { member3.params with lostMs := 16 }
      tc := { member3.tc with lost := .running since } }
    Instr.lineLost ∈ dueNow (s 0) ∧ Instr.lineLost ∉ dueNow (s 16000) := by decide +kernel

/-- Each timer of the part at its moment. -/
theorem test_meets_due :
    let at_ (s : State) (n : Nat) : State := { s with clock := { s.clock with us := 100, ticks := n } }
    Instr.quietIntervalExpiry 0 ∈ dueNow (at_ (withRecord member3 { livePub with quiet := some 0 }) 0) ∧
    Instr.turnLapse ∉ dueNow (at_ member3 800) ∧ Instr.applyStart ∉ dueNow member3 ∧
    Instr.breakLowEnd ∈ dueNow (at_ (withLine master fun l => { l with tx := .breakLow }) 176) ∧
    Instr.breakHighEnd ∈ dueNow (at_ (withLine master fun l => { l with tx := .breakHigh }) 88) ∧
    Instr.trailingBitTimeEnd ∈ dueNow (at_ (withLine master fun l => { l with tx := .holding true }) 8) ∧
    Instr.trailingBitTimeEnd ∉ dueNow (at_ (withLine master fun l => { l with tx := .holding true }) 7) := by decide +kernel

/-- R160, R186: a read of lanes 1 and 3 at a byte address of word 4 returns their bytes, and a write no data. -/
theorem test_read_data :
    let m : Memory := [(4, 0x11), (5, 0x22), (7, 0x44)]
    accessResult m (accessOf 6 false 10#4 0) = 0x44002200#32 ∧ accessResult m (accessOf 6 true 10#4 1) = 0#32 ∧
    Memory.wf m = true := by decide

theorem test_meets_ReadAfterWriteOfLanes :
    let m := accessMemory [] (accessOf 0x103 true 9#4 0xAABBCCDD#32)
    Memory.wf [] = true ∧ Memory.wf m = true ∧ readByte m 0x100 = 0xDD ∧ readByte m 0x101 = readByte [] 0x101 ∧
    readByte m 0x103 = 0xAA ∧ readByte m 0x104 = readByte [] 0x104 ∧ readByte m 0xFF = readByte [] 0xFF := by decide

theorem test_meets_OneAccessInAStep :
    goesOn (.hostAccess (accessOf 0 true 15#4 1)) member3 = true ∧ (busy member3).path.port ≠ .free ∧
    goesOn .gap (busy member3) = true := by decide

/-- A host access with a condition. -/
def hostAt (s : State) (c : HostCondition) (a : Access) : State :=
  { s with path := { s.path with host := some { access := a, condition := c, result := 0 } } }

/-- A read of word 0. -/
def read0 : Access := accessOf 0 false 15#4 0

theorem test_meets_ArbiterGrantsByTheTable :
    waitingHost (hostAt member3 .awaitingGrant read0) = some { access := read0, condition := .awaitingGrant, result := 0 } ∧
    member3.path.last ≠ .host ∧ waitingHost member3 = none ∧
    ({ member3.path with apply := .waiting } : MemoryPath).apply = .waiting ∧
    ({ member3.path with snap := true } : MemoryPath).snap = true ∧ member3.path.apply ≠ .waiting ∧ member3.path.snap = false ∧
    ({ member3.path with agent := some .loadRead } : MemoryPath).agent = some .loadRead ∧ member3.path.agent = none := by decide

/-- A step ends with the port BUSY, with nothing waiting, and with one grant, a SNAP read's at a FREE port among them. -/
theorem test_meets_SettleGrantsOne :
    let u : State := { member3 with path := { member3.path with snap := true } }
    (busy member3).path.port ≠ .free ∧ member3.path.port = .free ∧ (grantNext member3).isNone = true ∧
    (grantNext u).isSome = true ∧ Requester.apply ≠ .host ∧ u.path.port = .free ∧
    (settle u u).path.port = .busy .snap (snapAccess u) := by decide +kernel

theorem test_meets_StepKeepsInvariants :
    (MemoryOk member3 ∧ EventsBounded member3 ∧ SlotsBounded member3 ∧ PoolBounded member3) ∧
    (∃ t, step { member3 with pending := [.gap] } = .next t) := by
  refine ⟨⟨?_, ?_, ?_, ?_⟩, ?_⟩
  · unfold MemoryOk; decide
  · unfold EventsBounded; decide
  · unfold SlotsBounded; decide
  · unfold PoolBounded; decide
  · exact ⟨_, rfl⟩

theorem test_meets_RetainedBounded_Served : RetainedBounded member3 ∧ Served member3 := by
  refine ⟨?_, (test_open rfl rfl).1⟩
  unfold RetainedBounded; decide

/-! ## The host port -/

/-- A state of the part in a top-level state, station 3. -/
def inTop (t : TopState) : State := part 3 t livePub currentSub .openMode

theorem test_meets_PassedAccess_tops :
    PassedByTable (inTop .inReset) read0 ∧ PassedByTable (inTop .unconfigured) read0 ∧ PassedByTable (inTop .loading) read0 := by
  refine ⟨?_, ?_, ?_⟩ <;> trivial

theorem test_meets_PassedAccess_configured :
    PassedByTable (inTop .configured) (accessOf 0x2AC false 15#4 0) ∧
    PassedByTable (inTop .configured) (accessOf 0x110 true 15#4 0) ∧
    PassedByTable (inTop .configured) (accessOf 0x118 true 15#4 0) ∧
    PassedByTable (inTop .configured) (accessOf 0x200000 true 15#4 0) := by
  refine ⟨?_, ?_, ?_, ?_⟩ <;> first | (intro h; exact absurd h (by decide)) | (intro _; decide) | trivial

theorem test_meets_PassedAccess_running :
    PassedByTable member3 (accessOf 0x300000 true 15#4 0) ∧ PassedByTable member3 (accessOf 0x110 true 15#4 0) ∧
    PassedByTable member3 (accessOf 0x10001C false 15#4 0) ∧
    PassedByTable (withRecord member3 { livePub with state := .suspended }) (accessOf 0x100000 true 15#4 0) ∧
    PassedByTable (inTop .running) (accessOf 0x20001C true 15#4 0) ∧
    PassedByTable member3 (accessOf 0x200000 false 15#4 0) := by
  refine ⟨?_, ?_, ?_, ?_, ?_, ?_⟩ <;> first | trivial | (intro h; exact absurd h (by decide)) | (intro _; decide)

theorem test_meets_PassedAccess_open : HostPortOpen member3 ∧ Unobserved member3 read0 ∧
    (busy member3).path.host = none ∧ (busy member3).path.port ≠ .free :=
  ⟨test_open rfl rfl, .inr (.inl rfl), by decide, by decide⟩

/-- R3: the last byte of the control block and the byte after it, a region's first and last word and the word after it. -/
theorem test_meets_matcher :
    matchAddress member3 0x2AF = .block 171 ∧ matchAddress member3 0x2B0 = .none ∧ matchAddress member3 0x100000 = .region 0 0 ∧
    matchAddress member3 0x10001F = .region 0 7 ∧ matchAddress member3 0x100020 = .none ∧
    matchAddress (setRegion member3 0 Region.reset) 0x100000 = .none := by decide

theorem test_meets_DroppedWriteLeavesOneEvent :
    PortServes member3 ∧ member3.path.host = none ∧ matchAddress member3 0x114 = .block 69 ∧
    matchAddress member3 0x11C = .block 71 ∧ matchAddress member3 0x2AC = .block 171 ∧
    matchAddress member3 0x20001C = .region 1 7 ∧ (descAt member3 1).role = .subscribe ∧ (descAt member3 1).guard = .guarded ∧
    (inTop .configured).top = .configured := by
  refine ⟨test_serves rfl, ?_⟩; decide

theorem test_meets_FencedAccessIsHeld :
    let s : State := { inTop .running with inb := { Inbound.reset with fence := some 1 } }
    PortServes s ∧ s.path.host = none ∧ s.top = .running ∧ matchAddress s 0x200000 = .region 1 0 ∧
    (descAt s 1).role = .subscribe ∧ (descAt s 1).guard = .openMode ∧ s.inb.fence = some 1 := by
  refine ⟨test_serves rfl, ?_⟩; decide

theorem test_meets_SecondHostAccessFaults : (hostAt member3 .granted read0).path.host.isSome = true ∧
    goesOn (.load 0 0) (hostAt member3 .granted read0) = false := by decide

/-- An access of the host waits for one of the agent to complete. -/
def waiting (s : State) (a : Access) : State := hostAt (busy s) .awaitingGrant a

/-- A write presented at the open ports, and one that waits there, are granted. -/
theorem test_grants {s : State} (c : Instr) (a : Access) (h1 : s.path = MemoryPath.reset) (h2 : s.cap = Capture.reset) :
    GrantsAccess c c s a ∧ GrantsAccess .memoryAccessComplete c (waiting s a) a := by
  refine ⟨.inl ⟨rfl, test_open h1 h2⟩, .inr ⟨rfl, ⟨?_, ?_⟩, ⟨_, _, rfl, by simp⟩, ⟨_, rfl, rfl, rfl⟩, ?_, ?_⟩⟩
  · intro h; cases h
  · unfold HostConsistent waiting hostAt busy; simp [h1, h2, MemoryPath.reset, Capture.reset]
  · simp [waiting, hostAt, busy, h1, MemoryPath.reset]
  · exact congrArg Capture.claim h2

theorem test_meets_WritesThatOnlyReachMemory :
    GrantsAccess .memoryAccessComplete (.cbWordWrite 67 1#4 5#32) (waiting member3 (cbWrite member3 67 1#4 5#32))
      (cbWrite (waiting member3 (cbWrite member3 67 1#4 5#32)) 67 1#4 5#32) ∧
    GrantsAccess (.start 0 9) (.start 0 9) (inTop .inReset) (commandWrite (inTop .inReset) 2 0 9) ∧
    HostPortOpen member3 ∧ HostPortOpen (inTop .inReset) ∧ (inTop .inReset).top = .inReset ∧ (67 : Fin 172).val < 68 ∧
    ((68 : Fin 172).val = 68 ∧ 7#4 ≠ 15#4) ∧ commandFields (.start 0 9) = some (2, 0, 9) := by
  refine ⟨(test_grants _ _ rfl rfl).2, (test_grants _ _ rfl rfl).1, test_open rfl rfl, test_open rfl rfl, ?_⟩; decide

theorem test_meets_ConsumerIndexFollowsTheHost :
    GrantsAccess .memoryAccessComplete (.consumerIndexWrite 15#4 31#32) (waiting member3 (cbWrite member3 70 15#4 31#32))
      (cbWrite (waiting member3 (cbWrite member3 70 15#4 31#32)) 70 15#4 31#32) ∧
    HostPortOpen member3 ∧ member3.top ≠ .inReset ∧
    goesOn (.consumerIndexWrite 15#4 31#32) member3 = true ∧ goesOn (.consumerIndexWrite 15#4 32#32) member3 = true := by
  refine ⟨(test_grants _ _ rfl rfl).2, test_open rfl rfl, ?_⟩; decide

/-- R184: with producer index 30 an event's first write waits with the host's write of 31 to the consumer index: 31 entries are
unconsumed then, and the event stays in the pending list. -/
theorem test_event_waits_in_the_list :
    let e : Event := mkEvent .cmdBusy 15 15 0 0
    let s := waiting { member3 with agent := { Agent.reset with producer := 30, events := [e] } } (cbWrite member3 70 15#4 31#32)
    (match exec .memoryAccessComplete { s with path := { s.path with agent := some .eventFirst } } with
      | .next t => decide (t.path.agent = none) && decide (t.agent.events = [e]) && decide (unconsumed t = 31)
      | _ => false) = true := by decide +kernel

/-! ## Write capture -/

/-- A record with an open batch of `n` records and `k` retained batches of `j` records. -/
def capturedPub (n k j : Nat) : PubRecord :=
  { livePub with openBatch := some (batchOf none n false), retained := List.replicate k (batchOf (some 4) j true) }

/-- Station 3 with such a record. -/
def capturing (n k j : Nat) : State := withRecord member3 (capturedPub n k j)

/-- A write to word `o` of region 0. -/
def writeTo (o : Nat) : Access := accessOf (BitVec.ofNat 24 (0x100000 + 4 * o)) true 15#4 0

/-- A held write of region 0. -/
def heldWrite : HeldWrite := { region := 0, offset := 0, lanes := 15#4, data := 0, reason := .pool, since := 0 }

theorem test_capture_meets {s : State} {o : Nat} {p : PubRecord} (h1 : s.path = MemoryPath.reset) (h2 : s.cap = Capture.reset)
    (h : s.top = .running ∧ matchAddress s (writeTo o).addr = .region 0 o ∧ (descAt s 0).role = .publish ∧ pubAt s 0 = some p ∧
      p.state = .live) : CaptureMeets s (writeTo o) 0 o p :=
  ⟨test_open h1 h2, h.1, rfl, h.2.1, h.2.2.1, h.2.2.2.1, h.2.2.2.2⟩

theorem test_meets_CapturedWrite_states :
    (∃ p, CaptureMeets (capturing 1 0 0) (writeTo 0) 0 0 p) ∧ (∃ p, CaptureMeets (capturing 2 3 1) (writeTo 7) 0 7 p) ∧
    (∃ p, CaptureMeets member3 (writeTo 7) 0 7 p) :=
  ⟨⟨_, test_capture_meets rfl rfl ⟨rfl, by decide, by decide, rfl, rfl⟩⟩,
    ⟨_, test_capture_meets rfl rfl ⟨rfl, by decide, by decide, rfl, rfl⟩⟩,
    ⟨_, test_capture_meets rfl rfl ⟨rfl, by decide, by decide, rfl, rfl⟩⟩⟩

theorem test_meets_CapturedWriteJoinsItsBatch :
    ((batchOf none 1 false).records.any fun x => decide (x.offset = 0)) = true ∧
    ((batchOf none 1 false).records.any fun x => decide (x.offset = 7)) = false ∧ (batchOf none 1 false).records.length < 2 ∧
    2 ≤ (batchOf none 2 false).records.length ∧ poolLevel (capturing 2 3 1) < 64 ∧ poolLevel member3 < 64 ∧
    poolLevel (capturing 1 3 20) = 61 := by decide

theorem test_meets_CapturedWrite_busy :
    let s := busy (capturing 1 0 0)
    s.path.host = none ∧ s.path.port ≠ .free ∧ s.top = .running ∧ matchAddress s (writeTo 7).addr = .region 0 7 ∧
    (descAt s 0).role = .publish ∧ pubAt s 0 = some (capturedPub 1 0 0) ∧ (capturedPub 1 0 0).state = .live := by decide

theorem test_meets_CaptureCases :
    CaptureCase (busy (capturing 1 0 0)) 0 (capturedPub 1 0 0) 0 .merge ∧
    CaptureCase (busy (capturing 1 0 0)) 0 (capturedPub 1 0 0) 7 .append ∧
    CaptureCase (busy (capturing 2 3 1)) 0 (capturedPub 2 3 1) 7 .full ∧ CaptureCase (busy member3) 0 livePub 7 .opening :=
  ⟨⟨_, rfl, by decide⟩, ⟨_, rfl, by decide, by decide, by decide⟩, ⟨_, rfl, by decide, by decide, by decide, by decide⟩,
    ⟨rfl, by decide⟩⟩

theorem test_meets_UncapturableWriteIsHeld :
    Served (capturing 1 4 16) ∧ Served (busy (capturing 1 4 16)) ∧ (busy (capturing 1 4 16)).path.host = none ∧
    64 ≤ poolLevel (capturing 1 4 16) ∧ 64 ≤ poolLevel (capturing 2 3 21) ∧ poolLevel (capturing 2 4 1) = 6 ∧
    64 ≤ poolLevel (withRecord member3 { livePub with retained := List.replicate 4 (batchOf (some 4) 16 true) }) := by
  refine ⟨(test_open rfl rfl).1, ⟨fun h => ?_, ?_⟩, ?_⟩
  · cases h
  · unfold HostConsistent; decide
  · decide

/-- A claim of word 0 of region 0. -/
def claimOf0 (d : CaptureDecision) (deferred : Bool) : Claim := { region := 0, offset := 0, decision := d, deferred := deferred }

theorem test_meets_MergeTakesTheWritesBytes :
    let s : State := { capturing 1 0 0 with cap := { Capture.reset with claim := some (claimOf0 .merge false) } }
    s.cap.claim = some (claimOf0 .merge false) ∧ (claimOf0 .merge false).decision = .merge ∧ (pubAt s 0).isSome = true ∧
    ((pubAt s 0).bind fun p => p.openBatch).isSome = true := by decide

/-- An open batch whose quiet measurement runs. -/
def quieting (k : Nat) (c : Option Claim) : State :=
  { withRecord member3 { livePub with
      openBatch := some (batchOf none 1 false), retained := List.replicate k (batchOf (some 4) 1 true), quiet := some 0 } with
    cap := { Capture.reset with claim := c } }

theorem test_meets_QuietExpiryCloses :
    PortServes (quieting 3 none) ∧ (quieting 3 none).top = .running ∧
    ((pubAt (quieting 3 none) 0).any fun p => p.quiet.isSome && decide (p.retained.length < 4)) = true ∧
    ((pubAt (quieting 4 none) 0).any fun p => decide (4 ≤ p.retained.length)) = true ∧
    (quieting 0 (some (claimOf0 .append false))).cap.claim = some (claimOf0 .append false) := by
  refine ⟨test_serves rfl, ?_⟩; decide

theorem test_meets_ReleaseCheckRunsToItsEnd :
    let s := withRecord member3 { livePub with retained := [batchOf (some 4) 1 true], acks := [(2, .tracking 4 none)] }
    releasable s 0 = true ∧ releasable member3 0 = false ∧ s.cap.held = none ∧ releasable (releaseCheck s 0) 0 = false := by
  decide

theorem test_meets_ReleaseCheck_close :
    let p : PubRecord := { livePub with retained := [batchOf (some 4) 1 true], acks := [(2, .tracking 4 none)] }
    let pends : PubRecord := { p with closePending := true, openBatch := some (batchOf none 1 false) }
    let claimed : State := { withRecord member3 pends with cap := { Capture.reset with claim := some (claimOf0 .append false) } }
    pubAt (withRecord member3 p) 0 = some p ∧ p.closePending = false ∧ pubAt claimed 0 = some pends ∧ pends.closePending = true ∧
    claimed.cap.claim = some (claimOf0 .append false) ∧ (claimOf0 .append false).region = 0 ∧
    (withRecord member3 pends).cap.claim = none ∧ pends.openBatch = some (batchOf none 1 false) := by decide

/-- A part that holds a write to word `o` of region 0. -/
def holdingAt (s : State) (o : Byte) : State :=
  hostAt { s with cap := { Capture.reset with held := some { heldWrite with offset := o } } } .captureHeld (writeTo o.toNat)

theorem test_meets_HeldWriteDecidedAgain :
    CaptureCase (holdingAt (capturing 1 0 0) 0) 0 (capturedPub 1 0 0) 0 .merge ∧
    CaptureCase (holdingAt (capturing 1 0 0) 7) 0 (capturedPub 1 0 0) 7 .append ∧
    CaptureCase (holdingAt (capturing 2 3 1) 7) 0 (capturedPub 2 3 1) 7 .full ∧
    CaptureCase (holdingAt member3 7) 0 livePub 7 .opening ∧
    HoldCase (holdingAt (capturing 1 4 16) 7) 0 (capturedPub 1 4 16) 7 .pool ∧
    HoldCase (holdingAt (capturing 2 4 1) 7) 0 (capturedPub 2 4 1) 7 .limit :=
  ⟨⟨_, rfl, by decide⟩, ⟨_, rfl, by decide, by decide, by decide⟩, ⟨_, rfl, by decide, by decide, by decide, by decide⟩,
    ⟨rfl, by decide⟩, ⟨by decide, .inr ⟨_, rfl, by decide, by decide⟩⟩, ⟨_, rfl, by decide, by decide, by decide⟩⟩

theorem test_meets_HeldWrite_closes :
    let s := holdingAt (capturing 2 3 21) 7
    s.cap.held = some { heldWrite with offset := 7 } ∧ pubAt s 0 = some (capturedPub 2 3 21) ∧
    (capturedPub 2 3 21).openBatch = some (batchOf none 2 false) ∧ (capturedPub 2 3 21).retained.length < 4 ∧
    64 ≤ poolLevel s := by decide

/-! ## Commands -/

/-- A slot of region 1 with two words, in progress. -/
def slotInProgress : Slot := { region := 1, seq := 10, content := .data [byteRecord 7 2, byteRecord 0 3], inProgress := true }

/-- A part with a command that executes. -/
def executing (s : State) (r : Option ResultCode) : State :=
  { s with agent := { s.agent with executing := some { code := 1, tag := 0, result := r, prior := none } } }

/-- Commands that wait on a BUSY port: with one that executes, in UNCONFIGURED, in CONFIGURED and in RUNNING. -/
theorem test_meets_commands_waiting :
    let write (s : State) (c : Byte) : Access := commandWrite s c 0 1
    GrantsAccess .memoryAccessComplete (.badCommand 6 0 1) (waiting (executing member3 none) (write member3 6))
      (write member3 6) ∧
    GrantsAccess .memoryAccessComplete (.load 0 1) (waiting (inTop .unconfigured) (write member3 1)) (write member3 1) ∧
    GrantsAccess .memoryAccessComplete (.start 0 1) (waiting (inTop .configured) (write member3 2)) (write member3 2) ∧
    GrantsAccess .memoryAccessComplete (.stop 0 1) (waiting member3 (write member3 3)) (write member3 3) ∧
    GrantsAccess .memoryAccessComplete (.flush 0 1) (waiting (capturing 1 3 1) (write member3 4)) (write member3 4) ∧
    GrantsAccess .memoryAccessComplete (.resync 0 1) (waiting member3 (write member3 5)) (write member3 5) :=
  ⟨(test_grants _ _ rfl rfl).2, (test_grants _ _ rfl rfl).2, (test_grants _ _ rfl rfl).2, (test_grants _ _ rfl rfl).2,
    (test_grants _ _ rfl rfl).2, (test_grants _ _ rfl rfl).2⟩

theorem test_meets_CommandWhileOneExecutesIsRefused :
    HostPortOpen (executing member3 none) ∧ (executing member3 none).top ≠ .inReset ∧
    (executing member3 none).agent.executing.isSome = true ∧ commandFields (.badCommand 6 16 1) = some (6, 16, 1) := by
  refine ⟨test_open rfl rfl, ?_⟩; decide

theorem test_meets_RefusedCommandOnlyGivesItsResult :
    HostPortOpen member3 ∧ member3.agent.executing = none ∧
    refusedResult .running 0 none none = some .badCommand ∧ refusedResult .running 6 none none = some .badCommand ∧
    refusedResult .running 1 none none = some .badState ∧ refusedResult .running 2 none none = some .badState ∧
    refusedResult .configured 3 none none = some .badState ∧ refusedResult .unconfigured 5 none none = some .badState ∧
    refusedResult .running 4 (pubNamed member3 16) none = some .badArg ∧
    refusedResult .running 4 (some { livePub with state := .suspended }) none = some .badState ∧
    refusedResult .running 5 none (subNamed member3 15) = some .badArg := by
  refine ⟨test_open rfl rfl, ?_⟩; decide

theorem test_meets_LoadStartStop :
    HostPortOpen (inTop .unconfigured) ∧ HostPortOpen (inTop .configured) ∧ HostPortOpen member3 ∧
    (inTop .unconfigured).agent.executing = none ∧ (inTop .configured).top = .configured ∧ master.straps.stn = 0 ∧
    goesOn (.load 0 1) (inTop .unconfigured) = true ∧ goesOn (.start 0 1) (inTop .configured) = true ∧
    goesOn (.stop 0 1) member3 = true := by
  refine ⟨test_open rfl rfl, test_open rfl rfl, test_open rfl rfl, ?_⟩; decide

/-- R87, R113, R179: STOP waits on the port for an apply's write, while the part sends a character at tick 9: the apply stays in
progress, the result waits for it, and the line was last busy at tick 9. A START then waits its gap from there. -/
theorem test_stop_with_apply :
    let b := busy member3
    let s := hostAt { b with
      inb := { slots := [slotInProgress], engine := some 1, fence := some 1 }, clock := { b.clock with ticks := 9 }
      line := { b.line with tx := .character }, path := { b.path with apply := .waiting } } .awaitingGrant (commandWrite b 3 0 1)
    (match exec .memoryAccessComplete s with
      | .next t => decide (t.top = .configured) && decide (t.inb.engine = some 1) && decide (t.line.tx = .idle) &&
          decide (t.tc.lineLast = 9) && decide (t.agent.executing.map (·.result) = some none)
      | _ => false) = true := by decide +kernel

/-- R47, R126: STOP at a member whose roster copy is empty marks the roster set and pool words, whose values it does not
change. -/
theorem test_stop_marks :
    let s : State := { member3 with tc := { member3.tc with roster := 0, member := .listening } }
    (match exec (.stop 0 1) s with
      | .next t => t.agent.marks.getLsbD 4 && t.agent.marks.getLsbD 5 && decide (statusValue t 4 = statusValue s 4) &&
          decide (statusValue t 5 = statusValue s 5)
      | _ => false) = true := by decide +kernel

theorem test_meets_FlushAndResyncAct :
    HostPortOpen (capturing 1 3 1) ∧ HostPortOpen (capturing 1 4 1) ∧ (capturing 1 3 1).agent.executing = none ∧
    pubAt member3 0 = some livePub ∧ subAt member3 1 = some currentSub ∧
    subAt (withFollow member3 { currentSub with state := .unsynced }) 1 = some { currentSub with state := .unsynced } := by
  refine ⟨test_open rfl rfl, test_open rfl rfl, ?_⟩; decide

/-! ## The memory port, the apply engine and the agent -/

/-- The port BUSY with the host's own access. -/
def hostBusy : State :=
  { hostAt member3 .granted read0 with path := { (hostAt member3 .granted read0).path with port := .busy .host read0 } }

theorem test_meets_CompletionFreesOrRegrantsThePort :
    (hostBusy.path.port = .busy .host read0 ∧ waitingHost hostBusy = none ∧ hostBusy.path.host.isSome = true) ∧
    ((busy member3).path.port = .busy .agent (accessOf 0 false 15#4 0) ∧ waitingHost (busy member3) = none ∧
      (busy member3).path.apply ≠ .waiting ∧ (busy member3).path.snap = false ∧ (busy member3).path.agent = none) ∧
    ((hostAt (busy member3) .awaitingGrant read0).path.last ≠ .host ∧ (busy member3).cap.claim = none ∧
      waitingHost (hostAt (busy member3) .awaitingGrant read0) =
        some { access := read0, condition := .awaitingGrant, result := 0 }) := by decide

theorem test_meets_CompletionUnobserved : Unobserved (busy member3) read0 := .inr (.inl rfl)

/-- A chunk of region 0 in assembly with `n` of its words read, a region of `len` words and a pass of `k` chunks. -/
def snapping (len k n : Nat) (c : Option Claim) : State :=
  let s := busy (setRegion member3 0 { desc := { pubDesc with length := len }, record := .published { livePub with
    pass := some { targets := 4#16, baseSeq := some 3, chunkCount := k, nextChunk := 1, sentCount := 0, settle := none
                   serial := 0 } } })
  { s with
    path := { s.path with snap := true }
    fu := { s.fu with assembly := .assembling 0 0 0 (List.replicate n 0#32) }
    cap := { s.cap with claim := c } }

theorem test_meets_SnapReadGranted :
    let more := snapping 17 2 14 none
    let ends := snapping 17 2 15 none
    let last := snapping 8 1 7 (some (claimOf0 .full false))
    let host : State := { more with path := { more.path with
      port := .busy .host read0, host := some { access := read0, condition := .granted, result := 0 } } }
    (host.path.port ≠ .free ∧ waitingHost host = none ∧ host.path.snap = true ∧ goesOn .memoryAccessComplete host = true) ∧
    more.path.port ≠ .free ∧ waitingHost more = none ∧ more.path.apply ≠ .waiting ∧
    more.path.snap = true ∧ more.fu.assembly = .assembling 0 0 0 (List.replicate 14 0#32) ∧ 14 + 1 < min 16 (17 - 16 * 0) ∧
    min 16 (17 - 16 * 0) ≤ 15 + 1 ∧ ((pubAt ends 0).bind fun p => p.pass.map fun c => c.chunkCount) = some 2 ∧
    min 16 (8 - 16 * 0) ≤ 7 + 1 ∧ ((pubAt last 0).bind fun p => p.pass.map fun c => c.chunkCount) = some 1 ∧
    last.cap.claim = some (claimOf0 .full false) ∧ (snapping 8 1 7 none).cap.claim = none := by decide

theorem test_meets_DeferredCloseIsTakenAtTheGrant :
    let s : State := hostAt { busy (capturing 1 0 0) with cap := { Capture.reset with claim := some (claimOf0 .append true) } }
      .awaitingGrant (writeTo 0)
    s.path.port = .busy .agent (accessOf 0 false 15#4 0) ∧ s.path.last ≠ .host ∧ s.path.apply ≠ .keptBack ∧
    s.top = .running ∧ s.cap.claim = some (claimOf0 .append true) ∧ matchAddress s (writeTo 0).addr = .region 0 0 ∧
    ((pubAt s 0).bind fun p => p.openBatch).isSome = true ∧ goesOn .memoryAccessComplete s = true := by decide

/-- A claimed write to word `o` of region 0 that awaits grant, the port BUSY. -/
def claimed (s : State) (o : Nat) (d : CaptureDecision) : State :=
  hostAt { busy s with cap := { Capture.reset with claim := some { claimOf0 d false with offset := BitVec.ofNat 8 o } } }
    .awaitingGrant (writeTo o)

theorem test_meets_ClaimedWriteJoins :
    goesOn .memoryAccessComplete (claimed (capturing 1 0 0) 0 .merge) = true ∧
    goesOn .memoryAccessComplete (claimed (capturing 2 3 1) 7 .full) = true ∧
    pubAt (claimed (capturing 2 3 1) 7 .full) 0 = some (capturedPub 2 3 1) ∧ (capturedPub 2 3 1).retained.length < 4 ∧
    goesOn .memoryAccessComplete (claimed member3 7 .opening) = true ∧ livePub.openBatch = none ∧
    4 ≤ (capturedPub 2 4 1).retained.length := by decide

/-- A DATA slot of region 1: a word outside the region, then two inside. -/
def slotOf (b : Bool) : Slot :=
  { region := 1, seq := 10, content := .data [byteRecord 8 1, byteRecord 7 2, byteRecord 0 3], inProgress := b }

/-- A part with a slot, the engine at a position or IDLE. -/
def applying (s : State) (b : Bool) (e : Option Nat) : State :=
  { s with inb := { slots := [slotOf b], engine := e, fence := if b then some 1 else none } }

theorem test_meets_ApplyStartTakesTheOlderSlot :
    (busy (applying member3 false none)).path.port ≠ .free ∧ (applying member3 false none).inb.engine = none ∧
    (applying member3 false none).inb.slots = slotOf false :: [] ∧ (slotOf false).inProgress = false ∧
    seekItem (descAt member3 1).length (slotItems (slotOf false)) 0 = some (1, { offset := 7, lanes := 1#4, data := 2#32 }) ∧
    seekItem (descAt member3 1).length (slotItems (slotOf false)) 2 = some (2, { offset := 0, lanes := 1#4, data := 3#32 }) ∧
    goesOn .applyStart (applying member3 false none) = true := by decide

/-- A slot of region 1 whose one word is outside the region, or its last. -/
def oneItem (o : Byte) : Slot := { slotOf false with content := .data [byteRecord o 1] }

/-- A part with that slot. -/
def startingOne (o : Byte) : State := { member3 with inb := { Inbound.reset with slots := [oneItem o] } }

theorem test_meets_ApplyCompletesAtStart :
    PortServes (startingOne 8) ∧
    ((startingOne 8).path.port = .free ∧ (startingOne 8).path.host = none ∧ (startingOne 8).inb.engine = none ∧
      (startingOne 8).inb.slots = oneItem 8 :: [] ∧ (oneItem 8).inProgress = false ∧
      seekItem (descAt (startingOne 8) 1).length (slotItems (oneItem 8)) 0 = none ∧
      seekItem (descAt (startingOne 7) 1).length (slotItems (oneItem 7)) 0 = some (0, { offset := 7, lanes := 1#4, data := 1#32 }) ∧
      seekItem (descAt (startingOne 7) 1).length (slotItems (oneItem 7)) 1 = none) ∧
    (oneItem 8).content = .data [byteRecord 8 1] ∧ subAt (startingOne 8) 1 = some currentSub ∧
    hostAwaitsRegion (hostAt (busy member3) .awaitingGrant (accessOf 0x20001C false 15#4 0)) 1 = true ∧
    hostAwaitsRegion (hostAt (busy member3) .awaitingGrant (accessOf 0x200020 false 15#4 0)) 1 = false := by
  refine ⟨test_serves rfl, ?_⟩; decide

/-- R79, R82: with no item to write, and with one at a FREE port, the apply is over in the step that starts it. -/
theorem test_apply_over :
    let ended (s : State) : Bool :=
      match exec .applyStart s with
      | .next t => decide (t.inb = Inbound.reset) && decide ((subAt t 1).map (·.applied) = some 10)
      | _ => false
    let s (o : Byte) : State := { withFollow member3 { currentSub with accepted := 10 } with
      inb := { Inbound.reset with slots := [oneItem o] } }
    ended (s 8) = true ∧ ended (s 7) = true := by decide +kernel

theorem test_meets_SlotItemsInFrameOrder :
    ([byteRecord 8 1, byteRecord 7 2] : List UpdateRecord)[1]? = some (byteRecord 7 2) ∧
    (wordItems 240 [1#32, 2#32])[1]? = some { offset := 241, lanes := 15#4, data := 2#32 } ∧
    seekItem 8 (slotItems (slotOf true)) 1 = some (1, { offset := 7, lanes := 1#4, data := 2#32 }) ∧
    seekItem 8 (slotItems (slotOf true)) 3 = none ∧ seekItem 7 (slotItems (slotOf true)) 1 ≠ none := by decide

/-- The last write of an apply waits for the port, in a part with a subscriber record. -/
def lastWrite (q : SubRecord) : State :=
  let s := busy (applying (withFollow member3 q) true (some 2))
  { s with path := { s.path with apply := .waiting } }

/-- The first of two words of an apply waits, behind an access of the agent or the host's own. -/
theorem test_meets_ApplyWriteMeets :
    let s := applying member3 true (some 1)
    let item : ApplyItem := { offset := 7, lanes := 1#4, data := 2#32 }
    ApplyWriteMeets { busy s with path := { (busy s).path with apply := .waiting } } (slotOf true) 1 item ∧
    ApplyWriteMeets { s with path := { hostBusy.path with apply := .waiting } } (slotOf true) 1 item ∧
    seekItem (descAt s 1).length (slotItems (slotOf true)) 2 = some (2, { offset := 0, lanes := 1#4, data := 3#32 }) :=
  ⟨⟨nofun, rfl, rfl, [], 1, rfl, rfl, by decide⟩, ⟨nofun, rfl, rfl, [], 1, rfl, rfl, by decide⟩, by decide⟩

theorem test_meets_LastWriteCompletesTheApply :
    (lastWrite currentSub).inb.engine = some 2 ∧ waitingHost (lastWrite currentSub) = none ∧
    (lastWrite currentSub).path.apply = .waiting ∧
    ((lastWrite currentSub).agent.executing.all fun e => decide (e.code ≠ 3)) = true ∧
    seekItem (descAt (lastWrite currentSub) 1).length (slotItems (slotOf true)) 2 =
      some (2, { offset := 0, lanes := 1#4, data := 3#32 }) ∧
    seekItem (descAt (lastWrite currentSub) 1).length (slotItems (slotOf true)) 3 = none ∧
    subAt (lastWrite currentSub) 1 = some currentSub ∧ goesOn .memoryAccessComplete (lastWrite currentSub) = true := by decide

/-- Applied 9 takes seq 10 when accepted is 10, the settle seq 10 is reached and 11 is not; applied 10 does not take it. -/
theorem test_meets_LastWrite_clauses :
    (1 ≤ ((10 : Byte) - 9).toNat ∧ ((10 : Byte) - 9).toNat ≤ 127 ∧ ((10 : Byte) - 10).toNat ≤ 127) ∧
    ¬ (1 ≤ ((10 : Byte) - 10).toNat) ∧ ((10 : Byte) - 10).toNat ≤ 127 ∧ 128 ≤ ((10 : Byte) - 11).toNat ∧
    subAt (lastWrite { currentSub with state := .settling, accepted := 10, settle := some 10 }) 1 =
      some { currentSub with state := .settling, accepted := 10, settle := some 10 } := by decide

/-- A CHUNK slot of region 1 with one word, in progress. -/
def chunkSlot (last : Bool) : Slot :=
  { region := 1, seq := 5, content := .chunk 0 last [7#32], inProgress := true }

/-- Its write waits for the port, in a part with a subscriber record. -/
def lastChunk (last : Bool) (q : SubRecord) : State :=
  let s := busy (withFollow member3 q)
  { s with
    inb := { slots := [chunkSlot last], engine := some 0, fence := some 1 }
    path := { s.path with apply := .waiting } }

/-- A region that follows a refresh with base seq 5 and a settle seq. -/
def endingSub (applied settle : Byte) : SubRecord :=
  { currentSub with state := .refreshing, applied := applied, baseSeq := some 5, expected := some 1, settle := some settle }

theorem test_last_chunk (last : Bool) (q : SubRecord) :
    ApplyWriteMeets (lastChunk last q) (chunkSlot last) 0 { offset := 0, lanes := 15#4, data := 7#32 } :=
  ⟨nofun, rfl, rfl, [], 0, rfl, rfl, rfl⟩

theorem test_meets_LastWrite_chunk :
    subAt (lastChunk true (endingSub 5 5)) 1 = some (endingSub 5 5) ∧ (endingSub 5 5).baseSeq = some (chunkSlot true).seq ∧
    ((5 : Byte) - 5).toNat ≤ 127 ∧ 128 ≤ ((5 : Byte) - 6).toNat ∧ currentSub.state ≠ .refreshing ∧
    ((lastChunk true currentSub).agent.executing.all fun e => decide (e.code ≠ 3)) = true := by decide

theorem test_meets_LastWrite_stop :
    let e : Executing := { code := 3, tag := 0, result := none, prior := none }
    let s : State := { lastChunk true SubRecord.loaded with agent := { Agent.reset with executing := some e } }
    subAt s 1 = some SubRecord.loaded ∧ SubRecord.loaded.state = .off ∧ s.agent.executing = some e ∧
    (chunkSlot true).inProgress = true ∧ goesOn .memoryAccessComplete s = true := by decide

/-- A part whose agent is at work, the port BUSY. -/
def withAgent (s : State) (a : Agent) : State := { busy s with agent := a }

/-- An event of no account. -/
def anEvent : Event := mkEvent .cmdBusy 15 15 0 0

theorem test_lowest (m : Fin 38) : IsLowest (1#38 <<< m.val) m := by
  unfold IsLowest; revert m; decide

theorem test_meets_AgentChoosesByTheTable :
    (busy member3).path.port ≠ .free ∧ (busy member3).path.agent = none ∧ member3.top ≠ .inReset ∧
    ({ Agent.reset with writing := some { entry := 31, event := anEvent, third := false } } : Agent).writing.isSome = true ∧
    ({ inTop .loading with agent := { Agent.reset with loadWords := List.replicate 67 0 } } : State).agent.loadWords.length < 68 ∧
    ({ Agent.reset with events := [anEvent], producer := 30 } : Agent).events ≠ [] ∧ ((30 : BitVec 5) - 0).toNat < 31 ∧
    31 ≤ ((31 : BitVec 5) - 0).toNat ∧ (inTop .unconfigured).top = .unconfigured := by decide

theorem test_meets_AgentChoosesMarked : NoResult member3 ∧ IsLowest (1#38 <<< 0) 0 ∧ IsLowest (1#38 <<< 37) 37 ∧
    (executing member3 (some .done)).agent.executing =
      some { code := 1, tag := 0, result := some .done, prior := none } :=
  ⟨fun x h => absurd (h.symm.trans (show member3.agent.executing = none from rfl)) (by simp), test_lowest 0, test_lowest 37, rfl⟩

/-- At a FREE port a marked word is written in the step that asks for it. -/
theorem test_meets_AgentAtFreePort :
    PortServes member3 ∧ member3.path.port = .free ∧ Requester.apply ≠ .host ∧
    (match exec .agentAccessRequest { member3 with agent := { member3.agent with marks := 1#38 <<< 3 } } with
      | .next t => decide (t.agent.marks = 0#38) && decide (t.path.port ≠ .free)
      | _ => false) = true :=
  ⟨test_serves rfl, rfl, nofun, by decide +kernel⟩

theorem test_agent_meets {s : State} {q : AgentRequest} {a : Agent} (h : s.path = MemoryPath.reset) :
    AgentMeets { withAgent s a with path := { (busy s).path with agent := some q } } q := by
  refine ⟨nofun, ?_, ?_, ?_, rfl⟩
  · simp [waitingHost, busy, h, MemoryPath.reset]
  · simp [busy, h, MemoryPath.reset]
  · simp [busy, h, MemoryPath.reset]

theorem test_meets_AgentWriteTakesEffectAtItsGrant :
    (∃ s, AgentMeets s (.statusWord 37)) ∧ (∃ s, AgentMeets s (.statusWord 1)) ∧
    (∃ s x, AgentMeets s .result ∧ s.agent.executing = some x ∧ x.result = some .done) ∧
    (∃ s, AgentMeets s .eventFirst ∧ s.agent.events = anEvent :: []) ∧
    (∃ s w, AgentMeets s .eventSecond ∧ s.agent.writing = some w) ∧ (∃ s w, AgentMeets s .eventThird ∧ s.agent.writing = some w) :=
  ⟨⟨_, test_agent_meets (s := member3) (a := Agent.reset) rfl⟩, ⟨_, test_agent_meets (s := member3) (a := Agent.reset) rfl⟩,
    ⟨_, { code := 1, tag := 0, result := some .done, prior := none },
      test_agent_meets (s := member3) (a := (executing member3 (some .done)).agent) rfl, rfl, rfl⟩,
    ⟨_, test_agent_meets (s := member3) (a := { Agent.reset with events := [anEvent] }) rfl, rfl⟩,
    ⟨_, { entry := 31, event := anEvent, third := false },
      test_agent_meets (s := member3) (a := { Agent.reset with writing := some { entry := 31, event := anEvent, third := false } })
        rfl, rfl⟩,
    ⟨_, { entry := 31, event := anEvent, third := true },
      test_agent_meets (s := member3) (a := { Agent.reset with writing := some { entry := 31, event := anEvent, third := true } })
        rfl, rfl⟩⟩

theorem test_meets_StatusValues :
    pubAt member3 2 = none ∧ subAt member3 2 = none ∧ pubAt member3 0 = some livePub ∧ livePub.retained.length ≤ 4 ∧
    livePub.acks.length ≤ 14 ∧ subAt member3 1 = some currentSub ∧ currentSub.settle = none ∧
    (endingSub 5 6).settle = some 6 ∧ poolLevel member3 ≤ 64 ∧ member3.cap.held = none ∧
    (holdingAt member3 7).cap.held.isSome = true ∧ (36 : Fin 38).val = 6 + 2 * (15 : RegionId).val ∧
    (37 : Fin 38).val = 7 + 2 * (15 : RegionId).val := by decide

/-- The configuration words of a part with every region OFF. -/
def plainConfig : List Word := [1#32, 2#32, 0x00010211#32, 0x00006013#32] ++ List.replicate 63 0#32

/-- A LOAD with `k` of its words read. -/
def loading (ws : List Word) : State :=
  { withAgent (inTop .loading) { Agent.reset with loadWords := ws } with
    path := { (busy (inTop .loading)).path with agent := some .loadRead } }

/-- A part whose command has its result and waits for the words of `b`; the agent asks `q`. -/
def resulting (b : BitVec 38) (q : AgentRequest) : State :=
  { withAgent member3 { Agent.reset with
      marks := b, executing := some { code := 1, tag := 0, result := some .done, prior := some b } } with
    path := { (busy member3).path with agent := some q } }

/-- R181: START reaches its result, and the words that it marks precede it; the words stay while another command runs and the
grant of one's write takes it out; the grant of the result ends them. -/
theorem test_meets_PriorIsWhatWasMarked :
    let prior (o : Host.Outcome State Fault Refusal) : Option (BitVec 38 × Option (BitVec 38)) :=
      match o with
      | .next t => some (t.agent.marks, t.agent.executing.bind Executing.prior)
      | _ => none
    (inTop .configured).agent.executing = none ∧
    ((prior (exec (.start 0 9) (inTop .configured))).any fun x => decide (x.1 ≠ 0#38) && decide (x.2 = some x.1)) = true ∧
    prior (exec .gap (resulting 9#38 (.statusWord 0))) = some (9#38, some 9#38) ∧
    prior (exec .memoryAccessComplete (resulting 9#38 (.statusWord 0))) = some (8#38, some 8#38) ∧
    prior (exec .memoryAccessComplete (resulting 0#38 .result)) = some (0#38, none) := by decide +kernel

theorem test_meets_AgentWrites :
    (∃ t, exec .memoryAccessComplete (resulting 9#38 (.statusWord 3)) = .next t ∧
      AgentWrites .memoryAccessComplete (resulting 9#38 (.statusWord 3)) t 73) ∧
    (∃ t, exec .memoryAccessComplete (resulting 0#38 .result) = .next t ∧
      AgentWrites .memoryAccessComplete (resulting 0#38 .result) t 69) ∧
    ∃ t, exec .gap (resulting 9#38 (.statusWord 3)) = .next t ∧ (resulting 9#38 (.statusWord 3)).agent.marks.getLsbD 3 = true ∧
      ¬ AgentWrites .gap (resulting 9#38 (.statusWord 3)) t 73 :=
  ⟨⟨_, rfl, .inr rfl, _, rfl⟩, ⟨_, rfl, .inr rfl, _, rfl⟩, _, rfl, by decide, fun h => h.1.elim (by decide) (by decide)⟩

theorem test_meets_LoadReads : AgentMeets (loading (plainConfig.take 66)) .loadRead ∧ AgentMeets (loading plainConfig) .loadRead :=
  ⟨test_agent_meets (s := inTop .loading) rfl, test_agent_meets (s := inTop .loading) rfl⟩

theorem test_meets_LoadReadsChecksAndConfigures :
    plainConfig.length = 67 ∧ (plainConfig.take 66).length < 67 ∧ (loading plainConfig).top = .loading ∧
    checkConfig 3 0 (wordsRead (loading plainConfig)) = none ∧
    checkConfig 3 0 (wordsRead (loading (List.replicate 67 0#32))) = some (.badVersion, 0) := by decide

/-- R188: the codes of a line format word and of a descriptor, at each value. -/
theorem test_meets_LoadedFields :
    let w (x : Word) : List Word := [1#32, x]
    let d (x y : Word) : Descriptor := descriptorOf [0, 0, 0, 0, 0xFF123454#32, x, y, 0x0FFF8001#32] 0
    formatOf (w 0x00000002#32) = { divisor := 2, samplesPerBit := 8, parity := .none, twoStops := false } ∧
    formatOf (w 0x00015FFF#32) = { divisor := 4095, samplesPerBit := 12, parity := .even, twoStops := true } ∧
    formatOf (w 0x0000A002#32) = { divisor := 2, samplesPerBit := 16, parity := .odd, twoStops := false } ∧
    (d 0x00000000#32 0).role = .off ∧ (d 0x00000000#32 0).guard = .guarded ∧ (d 0x00000000#32 0).closeOffset = none ∧
    d 0x0021C3FF#32 0x01057FFF#32 =
      { base := 0x123454, length := 511, role := .publish, publisher := 14, subscribers := 0x7FFF, guard := .guarded,
        batchLimit := 16, closeOffset := some 5, quietInterval := 32769, holdLimit := 4095 } ∧
    (d 0x00000C01#32 0).role = .subscribe ∧ (d 0x00000C01#32 0).guard = .openMode := by decide

/-- A configuration whose turn timeouts are 0. -/
def noTimeouts : List Word := [1#32, 2#32, 0x00010211#32] ++ List.replicate 64 0#32

theorem test_meets_LoadErrors :
    (∃ holds after, loadChecks 3 0 [] = [] ++ (holds, .badVersion, 0) :: after ∧ ¬ holds) ∧
    (∃ before holds after, loadChecks 3 0 noTimeouts = before ++ (holds, .badTimeout, 0) :: after ∧ (∀ x ∈ before, x.1) ∧
      ¬ holds) := by
  refine ⟨⟨_, _, rfl, by decide⟩, ⟨[_, _, _, _], _, _, rfl, ?_, by decide⟩⟩
  simp only [List.mem_cons, List.not_mem_nil, or_false, forall_eq_or_imp, forall_eq]
  decide

theorem test_meets_ChangedStatusWordIsMarked :
    (match exec (.load 0 0) (inTop .configured) with
      | .next t => decide (statusValue t 3 ≠ statusValue (inTop .configured) 3)
      | _ => false) = true ∧ (inTop .configured).top ≠ .inReset := by decide

/-- R180: station 2's ack releases a batch of region 0, whose held write is granted as FULL in the same step: four batches are
retained again, and word 1 of the region is marked. -/
theorem test_two_moments_marked :
    let p : PubRecord := { livePub with
      openBatch := some (batchOf none 2 false), acks := [(2, .tracking 3 none)], nextSeq := 8
      retained := [batchOf (some 4) 1 true, batchOf (some 5) 1 true, batchOf (some 6) 1 true, batchOf (some 7) 1 true] }
    let held : HeldWrite := { heldWrite with offset := 5, reason := .limit }
    let s : State := hostAt { withRecord member3 p with cap := { Capture.reset with held := some held } } .captureHeld (writeTo 5)
    let y : YieldFrame := { yieldOf 0 none with acks := [{ region := 0, generation := 1, appliedSeq := 4, state := .current }] }
    (match exec (.yieldReceived 2 y) s with
      | .next t => t.agent.marks.getLsbD 7 && decide ((pubAt t 0).map (·.retained.length) = some 4) &&
          decide (statusValue t 7 = statusValue s 7)
      | _ => false) = true := by decide +kernel

/-- R180: one YIELD of station 2, whose refresh of region 0 is wanted, acks the region and then wants it again: the waiting
count goes from 1 to 0 and back, and word 1 of the region is marked. -/
theorem test_yield_moments_marked :
    let s := withRecord member3 { livePub with acks := [(2, .refreshWanted), (4, .unknown)] }
    let entry (x : ReportedState) : AckEntry := { region := 0, generation := 1, appliedSeq := 3, state := x }
    (match exec (.yieldReceived 2 { yieldOf 0 none with acks := [entry .current, entry .unsynced] }) s with
      | .next t => t.agent.marks.getLsbD 7 && decide (statusValue t 7 = statusValue s 7)
      | _ => false) = true := by decide +kernel

/-- R183: an event posted together with another stands before or after it, and the last of them is lost where the list has no
room for both (log 25). -/
theorem test_event_among :
    let other : Event := { anEvent with seq := 77 }
    let part (n : Nat) : State := { member3 with agent := { member3.agent with events := List.replicate n anEvent } }
    ((postAmong 0 (part 1) other).agent.events.map (·.seq) = [77, anEvent.seq] ∨
      (postAmong 0 (part 1) other).agent.events.map (·.seq) = [anEvent.seq, 77]) ∧
    (postAmong 7 (part 8) other).agent.events.length = 8 ∧ (postAmong 7 (part 8) other).agent.lost = 1 := by
  refine ⟨?_, ?_, by decide +kernel⟩
  · rw [postAmong_placed (n := 0) (m := 1) _ rfl (by decide) (by decide)]
    generalize Config.eventPlace _ 1 = place
    revert place
    decide +kernel
  · rw [postAmong_placed (n := 7) (m := 1) _ rfl (by decide) (by decide)]
    generalize Config.eventPlace _ 1 = place
    revert place
    decide +kernel

/-- R44, R154, R183: an escape withdraws the chunk of its region with the gap passed, so that the YIELD chosen in its place enters
ECHO and posts the FRAME_ERROR held back, beside which ESCAPE takes its place. -/
theorem test_escape_among :
    let s := snapping 17 2 1 none
    let u : State := { s with
      cap := { Capture.reset with held := some heldWrite }
      del := { s.del with turn := some { kind := .member, budget := 4, cycle := 0, yieldHanded := false, pollEnd := 0 } }
      tc := { s.tc with gap := .passed }
      fu := { s.fu with heldFraming := some anEvent }
      line := { s.line with tx := .idle, rx := .lowWatch false } }
    let t := pump (releaseHeld (updPub (discard (abandonPass u 0) 0) 0 escapeRecord))
    u.agent.events = [] ∧ t.agent.events.map (·.kind) = [anEvent.kind] ∧ t.line.rx = .echo := by decide +kernel

theorem test_meets_EventIsListedOrLost :
    (List.replicate 7 anEvent).length < 8 ∧ ((30 : BitVec 5) - 0).toNat < 31 ∧ 8 ≤ (List.replicate 8 anEvent).length ∧
    31 ≤ ((30 : BitVec 5) - 31).toNat := by decide

/-! ## Reset pins and timers -/

theorem test_meets_ResetPinsSetThePart :
    member3.path.host = none ∧ (hostAt member3 .granted read0).path.host.isSome = true ∧
    (hostAt (busy member3) .captureHeld read0).path.port ≠ .free ∧ (hostAt member3 .captureHeld read0).path.port = .free ∧
    (withLine member3 fun l => { l with tx := .breakHigh }).line.tx = .breakHigh ∧
    State.reset.top = .inReset := by decide

/-- A part that holds a write of region 0, the port BUSY. -/
def holding : State := hostAt { busy member3 with cap := { Capture.reset with held := some heldWrite } } .captureHeld (writeTo 0)

theorem test_meets_EscapeRestartsTheStream :
    holding.path.port ≠ .free ∧ holding.del.turn = none ∧ holding.fu.assembly = .empty ∧ holding.cap.claim = none ∧
    holding.cap.held = some heldWrite ∧ pubAt holding 0 = some livePub ∧ livePub.state = .live := by decide

/-- The same at a FREE port: the write is granted in the step of its escape. -/
def holdingFree : State := hostAt { member3 with cap := { Capture.reset with held := some heldWrite } } .captureHeld (writeTo 0)

theorem test_meets_EscapeAtFreePort :
    Served holdingFree ∧ holdingFree.path.port = .free ∧
    (holdingFree.path.host = some { access := writeTo 0, condition := .captureHeld, result := 0 } ∧
      matchAddress holdingFree (writeTo 0).addr = .region 0 0 ∧ holdingFree.path.last ≠ .host) ∧
    (match exec .escape holdingFree with
      | .next t => decide (t.path.host.map (·.condition) = some .granted)
      | _ => false) = true := by
  refine ⟨⟨fun _ => ⟨rfl, nofun, rfl, rfl⟩, ?_⟩, rfl, ?_, ?_⟩
  · unfold HostConsistent; decide
  · decide
  · decide +kernel

theorem test_meets_SuspendedRegionIsDiscarded :
    pubAt member3 0 = some livePub ∧ member3.fu.assembly = .empty ∧
    (member3.cap.claim.any fun c => decide (c.region = 0)) = false ∧ member3.cap.held = none ∧
    holding.cap.held = some heldWrite ∧ heldWrite.region = 0 := by decide

theorem test_meets_SuspendedRegion_passes :
    (holdingAt member3 7).cap.held.any (fun h => decide (h.region ≠ 5)) = true ∧
    pubAt (withRecord member3 { livePub with state := .suspended }) 0 = some { livePub with state := .suspended } ∧
    livePub.pass = none ∧ ((pubAt (snapping 17 2 1 none) 0).any fun p => p.pass.isSome) = true ∧
    (snapping 17 2 1 none).fu.assembly = .assembling 0 0 0 [0#32] ∧
    ({ snapping 17 2 1 none with fu := FrameUnit.reset } : State).fu.assembly = .empty := by decide

/-- A pass of region 0 with one chunk chosen. -/
def passOf (sent : Nat) : Pass :=
  { targets := 4#16, baseSeq := some 3, chunkCount := 2, nextChunk := sent + 1, sentCount := sent, settle := none, serial := 0 }

/-- A part with other turns. -/
def withTurns (s : State) (f : Turns → Turns) : State := { s with tc := f s.tc }

theorem test_meets_LineLossClearsTheRoster :
    (withTurns member3 fun t => { t with lost := .running 0 }).tc.lost = .running 0 ∧ member3.top = .running ∧
    member3.tc.member = .enrolled ∧ (withTurns member3 fun t => { t with member := .listening }).tc.member ≠ .enrolled ∧
    (withTurns member3 fun t => { t with member := .listening }).tc.member ≠ .speaking := by decide

/-- R12, R20, R102, R125: the timer expires at a SPEAKING member with a chunk in assembly and its turn open. The region is
SUSPENDED and its subscribed region UNSYNCED at NOT_ENROLLED, the member LISTENING in what is now a probe reply; the chunk is
withdrawn and the YIELD chosen in its place. -/
theorem test_line_lost_speaking :
    let s := snapping 17 2 1 none
    let u : State := { withTurns s fun t => { t with member := .speaking, lost := .running 0 } with del := { s.del with
      turn := some { kind := .member, budget := 4, cycle := 0, yieldHanded := false, pollEnd := 0 } } }
    (match exec .lineLost u with
      | .next t => decide (t.tc.member = .listening) && t.tc.probeReply && decide ((pubAt t 0).map (·.state) = some .suspended) &&
          decide ((subAt t 1).map (·.state) = some .unsynced) &&
          decide (t.fu.lineBuf.map (frameKind ·.frame) = some 4)
      | _ => false) = true := by decide +kernel

theorem test_meets_RosterEffects :
    subAt member3 1 = some currentSub ∧ currentSub.state = .current ∧
    subAt (withFollow member3 { currentSub with state := .unsynced }) 1 = some { currentSub with state := .unsynced } ∧
    (withTurns member3 fun t => { t with roster := 0 }).tc.roster.getLsbD (descAt member3 1).publisher.val = false ∧
    member3.tc.roster.getLsbD (descAt member3 1).publisher.val = true ∧
    (({ livePub with pass := some { passOf 0 with targets := 0 } } : PubRecord).pass.any fun c => decide (c.targets = 0)) = true ∧
    (passOf 0).targets ≠ 0 := by decide

/-- A watch whose timer and count have run out. -/
def watchOf (reply silence : Option Nat) (frames : Nat) : Watch :=
  { station := 2, probe := false, budget := 4, reply := reply, silence := silence, frames := frames }

/-- A master that watches station 2. -/
def watching (w : Watch) : State := withTurns master fun t => { t with phase := .polling, watch := some w }

theorem test_meets_TimersLetTheMasterGoOn :
    (watching (watchOf (some 0) none 0)).tc.watch = some (watchOf (some 0) none 0) ∧ (watchOf (some 0) none 0).reply.isSome = true ∧
    (watchOf none (some 0) 0).silence.isSome = true ∧ (watchOf none (some 0) 5).budget + 1 ≤ (watchOf none (some 0) 5).frames ∧
    (withTurns master fun t => { t with phase := .pause, pauseFrom := some 0 }).tc.pauseFrom.isSome = true ∧
    (withTurns master fun t => { t with phase := .silenceWait, silenceFrom := some 0, breakDue := true }).tc.breakDue = true ∧
    ({ master.line with tx := .breakHigh } : Line).tx = .breakHigh := by decide

theorem test_meets_MasterTakesTheNextStep :
    master.fu.assembly = .empty ∧ master.fu.lineBuf = none ∧ master.line.tx = .idle ∧ master.tc.breakDue = false ∧
    (withTurns master fun t => { t with breakDue := true }).tc.breakDue = true ∧
    (withTurns master fun t => { t with next := .poll, pollPos := some 1, pollList := [2, 3] }).tc.pollList[1]? = some 3 ∧
    (withTurns master fun t => { t with next := .poll }).tc.pollPos = none ∧ probeTarget master = some 1 ∧
    probeTarget (withTurns master fun t => { t with roster := 0x7FFF#16 }) = none ∧ master.tc.next = .cycleStart := by decide

/-- R114: the probe position wraps from 14 to 1, and station 2 of the roster 0, 2, 3, 4 is passed over. -/
theorem test_probe_order :
    let from_ (p : StationId) : Option StationId := probeTarget (withTurns master fun t => { t with probePos := p })
    from_ 14 = some 1 ∧ from_ 1 = some 5 ∧ from_ 13 = some 14 ∧ from_ 15 = some 1 := by decide

/-- R113, R140: the first POLL of a cycle is taken while the transmitter holds the line after the own YIELD, and waits in the
line buffer. -/
theorem test_first_poll :
    let s := withTurns (withLine master fun l => { l with tx := .holding true }) fun t =>
      { t with next := .poll, pollPos := some 0, pollList := [2] }
    (masterNext s).line.tx = .holding true ∧ (masterNext s).tc.phase = .polling ∧
    (masterNext s).fu.lineBuf = some { frame := .poll 2 s.tc.cycle (BitVec.ofNat 8 s.params.budget), serial := 0 } := by decide

/-- A cycle start with station 2 to be removed and station 1 to be added posts both events, the removal first. -/
theorem test_cycle_start :
    let s := withTurns master fun t => { t with removals := 4#16, additions := 2#16, misses := Vector.replicate 16 3 }
    (rosterUpdated s).tc.roster = 0x1B#16 ∧ (rosterUpdated s).tc.misses.get (2 : Fin 16) = 0 ∧
    (rosterUpdated s).tc.misses.get (3 : Fin 16) = 3 ∧
    (rosterUpdated s).agent.events.map (fun e => (e.kind, e.station)) = [(.stationLost, 2), (.stationJoined, 1)] := by decide

/-- A part with an open turn. -/
def inTurn (s : State) (k : TurnKind) (n : Nat) : State :=
  { s with del := { s.del with
    turn := some { kind := k, budget := n, cycle := 0, yieldHanded := false, pollEnd := 0 } } }

theorem test_meets_LapseAbortsTheMembersTurn :
    PortServes (inTurn member3 .member 1) ∧ (inTurn member3 .member 1).del.turn.isSome = true ∧ TurnKind.member ≠ .own ∧
    member3.line.tx = .idle ∧ (withLine member3 fun l => { l with tx := .holding false }).line.tx = .holding false := by
  refine ⟨test_serves rfl, ?_⟩; decide

theorem test_meets_AbortReturns :
    let b := batchOf (some 3) 1 false
    let p : PubRecord := { livePub with retained := [b], pass := some (passOf 1) }
    let s := withRecord (inTurn member3 .member 4) p
    let u : State := { s with del := { s.del with turnList := [.first 0 3 0, .chunk 0 1 0] } }
    pubAt u 0 = some p ∧ p.epoch = 0 ∧ b ∈ p.retained ∧ b.seq = some 3 ∧ b.sent = false ∧ p.pass = some (passOf 1) ∧
    .chunk 0 1 (passOf 1).serial ∈ u.del.turnList ∧ .chunk 0 1 (passOf 1).serial ∉ s.del.turnList ∧ pubAt u 1 = none ∧
    returnable u (.first 0 3 0) = some (0, 3) ∧ returnable u (.first 0 3 1) = none := by decide

/-! ## The line -/

theorem test_meets_TurnaroundGapBeginsTheStep :
    (withTurns master fun t => { t with gap := .counting 0 }).tc.gap = .counting 0 ∧ master.top = .running ∧
    master.line.tx = .idle ∧ (withTurns master fun t => { t with phase := .breaking }).tc.phase = .breaking ∧
    master.tc.phase ≠ .breaking ∧ master.fu.lineBuf = none ∧
    ({ master.fu with lineBuf := some { frame := .poll 2 0 1, serial := 0 } } : FrameUnit).lineBuf.isSome = true := by decide

theorem test_meets_LineStatesMoveOn :
    PortServes member3 ∧ (withLine member3 fun l => { l with tx := .breakLow }).line.tx = .breakLow ∧
    (withLine member3 fun l => { l with tx := .holding true }).line.tx = .holding true ∧ member3.line.rx = .idle ∧
    majority 1#3 = false ∧ majority 3#3 = true ∧
    (withLine member3 fun l => { l with rx := .lowWatch true }).line.rx = .lowWatch true ∧ member3.fu.heldFraming = none ∧
    ({ member3.fu with heldFraming := some anEvent } : FrameUnit).heldFraming = some anEvent ∧
    (inTop .configured).top ≠ .running ∧ member3.line.format = some lineFormat ∧
    (withLine member3 fun l => { l with rx := .arming }).line.rx ≠ .idle := by
  refine ⟨test_serves rfl, ?_⟩; decide

/-- R71, R138: a whole frame in CONFIGURED leaves only the moment at which the line was last busy. -/
theorem test_meets_FrameOutsideRunning :
    let s : State := { inTop .configured with clock := { Clock.reset with ticks := 5 } }
    let left (c : Instr) : Bool := match exec c s with
      | .next t => decide (t = { s with tc := { s.tc with lineLast := 5 } })
      | _ => false
    PortServes s ∧ s.line.rx = .idle ∧ s.top ≠ .running ∧ left (.pollReceived 0 1 4) = true ∧
    left (.dataReceived 2 (dataOf 7 10 [])) = true ∧ left (.chunkReceived 2 (chunkOf 7 0 [])) = true ∧
    left (.yieldReceived 2 (yieldOf 0 none)) = true := by
  refine ⟨test_serves rfl, ?_⟩; decide +kernel

/-- The part's sampling with `k` ticks at 1 in a row, at sample `j`, with centre samples taken. -/
def sampled (k : Nat) (j : Option Nat) (l : List Bool) : Sampling := { level := true, ones := k, sample := j, centre := l }

/-- A sample tick at the level `b`, in a receiver state. -/
def rxTick (rx : LineRx) (p : Sampling) (b : Bool) : State := ticking member3 rx .idle p b

theorem test_sample_tick {s : State} (h : s.pending = []) (hd : s.clock.due = []) (h1 : s.top = .running)
    (h2 : s.line.format = some lineFormat) (h3 : s.clock.tickPhase = 1) : SampleTick s lineFormat :=
  ⟨h, hd, by rw [h1]; decide, h2, by rw [h3]; decide⟩

theorem test_meets_SampleTick (rx : LineRx) (p : Sampling) (b : Bool) :
    SampleTick (rxTick rx p b) lineFormat ∧ (rxTick rx p b).line.lrx = b :: [] ∧ 8 ≤ lineFormat.samplesPerBit :=
  ⟨test_sample_tick rfl rfl rfl rfl rfl, rfl, by decide⟩

/-- Whether the idle step of a state makes a command due. -/
def makesDue (s : State) (c : Instr) : Bool :=
  match step s with
  | .next t => (dueOf t).any fun d => decide (d = c)
  | .fault _ => false
  | .refused _ => false

/-- R147, R148, R152: one tick before the moment and at it. -/
theorem test_ticks_receiver :
    makesDue (rxTick .arming (sampled 6 none []) true) .receiverArmed = false ∧
    makesDue (rxTick .arming (sampled 7 none []) true) .receiverArmed = true ∧
    makesDue (rxTick .idle (sampled 0 (some 4) [true, false]) false) (.startBitVote 1#3) = true ∧
    makesDue (rxTick (.lowWatch true) (sampled 1 (some 90) []) true) .lowWatchReturn = false ∧
    makesDue (rxTick (.lowWatch true) (sampled 2 (some 90) []) true) .lowWatchReturn = true := by decide +kernel

/-- R149, R152, R153, R136: the last stop bit's third centre sample is sample 85 of 8 samples a bit and 11 bits; the break
length is 172 ticks; a line reset's low period ends at the first of three ticks at 1; the gap is 176 ticks. -/
theorem test_ticks_lengths :
    makesDue (rxTick (.character 0#3) (sampled 0 (some 84) (List.replicate 29 true)) false)
      (.characterReceived (List.replicate 9 7#3 ++ [3#3] ++ List.replicate 2 7#3)) = true ∧
    makesDue (rxTick (.lowWatch true) (sampled 0 (some 170) []) false) .breakLengthReached = false ∧
    makesDue (rxTick (.lowWatch true) (sampled 0 (some 171) []) false) .breakLengthReached = true ∧
    makesDue (rxTick (.lowWatch true) (sampled 0 (some 171) []) true) .breakLengthReached = false ∧
    makesDue (rxTick .inBreak (sampled 2 (some 300) []) true) (.lineReset 299) = true ∧
    (let s := withLine (rxTick .idle (sampled 0 none []) true) fun l => { l with gapFrom := some 0 }
     let u (n : Nat) : State := { s with
       clock := { s.clock with ticks := n }, fu := { s.fu with rx := .receiving [0x13] 0#16 } }
     makesDue (u 174) .gap = false ∧ makesDue (u 175) .gap = true) := by decide +kernel

theorem test_meets_CollisionEndsTheStep :
    member3.straps.stn ≠ 0 ∧ master.straps.stn = 0 ∧ member3.top = .running ∧
    (withLine master fun l => { l with tx := .character }).line.tx = .character ∧
    (withLine master fun l => { l with tx := .holding false }).line.tx = .holding false ∧
    (withTurns master fun t => { t with phase := .ownTurn }).tc.phase = .ownTurn ∧
    (withTurns master fun t => { t with phase := .probing }).tc.phase = .probing ∧
    (watching (watchOf none none 0)).tc.phase = .polling := by decide

/-- A tick of the echo check while station 0 sends a POLL, `n` ticks after its start. -/
def echoTick (n : Nat) (l : List Bool) (b : Bool) : State :=
  let s := ticking master .echo .character (sampled 0 none l) b
  { s with clock := { s.clock with ticks := n }, fu := { s.fu with lineBuf := some { frame := .poll 2 0 1, serial := 0 } } }

/-- The fault that the line unit holds after a step. -/
def faultAfter (s : State) : Option (EchoFault × Byte) :=
  match step s with
  | .next t => t.line.fault
  | .fault _ => none
  | .refused _ => none

theorem test_meets_EchoTick (n : Nat) (l : List Bool) (b : Bool) :
    SampleTick (echoTick n l b) lineFormat ∧ (echoTick n l b).line.lrx = b :: [] ∧ (echoTick n l b).line.fault = none ∧
    (echoTick n l b).fu.lineBuf = some { frame := .poll 2 0 1, serial := 0 } :=
  ⟨test_sample_tick rfl rfl rfl rfl rfl, rfl, rfl, rfl⟩

/-- R156: the start bit's echo is voted at tick 5 and the stop bit's at tick 85; character 4 begins at tick 352. -/
theorem test_echo_votes :
    faultAfter (echoTick 4 [true, false] false) = none ∧ faultAfter (echoTick 4 [true, false] true) = some (.mismatch, 0) ∧
    faultAfter (echoTick 84 [true, false] false) = some (.framing, 0) ∧ faultAfter (echoTick 83 [false] false) = none ∧
    faultAfter (echoTick 356 [true, true] true) = some (.mismatch, 4) := by decide +kernel

/-- R156, R157: CONTENTION in HOLDING, and the moment of COLLISION after a fault in character 0. -/
theorem test_collision_due :
    let holds (j : Option Nat) (l : List Bool) : State := ticking master .echo (.holding false) (sampled 0 j l) false
    let faulty (n : Nat) : State := withLine (echoTick n [] true) fun l => { l with fault := some (.mismatch, 0) }
    faultAfter (holds none []) = none ∧ faultAfter (holds (some 4) [true, true]) = none ∧
    makesDue (holds (some 4) [false, true]) (.collision .contention 255) = true ∧
    makesDue (faulty 86) (.collision .mismatch 0) = false ∧ makesDue (faulty 87) (.collision .mismatch 0) = true := by
  decide +kernel

/-- R156: the ticks of the characters leave no sample behind, so that the first falling edge in HOLDING is a new sample 0. -/
theorem test_contention_search :
    let sampleAfter (s : State) : Option (Option Nat) :=
      match step s with
      | .next t => some t.line.sampling.sample
      | _ => none
    sampleAfter (echoTick 80 [] false) = some none ∧ sampleAfter (echoTick 84 [true, true] true) = some none ∧
    sampleAfter (ticking master .echo (.holding false) (sampled 0 none []) false) = some (some 0) := by decide +kernel

/-- A part that sends a frame. -/
def sendingFrame (s : State) (f : Frame) : State :=
  { withLine s (fun l => { l with tx := .character }) with fu := { s.fu with lineBuf := some { frame := f, serial := 0 } } }

theorem test_meets_CompletedFrameIsReported :
    (sendingFrame master (.poll 2 0 1)).line.tx = .character ∧ (sendingFrame master (.poll 2 0 1)).del.turn = none ∧
    (sendingFrame master (.poll 2 0 1)).fu.assembly = .empty ∧
    (sendingFrame master (.poll 2 0 1)).fu.lineBuf = some { frame := .poll 2 0 1, serial := 0 } ∧
    pubAt (sendingFrame member3 (.data { dataOf 1 4 [] with region := 0 })) 0 = some livePub ∧
    ({ livePub with pass := some (passOf 1) } : PubRecord).pass = some (passOf 1) ∧ (passOf 1).serial = 0 ∧
    (passOf 1).sentCount + 1 = (passOf 1).chunkCount ∧ (passOf 0).sentCount + 1 ≠ (passOf 0).chunkCount ∧
    (∀ c, livePub.pass = some c → c.serial ≠ 0) ∧ (∀ c, some (passOf 1) = some c → c.serial ≠ 1) ∧
    member3.straps.stn ≠ 0 ∧ master.line.fault = none ∧ livePub.epoch = 0 ∧ { livePub with epoch := 1 }.epoch ≠ 0 := by decide

/-- A turn with room, while a frame is sent. -/
def choosing (p : PubRecord) (n : Nat) (queue : List (RegionId × Byte)) : State :=
  let s := inTurn (sendingFrame (withRecord member3 p) (.yield (yieldOf 0 none))) .member n
  { s with cap := { s.cap with sendQueue := queue }, del := { s.del with ownTurn := 2 } }

/-- A batch sent in turn 1 that station 2 lacks. -/
def lackedPub : PubRecord :=
  { livePub with
    retained := [{ batchOf (some 4) 1 true with lastTurn := some 1 }], acks := [(2, .tracking 3 (some 1))] }

theorem test_meets_TurnChoosesItsFrames :
    ¬ ((choosing livePub 0 []).del.turnList.length < 0) ∧ chooseRepeat (choosing livePub 1 []) = none ∧
    chooseRefresh (choosing livePub 1 []) = none ∧ (chooseRepeat (choosing lackedPub 1 [])).isSome = true ∧
    chooseRefresh (choosing { livePub with pendingTargets := 4#16 } 1 []) = some 0 ∧
    chooseRepeat (choosing { livePub with pendingTargets := 4#16 } 1 []) = none ∧
    (choosing { livePub with retained := [batchOf (some 4) 1 false] } 1 [(0, 4)]).cap.sendQueue = (0, 4) :: [] ∧
    chooseRepeat (choosing { livePub with retained := [batchOf (some 4) 1 false] } 1 [(0, 4)]) = none ∧
    (([batchOf (some 4) 1 false] : List Batch).find? fun y => decide (y.seq = some 4)).isSome = true := by decide

/-- A part with an open turn whose buffers are EMPTY, and the transmitter in a state. -/
def opening (tx : LineTx) (n : Nat) : State := { withLine (choosing livePub n []) fun l => { l with tx := tx } with fu := FrameUnit.reset }

/-- R140, R154: with the line buffer EMPTY the YIELD moves there at once; it waits for the gap, or begins between two frames
and once the gap has passed. -/
theorem test_pump_empty_line :
    let kind (s : State) : Option Nat := (pump s).fu.lineBuf.map (frameKind ·.frame)
    kind (opening .idle 0) = some 4 ∧ (pump (opening .idle 0)).line.tx = .idle ∧
    kind (opening (.holding false) 0) = some 4 ∧ (pump (opening (.holding false) 0)).line.tx = .character ∧
    (pump (withTurns (opening .idle 0) fun t => { t with gap := .passed })).line.tx = .character ∧
    (pump (opening (.holding true) 0)).line.tx = .holding true := by decide

theorem test_meets_pump :
    let f : TxFrame := { frame := .poll 2 0 1, serial := 0 }
    ({ FrameUnit.reset with assembly := .complete f } : FrameUnit).lineBuf = none ∧ (opening .idle 0).fu.assembly = .empty ∧
    member3.del.turn = none ∧ (snapping 17 2 1 none).fu.assembly = .assembling 0 0 0 [0#32] := by decide

theorem test_meets_ChooseRepeat :
    let b : Batch := { batchOf (some 4) 1 true with lastTurn := some 1 }
    let s := choosing lackedPub 1 []
    let k : State := { s with del := { s.del with kept := some (0, 4) } }
    (k.del.kept = some (0, 4) ∧ pubAt k 0 = some lackedPub ∧ lackedPub.state = .live ∧
      FirstOf lackedPub.retained (RepeatsFrom k 0 lackedPub 4) b) ∧
    s.del.kept = none ∧ FirstOf lackedPub.retained (NeedsRepeat s 0 lackedPub) b ∧
    FirstOf lackedPub.retained (RepeatsFrom s 0 lackedPub 4) b ∧ ∀ y ∈ livePub.retained, ¬ NeedsRepeat s 0 livePub y := by
  refine ⟨⟨rfl, rfl, rfl, [], [], rfl, ⟨by decide, ⟨by decide, by decide, by decide⟩⟩, by simp⟩, rfl,
    ⟨[], [], rfl, ⟨⟨by decide, by decide, by decide⟩, 2, 3, 1, ?_⟩, by simp⟩,
    ⟨[], [], rfl, ⟨by decide, ⟨by decide, by decide, by decide⟩⟩, by simp⟩, by intro y h; simp [livePub] at h⟩
  decide

theorem test_meets_ChooseRefresh :
    RefreshWork (choosing { livePub with pendingTargets := 4#16 } 1 []) 0 ∧
    RefreshWork (choosing { livePub with pass := some (passOf 0) } 1 []) 0 ∧
    chooseRefresh (choosing { livePub with pass := some (passOf 0) } 1 []) = some 0 ∧ (passOf 0).nextChunk ≠ 0 ∧
    ({ passOf 0 with nextChunk := 0 } : Pass).nextChunk = 0 ∧
    chooseRefresh (choosing { livePub with pass := some { passOf 0 with nextChunk := 0 } } 1 []) = some 0 :=
  ⟨⟨_, rfl, rfl, show 4#16 &&& 0x1D#16 ≠ 0#16 by decide⟩, ⟨_, rfl, rfl, show 1 < 2 by decide⟩, by decide, by decide, by decide,
    by decide⟩

theorem test_meets_OwnEntries :
    (subAt (withFollow member3 SubRecord.loaded) 1).map (·.state) = some .off ∧
    (subAt (withFollow member3 { currentSub with state := .settling }) 1).map (·.state) = some .settling ∧
    subAt member3 0 = none ∧ pubAt member3 1 = none ∧ pubAt member3 0 = some livePub := by decide

/-! ## Reception -/

/-- The votes of a character's positions 1 and on, as sent. -/
def votesOf (b : Byte) (lead : Bool) : List Vote :=
  (List.range 12).map fun p => if charLevel lineFormat b lead (p + 1) then 7#3 else 0#3

/-- A part that samples a character. -/
def samplingPart (s : State) : State := withLine s fun l => { l with rx := .character 0#3 }

theorem test_meets_LeadCharacterBeginsReception :
    let c := voteChar lineFormat 0#3 (votesOf 0x13 true)
    let n := voteChar lineFormat 1#3 (votesOf 0x4F true)
    (samplingPart member3).line.rx = .character 0#3 ∧ member3.line.format = some lineFormat ∧ member3.fu.rx = .idle ∧
    c.byte = 0x13 ∧ c.lead = true ∧ c.framingError = false ∧ c.parityError = false ∧ c.firstNoisy = none ∧
    kindOf c.byte = 1 ∧ destinationOf c.byte = member3.straps.stn ∧ n.firstNoisy = some 0 ∧ kindOf n.byte = 4 ∧
    destinationOf n.byte = 15 ∧ n.lead = true ∧ n.framingError = false ∧ n.parityError = false := by decide

theorem test_meets_BrokenFrameEndsReception :
    let c := voteChar lineFormat 0#3 (List.replicate 12 0#3)
    ({ member3.fu with rx := .receiving [0x13] 0#16 } : FrameUnit).rx = .receiving [0x13] 0#16 ∧
    (withLine member3 fun l => { l with gapFrom := some 0 }).line.gapFrom = some 0 ∧ member3.line.noisy = false ∧
    c.framingError = true ∧ c.firstNoisy = none ∧ c.allZero = true ∧ member3.fu.rx = .idle := by decide

/-- R150: noisy and clean characters in QUIET and NOISY, the 32nd clean one included, in RUNNING and outside it. -/
theorem test_meets_NoiseRule :
    let noise (s : State) (v : List Vote) : Option (Bool × Nat) :=
      match exec (.characterReceived v) s with
      | .next t => some (t.line.noisy, t.line.clean)
      | _ => none
    let noisy (s : State) (n : Nat) : State := withLine s fun l => { l with noisy := true, clean := n }
    let spell := 1#3 :: List.replicate 11 7#3
    (voteChar lineFormat 0#3 spell).firstNoisy = some 1 ∧ (voteChar lineFormat 0#3 (votesOf 0x13 true)).firstNoisy = none ∧
    noise (samplingPart (noisy member3 30)) (votesOf 0x13 false) = some (true, 31) ∧
    noise (samplingPart (noisy member3 31)) (votesOf 0x13 false) = some (false, 32) ∧
    noise (samplingPart (noisy member3 31)) spell = some (true, 0) ∧
    noise (samplingPart (inTop .configured)) spell = some (true, 0) := by decide +kernel

/-- The characters of a POLL of station 3 with cycle 0x12 and budget 4, before its CRC. -/
def pollChars : List Byte := [0x13, 0x00, 0x02, 0x12, 0x04]

/-- A DATA frame's first characters, for a region that is not subscribed. -/
def mutedChars : List Byte := [0x2F, 0x02, 0x07, 0x05]

theorem test_meets_ReceiverCharacters :
    let c := cleanCharacter 0x13 true
    let bad : VotedChar := { c with parityError := true }
    let framing : VotedChar := { c with framingError := true }
    (c.framingError = false ∧ c.parityError = false ∧ c.lead = true) ∧ (cleanCharacter 0x13 false).lead = false ∧
    bad.parityError = true ∧ bad.framingError = false ∧ framing.framingError = true ∧
    (voteChar lineFormat 0#3 (votesOf 0x13 false)).framingError = false ∧
    (voteChar lineFormat 0#3 (votesOf 0x13 false)).firstNoisy = none ∧ (3 + 1 = 4 + 5 ↔ False) ∧ 8 + 1 = 4 + 5 := by decide

theorem test_meets_ReceiverLengths :
    (pollChars.take 2).length ≤ 2 ∧ 2 < ([0x13, 0x00, 0xA1] : List Byte).length ∧
    160 < (([0x13, 0x00, 0xA1] : List Byte).getD 2 0#8).toNat ∧ ¬ 160 < (([0x13, 0x00, 0xA0] : List Byte).getD 2 0#8).toNat ∧
    mutedChars = [0x2F, 0x02, 0x07, 0x05] ∧ kindOf 0x2F = 2 ∧ subAt member3 5 = none ∧ (subAt member3 1).isSome = true ∧
    (pollChars ++ [0x00]).length ≠ 2 + 5 ∧
    ({ member3.fu with rx := .counting 4 7 } : FrameUnit).rx = .counting 4 7 := by decide

theorem test_meets_ReceiverEnds :
    let crc := crc16 pollChars
    let chars := [0x13, 0x00, 0x02] ++ ([0x12, 0x04] ++ [crc.extractLsb' 8 8, crc.extractLsb' 0 8])
    chars.length = 2 + 5 ∧ crc.extractLsb' 8 8 ++ crc.extractLsb' 0 8 = crc ∧ (0#8 ++ 0#8 : BitVec 16) ≠ crc ∧
    contentOf (kindOf 0x13) (destinationOf 0x13) [0x12, 0x04] = some (.poll 3 0x12 0x04) ∧
    8 < (([0x12, 0x09] : List Byte).getD 1 0#8).toNat ∧ contentOf 2 15 [] = none := by decide +kernel

theorem test_meets_LineResetIsTaken :
    (withLine member3 fun l => { l with rx := .inBreak }).line.rx = .inBreak ∧
    (withLine member3 fun l => { l with rx := .inBreak }).line.format = some lineFormat ∧
    2 * charBits lineFormat * lineFormat.samplesPerBit - lineFormat.samplesPerBit / 2 ≤ 172 ∧
    goesOn (.lineReset 172) (inTurn (withLine member3 fun l => { l with rx := .inBreak }) .member 1) = true := by decide

/-! ## Good frames -/

/-- Two occupied slots. -/
def fullSlots (s : State) : State := { s with inb := { s.inb with slots := [slotOf false, slotOf false] } }

theorem test_meets_DataFrameAtItsRegion :
    member3.top = .running ∧ subAt member3 0 = none ∧ subAt member3 1 = some currentSub ∧ (descAt member3 1).publisher = 2 ∧
    currentSub.state ≠ .unsynced ∧ currentSub.state ≠ .off ∧ (dataOf 7 10 []).generation = currentSub.generation ∧
    (dataOf 7 10 []).seq - currentSub.accepted = 1 ∧ member3.inb.slots.length < 2 ∧
    2 ≤ (fullSlots member3).inb.slots.length ∧
    member3.line.rx = .idle ∧ goesOn (.dataReceived 2 (dataOf 7 10 [byteRecord 0 1])) member3 = true := by decide

theorem test_meets_SeqTestOfData :
    subAt member3 1 = some currentSub ∧ currentSub.state = .current ∧ ((10 : Byte).toNat + 256 - (9 : Byte).toNat) % 256 = 1 ∧
    ((9 : Byte).toNat + 256 - (9 : Byte).toNat) % 256 = 0 ∧ ((137 : Byte).toNat + 256 - (9 : Byte).toNat) % 256 = 128 ∧
    ((138 : Byte).toNat + 256 - (9 : Byte).toNat) % 256 = 129 ∧ ((8 : Byte).toNat + 256 - (9 : Byte).toNat) % 256 = 255 := by decide

/-- A region that follows a refresh. -/
def refreshingSub : SubRecord := { currentSub with state := .refreshing, baseSeq := some 5, expected := some 1 }

theorem test_meets_ChunkFrameAtItsRegion :
    subAt member3 1 = some currentSub ∧ (chunkOf 7 0 [0]).index = 0 ∧
    (chunkOf 7 0 [0]).targets.getLsbD member3.straps.stn.val = true ∧ member3.tc.member = .enrolled ∧
    ({ chunkOf 7 0 [0] with targets := 4#16 } : ChunkFrame).targets.getLsbD member3.straps.stn.val = false ∧
    subAt (withFollow member3 { currentSub with state := .unsynced }) 1 = some { currentSub with state := .unsynced } ∧
    (chunkOf 7 1 [0]).index ≠ 0 ∧ (chunkOf 7 1 [0]).generation = refreshingSub.generation ∧
    subAt (withFollow member3 refreshingSub) 1 = some refreshingSub ∧ refreshingSub.expected = some (chunkOf 7 1 [0]).index.val ∧
    subAt member3 0 = none ∧ (descAt member3 1).publisher = 2 ∧
    goesOn (.chunkReceived 4 (chunkOf 7 1 [0])) (withFollow member3 refreshingSub) = true ∧
    refreshingSub.baseSeq = some (chunkOf 7 1 [0]).baseSeq ∧ refreshingSub.expected ≠ some (chunkOf 7 15 [0]).index.val ∧
    (fullSlots member3).inb.slots.length = 2 := by decide

theorem test_meets_PollOpensTheMembersTurn :
    member3.straps.stn ≠ 0 ∧ member3.tc.member = .enrolled ∧ member3.tc.probeReply = false ∧ master.straps.stn = 0 ∧
    (withTurns member3 fun t => { t with member := .listening }).tc.member = .listening ∧
    goesOn (.pollReceived 0 1 8) member3 = true ∧ goesOn (.pollReceived 0 1 0) member3 = true := by decide

theorem test_meets_YieldIsTakenByThreeBlocks :
    (watching (watchOf none (some 0) 0)).tc.watch = some (watchOf none (some 0) 0) ∧ (watchOf none (some 0) 0).station = 2 ∧
    (yieldOf 0 none).cycle = master.tc.cycle ∧ (yieldOf 0 none).roster = none ∧
    (yieldOf 0 (some 0xD#16)).roster = some 0xD#16 ∧ (0xD#16).getLsbD member3.straps.stn.val = true ∧
    (0x5#16).getLsbD member3.straps.stn.val = false ∧ member3.tc.probeReply = false ∧
    (subAt member3 1 = some currentSub ∧ subAt member3 0 = none ∧ (descAt member3 1).publisher = 2 ∧
      (8 : Byte) ≠ currentSub.generation ∧ currentSub.state ≠ .unsynced ∧ currentSub.state ≠ .off) ∧
    goesOn (.yieldReceived 0 (yieldOf 3 (some 0x5#16))) member3 = true := by decide

/-- An ack entry of region 0. -/
def ackOf0 (q : Byte) (x : ReportedState) : AckEntry := { region := 0, generation := 1, appliedSeq := q, state := x }

theorem test_meets_AckEntrySetsTheAckState :
    pubAt member3 0 = some livePub ∧ livePub.state = .live ∧ member3.tc.roster.getLsbD 2 = true ∧
    (descAt member3 0).subscribers.getLsbD 2 = true ∧ (ackOf0 3 .current).generation = livePub.generation ∧
    (((3 : Byte) - livePub.lastReleased).toNat ≤ 127 ∧ (livePub.nextSeq - 1 - 3).toNat ≤ 127) ∧
    ¬ (((2 : Byte) - livePub.lastReleased).toNat ≤ 127) ∧ ¬ ((livePub.nextSeq - 1 - 4).toNat ≤ 127) ∧
    (ackOf0 3 .refreshing).state = .refreshing ∧ livePub.pass = none ∧ livePub.endGuard = false ∧
    member3.tc.roster.getLsbD 1 = false := by decide

/-! ## What is sent is what is received -/

theorem test_meets_Frames :
    (Frame.poll 3 0 8).wf = true ∧ (Frame.data (dataOf 7 10 [byteRecord 0 1])).wf = true ∧ (Frame.chunk (chunkOf 7 15 [1])).wf = true ∧
    (Frame.yield (yieldOf 0 (some 0x7FFF#16))).wf = true ∧ member3.fu.rx = .idle ∧ frameDestination (.poll 3 0 8) = member3.straps.stn ∧
    (subAt member3 (frameRegion (.data (dataOf 7 10 [])))).isSome = true := by decide

/-- R137, R187: a payload carries no frame where a field is out of its range or the length is another; the bits of a lane set byte
and of a roster flag byte that the table marks 0 are ignored. -/
theorem test_contents :
    contentOf 2 15 [7, 0, 0, 1, 5, 0xF1, 9] = contentOf 2 15 [7, 0, 0, 1, 5, 0x01, 9] ∧
    contentOf 2 15 [7, 0, 0, 1, 5, 0x01, 9] = some (.data { region := 7, generation := 0, seq := 0, records := [byteRecord 5 9] }) ∧
    contentOf 2 15 [7, 0, 0, 1, 5, 0xF0, 9] = none ∧ contentOf 2 15 [7, 0, 0, 0] = none ∧ contentOf 2 3 [7, 0, 0, 1, 5, 0x01, 9] = none ∧
    contentOf 2 15 [7, 0, 0, 1, 5, 0x01, 9, 9] = none ∧ contentOf 1 3 [0, 8] = some (.poll 3 0 8) ∧ contentOf 1 3 [0, 9] = none ∧
    contentOf 1 15 [0, 8] = none ∧ contentOf 3 15 [7, 0, 0x80, 0, 0, 0, 1, 1, 0, 0, 0] = none ∧
    contentOf 3 15 [7, 0, 0x7F, 0, 0, 0x10, 1, 1, 0, 0, 0] = none ∧ (contentOf 3 15 [7, 0, 0x7F, 0, 0, 0x8F, 4, 1, 1, 0, 0, 0]).isSome ∧
    contentOf 4 15 [0, 0xFE, 0, 0] = contentOf 4 15 [0, 0, 0, 0] ∧ contentOf 4 15 [0, 1, 0, 0, 0x80, 0] = none ∧
    contentOf 4 15 [0, 0, 1, 0, 7, 0, 0, 5] = none ∧ (contentOf 4 15 [0, 0, 1, 0, 7, 0, 0, 4]).isSome ∧
    contentOf 4 15 [0, 0, 0, 17] = none := by decide +kernel

/-- R150 to R152: the flags of a character of 0xA5 with one bit position sent otherwise: none; the parity bit; the parity bit and
the stop bit, a framing error alone; and one sample of position 3. Of the character of zeros: held low all through. -/
theorem test_flags :
    let f : LineFormat := { lineFormat with parity := .even }
    let sent : List Vote := [7, 0, 7, 0, 0, 7, 0, 7, 7, 7, 7, 7]
    let flags (samples : List Vote) : Bool × Bool × Bool × Option Nat :=
      let c := voteChar f 0#3 samples
      (c.parityError, c.framingError, c.allZero, c.firstNoisy)
    flags sent = (false, false, false, none) ∧ flags (sent.set 9 0) = (true, false, false, none) ∧
    flags ((sent.set 9 0).set 10 0) = (false, true, false, none) ∧ flags (sent.set 2 5) = (false, false, false, some 3) ∧
    flags (List.replicate 12 0) = (false, true, true, none) ∧ flags ((List.replicate 12 0).set 8 6) = (false, true, false, some 9) ∧
    (voteChar f 1#3 sent).firstNoisy = some 0 := by decide +kernel

theorem test_meets_VotedCharacterIsTheOneSent :
    ∀ p, p < charBits lineFormat → majority (votesAt 0#3 (votesOf 0xA5 true) p) = charLevel lineFormat 0xA5 true p := by decide

/-- The levels of LTX: bit 0 of character 0 begins 8 ticks after the start, and the 7 characters of a POLL take 616. -/
theorem test_meets_levels :
    let s (n : Nat) : State := { sendingFrame master (.poll 2 0 1) with clock := { master.clock with ticks := n } }
    (s 0).line.tx = .character ∧ (frameBytes 0 (.poll 2 0 1)).length = 7 ∧ (frameBytes 0 (.poll 2 0 1))[0]? = some 0x12 ∧
    0 < lineFormat.samplesPerBit ∧ ltx (s 7) = false ∧ ltx (s 8) = false ∧ ltx (s 16) = true ∧ 7 * charBits lineFormat * 8 = 616 ∧
    ltx (withLine (s 88) fun l => { l with fault := some (.mismatch, 0) }) = true ∧ ltx (s 88) = false ∧
    ltx (withLine (s 80) fun l => { l with fault := some (.mismatch, 0) }) = true ∧
    ltx (withLine (s 7) fun l => { l with fault := some (.mismatch, 0) }) = false ∧
    ltx (s 616) = true ∧ ltx (withLine master fun l => { l with tx := .breakLow }) = false ∧ ltx master = true := by
  decide +kernel

end Sys2Proof.Tests
end

section
/-! SUPPORT. A captured write decided MERGE: its claim held no record, and its join changes one record of the open batch. -/

namespace Sys2Proof.Machine

/-! ## The batch that takes a merge (R31) -/

theorem mergeInto_length (b : Batch) (w : Byte) (l : Lanes) (d : Word) :
    (mergeInto b w l d).records.length = b.records.length := List.length_map _

theorem mergeInto_getElem?_other {b : Batch} {w : Byte} {i : Nat} {x : UpdateRecord} (l : Lanes) (d : Word)
    (hx : b.records[i]? = some x) (hw : x.offset ≠ w) : (mergeInto b w l d).records[i]? = some x := by
  simp [mergeInto, hx, hw]

theorem mergeInto_getElem?_word {b : Batch} {w : Byte} {i : Nat} {x : UpdateRecord} (l : Lanes) (d : Word)
    (hx : b.records[i]? = some x) (hw : x.offset = w) :
    (mergeInto b w l d).records[i]? = some (mergeRecord x l d) := by
  simp [mergeInto, hx, hw]

theorem joinedBatch_merge {c : Claim} (h : c.decision = .merge) (l : Lanes) (d : Word) (b : Batch) :
    joinedBatch c l d (some b) = some (mergeInto b c.offset l d) := by
  simp [joinedBatch, h]

/-! ## The pool (R25, R30) -/

/-- Only a FULL claim closes the batch before its write joins (R33, step 1). -/
theorem fullClose_of_not_full {c : Claim} (s : State) (h : c.decision ≠ .full) :
    fullClose s c = { s with cap := { s.cap with claim := none } } := if_neg h

theorem poolLevel_fullClose_merge {s : State} {c : Claim} (hc : s.cap.claim = some c) (h : c.decision = .merge) :
    poolLevel (fullClose s c) = poolLevel s := by
  have held : claimRecords s.cap.claim = 0 := by simp [hc, claimRecords, h]
  have freed : claimRecords (fullClose s c).cap.claim = 0 := by rw [fullClose_claim]; rfl
  have regions : (fullClose s c).regions = s.regions := by
    rw [fullClose_of_not_full s (by simp [h])]
  have := poolLevel_congr regions
  omega

theorem poolLevel_updPub_same {s : State} {r : RegionId} {p : PubRecord} {f : PubRecord → PubRecord}
    (hp : pubAt s r = some p) (h : pubRecords (f p) = pubRecords p) : poolLevel (updPub s r f) = poolLevel s := by
  have records : regionRecords { desc := descAt s r, record := .published (f p) } = regionRecords (regionAt s r) := by
    simp only [regionRecords, regionAt_pub hp, h]
  have sum := poolSum_setRegion s r { desc := descAt s r, record := .published (f p) }
  rw [records] at sum
  rw [updPub_eq f hp]
  unfold poolLevel
  rw [setRegion_cap, Nat.add_right_cancel sum]

/-! ## The join (R33, steps 2 and 3) -/

theorem descAt_joinWrite (s : State) (c : Claim) (a : Access) (r : RegionId) :
    descAt (joinWrite s c a) r = descAt s r := descAt_updPub _ _ _ _

theorem poolLevel_joinWrite_merge {s : State} {c : Claim} {p : PubRecord} {b : Batch} (a : Access)
    (hp : pubAt s c.region = some p) (hb : p.openBatch = some b) (h : c.decision = .merge) :
    poolLevel (joinWrite s c a) = poolLevel s := by
  refine poolLevel_updPub_same hp ?_
  simp only [pubRecords, hb, joinedBatch_merge h, Option.elim_some, mergeInto_length]

/-- Settles O18: the merged batch is the open batch of the join, and the close that is due is taken on the join. -/
theorem mergeTakesTheWritesBytes : Obligations.MergeTakesTheWritesBytes := by
  intro s c a p b hc hd hp hb
  have ended := fullClose_of_not_full s (c := c) (by simp [hd])
  have hp' : pubAt (fullClose s c) c.region = some p := by rw [ended]; exact hp
  have desc : descAt (joinWrite (fullClose s c) c a) c.region = descAt s c.region := by
    rw [descAt_joinWrite, ended]; rfl
  have level : poolLevel (joinWrite (fullClose s c) c a) = poolLevel s :=
    (poolLevel_joinWrite_merge a hp' hb hd).trans (poolLevel_fullClose_merge hc hd)
  refine ⟨joinWrite (fullClose s c) c a, _, mergeInto b c.offset a.lanes a.data, pubAt_updPub _ hp',
    by simp only [hb, joinedBatch_merge hd], level, mergeInto_length .., fun i x hx => ⟨?other, ?word⟩, ?close⟩
  case other => exact mergeInto_getElem?_other _ _ hx
  case word =>
    intro hw
    exact ⟨mergeRecord x a.lanes a.data, mergeInto_getElem?_word _ _ hx hw, hw, rfl, lane_merge a.lanes x.data a.data⟩
  case close => simp only [grantCaptured, desc]

end Sys2Proof.Machine
end

section
/-! SUPPORT. The seq test of a DATA frame (R74): its classes by the seq distance, and what the inbound stage does by class. -/

namespace Sys2Proof.Machine

/-! ## The classes by distance (R74) -/

/-- The distance that `seqClass` tests is the spec's: a difference mod 256, written without negative numbers. -/
theorem seqDistance_toNat (seq accepted : Byte) :
    (seq - accepted).toNat = (seq.toNat + 256 - accepted.toNat) % 256 := by
  have := accepted.isLt
  rw [BitVec.toNat_sub]
  omega

theorem seqClass_eq (seq accepted : Byte) :
    seqClass seq accepted =
      if (seq - accepted).toNat = 1 then .inOrder
      else if (seq - accepted).toNat = 0 ∨ 129 ≤ (seq - accepted).toNat then .duplicate else .gap := rfl

theorem seqClass_inOrder_iff (seq accepted : Byte) :
    seqClass seq accepted = .inOrder ↔ (seq - accepted).toNat = 1 := by
  rw [seqClass_eq]
  split_ifs with order duplicate
  · exact iff_of_true rfl order
  · exact iff_of_false nofun order
  · exact iff_of_false nofun order

theorem seqClass_duplicate_iff (seq accepted : Byte) :
    seqClass seq accepted = .duplicate ↔ (seq - accepted).toNat = 0 ∨ 129 ≤ (seq - accepted).toNat := by
  rw [seqClass_eq]
  split_ifs with order duplicate
  · exact iff_of_false nofun (by omega)
  · exact iff_of_true rfl duplicate
  · exact iff_of_false nofun duplicate

theorem seqClass_gap_iff (seq accepted : Byte) :
    seqClass seq accepted = .gap ↔ 2 ≤ (seq - accepted).toNat ∧ (seq - accepted).toNat ≤ 128 := by
  rw [seqClass_eq]
  split_ifs with order duplicate
  · exact iff_of_false nofun (by omega)
  · exact iff_of_false nofun (by omega)
  · exact iff_of_true rfl (by omega)

/-! ## The inbound stage by class (R4, R71 to R76) -/

/-- A DATA frame from the region's publisher passes R4. -/
theorem inboundData_publisher {s : State} {d : DataFrame} {q : SubRecord} (h : subAt s d.region = some q) :
    inboundData s (descAt s d.region).publisher d = takeData s (descAt s d.region).publisher d q := by
  simp [inboundData, h]

/-- R71 to R73 let the frame through to the seq test. -/
theorem takeData_seqTest (s : State) (source : StationId) {d : DataFrame} {q : SubRecord} (hf : following q = true)
    (hg : d.generation = q.generation) :
    takeData s source d q = if seqClass d.seq q.accepted = .inOrder then acceptData s source d else s := by
  rw [takeData, if_pos hf, if_neg (not_not_intro hg)]
  cases seqClass d.seq q.accepted <;> rfl

/-- Settles O53: the classes by their distance; the seq test decides between `acceptData` and an unchanged state. -/
theorem seqTestOfData : Obligations.SeqTestOfData := by
  intro s d q hq hstate hg k source
  have distance : (d.seq - q.accepted).toNat = k := seqDistance_toNat d.seq q.accepted
  have inOrder : seqClass d.seq q.accepted = .inOrder ↔ k = 1 := distance ▸ seqClass_inOrder_iff d.seq q.accepted
  have outcome : inboundData s source d =
      if seqClass d.seq q.accepted = .inOrder then acceptData s source d else s :=
    (inboundData_publisher hq).trans (takeData_seqTest s source ((following_iff q).2 hstate) hg)
  refine ⟨inOrder, distance ▸ seqClass_duplicate_iff .., distance ▸ seqClass_gap_iff .., fun accepts => ?_,
    fun discards => ?_⟩
  · rw [outcome, if_pos (inOrder.2 accepts), acceptData_eq source hq]
  · rw [outcome, if_neg (mt inOrder.1 discards)]

end Sys2Proof.Machine
end

section
/-! SUPPORT. A host write that the memory path drops (R163): which treatment of a presented access drops it, and the end of
the step, where the arbiter sees no new request. -/

namespace Sys2Proof.Machine

/-! ## The treatments that drop (R162, R163) -/

theorem presentBlock_partOwned {a : Access} {i : Nat} (s : State) (hw : a.write = true) (low : ¬ i ≤ 68) (other : i ≠ 70) :
    presentBlock s a i = dropWrite s a (cbGuard i a) := if_pos ⟨hw, not_owned low other⟩

theorem presentRegion_guarded {s : State} {a : Access} {r : RegionId} (o : Nat) (hw : a.write = true)
    (hr : (descAt s r).role = .subscribe) (hg : (descAt s r).guard = .guarded) :
    presentRegion s a r o = dropWrite s a (guardDrop s r o a) := by
  simp [presentRegion, hr, hw, hg]

theorem present_block {s : State} {a : Access} {i : Nat} (ht : s.top = .configured ∨ s.top = .running)
    (hm : matchAddress s a.addr = .block i) : present s a = presentBlock s a i := by
  rcases ht with configured | running
  · simp only [present, configured, hm]
  · simp only [present, running, hm]

theorem present_region {s : State} {a : Access} {r : RegionId} {o : Nat} (ht : s.top = .running)
    (hm : matchAddress s a.addr = .region r o) : present s a = presentRegion s a r o := by
  simp only [present, ht, hm]

/-! ## The step of a dropped write -/

/-- The arbiter never sees a dropped write: no request waits for it, and a reply is none. -/
theorem dropWrite_serves {s : State} (a : Access) (e : Event) (h : PortServes s) : PortServes (dropWrite s a e) := by
  rw [dropWrite, post_eq]
  exact h

/-- A write that is dropped at its presentation leaves the drop alone, but for the marks. -/
theorem hostAccess_dropped {s : State} {a : Access} {e : Event} (hn : s.path.host = none) (hs : PortServes s)
    (h : present s a = dropWrite s a e) :
    ∃ t, exec (.hostAccess a) s = .next t ∧ unmarked t = unmarked (dropWrite s a e) := by
  have presented : exec (.hostAccess a) s = .next (settle s (present s a)) := presentHost_open a hn
  rw [h] at presented
  exact ⟨_, presented, unmarked_settle_of_serves (dropWrite_serves a e hs)⟩

/-- Settles O11: the two treatments that drop a write, each with the event it posts. -/
theorem droppedWriteLeavesOneEvent : Obligations.DroppedWriteLeavesOneEvent := by
  intro a s hn hs hw
  refine ⟨fun i ht hm low other => ?block, fun r o ht hm hr hg => ?region⟩
  case block =>
    exact hostAccess_dropped hn hs ((present_block ht hm).trans (presentBlock_partOwned s hw low other))
  case region =>
    exact hostAccess_dropped hn hs ((present_region ht hm).trans (presentRegion_guarded o hw hr hg))

end Sys2Proof.Machine
end

section
/-! SUPPORT. The invariants: what a predicate must survive to hold after every step, and the invariants of the memory, of the
bounded stores and of the memory path by it. -/

namespace Sys2Proof.Machine

/-! ## What a step is made of -/

/-- A predicate survives every part of a step: the clock, the front command taken from the queue, what a command does inside,
the grant, the marks, and the two reset events. -/
structure StepInvariant (P : State → Prop) : Prop where
  idle : ∀ s, P s → P (idleCycle s)
  popped : ∀ (s : State) (rest : List Instr), P s → P { s with pending := rest }
  inside : ∀ {s u : State}, Inside s u → P s → P u
  granted : ∀ u, P u → P (arbitrate u)
  marked : ∀ {u t : State}, KeepsButMarks u t → P u → P t
  asserted : ∀ s, P s → P (resetPart s)
  deasserted : ∀ s stn cba ald, P s → P (leaveReset s stn cba ald)

theorem StepInvariant.exec {P : State → Prop} (h : StepInvariant P) {c : Instr} {s t : State} (hx : exec c s = .next t)
    (hs : P s) : P t := by
  rcases exec_split c s t hx with ⟨u, inside, rfl⟩ | ⟨_, rfl⟩ | ⟨stn, cba, ald, _, _, rfl⟩
  · exact h.marked (settle_keeps s u) (h.granted u (h.inside inside hs))
  · exact h.granted _ (h.asserted s hs)
  · exact h.deasserted s stn cba ald hs

theorem StepInvariant.step {P : State → Prop} (h : StepInvariant P) {s t : State} (hx : step s = .next t) (hs : P s) :
    P t := by
  rcases step_cases s t hx with rfl | ⟨c, rest, _, hc⟩
  · exact h.idle s hs
  · exact h.exec hc (h.popped s rest hs)

/-! ## Memory (log 7) -/

theorem idleCycle_mem (s : State) : (idleCycle s).mem = s.mem := by rw [idle_same]

theorem memoryOk_congr {s t : State} (h : t.mem = s.mem) (hs : MemoryOk s) : MemoryOk t := by
  unfold MemoryOk at *
  rwa [h]

theorem memoryOk_invariant : StepInvariant MemoryOk where
  idle s := memoryOk_congr (idleCycle_mem s)
  popped _ _ := id
  inside k := memoryOk_congr k.mem
  granted := arbitrate_memory
  marked k := memoryOk_congr k.mem
  asserted _ := id
  deasserted s stn cba ald := memoryOk_congr (leaveReset_same s stn cba ald).2.1

/-- Settles O7: memory changes by granted accesses alone, and each keeps the canonical form. -/
theorem stepKeepsMemoryCanonical : Obligations.StepKeepsMemoryCanonical :=
  fun _ _ hs hx => memoryOk_invariant.step hx hs

/-! ## The bounded stores (R25, R26, R69, R183) -/

theorem idleCycle_regions (s : State) : (idleCycle s).regions = s.regions := by rw [idle_same]
theorem idleCycle_cap (s : State) : (idleCycle s).cap = s.cap := by rw [idle_same]
theorem idleCycle_path (s : State) : (idleCycle s).path = s.path := by rw [idle_same]
theorem idleCycle_inb (s : State) : (idleCycle s).inb = s.inb := by rw [idle_same]
theorem idleCycle_agent (s : State) : (idleCycle s).agent = s.agent := by rw [idle_same]

theorem eventsBounded_congr {s t : State} (h : t.agent.events = s.agent.events) (hs : EventsBounded s) : EventsBounded t := by
  unfold EventsBounded at *
  rwa [h]

theorem slotsBounded_congr {s t : State} (h : t.inb = s.inb) (hs : SlotsBounded s) : SlotsBounded t := by
  unfold SlotsBounded at *
  rwa [h]

theorem poolBounded_congr {s t : State} (h : t.regions = s.regions) (hc : t.cap = s.cap) : PoolBounded s → PoolBounded t :=
  Keeps.regions_pool h (by rw [hc])

theorem eventsBounded_invariant : StepInvariant EventsBounded where
  idle s := eventsBounded_congr (by rw [idleCycle_agent])
  popped _ _ := id
  inside k := k.events
  granted u := (arbitrate_bounds u).1
  marked k := k.events
  asserted _ _ := Nat.zero_le _
  deasserted s stn cba ald := by
    obtain ⟨_, _, _, _, _, events, _⟩ := leaveReset_same s stn cba ald
    exact eventsBounded_congr events

theorem slotsBounded_invariant : StepInvariant SlotsBounded where
  idle s := slotsBounded_congr (idleCycle_inb s)
  popped _ _ := id
  inside k := k.slots
  granted u := (arbitrate_bounds u).2.1
  marked k := k.slots
  asserted _ _ := Nat.zero_le _
  deasserted s stn cba ald := by
    obtain ⟨_, _, _, _, inb, _⟩ := leaveReset_same s stn cba ald
    exact slotsBounded_congr inb

theorem retainedBounded_invariant : StepInvariant RetainedBounded where
  idle s := Keeps.regions_retained (idleCycle_regions s)
  popped _ _ := id
  inside k := k.retained
  granted u := (arbitrate_bounds u).2.2.1
  marked k := k.retained
  asserted _ _ := (resetRegions_bounds rfl).1
  deasserted s stn cba ald := by
    obtain ⟨_, _, regions, _⟩ := leaveReset_same s stn cba ald
    exact Keeps.regions_retained regions

theorem poolBounded_of_reset {s : State} (h : s.regions = Vector.replicate 16 Region.reset) (hc : s.cap.claim = none) :
    PoolBounded s := by
  unfold PoolBounded poolLevel
  rw [(resetRegions_bounds h).2, hc]
  exact Nat.zero_le _

theorem poolBounded_invariant : StepInvariant PoolBounded where
  idle s := poolBounded_congr (idleCycle_regions s) (idleCycle_cap s)
  popped _ _ := id
  inside k := k.pool
  granted u := (arbitrate_bounds u).2.2.2.1
  marked k := k.pool
  asserted _ _ := poolBounded_of_reset rfl rfl
  deasserted s stn cba ald := by
    obtain ⟨_, _, regions, cap, _⟩ := leaveReset_same s stn cba ald
    exact poolBounded_congr regions cap

/-- Settles O8: each bound is an invariant of the step by itself. -/
theorem stepKeepsBoundedStores : Obligations.StepKeepsBoundedStores :=
  ⟨fun _ _ ⟨events, slots, retained⟩ hx => ⟨eventsBounded_invariant.step hx events,
      slotsBounded_invariant.step hx slots, retainedBounded_invariant.step hx retained⟩,
    fun _ _ hs hx => poolBounded_invariant.step hx hs⟩

/-! ## The memory path (R30, R42, R79, R165, R169) -/

theorem hostConsistent_invariant : StepInvariant HostConsistent where
  idle s := Keeps.host_congr (by rw [idleCycle_path]) (by rw [idleCycle_cap]; exact id) (by rw [idleCycle_cap]; exact id)
    (by rw [idleCycle_path]; exact id)
  popped _ _ := id
  inside k := k.host
  granted u := (arbitrate_bounds u).2.2.2.2
  marked k := k.host
  asserted _ _ := consistent_free ⟨rfl, nofun, rfl⟩
  deasserted s stn cba ald := by
    obtain ⟨_, _, _, cap, _, _, _, host, apply, _⟩ := leaveReset_same s stn cba ald
    exact Keeps.host_congr host (by rw [cap]; exact id) (by rw [cap]; exact id) (by rw [apply]; exact id)

theorem settle_path (s u : State) : (settle s u).path = (arbitrate u).path :=
  (congrArg State.path (unmarked_settle s u) :)

theorem settle_serves (s u : State) : PortServes (settle s u) := serves_congr (settle_path s u) (arbitrate_serves u)

/-- With RESET_N asserted the agent requests nothing, so that its deassertion leaves nothing waiting either. -/
theorem leaveReset_serves {s : State} (stn : StationId) (cba : Byte) (ald : Bool) (h : PortServes s) :
    PortServes (leaveReset s stn cba ald) := by
  obtain ⟨_, _, _, _, _, _, port, host, apply, snap, agent⟩ := leaveReset_same s stn cba ald
  intro free
  obtain ⟨noHost, noApply, noSnap, noAgent⟩ := h (port ▸ free)
  exact ⟨by rw [waitingHost, host]; exact noHost, by rwa [apply], by rwa [snap], agent noAgent⟩

theorem exec_serves {c : Instr} {s t : State} (hx : exec c s = .next t) (hs : PortServes s) : PortServes t := by
  rcases exec_split c s t hx with ⟨u, _, rfl⟩ | ⟨_, rfl⟩ | ⟨stn, cba, ald, _, _, rfl⟩
  · exact settle_serves s u
  · exact arbitrate_serves _
  · exact leaveReset_serves stn cba ald hs

theorem step_serves {s t : State} (hx : step s = .next t) (hs : PortServes s) : PortServes t := by
  rcases step_cases s t hx with rfl | ⟨c, rest, _, hc⟩
  · exact serves_congr (idleCycle_path s) hs
  · exact exec_serves hc hs

/-- Settles O9: the arbiter serves the port at the end of every step, and what belongs to the host access is an invariant. -/
theorem stepKeepsMemoryPathServed : Obligations.StepKeepsMemoryPathServed :=
  fun _ _ ⟨serves, consistent⟩ hx => ⟨step_serves hx serves, hostConsistent_invariant.step hx consistent⟩

/-- Settles O6: the reset values have nothing in memory, nothing stored and nothing waiting. -/
theorem resetMeetsTheInvariants : Obligations.ResetMeetsTheInvariants :=
  ⟨rfl, Nat.zero_le _, Nat.zero_le _, (resetRegions_bounds rfl).1, poolBounded_of_reset rfl rfl,
    fun _ => ⟨rfl, nofun, rfl, rfl⟩, consistent_free ⟨rfl, nofun, rfl⟩⟩

end Sys2Proof.Machine
end

section
/-! SUPPORT. The step and the memory port: the queue, the bytes of an access, the one access of a step, the arbiter's table,
and the host access that the part does not allow. -/

namespace Sys2Proof.Machine

/-! ## The queue -/

theorem settle_pending (s u : State) : (settle s u).pending = u.pending :=
  (settle_keeps s u).pending.trans (arbitrate_pending u)

/-- Settles O1: the queue is read by `step` alone; no meaning, grant or reset event touches it. -/
theorem stepRunsFrontCommand : Obligations.StepRunsFrontCommand := by
  refine ⟨fun c rest s h => by rw [step, h], fun c s t h => ?_⟩
  rcases exec_split c s t h with ⟨u, inside, rfl⟩ | ⟨_, rfl⟩ | ⟨stn, cba, ald, _, _, rfl⟩
  · exact (settle_pending s u).trans inside.pending
  · exact arbitrate_pending _
  · exact (leaveReset_same s stn cba ald).1

/-! ## The bytes of an access (R160, R161, R186) -/

theorem readByte_accessMemory {m : Memory} (a : Access) (x : Nat) (hm : Memory.wf m = true) :
    readByte (accessMemory m a) x =
      if a.write = true ∧ wordAddress a.addr ≤ x ∧ x < wordAddress a.addr + 4 ∧
          a.lanes.getLsbD (x - wordAddress a.addr) = true
      then laneByte a.data (x - wordAddress a.addr) else readByte m x := by
  unfold accessMemory
  by_cases hw : a.write = true
  · simp only [hw, if_true, true_and]
    exact readByte_writeLanes _ _ (wordAddress_le _) hm x
  · simp only [hw, if_false, false_and, Bool.false_eq_true]

theorem laneByte_readWord (m : Memory) (w : Nat) {k : Nat} (hk : k < 4) : laneByte (readWord m w) k = readByte m (w + k) := by
  have bytes := wordBytes_of (readByte m w) (readByte m (w + 1)) (readByte m (w + 2)) (readByte m (w + 3))
  simp only [wordBytes, List.cons.injEq, and_true] at bytes
  obtain ⟨b0, b1, b2, b3⟩ := bytes
  unfold readWord
  match k, hk with
  | 0, _ => exact b0
  | 1, _ => exact b1
  | 2, _ => exact b2
  | 3, _ => exact b3

/-- The lanes of a set are a merge into the word 0. -/
theorem laneByte_onLanes (l : Lanes) (w : Word) {k : Nat} (hk : k < 4) :
    laneByte (onLanes l w) k = if l.getLsbD k = true then laneByte w k else 0#8 := by
  have merged : onLanes l w = mergeLanes l 0#32 w := by simp [onLanes, mergeLanes]
  have zero : laneByte 0#32 k = 0#8 := by simp [laneByte]
  rw [merged, lane_merge l 0#32 w k hk, zero]

theorem laneByte_accessResult {a : Access} (m : Memory) {k : Nat} (hw : a.write = false) (hk : k < 4) :
    laneByte (accessResult m a) k =
      if a.lanes.getLsbD k = true then readByte m (wordAddress a.addr + k) else 0#8 := by
  rw [accessResult, hw, if_neg Bool.false_ne_true, laneByte_onLanes _ _ hk, laneByte_readWord _ _ hk]

/-- Settles O3: a write by the bytes of its lanes, a read by the lanes of the word that memory holds. -/
theorem readAfterWriteOfLanes : Obligations.ReadAfterWriteOfLanes :=
  ⟨fun _ a x hm => readByte_accessMemory a x hm,
    fun m _ => ⟨fun _ hw hk => laneByte_accessResult m hw hk, fun hw => by rw [accessResult, if_pos hw]⟩,
    fun _ => rfl, laneByte_toNat⟩

/-! ## The one access of a step (R161, R168, R169) -/

/-- What the arbiter does to memory: one access, which then holds a port that was FREE, or nothing. -/
theorem arbitrate_mem (u : State) :
    ((arbitrate u).mem = u.mem ∧ (arbitrate u).path.port = u.path.port) ∨
      u.path.port = .free ∧ ∃ q a, (arbitrate u).path.port = .busy q a ∧ (arbitrate u).mem = accessMemory u.mem a := by
  rcases arbitrate_cases u with ⟨same, _⟩ | ⟨q, a, g, free, k⟩
  · exact .inl ⟨by rw [same], by rw [same]⟩
  · exact .inr ⟨free, q, a, k.port, k.mem⟩

theorem arbitrate_oneAccess (u : State) :
    (arbitrate u).mem = u.mem ∨ ∃ q a, (arbitrate u).path.port = .busy q a ∧ (arbitrate u).mem = accessMemory u.mem a :=
  (arbitrate_mem u).imp And.left And.right

theorem arbitrate_busy {u : State} {q : Requester} {a : Access} (h : u.path.port = .busy q a) : arbitrate u = u := by
  rw [arbitrate, h]

theorem settle_mem (s u : State) : (settle s u).mem = (arbitrate u).mem := (congrArg State.mem (unmarked_settle s u) :)

/-- Settles O4: a step's accesses are those of its arbiter, and a BUSY port lets the arbiter grant none. -/
theorem oneAccessInAStep : Obligations.OneAccessInAStep := by
  refine fun c s t h => ⟨?one, fun q a busy notCompletion => ?busy⟩
  case one =>
    rcases exec_split c s t h with ⟨u, inside, rfl⟩ | ⟨_, rfl⟩ | ⟨stn, cba, ald, _, _, rfl⟩
    · rw [settle_mem, settle_path, ← inside.mem]
      exact arbitrate_oneAccess u
    · exact arbitrate_oneAccess (resetPart s)
    · exact .inl (leaveReset_same s stn cba ald).2.1
  case busy =>
    rcases exec_next h with ⟨_, u, k, rfl⟩ | ⟨_, completion⟩ | ⟨_, rfl⟩ | ⟨stn, cba, ald, _, _, rfl⟩
    · have idle : arbitrate u = u := arbitrate_busy (k.port.trans busy)
      rw [settle_mem, settle_path, idle]
      exact ⟨k.port, k.mem⟩
    · exact absurd completion notCompletion
    · have idle : arbitrate (resetPart s) = resetPart s := arbitrate_busy (u := resetPart s) busy
      rw [idle]
      exact ⟨rfl, rfl⟩
    · obtain ⟨_, mem, _, _, _, _, port, _⟩ := leaveReset_same s stn cba ald
      exact ⟨port, mem⟩

/-! ## The arbiter's table (R169) -/

theorem waitingHost_eq_some (s : State) (h : HostAccess) :
    waitingHost s = some h ↔ s.path.host = some h ∧ h.condition = .awaitingGrant := by
  rw [waitingHost, Option.filter_eq_some_iff, decide_eq_true_iff]

theorem hostWaits_iff (s : State) : hostWaits s = true ↔ ∃ h, waitingHost s = some h := by
  simp only [hostWaits, Option.any_eq_true, decide_eq_true_eq, waitingHost_eq_some]

theorem grantInternal_apply {s : State} (h : s.path.apply = .waiting) : grantInternal s = some (grantApplyPort s) := if_pos h

theorem grantInternal_snap {s : State} (ha : s.path.apply ≠ .waiting) (hs : s.path.snap = true) :
    grantInternal s = some (grantSnapPort s) := by
  rw [grantInternal, if_neg ha, if_pos hs]

theorem grantInternal_agent {s : State} (ha : s.path.apply ≠ .waiting) (hs : s.path.snap = false) :
    grantInternal s = s.path.agent.map (grantAgentPort s) := by
  rw [grantInternal, if_neg ha, if_neg (by simp [hs])]

theorem grantNext_host {s : State} {h : HostAccess} (hw : waitingHost s = some h) (hl : s.path.last ≠ .host) :
    grantNext s = some (grantHost s h) := by
  simp only [grantNext, hw, if_pos hl]

/-- The rows below the first: an internal request, and the host access where there is none. -/
theorem grantNext_internal {s : State} (h : waitingHost s = none ∨ s.path.last = .host) :
    grantNext s = (grantInternal s <|> (waitingHost s).map (grantHost s)) := by
  unfold grantNext
  cases hw : waitingHost s with
  | none => simp
  | some x =>
    have last : s.path.last = .host := h.resolve_left (by simp [hw])
    simp [last]

/-- The completion of an internal access leaves the port FREE and the rest as it was: the table decides there as it does at
the end of any step. -/
theorem completion_decides {u : State} (s : State) {q : Requester} (a : Access) (free : u.path.port = .free) (hq : q ≠ .host) :
    ∃ t, exec .memoryAccessComplete { u with path := { u.path with port := .busy q a } } = .next t ∧
      unmarked (settle s u) = unmarked t := by
  refine ⟨_, complete_exec rfl, ?_⟩
  rw [complete_internal (s := { u with path := { u.path with port := .busy q a } }) rfl hq, unmarked_settle, unmarked_settle,
    ← free]

/-- Settles O5: the rows of the table by the requests that wait, and the grant at the end of a step by the table. -/
theorem arbiterGrantsByTheTable : Obligations.ArbiterGrantsByTheTable := by
  refine ⟨fun s => ⟨waitingHost_eq_some s, hostWaits_iff s⟩, fun s => ⟨fun h hw hl => grantNext_host hw hl, fun below =>
    ⟨fun ha => ?apply, fun ha hs => ?snap, fun q ha hs hq => ?agent, fun ha hs hq => ?alone⟩⟩, fun s u =>
    ⟨fun none => ?none, fun v free hv => ?some, fun q a free hq => completion_decides s a free hq⟩⟩
  case apply => rw [grantNext_internal below, grantInternal_apply ha]; rfl
  case snap => rw [grantNext_internal below, grantInternal_snap ha hs]; rfl
  case agent => rw [grantNext_internal below, grantInternal_agent ha hs, hq]; rfl
  case alone => rw [grantNext_internal below, grantInternal_agent ha hs, hq]; rfl
  case none => rw [unmarked_settle, arbitrate_none fun free => none.resolve_left (not_not_intro free)]
  case some => rw [unmarked_settle, arbitrate_some free hv]

/-! ## A second host access (log 2) -/

theorem presentHost_outstanding {s : State} (a : Access) (h : s.path.host.isSome = true) :
    presentHost s a = .fault .hostAccessOutstanding := if_pos h

/-- Settles O13: the nine commands present an access, which faults. -/
theorem secondHostAccessFaults : Obligations.SecondHostAccessFaults := by
  intro c s h presents
  cases c <;> simp only at presents
  all_goals exact presentHost_outstanding _ h

/-! ## The posting of events (R183; log 25) -/

theorem post_listed {s : State} (e : Event) (hl : s.agent.events.length < 8)
    (hr : (s.agent.producer - s.agent.consumer).toNat < 31) :
    post s e = { s with agent := { s.agent with events := s.agent.events ++ [{ e with stamp := s.clock.us }] } } :=
  if_neg (not_or.2 ⟨Nat.not_le.2 hl, Nat.not_le.2 hr⟩)

theorem countLost_eq (s : State) : countLost s =
    { s with agent := { s.agent with lost := if s.agent.lost = 65535#16 then 65535#16 else s.agent.lost + 1 } } := by
  unfold countLost
  split_ifs with h
  · rw [← h]
  · rfl

theorem post_lost {s : State} (e : Event)
    (h : 8 ≤ s.agent.events.length ∨ 31 ≤ (s.agent.producer - s.agent.consumer).toNat) : post s e = countLost s := if_pos h

theorem postAmong_ringFull {s : State} (n : Nat) (e : Event) (h : 31 ≤ (s.agent.producer - s.agent.consumer).toNat) :
    postAmong n s e = post s e := if_pos (Or.inr h)

/-- Settles O35: listed, lost, alone, or placed among those posted with it. -/
theorem eventIsListedOrLost : Obligations.EventIsListedOrLost := by
  refine ⟨fun _ _ _ _ _ => rfl, fun s e => ⟨post_listed e, fun h => (post_lost e h).trans (countLost_eq s), fun n h => ?_,
    fun n m hm h0 hr => postAmong_placed e hm h0 hr⟩⟩
  rcases h with alone | full
  · exact postAmong_alone e alone
  · exact postAmong_ringFull n e full

end Sys2Proof.Machine
end

section
/-! SUPPORT. The host port: the accesses that pass and that the fence holds, and the writes to host-owned words that the agent
observes or not. -/

namespace Sys2Proof.Machine

/-- The outcome of a step by what its arbiter leaves. -/
theorem settled_next {o : Host.Outcome State Fault Refusal} {s u g : State} (h : o = .next (settle s u))
    (hg : arbitrate u = g) : ∃ t, o = .next t ∧ unmarked t = unmarked g :=
  ⟨_, h, by rw [unmarked_settle, hg]⟩

/-- The outcome of a step that leaves the arbiter nothing to grant. -/
theorem served_next {o : Host.Outcome State Fault Refusal} {s u : State} (h : o = .next (settle s u)) (hu : PortServes u) :
    ∃ t, o = .next t ∧ unmarked t = unmarked u := settled_next h (arbitrate_id hu)

/-! ## The region matcher and the region table (R1, R3, R9, R15) -/

theorem matchAddress_block_iff (s : State) (a : Addr) (i : Nat) :
    matchAddress s a = .block i ↔
      65536 * s.straps.cba.toNat ≤ a.toNat / 4 * 4 ∧ a.toNat / 4 * 4 < 65536 * s.straps.cba.toNat + 688 ∧
        i = (a.toNat / 4 * 4 - 65536 * s.straps.cba.toNat) / 4 := by
  unfold matchAddress wordAddress blockBase Config.blockWords
  rw [Nat.mul_comm s.straps.cba.toNat]
  dsimp only
  split_ifs with inBlock
  · simp only [Hit.block.injEq, inBlock.1, inBlock.2, true_and, eq_comm]
  · refine iff_of_false ?_ fun h => inBlock ⟨h.1, h.2.1⟩
    split <;> exact nofun

/-- Outside the control block the matcher looks for the first region that holds the word. -/
theorem matchAddress_outside {s : State} {a : Addr}
    (h : ¬ (65536 * s.straps.cba.toNat ≤ a.toNat / 4 * 4 ∧ a.toNat / 4 * 4 < 65536 * s.straps.cba.toNat + 688)) :
    matchAddress s a =
      match allIds.find? fun r => inRegion (descAt s r) (a.toNat / 4 * 4) with
      | some r => .region r ((a.toNat / 4 * 4 - (descAt s r).base.toNat) / 4)
      | none => .none := by
  unfold matchAddress wordAddress blockBase Config.blockWords
  rw [Nat.mul_comm s.straps.cba.toNat]
  exact if_neg h

theorem matchAddress_outside_of_ne_block {s : State} {a : Addr} {x : Hit} (h : matchAddress s a = x) (hx : ∀ i, x ≠ .block i) :
    ¬ (65536 * s.straps.cba.toNat ≤ a.toNat / 4 * 4 ∧ a.toNat / 4 * 4 < 65536 * s.straps.cba.toNat + 688) := fun inBlock =>
  hx _ (h.symm.trans ((matchAddress_block_iff s a _).2 ⟨inBlock.1, inBlock.2, rfl⟩))

theorem matchAddress_region_found {s : State} {a : Addr} {r : RegionId} {o : Nat} (h : matchAddress s a = .region r o) :
    inRegion (descAt s r) (a.toNat / 4 * 4) = true ∧ o = (a.toNat / 4 * 4 - (descAt s r).base.toNat) / 4 := by
  rw [matchAddress_outside (matchAddress_outside_of_ne_block h nofun)] at h
  cases found : allIds.find? fun r => inRegion (descAt s r) (a.toNat / 4 * 4) with
  | none => rw [found] at h; cases h
  | some q =>
    rw [found] at h
    cases h
    exact ⟨by simpa using List.find?_some found, rfl⟩

theorem matchAddress_region_of_unique {s : State} {a : Addr} {r : RegionId}
    (h : ¬ (65536 * s.straps.cba.toNat ≤ a.toNat / 4 * 4 ∧ a.toNat / 4 * 4 < 65536 * s.straps.cba.toNat + 688))
    (hr : inRegion (descAt s r) (a.toNat / 4 * 4) = true)
    (unique : ∀ q, inRegion (descAt s q) (a.toNat / 4 * 4) = true → q = r) :
    matchAddress s a = .region r ((a.toNat / 4 * 4 - (descAt s r).base.toNat) / 4) := by
  rw [matchAddress_outside h]
  cases found : allIds.find? fun r => inRegion (descAt s r) (a.toNat / 4 * 4) with
  | none => exact absurd hr (List.find?_eq_none.1 found r (mem_allIds r))
  | some q => rw [unique q (by simpa using List.find?_some found)]

theorem matchAddress_none_iff (s : State) (a : Addr) :
    matchAddress s a = .none ↔
      ¬ (65536 * s.straps.cba.toNat ≤ a.toNat / 4 * 4 ∧ a.toNat / 4 * 4 < 65536 * s.straps.cba.toNat + 688) ∧
        ∀ r, ¬ inRegion (descAt s r) (a.toNat / 4 * 4) = true := by
  constructor
  · intro h
    have outside := matchAddress_outside_of_ne_block h nofun
    refine ⟨outside, fun r => ?_⟩
    rw [matchAddress_outside outside] at h
    cases found : allIds.find? fun r => inRegion (descAt s r) (a.toNat / 4 * 4) with
    | none => exact List.find?_eq_none.1 found r (mem_allIds r)
    | some q => rw [found] at h; cases h
  · rintro ⟨outside, none⟩
    rw [matchAddress_outside outside, List.find?_eq_none.2 fun r _ => none r]

theorem pubAt_eq_some_iff (s : State) (r : RegionId) (p : PubRecord) :
    pubAt s r = some p ↔ (regionAt s r).record = .published p :=
  ⟨regionAt_pub, fun h => by rw [pubAt, h]⟩

theorem subAt_eq_some_iff (s : State) (r : RegionId) (q : SubRecord) :
    subAt s r = some q ↔ (regionAt s r).record = .subscribed q :=
  ⟨regionAt_sub, fun h => by rw [subAt, h]⟩

theorem isLive_iff (s : State) (r : RegionId) : isLive s r = true ↔ ∃ p, pubAt s r = some p ∧ p.state = .live := by
  simp only [isLive, Option.any_eq_true, decide_eq_true_eq]

/-! ## An access that passes (R160 to R162, R171) -/

/-- A passed access at an open host port, of which the agent observes nothing. -/
theorem passed_granted {s : State} {a : Access} (h : HostPortOpen s) (hp : PassedByTable s a) (hu : Unobserved s a) :
    ∃ t, exec (.hostAccess a) s = .next t ∧ unmarked t = unmarked (grantedNow s a) := by
  obtain ⟨_, noHost, _⟩ := id h
  refine settled_next (presentHost_open a noHost) ?_
  rw [present_passed hp, arbitrate_pass a h]
  exact observe_id s _ hu rfl rfl

/-- At an open host port no apply request is kept back for the access. -/
theorem grantedNow_open {s : State} (a : Access) (h : HostPortOpen s) :
    grantedNow s a = { s with
      mem := accessMemory s.mem a
      path := { s.path with
        host := some { access := a, condition := .granted, result := accessResult s.mem a }
        port := .busy .host a
        last := if s.top = .inReset then .none else .host } } := by
  obtain ⟨_, apply, _⟩ := open_claim h
  have notKept : s.path.apply ≠ .keptBack := by rw [apply]; exact nofun
  rw [grantedNow, if_neg notKept]

theorem passed_waits {s : State} {a : Access} (hn : s.path.host = none) (hp : s.path.port ≠ .free)
    (h : PassedByTable s a) :
    ∃ t, exec (.hostAccess a) s = .next t ∧ unmarked t = unmarked (passAccess s a) := by
  refine served_next ((presentHost_open a hn).trans (by rw [present_passed h])) (serves_busy hp)

/-- Settles O10: the grant at an open port, the wait at a BUSY one, the matcher and the region table. -/
theorem passedAccessIsGrantedOrWaits : Obligations.PassedAccessIsGrantedOrWaits := by
  refine ⟨fun a s h hp hu => ?granted, fun a s hn hp h => passed_waits hn hp h, fun s a => ?matcher, fun s r =>
    ⟨rfl, rfl, pubAt_eq_some_iff s r, subAt_eq_some_iff s r, fun _ => rfl, fun _ => rfl, isLive_iff s r⟩⟩
  case granted =>
    obtain ⟨t, hx, ht⟩ := passed_granted h hp hu
    rw [grantedNow_open a h] at ht
    have mem : t.mem = accessMemory s.mem a := (congrArg State.mem ht :)
    have path : t.path = _ := (congrArg State.path ht :)
    refine ⟨t, hx, mem, path, ?_, fun k hw hk lane => ?_⟩
    · rw [ht, mem, path]
      rfl
    · rw [laneByte_accessResult s.mem hw hk, if_pos lane]
      rfl
  case matcher =>
    refine ⟨matchAddress_block_iff s a, fun r o h => ?_, fun r outside holds unique => ?_, ?_⟩
    · obtain ⟨found, offset⟩ := matchAddress_region_found h
      have holds := (inRegion_iff _ _).1 found
      refine ⟨matchAddress_outside_of_ne_block h nofun, holds, offset, ?_⟩
      obtain ⟨_, low, high⟩ := holds
      omega
    · exact matchAddress_region_of_unique outside ((inRegion_iff _ _).2 holds)
        fun q hq => unique q ((inRegion_iff _ _).1 hq)
    · rw [matchAddress_none_iff]
      exact and_congr_right fun _ => forall_congr' fun r => not_congr (inRegion_iff _ _)

/-! ## The fence (R84, R165) -/

/-- An access in another condition than AWAITING GRANT brings the arbiter no request. -/
theorem enterPart_serves {s : State} (a : Access) {c : HostCondition} (hc : c ≠ .awaitingGrant) (h : PortServes s) :
    PortServes (enterPart s a c) := by
  intro free
  obtain ⟨_, apply, snap, agent⟩ := h free
  exact ⟨by simp [waitingHost, hc], apply, snap, agent⟩

theorem presentRegion_fenced {s : State} {a : Access} {r : RegionId} (o : Nat) (hr : (descAt s r).role = .subscribe)
    (hg : a.write = true → (descAt s r).guard = .openMode) (hf : s.inb.fence = some r) :
    presentRegion s a r o = enterPart s a .fenceHeld := by
  have notGuarded : ¬ (a.write = true ∧ (descAt s r).guard = .guarded) := by
    rintro ⟨write, guarded⟩
    rw [hg write] at guarded
    cases guarded
  simp only [presentRegion, hr, if_neg notGuarded, presentFenced, if_pos hf]

/-- Settles O12: the access enters the part FENCE HELD, and the arbiter sees no request. -/
theorem fencedAccessIsHeld : Obligations.FencedAccessIsHeld := by
  intro a s r o hn hs ht hm hr hg hf
  have held : present s a = enterPart s a .fenceHeld :=
    (present_region ht hm).trans (presentRegion_fenced o hr hg hf)
  exact served_next (u := enterPart s a .fenceHeld) ((presentHost_open a hn).trans (by rw [held]))
    (enterPart_serves a nofun hs)

/-! ## Writes to host-owned words (R164, R171, R173, R185) -/

theorem exec_cbWordWrite (w : Fin 172) (l : Lanes) (d : Word) (s : State) :
    exec (.cbWordWrite w l d) s = presentHost s (cbWrite s w.val l d) := by
  rw [← blockWrite_eq]
  rfl

theorem exec_consumerIndexWrite (l : Lanes) (d : Word) (s : State) :
    exec (.consumerIndexWrite l d) s = presentHost s (cbWrite s 70 l d) := by
  rw [← blockWrite_eq]
  rfl

theorem matchAddress_cbWrite (s : State) {i : Nat} (l : Lanes) (d : Word) (hi : i < 172) :
    matchAddress s (cbWrite s i l d).addr = .block i := block_addr s hi

/-- Settles O14: the agent observes nothing of a write that is no whole command word and no consumer index, nor of any write
with RESET_N asserted. -/
theorem writesThatOnlyReachMemory : Obligations.WritesThatOnlyReachMemory := by
  refine ⟨fun x w l d s h hw => ?config, fun x c code region tag s hc h ht => ?command⟩
  case config =>
    obtain ⟨t, hx, ht⟩ := owned_granted h (exec_cbWordWrite w l d s) (.inl (by omega))
    refine ⟨t, hx, ht.trans (congrArg unmarked (observe_id s _ (.inr (.inr ?_)) rfl rfl))⟩
    intro i hit
    obtain rfl : w.val = i := by simpa [matchAddress_cbWrite s l d w.isLt] using hit
    exact ⟨by omega, fun command lanes => hw.elim (fun low => by omega) fun part => part.2 lanes⟩
  case command =>
    obtain ⟨t, hx, hu⟩ := command_granted hc h
    exact ⟨t, hx, hu.trans (congrArg unmarked (observe_id s _ (.inl ht) rfl rfl))⟩

theorem observe_consumerIndex (s : State) {g : State} (l : Lanes) (d : Word) (ht : g.top ≠ .inReset) (hg : g.straps = s.straps) :
    observe g (cbWrite s 70 l d) = observeConsumer g l d := by
  have hit : matchAddress g (cbWrite s 70 l d).addr = .block 70 := by
    have own := block_addr g (i := 70) (by omega)
    rwa [hg] at own
  have notReset : ¬ (g.top = .inReset ∨ (!(cbWrite s 70 l d).write) = true) := by simp [ht, cbWrite]
  unfold observe
  rw [if_neg notReset, hit]
  exact (if_neg (by simp [commandIndex])).trans (if_pos rfl)

/-- R184: the withdrawal of an event's first write, by the ring alone. -/
theorem withdrawEvent_eq (s : State) : withdrawEvent s =
    { s with
      path := { s.path with
        agent :=
          if s.path.agent = some .eventFirst ∧ 31 ≤ (s.agent.producer - s.agent.consumer).toNat then none
          else s.path.agent } } := by
  unfold withdrawEvent unconsumed Config.ringRoom
  split_ifs <;> rfl

theorem laneMask_getLsbD : ∀ (l : Lanes) (i : Nat), i < 32 → (laneMask l).getLsbD i = l.getLsbD (i / 8) := by
  decide

/-- Settles O15: the agent observes the write at its grant, and a waiting event's first write is withdrawn from a full ring. -/
theorem consumerIndexFollowsTheHost : Obligations.ConsumerIndexFollowsTheHost := by
  refine ⟨fun x l d s h ht => ?_, laneMask_getLsbD⟩
  obtain ⟨t, hx, hu⟩ := owned_granted h (exec_consumerIndexWrite l d s) (.inr rfl)
  refine ⟨t, hx, hu.trans (congrArg unmarked ?_)⟩
  rw [observe_consumerIndex s (g := grantedNow s (cbWrite s 70 l d)) l d ht rfl, observeConsumer, withdrawEvent_eq]
  simp only [Nat.lt_succ_iff]
  rfl

end Sys2Proof.Machine
end

section
/-! SUPPORT. The commands at the grant of their writes (R173 to R179): refused, taken, and what START, STOP, FLUSH, RESYNC and a
LOAD do to the part. -/

namespace Sys2Proof.Machine

/-! ## The table of R174, by command -/

/-- A result reached by the command just taken. -/
theorem reachResult_taken (s : State) (code region tag : Byte) (r : ResultCode) :
    reachResult (commandTaken s code region tag none) r = commandTaken s code region tag (some r) := rfl

theorem decideCommand_load (s : State) (arg : Byte) : decideCommand s 1 arg = takeLoad s := rfl

theorem decideCommand_start (s : State) (arg : Byte) :
    decideCommand s 2 arg = if s.top = .configured then reachResult (startPart s) .done else reachResult s .badState := rfl

theorem decideCommand_stop (s : State) (arg : Byte) :
    decideCommand s 3 arg = if s.top = .running then stopPart s else reachResult s .badState := rfl

theorem decideCommand_flush (s : State) (arg : Byte) :
    decideCommand s 4 arg = if s.top = .running then flushRegion s arg else reachResult s .badState := rfl

theorem decideCommand_resync (s : State) (arg : Byte) :
    decideCommand s 5 arg = if s.top = .running then resyncRegion s arg else reachResult s .badState := rfl

theorem decideCommand_other (s : State) {code : Byte} (arg : Byte) (h : code = 0 ∨ 6 ≤ code.toNat) :
    decideCommand s code arg = reachResult s .badCommand := by
  have ne : ∀ k : Byte, 1 ≤ k.toNat → k.toNat ≤ 5 → code ≠ k := by
    rintro k low high rfl
    rcases h with rfl | h
    · exact absurd low (by decide)
    · omega
  rw [decideCommand, if_neg (ne 1 (by decide) (by decide)), if_neg (ne 2 (by decide) (by decide)),
    if_neg (ne 3 (by decide) (by decide)), if_neg (ne 4 (by decide) (by decide)), if_neg (ne 5 (by decide) (by decide))]

/-- The codes that are no BAD_COMMAND. -/
theorem code_cases (code : Byte) :
    (code = 0 ∨ 6 ≤ code.toNat) ∨ code = 1 ∨ code = 2 ∨ code = 3 ∨ code = 4 ∨ code = 5 := by
  simp only [← BitVec.toNat_inj, BitVec.ofNat_eq_ofNat, BitVec.toNat_ofNat]
  omega

theorem pubNamed_eq (s : State) (arg : Byte) : pubNamed s arg = (argRegion arg).bind (pubAt s) := by
  unfold pubNamed argRegion regionByte
  split_ifs <;> rfl

theorem subNamed_eq (s : State) (arg : Byte) : subNamed s arg = (argRegion arg).bind (subAt s) := by
  unfold subNamed argRegion regionByte
  split_ifs <;> rfl

theorem flushRegion_unnamed {s : State} {arg : Byte} (h : pubNamed s arg = none) :
    flushRegion s arg = reachResult s .badArg := by
  rw [pubNamed_eq] at h
  unfold flushRegion
  cases named : argRegion arg with
  | none => rfl
  | some r =>
    rw [named, Option.bind_some] at h
    simp only [Option.bind_some, h, Option.map_none]

theorem flushRegion_named {s : State} {arg : Byte} {r : RegionId} {p : PubRecord} (hr : argRegion arg = some r)
    (hp : pubAt s r = some p) :
    flushRegion s arg = if p.state = .live then reachResult (dueClose s r) .done else reachResult s .badState := by
  simp only [flushRegion, hr, Option.bind_some, hp, Option.map_some]

theorem flushRegion_notLive {s : State} {arg : Byte} {p : PubRecord} (h : pubNamed s arg = some p) (hl : p.state ≠ .live) :
    flushRegion s arg = reachResult s .badState := by
  rw [pubNamed_eq, Option.bind_eq_some_iff] at h
  obtain ⟨r, named, hp⟩ := h
  rw [flushRegion_named named hp, if_neg hl]

theorem resyncRegion_unnamed {s : State} {arg : Byte} (h : subNamed s arg = none) :
    resyncRegion s arg = reachResult s .badArg := by
  rw [subNamed_eq] at h
  unfold resyncRegion
  cases named : argRegion arg with
  | none => rfl
  | some r =>
    rw [named, Option.bind_some] at h
    simp only [Option.bind_some, h, Option.map_none]

theorem resyncRegion_named {s : State} {arg : Byte} {r : RegionId} {q : SubRecord} (hr : argRegion arg = some r)
    (hq : subAt s r = some q) : resyncRegion s arg = reachResult (unsync s r .resync) .done := by
  simp only [resyncRegion, hr, Option.bind_some, hq, Option.map_some]

/-- R174: a refused command reaches its result and does nothing else. -/
theorem decideCommand_refused {s : State} {code arg : Byte} {r : ResultCode}
    (ht : s.top = .unconfigured ∨ s.top = .configured ∨ s.top = .running)
    (h : refusedResult s.top code (pubNamed s arg) (subNamed s arg) = some r) :
    decideCommand s code arg = reachResult s r := by
  unfold refusedResult at h
  rcases code_cases code with other | rfl | rfl | rfl | rfl | rfl
  case inl =>
    rw [if_pos other] at h
    cases h
    exact decideCommand_other s arg other
  case inr.inl =>
    rcases ht with top | top | top <;> rw [top] at h <;> cases h
    rw [decideCommand_load, takeLoad, top]
  case inr.inr.inl =>
    rw [decideCommand_start]
    by_cases top : s.top = .configured
    · rw [top] at h; cases h
    · rw [if_neg top]
      simp [top] at h
      rw [h]
  case inr.inr.inr.inl =>
    rw [decideCommand_stop]
    by_cases top : s.top = .running
    · rw [top] at h; cases h
    · rw [if_neg top]
      simp [top] at h
      rw [h]
  case inr.inr.inr.inr.inl =>
    rw [decideCommand_flush]
    by_cases top : s.top = .running
    · rw [if_pos top]
      cases named : pubNamed s arg with
      | none =>
        rw [top, named] at h
        cases h
        exact flushRegion_unnamed named
      | some p =>
        by_cases live : p.state = .live
        · simp [top, named, live] at h
        · simp [top, named, live] at h
          rw [flushRegion_notLive named live, h]
    · rw [if_neg top]
      simp [top] at h
      rw [h]
  case inr.inr.inr.inr.inr =>
    rw [decideCommand_resync]
    by_cases top : s.top = .running
    · rw [if_pos top]
      cases named : subNamed s arg with
      | none =>
        rw [top, named] at h
        cases h
        exact resyncRegion_unnamed named
      | some q =>
        rw [top, named] at h
        cases h
    · rw [if_neg top]
      simp [top] at h
      rw [h]

/-! ## Refused commands (R173, R174) -/

theorem argRegion_getD (arg : Byte) : (argRegion arg).getD 15 = if h : arg.toNat < 16 then ⟨arg.toNat, h⟩ else 15 := by
  unfold argRegion regionByte
  split_ifs <;> rfl

theorem cmdBusy_eq (code region tag : Byte) : cmdBusy (0#8 ++ tag ++ region ++ code) =
    mkEvent .cmdBusy (if h : region.toNat < 16 then ⟨region.toNat, h⟩ else 15) 15 code tag.toNat := by
  obtain ⟨hcode, hregion, htag⟩ := laneByte_word code region tag
  rw [cmdBusy, hcode, hregion, htag, argRegion_getD]

/-- Settles O21: the agent observes the write, finds a command executing and posts CMD_BUSY alone. -/
theorem commandWhileOneExecutesIsRefused : Obligations.CommandWhileOneExecutesIsRefused := by
  intro x c code region tag s hc h ht executing
  obtain ⟨t, hx, hu⟩ := command_granted hc h
  refine ⟨t, hx, hu.trans (congrArg unmarked ?_)⟩
  rw [observe_command code region tag ht, observeCommand, if_pos (by exact executing), cmdBusy_eq]

theorem ne_inReset {s : State} (h : s.top = .unconfigured ∨ s.top = .configured ∨ s.top = .running) : s.top ≠ .inReset := by
  rcases h with top | top | top <;> rw [top] <;> exact nofun

/-- Settles O22: the table of R174 gives a taken command that result and nothing else. -/
theorem refusedCommandOnlyGivesItsResult : Obligations.RefusedCommandOnlyGivesItsResult := by
  intro x c code region tag r s hc h hx ht hr
  obtain ⟨t, ht', hu⟩ := command_taken hc h (ne_inReset ht) hx
  refine ⟨t, ht', hu.trans (congrArg unmarked ?_)⟩
  rw [decideCommand_refused (s := commandTaken s code region tag none) ht hr, reachResult_taken]

/-! ## LOAD taken (R174, R175) -/

theorem withdrawForLoad_eq (a : Option AgentRequest) :
    withdrawForLoad a = a.filter fun q => decide (q = .eventSecond ∨ q = .eventThird) := by
  cases a with
  | none => rfl
  | some q => cases q <;> rfl

theorem takeLoad_enters {s : State} (h : s.top = .unconfigured ∨ s.top = .configured) : takeLoad s = enterLoading s := by
  rcases h with top | top <;> rw [takeLoad, top]

/-- Settles O23: the taken LOAD is the entry to LOADING. -/
theorem loadEntersLoading : Obligations.LoadEntersLoading := by
  intro x region tag s h hx ht
  obtain ⟨t, ht', hu⟩ := command_taken (c := .load region tag) rfl h (ne_inReset (ht.imp_right .inl)) hx
  refine ⟨t, ht', hu.trans (congrArg unmarked ?_)⟩
  rw [decideCommand_load, takeLoad_enters (s := commandTaken s 1 region tag none) ht, enterLoading, withdrawForLoad_eq]
  rfl

/-! ## START and STOP (R178, R179) -/

theorem startedRegion_eq (master : Bool) (x : Region) :
    mapSub startSub (mapPub (startPub master) x) = startedRegion master x := by
  obtain ⟨d, record⟩ := x
  cases record <;> rfl

theorem stoppedRegion_eq (x : Region) : mapSub stopSub (mapPub stopPub x) = stoppedRegion x := by
  obtain ⟨d, record⟩ := x
  cases record <;> rfl

theorem regionAt_startPart (s : State) (r : RegionId) :
    regionAt (startPart s) r = startedRegion (decide (s.straps.stn = 0)) (regionAt s r) := by
  rw [← startedRegion_eq]
  unfold regionAt
  rw [startPart_regions]
  exact (regionAt_updAllSubs _ _ r).trans (congrArg _ (regionAt_updAllPubs _ _ r))

theorem regionAt_stopPart {s : State} (h : s.cap.held = none) (r : RegionId) :
    regionAt (stopPart s) r = stoppedRegion (regionAt s r) := by
  have released : releaseHeldIfAny { s with top := .configured } = { s with top := .configured } := if_neg (by simp [h])
  rw [← stoppedRegion_eq]
  unfold regionAt
  rw [stopPart_regions, stopRegions, released]
  exact (regionAt_updAllSubs _ _ r).trans (congrArg _ (regionAt_updAllPubs _ _ r))

theorem startPart_eq (s : State) : startPart s = { s with
    top := .running
    regions := (startPart s).regions
    del := { s.del with ownTurn := 0, roundRobin := 15, turnList := [], kept := none, turn := none }
    line := { s.line with noisy := false, clean := 0 }
    tc :=
      if s.straps.stn = 0 then
        { s.tc with
          roster := 1#16, cycle := 255, pollList := [], pollPos := none, probePos := 14,
          misses := Vector.replicate 16 0, removals := 0, additions := 0, breakDue := true, next := .cycleStart,
          watch := none, pauseFrom := none, silenceFrom := none, phase := .breaking,
          gap := .counting s.tc.lineLast }
      else
        { s.tc with
          roster := 0, member := .listening, probeReply := false, lastCycle := 0, lost := .running s.clock.us,
          gap := .notAwaited } } := by
  obtain ⟨R, regions⟩ : ∃ R, startRegions s = { s with top := .running, regions := R } := ⟨_, startRegions_only s⟩
  rw [startPart_regions, startPart, regions]
  by_cases master : s.straps.stn = 0
  · rw [if_pos (by exact decide_eq_true master), if_pos master]; rfl
  · rw [if_neg (by simpa [isMaster] using master), if_neg master]; rfl

theorem stopPart_eq {s : State} (h : s.cap.held = none) : stopPart s = { s with
    top := .configured
    regions := (stopPart s).regions
    path := { s.path with snap := false }
    cap := { sendQueue := [], claim := none, held := none }
    inb := { s.inb with slots := s.inb.slots.filter fun x => x.inProgress }
    del := { s.del with turnList := [], kept := none, turn := none }
    fu := { s.fu with assembly := .empty, lineBuf := none }
    line := { s.line with
      tx := if s.line.tx = .off then .off else .idle
      txSince := if s.line.tx = .off then s.line.txSince else s.clock.ticks
      fault := if s.line.tx = .off then s.line.fault else none
      rx := if s.line.rx = .echo then .arming else s.line.rx
      sampling := if s.line.rx = .echo then sampledAnew s else s.line.sampling }
    tc := { s.tc with
      lineLast :=
        if s.line.tx = .character ∨ s.line.tx = .breakLow ∨ s.line.tx = .breakHigh then s.clock.ticks else s.tc.lineLast
      roster := 0, phase := .detached, pollList := [], pollPos := none, misses := Vector.replicate 16 0,
      removals := 0, additions := 0, breakDue := false, next := .cycleStart, watch := none, pauseFrom := none,
      silenceFrom := none, member := .detached, probeReply := false, lost := .stopped, gap := .notAwaited }
    agent := { s.agent with
      marks := s.agent.marks ||| markBit markRoster ||| markBit markPool
      executing := if s.inb.engine.isSome then s.agent.executing
        else s.agent.executing.map fun x => { x with result := some .done } } } := by
  have released : releaseHeldIfAny { s with top := .configured } = { s with top := .configured } := if_neg (by simp [h])
  obtain ⟨R, regions⟩ : ∃ R, stopRegions s = { s with top := .configured, regions := R } := ⟨_, stopRegions_only s released⟩
  rw [stopPart_regions, stopPart, regions, stopLine_eq]
  by_cases applying : s.inb.engine.isSome = true
  · rw [if_pos (by exact applying), if_pos applying]; rfl
  · rw [if_neg (by exact applying), if_neg applying]; rfl

theorem unmarked_regions {s t : State} (h : unmarked t = unmarked s) : t.regions = s.regions := (congrArg State.regions h :)

theorem regionAt_congr {s t : State} (h : t.regions = s.regions) (r : RegionId) : regionAt t r = regionAt s r := by
  rw [regionAt, h, regionAt]

theorem stopPart_marks {s : State} (h : s.cap.held = none) {m : Nat} (hm : m = 4 ∨ m = 5) :
    (stopPart s).agent.marks.getLsbD m = true := by
  rw [stopPart_eq h]
  rcases hm with rfl | rfl
  · exact or_marks _ _ _ (by rw [BitVec.getLsbD_or]; simp [markBit, markRoster])
  · show (s.agent.marks ||| markBit markRoster ||| markBit markPool).getLsbD 5 = true
    rw [BitVec.getLsbD_or]
    simp [markBit, markPool]

/-- Settles O24: the regions by the fold over the table, the other blocks by what START and STOP write. -/
theorem startAndStopMoveThePart : Obligations.StartAndStopMoveThePart := by
  refine ⟨fun x region tag s h hx ht => ?start, fun x region tag s h hx ht => ?stop⟩
  case start =>
    obtain ⟨t, ht', hu⟩ := command_taken (c := .start region tag) rfl h (ne_inReset (.inr (.inl ht))) hx
    rw [decideCommand_start, if_pos (by exact ht)] at hu
    have regions : t.regions = (startPart (commandTaken s 2 region tag none)).regions :=
      (unmarked_regions hu).trans (reachResult_regions _ _)
    refine ⟨t, ht', fun r => (regionAt_congr regions r).trans (regionAt_startPart _ r), hu.trans ?_⟩
    rw [startPart_eq, regions]
    rfl
  case stop =>
    have held : (commandTaken s 3 region tag none).cap.held = none := grants_held (s := s) h
    have notReset := ne_inReset (.inr (.inr ht))
    obtain ⟨t, ht', hu⟩ := command_taken (c := .stop region tag) rfl h notReset hx
    have stopped : decideCommand (commandTaken s 3 region tag none) 3 region = stopPart (commandTaken s 3 region tag none) :=
      if_pos ht
    rw [stopped] at hu
    have regions : t.regions = (stopPart (commandTaken s 3 region tag none)).regions := unmarked_regions hu
    have marked {m : Nat} (hm : m = 4 ∨ m = 5) : t.agent.marks.getLsbD m = true :=
      command_marks (c := .stop region tag) (code := 3) rfl h notReset hx ht'
        ((congrArg (fun u : State => u.agent.marks.getLsbD m) stopped).trans (stopPart_marks held hm))
    refine ⟨t, ht', marked (.inl rfl), marked (.inr rfl),
      fun r => (regionAt_congr regions r).trans (regionAt_stopPart held r), hu.trans ?_⟩
    rw [stopPart_eq held, regions, show (commandTaken s 3 region tag none).inb.engine = s.inb.engine from rfl]
    by_cases applying : s.inb.engine.isSome = true
    · rw [if_pos applying, if_pos applying]
      rfl
    · rw [if_neg applying, if_neg applying]
      rfl

/-! ## FLUSH and RESYNC (R21, R38) -/

theorem closeOrPend_noBatch {s : State} {r : RegionId} {p : PubRecord} (hp : pubAt s r = some p) (hb : p.openBatch = none) :
    closeOrPend s r = s := by
  simp only [closeOrPend, hp, hb, Option.isNone_none, if_true]

theorem closeOrPend_pends {s : State} {r : RegionId} {p : PubRecord} {b : Batch} (hp : pubAt s r = some p)
    (hb : p.openBatch = some b) (hr : 4 ≤ p.retained.length) :
    closeOrPend s r = withPub s r { p with closePending := true } := by
  have full : ¬ p.retained.length < Config.retainedLimit := Nat.not_lt.2 hr
  rw [closeOrPend, hp]
  dsimp only
  rw [if_neg (by simp [hb]), if_neg full, updPub_with _ hp]

theorem dueClose_unclaimed {s : State} {r : RegionId} (h : s.cap.claim = none) : dueClose s r = closeOrPend s r := by
  simp [dueClose, claimOf, h]

theorem unsync_unsynced {s : State} {r : RegionId} {q : SubRecord} {c : UnsyncCause} (hq : subAt s r = some q)
    (hu : q.state = .unsynced) : unsync s r c = s := by
  simp [unsync, hq, following, hu]

theorem reachResult_unsynced (s : State) (r : RegionId) (q : SubRecord) (k : EventKind) (d : Nat) (x : ResultCode) :
    reachResult (unsynced s r q k d) x = unsynced (reachResult s x) r q k d := by
  unfold unsynced
  rw [reachResult_post]
  rfl

/-- Settles O25: FLUSH by the close that is due where no claim can await grant, RESYNC by the entry to UNSYNCED. -/
theorem flushAndResyncAct : Obligations.FlushAndResyncAct := by
  refine ⟨fun x r tag p s h hx ht hp hl => ?flush, fun x r tag q s h hx ht hq => ?resync⟩
  case flush =>
    obtain ⟨t, ht', hu⟩ :=
      command_taken (c := .flush (BitVec.ofNat 8 r.val) tag) rfl h (ne_inReset (.inr (.inr ht))) hx
    rw [decideCommand_flush, if_pos (by exact ht), flushRegion_named (argRegion_ofNat r) (p := p) (by exact hp), if_pos hl,
      dueClose_unclaimed (show (commandTaken s 4 (BitVec.ofNat 8 r.val) tag none).cap.claim = none from grants_claim (s := s) h)] at hu
    refine ⟨fun noBatch => ⟨t, ht', ?_⟩, fun b hb full => ⟨t, ht', ?_⟩, fun b hb room => ⟨t, ht', ?_⟩⟩
    · rw [hu, closeOrPend_noBatch (p := p) (by exact hp) noBatch, reachResult_taken]
    · rw [hu, closeOrPend_pends (p := p) (by exact hp) hb full]
      rfl
    · rw [hu, close_closed (p := p) (by exact hp) hb room]
      rfl
  case resync =>
    obtain ⟨t, ht', hu⟩ :=
      command_taken (c := .resync (BitVec.ofNat 8 r.val) tag) rfl h (ne_inReset (.inr (.inr ht))) hx
    rw [decideCommand_resync, if_pos (by exact ht), resyncRegion_named (argRegion_ofNat r) (q := q) (by exact hq)] at hu
    refine ⟨fun unsyncedAlready => ⟨t, ht', ?_⟩, fun follows => ⟨t, ht', ?_⟩⟩
    · rw [hu, unsync_unsynced (q := q) (by exact hq) unsyncedAlready, reachResult_taken]
    · rw [hu, unsync_eq (q := q) _ (by exact hq) ((following_iff q).2 follows), reachResult_unsynced, reachResult_taken]
      rfl

end Sys2Proof.Machine
end

section
/-! SUPPORT. Write capture: the join of a claimed write at its grant, the write that is held, the closes that come due, and the
release check. -/

namespace Sys2Proof.Machine

/-! ## The join of a claimed write (R31 to R33) -/

theorem mergeInto_eq (b : Batch) (w : Byte) (a : Access) :
    mergeInto b w a.lanes a.data = { b with records := b.records.map (mergedRecord w a) } := by
  have same : ∀ x : UpdateRecord, (if x.offset = w then mergeRecord x a.lanes a.data else x) = mergedRecord w a x := by
    intro x
    unfold mergedRecord
    split_ifs with word
    · rw [← word]; rfl
    · rfl
  simp only [mergeInto, same]

theorem joinedBatch_merged {c : Claim} (h : c.decision = .merge) (a : Access) (b : Batch) :
    joinedBatch c a.lanes a.data (some b) = some { b with records := b.records.map (mergedRecord c.offset a) } :=
  (joinedBatch_merge h _ _ b).trans (congrArg some (mergeInto_eq b c.offset a))

theorem joinedBatch_append {c : Claim} (h : c.decision = .append) (a : Access) (b : Batch) :
    joinedBatch c a.lanes a.data (some b) = some { b with records := b.records ++ [writeRecord c.offset a] } := by
  simp only [joinedBatch, h, Option.map_some]
  rfl

theorem joinedBatch_full {c : Claim} (h : c.decision = .full) (a : Access) (b : Option Batch) :
    joinedBatch c a.lanes a.data b = some (newBatch c.region c.offset a) := by
  simp only [joinedBatch, h]
  rfl

theorem joinedBatch_opening {c : Claim} (h : c.decision = .opening) (a : Access) (b : Option Batch) :
    joinedBatch c a.lanes a.data b = some (newBatch c.region c.offset a) := by
  simp only [joinedBatch, h]
  rfl

theorem descAt_withPub (s : State) (r q : RegionId) (p : PubRecord) : descAt (withPub s r p) q = descAt s q :=
  withPub_desc s r q p

theorem fullClose_clock (s : State) (c : Claim) : (fullClose s c).clock = s.clock := by
  unfold fullClose
  dsimp only
  split_ifs
  · exact closeBatch_clock _ _
  · rfl

theorem descAt_fullClose (s : State) (c : Claim) (r : RegionId) : descAt (fullClose s c) r = descAt s r := by
  unfold fullClose
  dsimp only
  split_ifs
  · exact descAt_closeBatch _ _ _
  · rfl

/-- R33 by the record that the FULL close leaves and the batch that takes the write. -/
theorem grantCaptured_joins {s : State} {c : Claim} {a : Access} {p : PubRecord} {x : Batch}
    (hp : pubAt (fullClose s c) c.region = some p) (hx : joinedBatch c a.lanes a.data p.openBatch = some x) :
    grantCaptured s c a =
      let v := withPub (fullClose s c) c.region { p with
        openBatch := some x, quiet := if (descAt s c.region).quietInterval = 0 then none else some s.clock.us }
      if (descAt s c.region).closeOffset = some c.offset ∨ c.deferred = true then closeOrPend v c.region else v := by
  have join : joinWrite (fullClose s c) c a = withPub (fullClose s c) c.region { p with
      openBatch := some x, quiet := if (descAt s c.region).quietInterval = 0 then none else some s.clock.us } := by
    rw [joinWrite, updPub_with _ hp, hx, descAt_fullClose, nowUs, fullClose_clock]
  unfold grantCaptured
  dsimp only
  rw [join, descAt_withPub, descAt_fullClose]

/-- The grant of a host access that a claim belongs to (R33, R79, R161). -/
theorem grantHost_claimed {s : State} {h : HostAccess} {c : Claim} {o : Nat} (hc : s.cap.claim = some c)
    (hm : matchAddress s h.access.addr = .region c.region o) :
    grantHost s h = grantCaptured (grantedNow s h.access) c h.access := by
  have released : releaseApply (takePort (hostGranted s h) .host h.access .host) = { grantedNow s h.access with
      path := { (grantedNow s h.access).path with
        host := some { h with condition := .granted, result := accessResult s.mem h.access } } } := by
    by_cases ha : s.path.apply = .keptBack
    · rw [releaseApply_kept (show (takePort (hostGranted s h) .host h.access .host).path.apply = _ from ha), grantedNow,
        if_pos ha]
      rfl
    · rw [releaseApply_other (show (takePort (hostGranted s h) .host h.access .host).path.apply ≠ _ from ha), grantedNow,
        if_neg ha]
      rfl
  have claimed : grantClaim (grantedNow s h.access) h.access = grantCaptured (grantedNow s h.access) c h.access := by
    simp only [grantClaim, show (grantedNow s h.access).cap.claim = some c from hc]
  unfold grantHost
  rw [released]
  exact (congrArg (observe · h.access) claimed).trans
    (observe_region _ hm (grantCaptured_rest (grantedNow s h.access) c h.access hc).straps)

/-! ## A captured write (R29 to R33) -/

/-- A captured write granted in its step, by the record that the FULL close leaves and the batch that takes the write. -/
theorem captured_joined {s f : State} {a : Access} {r : RegionId} {o : Nat} {p p' : PubRecord} {x : Batch}
    {d : CaptureDecision} (h : CaptureMeets s a r o p) (hd : CaptureCase s r p (BitVec.ofNat 8 o) d)
    (hf : (if d = .full then closeBatch (grantedNow s a) r else grantedNow s a) = f) (hp : pubAt f r = some p')
    (hx : joinedBatch { region := r, offset := BitVec.ofNat 8 o, decision := d, deferred := false } a.lanes a.data
      p'.openBatch = some x) :
    ∃ t, exec (.hostAccess a) s = .next t ∧ unmarked t = unmarked (joined f r (BitVec.ofNat 8 o) x) := by
  obtain ⟨t, ht, hu⟩ := captured_join h d (capture_case hd)
  refine ⟨t, ht, hu.trans (congrArg unmarked ?_)⟩
  dsimp only
  rw [hf, descAt_updPub, joined, updPub_with _ hp, updPub_with _ hp, hx]
  rfl

theorem captured_waits {s : State} {a : Access} {r : RegionId} {o : Nat} {p : PubRecord} {d : CaptureDecision}
    (hn : s.path.host = none) (hb : s.path.port ≠ .free) (ht : s.top = .running) (hw : a.write = true)
    (hm : matchAddress s a.addr = .region r o) (hr : (descAt s r).role = .publish) (hp : pubAt s r = some p)
    (hl : p.state = .live) (hd : CaptureCase s r p (BitVec.ofNat 8 o) d) :
    ∃ t, exec (.hostAccess a) s = .next t ∧
      unmarked t = unmarked (captureClaim (passAccess s a) r (BitVec.ofNat 8 o) d) :=
  served_next (written_exec hn ht hw hm hr hp hl _ (capture_case hd)) (serves_busy hb)

/-- Settles O16: each row of the table gives the batch that takes the write. -/
theorem capturedWriteJoinsItsBatch : Obligations.CapturedWriteJoinsItsBatch := by
  refine ⟨fun a s r o p h => ?joins, fun a s r o p d hn hb ht hw hm hr hp hl hd =>
    captured_waits hn hb ht hw hm hr hp hl hd⟩
  obtain ⟨_, _, _, _, _, hp, _⟩ := id h
  have hp' : pubAt (grantedNow s a) r = some p := hp
  refine ⟨fun b hb word => ?merge, fun b hb word room free => ?append, fun b hb word limit retained free => ?full,
    fun hb free => ?opening⟩
  case merge =>
    exact captured_joined h (d := .merge) ⟨b, hb, word⟩ rfl hp' (hb ▸ joinedBatch_merged rfl a b)
  case append =>
    exact captured_joined h (d := .append) ⟨b, hb, word, room, free⟩ rfl hp' (hb ▸ joinedBatch_append rfl a b)
  case full =>
    exact captured_joined h (d := .full) ⟨b, hb, word, limit, retained, free⟩
      ((if_pos rfl).trans (closeBatch_closed hp' hb retained)) (setPub_pub _) (joinedBatch_full rfl a _)
  case opening =>
    exact captured_joined h (d := .opening) ⟨hb, free⟩ rfl hp' (joinedBatch_opening rfl a _)

/-! ## A held write (R29, R42) -/

theorem held_next {s g : State} {a : Access} {r : RegionId} {o : Nat} {p : PubRecord} {out : CaptureOutcome}
    {x : HoldReason} (hs : PortServes s) (hn : s.path.host = none) (ht : s.top = .running) (hw : a.write = true)
    (hm : matchAddress s a.addr = .region r o) (hr : (descAt s r).role = .publish) (hp : pubAt s r = some p)
    (hl : p.state = .live) (hd : decideCapture (descAt s r) p (recordFree s) (BitVec.ofNat 8 o) = out)
    (hout : ∀ h : HeldWrite, h.region = r → applyOutcome (passAccess s a) h out = captureHold g h x)
    (hg : g.path = (passAccess s a).path) :
    ∃ t, exec (.hostAccess a) s = .next t ∧ unmarked t = unmarked (captureHold g
      { region := r, offset := BitVec.ofNat 8 o, lanes := a.lanes, data := a.data &&& laneMask a.lanes, reason := .pool,
        since := s.clock.us } x) := by
  have presented := written_exec hn ht hw hm hr hp hl out hd
  rw [hout _ rfl] at presented
  exact served_next presented (hold_serves hs g hg)

/-- Settles O17: the rows that hold the write keep it before the arbiter, the closing row after its close. -/
theorem uncapturableWriteIsHeld : Obligations.UncapturableWriteIsHeld := by
  intro a s r o p hs hn ht hw hm hr hp hl w heldAs
  have held {out : CaptureOutcome} {x : HoldReason} {g : State} :=
    held_next (g := g) (out := out) (x := x) hs.1 hn ht hw hm hr hp hl
  refine ⟨fun b hb word => ⟨fun room full => ?pool, fun limit retained full => ?closes, fun limit retained => ?limit⟩,
    fun hb full => ?opening⟩
  case pool => exact held (g := passAccess s a) (hold_case (x := .pool) ⟨full, .inr ⟨b, hb, word, room⟩⟩) (fun _ _ => rfl) rfl
  case limit => exact held (g := passAccess s a) (hold_case (x := .limit) ⟨b, hb, word, limit, retained⟩) (fun _ _ => rfl) rfl
  case opening => exact held (g := passAccess s a) (hold_case (x := .pool) ⟨full, .inl hb⟩) (fun _ _ => rfl) rfl
  case closes =>
    refine held (g := { closeBatch s r with path := (passAccess s a).path })
      (closehold_case hb word limit retained full) (fun h hr => ?_) rfl
    rw [applyOutcome, hr, closeBatch_pass]

/-! ## Closes that come due (R34, R36, R40) -/

theorem claimOf_iff (s : State) (r : RegionId) : claimOf s r = true ↔ ∃ c, s.cap.claim = some c ∧ c.region = r := by
  simp only [claimOf, Option.any_eq_true, decide_eq_true_eq]

theorem claimOf_of_ne {s : State} {r : RegionId} (h : ∀ c, s.cap.claim = some c → c.region ≠ r) : claimOf s r = false := by
  rw [Bool.eq_false_iff, ne_eq, claimOf_iff]
  rintro ⟨c, hc, hr⟩
  exact h c hc hr

theorem dueClose_free {s : State} {r : RegionId} (h : claimOf s r = false) : dueClose s r = closeOrPend s r :=
  if_neg (by simp [h])

theorem dueClose_claimed {s : State} {r : RegionId} {c : Claim} (hc : s.cap.claim = some c) (hr : c.region = r) :
    dueClose s r = { s with cap := { s.cap with claim := some { c with deferred := true } } } := by
  rw [dueClose, if_pos ((claimOf_iff s r).2 ⟨c, hc, hr⟩), deferClose, hc]
  rfl

theorem quietExpiry_next {s : State} {r : RegionId} {p : PubRecord} (hs : PortServes s) (ht : s.top = .running)
    (hp : pubAt s r = some p) (hq : p.quiet.isSome = true) :
    ∃ t, exec (.quietIntervalExpiry r) s = .next t ∧ unmarked t = unmarked (dueClose s r) := by
  have runs : quietRuns s r = true := by simp [quietRuns, isRunning, ht, hp, hq]
  exact served_next (when_eq runs) (quiet_serves hs)

/-- Settles O19: the close that is due, by the claim and by what is retained. -/
theorem quietExpiryCloses : Obligations.QuietExpiryCloses := by
  intro r s p b hs ht hp hb hq
  obtain ⟨t, hx, hu⟩ := quietExpiry_next hs ht hp hq
  refine ⟨fun unclaimed room => ⟨t, hx, ?closed⟩, fun unclaimed full => ⟨t, hx, ?pends⟩, fun c hc hr => ⟨t, hx, ?deferred⟩⟩
  case closed => rw [hu, dueClose_free unclaimed, close_closed hp hb room]; rfl
  case pends => rw [hu, dueClose_free unclaimed, closeOrPend_pends hp hb full]
  case deferred => rw [hu, dueClose_claimed hc hr]

/-! ## The grant of a claimed write at a completion (R30, R36, R37) -/

/-- At the completion of an internal access the host access that awaits grant is granted with its claim. -/
theorem claimed_next {s : State} {q : Requester} {b : Access} {h : HostAccess} {c : Claim} {o : Nat}
    (hb : s.path.port = .busy q b) (hq : q ≠ .host) (hh : s.path.host = some h) (hw : h.condition = .awaitingGrant)
    (hl : s.path.last ≠ .host) (hc : s.cap.claim = some c) (hm : matchAddress s h.access.addr = .region c.region o) :
    ∃ t, exec .memoryAccessComplete s = .next t ∧
      unmarked t = unmarked (grantCaptured (grantedNow s h.access) c h.access) := by
  have completed : exec .memoryAccessComplete s = .next (settle s { s with path := { s.path with port := .free } }) := by
    rw [complete_exec hb, complete_internal hb hq]
  refine settled_next completed ?_
  rw [arbitrate_host (s := { s with path := { s.path with port := .free } }) (h := h) rfl hh hw hl,
    grantHost_claimed (s := { s with path := { s.path with port := .free } }) (c := c) (o := o) hc hm]
  rfl

theorem fullClose_full {s : State} {c : Claim} (h : c.decision = .full) :
    fullClose s c = closeBatch { s with cap := { s.cap with claim := none } } c.region := if_pos h

/-- Settles O27: the join at the grant, and what a close does that comes due. -/
theorem deferredCloseIsTakenAtTheGrant : Obligations.DeferredCloseIsTakenAtTheGrant := by
  refine ⟨fun s q b h c p o hb hq hh hw hl ht hc hm hp => ?grant, fun s r p hp =>
    ⟨fun noBatch => closeOrPend_noBatch hp noBatch, fun b ob room => close_closed hp ob room,
      fun b ob full => closeOrPend_pends hp ob full, fun c hc hr => dueClose_claimed hc hr,
      fun other => dueClose_free (claimOf_of_ne other)⟩⟩
  case grant =>
    intro r g joins answers
    obtain ⟨t, hx, hu⟩ := claimed_next hb hq hh hw hl hc hm
    have ended (notFull : c.decision ≠ .full) : fullClose (grantedNow s h.access) c = g := by
      have notReset : s.top ≠ .inReset := by rw [ht]; exact nofun
      rw [fullClose_of_not_full _ notFull, grantedNow, if_neg notReset]
    have answer {p' : PubRecord} {x : Batch} {u : State} (hf : fullClose (grantedNow s h.access) c = u)
        (hp' : pubAt u c.region = some p') (hj : joinedBatch c h.access.lanes h.access.data p'.openBatch = some x) :
        answers (joins u p' x) :=
      ⟨t, hx, hu.trans (congrArg unmarked ((grantCaptured_joins (by rw [hf]; exact hp') hj).trans (by rw [hf]; rfl)))⟩
    refine ⟨fun x hd hb => ?merge, fun x hd hb => ?append, fun x hd hb room => ?full, fun hd => ?opening⟩
    case merge => exact answer (ended (by simp [hd])) hp (hb ▸ joinedBatch_merged hd h.access x)
    case append => exact answer (ended (by simp [hd])) hp (hb ▸ joinedBatch_append hd h.access x)
    case opening => exact answer (ended (by simp [hd])) hp (joinedBatch_opening hd h.access _)
    case full =>
      have notReset : s.top ≠ .inReset := by rw [ht]; exact nofun
      refine answer (u := closedBatch g r p x) ?_ (setPub_pub _) (joinedBatch_full hd h.access _)
      rw [fullClose_full hd, grantedNow, if_neg notReset]
      exact closeBatch_closed (s := g) hp hb room

/-! ## Release (R41, R43, R55) -/

theorem releaseChain_of_not_releasable {s : State} {r : RegionId} (n : Nat) (h : releasable s r = false) :
    releaseChain n s r = s := by
  cases n with
  | zero => rfl
  | succ n => rw [releaseChain, if_neg (by simp [h])]

theorem ackAllows_iff (seq : Byte) (a : AckState) :
    ackAllows seq a = true ↔ ∀ q h, a = .tracking q h → (q - seq).toNat ≤ 127 := by
  cases a with
  | unknown => exact iff_of_true rfl nofun
  | refreshWanted => exact iff_of_true rfl nofun
  | tracking q h =>
    rw [ackAllows, atOrPast_iff]
    exact ⟨fun k _ _ e => by cases e; exact k, fun k => k q h rfl⟩

theorem releasable_iff {s : State} {r : RegionId} {p : PubRecord} {b : Batch} {rest : List Batch} (hp : pubAt s r = some p)
    (hl : p.state = .live) (hr : p.retained = b :: rest) :
    releasable s r = true ↔
      b.sent = true ∧ ∀ e ∈ p.acks, ∀ q h, e.2 = .tracking q h → (q - b.seq.getD 0).toNat ≤ 127 := by
  simp only [releasable, hp, hr, hl, decide_true, Bool.true_and, Bool.and_eq_true, List.all_eq_true, ackAllows_iff]

/-- R41: a release by the record it leaves, before what follows it. -/
theorem releaseOldest_eq {s : State} {r : RegionId} {p : PubRecord} {b : Batch} {rest : List Batch} (hp : pubAt s r = some p)
    (hr : p.retained = b :: rest) :
    releaseOldest s r =
      let u := withPub s r { p with retained := rest, lastReleased := b.seq.getD p.lastReleased }
      reevaluate (if p.closePending = true then (if claimOf u r = true then deferClose u else closeBatch u r) else u) := by
  have released : releaseRecord p = { p with retained := rest, lastReleased := b.seq.getD p.lastReleased } := by
    rw [releaseRecord, hr]
  unfold releaseOldest
  dsimp only
  rw [updPub_with _ hp, released, setPub_pub]
  rfl

theorem reevaluate_none {s : State} (h : s.cap.held = none) : reevaluate s = s := by rw [reevaluate, h]

/-- Settles O20: the chain by its steps, each step by its record, and the held write by the table of R29. -/
theorem releaseCheckRunsToItsEnd : Obligations.ReleaseCheckRunsToItsEnd := by
  refine ⟨fun s r => ⟨chain_end _ s r (ahead_le s r), fun h => releaseChain_of_not_releasable _ h, releaseCheck_step,
    fun p b rest hp hl hr => ?step⟩, fun s => ⟨reevaluate_none, fun h p hh hp hl =>
      ⟨fun d hd => ?captured, fun x hx => ?held, fun b hb word limit retained full => ?closes⟩⟩⟩
  case step =>
    intro p' u
    have step : releaseOldest s r =
        reevaluate (if p.closePending = true then (if claimOf u r = true then deferClose u else closeBatch u r) else u) :=
      releaseOldest_eq hp hr
    refine ⟨releasable_iff hp hl hr, fun noClose => ?none, fun close => ⟨fun c hc hr' => ?deferred,
      fun x other hx room => ?closed⟩⟩
    case none => rw [step, if_neg (by simp [noClose])]
    case deferred =>
      have claimed : claimOf u r = true := (claimOf_iff u r).2 ⟨c, hc, hr'⟩
      have deferred : deferClose u = { u with cap := { s.cap with claim := some { c with deferred := true } } } := by
        rw [deferClose, show u.cap.claim = some c from hc]
        rfl
      rw [step, if_pos close, if_pos claimed, deferred]
    case closed =>
      have unclaimed : claimOf u r = false := claimOf_of_ne other
      rw [step, if_pos close, if_neg (by simp [unclaimed]), closeBatch_closed (setPub_pub p') hx room]
  case captured => rw [reevaluate_held hh hp hl, capture_case hd]; rfl
  case held => rw [reevaluate_held hh hp hl, hold_case hx]; rfl
  case closes =>
    rw [reevaluate_held hh hp hl, closehold_case hb word limit retained full, applyOutcome, closeBatch_closed hp hb retained]
    rfl

end Sys2Proof.Machine
end

section
/-! SUPPORT. The memory port at a completion: the port FREE again, the host access or the SNAP read that waits, and the apply
engine's slots, items and writes. -/

namespace Sys2Proof.Machine

/-! ## A completion with nothing waiting (R161, R168) -/

theorem portFreed_host {s : State} {b : Access} {h : HostAccess} (hp : s.path.port = .busy .host b)
    (hh : s.path.host = some h) (hc : h.condition = .granted) :
    portFreed s = { s with path := { s.path with
      port := .free, host := none, reply := some { access := h.access, data := h.result } } } := by
  simp only [portFreed, hp, hh, hc, if_true]

theorem portFreed_serves {s : State} (hw : waitingHost s = none) (ha : s.path.apply ≠ .waiting) (hs : s.path.snap = false)
    (hq : s.path.agent = none) : PortServes (portFreed s) := by
  obtain ⟨_, _, apply, snap, agent⟩ := portFreed_path s
  exact fun _ => ⟨portFreed_waits hw, by rwa [apply], by rwa [snap], by rwa [agent]⟩

theorem busy_ne_free {s : State} {q : Requester} {b : Access} (h : s.path.port = .busy q b) : s.path.port ≠ .free := by
  rw [h]
  exact nofun

/-! ## The grant of a SNAP read (R95 to R98) -/

/-- The state in which the grant of a SNAP read of access `a` leaves the part, before what follows it. -/
def snapGranted (s : State) (a : Access) : State :=
  { s with path := { (portFreed s).path with
    port := .busy .snap a, last := if s.top = .inReset then .none else .internal, snap := false } }

/-- The access of the next read of a chunk in assembly. -/
def chunkRead (s : State) (r : RegionId) (k : Nat) (ws : List Word) : Access :=
  { addr := (descAt s r).base + BitVec.ofNat 24 (4 * (16 * k + ws.length)), write := false, lanes := 15#4, data := 0#32 }

theorem snapAccess_portFreed {s : State} {r : RegionId} {k n : Nat} {ws : List Word}
    (h : s.fu.assembly = .assembling r k n ws) : snapAccess (portFreed s) = chunkRead s r k ws := by
  rw [portFreed_only]
  simp only [snapAccess, h]
  rfl

theorem grantSnapPort_portFreed {s : State} {r : RegionId} {k n : Nat} {ws : List Word}
    (h : s.fu.assembly = .assembling r k n ws) :
    grantSnapPort (portFreed s) =
      pump (grantSnap (snapGranted s (chunkRead s r k ws)) (wordAt s.mem (wordAddress (chunkRead s r k ws).addr))) := by
  unfold grantSnapPort
  dsimp only
  rw [snapAccess_portFreed h, portFreed_only]
  rfl

/-- A waiting SNAP read is granted at the completion of another access. -/
theorem snap_next {s : State} {r : RegionId} {k n : Nat} {ws : List Word} (hp : s.path.port ≠ .free)
    (hw : waitingHost s = none) (ha : s.path.apply ≠ .waiting) (hs : s.path.snap = true)
    (hf : s.fu.assembly = .assembling r k n ws) :
    ∃ t, exec .memoryAccessComplete s = .next t ∧ unmarked t = unmarked
      (pump (grantSnap (snapGranted s (chunkRead s r k ws)) (wordAt s.mem (wordAddress (chunkRead s r k ws).addr)))) := by
  obtain ⟨free, _, apply, snap, _⟩ := portFreed_path s
  refine settled_next (freed_exec hp) ?_
  rw [arbitrate_snap free (portFreed_waits hw) (by rwa [apply]) (by rwa [snap]), grantSnapPort_portFreed hf]

theorem grantSnap_reads {g : State} {r : RegionId} {k n : Nat} {ws : List Word} {w : Word}
    (h : g.fu.assembly = .assembling r k n ws) (hl : (ws ++ [w]).length < min 16 ((descAt g r).length - 16 * k)) :
    grantSnap g w = { g with
      fu := { g.fu with assembly := .assembling r k n (ws ++ [w]) }, path := { g.path with snap := true } } := by
  simp only [grantSnap, h]
  exact if_pos hl

theorem grantSnap_completes {g : State} {r : RegionId} {k n : Nat} {ws : List Word} {w : Word}
    (h : g.fu.assembly = .assembling r k n ws) (hl : min 16 ((descAt g r).length - 16 * k) ≤ (ws ++ [w]).length)
    (hs : g.path.snap = false) : grantSnap g w = completeChunk g r k n (ws ++ [w]) := by
  have noRead : ({ g with path := { g.path with snap := false } } : State) = g := by rw [← hs]
  simp only [grantSnap, h, noRead]
  exact if_neg (Nat.not_lt.2 hl)

/-- A close that comes due leaves the region's pass and generation, and the frame unit. -/
theorem dueClose_pub {s : State} {r : RegionId} {p : PubRecord} (hp : pubAt s r = some p) :
    ∃ p', pubAt (dueClose s r) r = some p' ∧ p'.pass = p.pass ∧ p'.generation = p.generation := by
  by_cases claimed : claimOf s r = true
  · exact ⟨p, by rw [dueClose, if_pos claimed]; exact hp, rfl, rfl⟩
  rw [dueClose, if_neg claimed]
  cases hb : p.openBatch with
  | none => exact ⟨p, by rw [closeOrPend_noBatch hp hb]; exact hp, rfl, rfl⟩
  | some b =>
    by_cases room : p.retained.length < 4
    · rw [close_closed hp hb room]
      exact ⟨_, setPub_pub _, rfl, rfl⟩
    · rw [closeOrPend_pends hp hb (Nat.not_lt.1 room)]
      exact ⟨_, setPub_pub _, rfl, rfl⟩

theorem closeOrPend_fu (s : State) (r : RegionId) : (closeOrPend s r).fu = s.fu := by
  unfold closeOrPend
  split
  · split_ifs
    · rfl
    · exact closeBatch_fu s r
    · exact updPub_fu _ _ _
  · rfl

theorem dueClose_fu (s : State) (r : RegionId) : (dueClose s r).fu = s.fu := by
  unfold dueClose
  split_ifs
  · rfl
  · exact closeOrPend_fu s r

theorem refreshClose_eq {s : State} {r : RegionId} {p : PubRecord} {c : Pass} (hp : pubAt s r = some p)
    (hc : p.pass = some c) :
    refreshClose s r = updPub (dueClose s r) r fun p' =>
      { p' with pass := some { c with settle := some (settleSeq p s.cap.claim r) } } := by
  obtain ⟨p', hp', pass, _⟩ := dueClose_pub hp
  simp only [refreshClose, hp]
  exact updPub_congr hp' (by rw [pass, hc, Option.map_some])

theorem completeChunk_middle {s : State} {r : RegionId} {k n : Nat} {ws : List Word} {p : PubRecord} {c : Pass}
    (hp : pubAt s r = some p) (hc : p.pass = some c) (hk : k + 1 ≠ c.chunkCount) :
    completeChunk s r k n ws =
      { s with fu := { s.fu with assembly := .complete { frame := .chunk (chunkFrame p c r k ws), serial := n } } } := by
  simp [completeChunk, hp, hc, hk]

theorem completeChunk_last {s : State} {r : RegionId} {k n : Nat} {ws : List Word} {p : PubRecord} {c : Pass}
    (hp : pubAt s r = some p) (hc : p.pass = some c) (hk : k + 1 = c.chunkCount) :
    completeChunk s r k n ws =
      { updPub (dueClose s r) r fun p' => { p' with pass := some { c with settle := some (settleSeq p s.cap.claim r) } } with
        fu := { s.fu with
          assembly := .complete
            { frame := .chunk (chunkFrame p { c with settle := some (settleSeq p s.cap.claim r) } r k ws), serial := n } } } := by
  obtain ⟨p', hp', _, generation⟩ := dueClose_pub hp
  have closed := pubAt_updPub (fun p' : PubRecord =>
    { p' with pass := some { c with settle := some (settleSeq p s.cap.claim r) } }) hp'
  unfold completeChunk
  rw [hp, Option.any_some, hc, Option.any_some]
  dsimp only
  rw [if_pos (decide_eq_true hk), refreshClose_eq hp hc, closed, updPub_fu, dueClose_fu]
  simp only [chunkFrame, generation]

theorem settleSeq_claimed {p : PubRecord} {claim : Option Claim} {r : RegionId} {x : Claim} (h : claim = some x)
    (hx : x.region = r) : settleSeq p claim r = if x.decision = .full then p.nextSeq + 1 else p.nextSeq := by
  simp only [settleSeq, h, hx, if_true]

theorem settleSeq_unclaimed {p : PubRecord} {claim : Option Claim} {r : RegionId}
    (h : ∀ x, claim = some x → x.region ≠ r) :
    settleSeq p claim r = if p.openBatch.isSome then p.nextSeq else p.nextSeq - 1 := by
  cases claim with
  | none => rfl
  | some x => exact if_neg (h x rfl)

/-- Settles O26: the completion by what waits at it. -/
theorem completionFreesOrRegrantsThePort : Obligations.CompletionFreesOrRegrantsThePort := by
  refine ⟨fun s q b hp hw ha hs hq => ⟨fun h host hh hc => ?own, fun internal => ?internal⟩,
    fun s q b h hp hq hh hc hl hk hu => ?host, fun s r k n ws hp hw ha hs hf => ?snap⟩
  case own =>
    subst host
    rw [← portFreed_host hp hh hc]
    exact served_next (freed_exec (busy_ne_free hp)) (portFreed_serves hw ha hs hq)
  case internal =>
    rw [← portFreed_internal hp internal]
    exact served_next (freed_exec (busy_ne_free hp)) (portFreed_serves hw ha hs hq)
  case host =>
    have completed : exec .memoryAccessComplete s = .next (settle s { s with path := { s.path with port := .free } }) := by
      rw [complete_exec hp, complete_internal hp hq]
    refine settled_next completed ?_
    rw [arbitrate_host (s := { s with path := { s.path with port := .free } }) (h := h) rfl hh hc hl,
      grantHost_unclaimed (s := { s with path := { s.path with port := .free } }) hk]
    exact observe_id s _ hu rfl rfl
  case snap =>
    intro len a words g answers
    obtain ⟨t, hx, hu⟩ := snap_next hp hw ha hs hf
    have answer {u : State} (h : pump (grantSnap g (wordAt s.mem (wordAddress a.addr))) = u) : answers u :=
      ⟨t, hx, hu.trans (congrArg unmarked h)⟩
    refine ⟨fun more => answer ?reads, fun p c full hpub hpass => ?_⟩
    case reads =>
      rw [grantSnap_reads (g := g) hf more]
      exact pump_assembling rfl
    intro complete closes
    have done := grantSnap_completes (g := g) (w := wordAt s.mem (wordAddress a.addr)) hf full rfl
    refine ⟨fun middle => answer ?middle, fun last => ⟨fun x hx hr => answer ?claimed, fun other => answer ?unclaimed⟩⟩
    case middle =>
      rw [done, completeChunk_middle (s := g) hpub hpass middle, chunkFrame, if_neg middle]
    case claimed =>
      rw [done, completeChunk_last (s := g) hpub hpass last, chunkFrame, if_pos last, settleSeq_claimed (r := r) (x := x) hx hr]
    case unclaimed =>
      rw [done, completeChunk_last (s := g) hpub hpass last, chunkFrame, if_pos last, settleSeq_unclaimed (r := r) other]

/-! ## The items of a slot (R5, R80, R81) -/

theorem wordItems_length (ws : List Word) : ∀ o : Nat, (wordItems o ws).length = ws.length := by
  induction ws with
  | nil => intro o; rfl
  | cons w ws ih => intro o; rw [wordItems, List.length_cons, List.length_cons, ih]

/-- The item taken next is the first from the position on that the region holds. -/
theorem seekItem_some {len : Nat} {items : List ApplyItem} {p k : Nat} {x : ApplyItem}
    (h : seekItem len items p = some (k, x)) :
    p ≤ k ∧ items[k]? = some x ∧ x.offset < len ∧ ∀ j y, p ≤ j → j < k → items[j]? = some y → len ≤ y.offset := by
  obtain ⟨start, item, inside, skipped⟩ := nextItem_spec len _ p k x h
  refine ⟨start, ?_, inside, fun j y low high hy => skipped (j - p) y (by omega) ?_⟩
  · rwa [List.getElem?_drop, Nat.add_sub_cancel' start] at item
  · rwa [List.getElem?_drop, Nat.add_sub_cancel' low]

/-- Settles O29: the items by the slot's content, and the item taken by the search from the position on. -/
theorem slotItemsInFrameOrder : Obligations.SlotItemsInFrameOrder := by
  refine ⟨fun r q rs b k x hx => ?_, fun r q i l ws b k w hw => wordItems_get ws _ k w hw, fun r q rs i l ws b =>
    ⟨List.length_map _, wordItems_length ws _⟩, fun len items p k x h => seekItem_some h, seekItem_none⟩
  simp only [slotItems, List.getElem?_map, hx, Option.map_some]

/-! ## The start of an apply (R79) -/

theorem hostAwaitsRegion_iff (s : State) (r : RegionId) :
    hostAwaitsRegion s r = true ↔
      ∃ h o, s.path.host = some h ∧ h.condition = .awaitingGrant ∧ matchAddress s h.access.addr = .region r o := by
  simp only [hostAwaitsRegion, Option.any_eq_true, Bool.and_eq_true, decide_eq_true_eq]
  refine exists_congr fun h => ?_
  rw [exists_and_left, exists_and_left]
  refine and_congr_right fun _ => and_congr_right fun _ => ?_
  cases matchAddress s h.access.addr <;> simp

/-- With the port FREE no host access awaits grant, so that the first request of an apply is not kept back. -/
theorem hostAwaitsRegion_of_free {s : State} (hs : PortServes s) (hp : s.path.port = .free) (r : RegionId) :
    hostAwaitsRegion s r = false := by
  obtain ⟨none, _⟩ := hs hp
  cases h : hostAwaitsRegion s r with
  | false => rfl
  | true =>
    obtain ⟨x, waits⟩ := (hostWaits_iff s).1 (hostAwaitsRegion_waits h)
    rw [none] at waits
    cases waits

/-- The first item written at a FREE port, with another item to write after it (R80, R81). -/
theorem startApply_first {s : State} {x : Slot} {rest : List Slot} {pos next : Nat} {i j : ApplyItem} (hs : PortServes s)
    (hp : s.path.port = .free) (hx : s.inb.slots = x :: rest)
    (hi : seekItem (descAt s x.region).length (slotItems x) 0 = some (pos, i))
    (hn : seekItem (descAt s x.region).length (slotItems x) (pos + 1) = some (next, j)) :
    arbitrate (startApply s x) = { s with
      mem := accessMemory s.mem (itemWrite s x.region i)
      inb := { slots := { x with inProgress := true } :: rest, engine := some next, fence := some x.region }
      path := { s.path with
        port := .busy .apply (itemWrite s x.region i), last := if s.top = .inReset then .none else .internal
        apply := .waiting } } := by
  obtain ⟨noHost, _⟩ := hs hp
  let u : State := { s with
    inb := { slots := { x with inProgress := true } :: rest, engine := some pos, fence := some x.region }
    path := { s.path with apply := .waiting } }
  have started : startApply s x = u := by rw [startApply_eq hx hi, hostAwaitsRegion_of_free hs hp]; rfl
  have item : seekItem (descAt u x.region).length (slotItems { x with inProgress := true }) pos = some (pos, i) :=
    seek_again hi
  have atItem : applyItem u = some ({ x with inProgress := true }, pos, i) := by
    simp only [applyItem, u]
    exact congrArg (Option.map _) item
  have write : applyAccess u = itemWrite s x.region i := by rw [applyAccess, atItem]; rfl
  rw [started, arbitrate_apply (s := u) hp noHost rfl, grantApplyPort_eq write]
  refine (grantApply_next (n := next) (j := j) (x := { x with inProgress := true }) (k := pos) (i := i) ?_ ?_).trans ?_
  · exact atItem
  · exact hn
  · rfl

/-- Settles O28: the start by its first item, its next one, or none. -/
theorem applyStartTakesTheOlderSlot : Obligations.ApplyStartTakesTheOlderSlot := by
  refine ⟨fun s x rest pos i hp he hx hw hi => ?waits, fun s x rest pos next i j hs hp he hx hw hi hn => ?first,
    fun s x rest pos i hs hp he hx hw hi hn => ?last, fun s x rest hp he hx hw hi => ?empty, hostAwaitsRegion_iff⟩
  case waits =>
    rw [← startApply_eq hx hi]
    refine served_next (applystart_exec he hx hw) (serves_busy ?_)
    rw [startApply_eq hx hi]
    exact hp
  case first => exact settled_next (applystart_exec he hx hw) (startApply_first hs hp hx hi hn)
  case last =>
    exact applyCompletes_of (applystart_exec he hx hw) (congrArg unmarked (startApply_last hs hp hx hi hn)) rfl rfl
  case empty =>
    refine applyCompletes_of (applystart_exec he hx hw) (congrArg unmarked ?_) rfl rfl
    rw [startApply_none hx hi]
    refine arbitrate_id ?_
    rcases hp with busy | ⟨hs, notHeld⟩
    · exact serves_busy (by rw [applied_path]; exact busy)
    · intro free
      rw [applied_path] at free
      obtain ⟨noHost, _, noSnap, noAgent⟩ := hs free
      refine ⟨?_, ?_, ?_, ?_⟩
      · rw [waitingHost, applied_path]
        dsimp only
        rw [fenceReleased_id notHeld]
        exact noHost
      · rw [applied_path]
        exact nofun
      · rw [applied_path]
        exact noSnap
      · rw [applied_path]
        exact noAgent

/-- Settles O30: the write that is not the last requests the next one, and the last completes the apply. -/
theorem lastWriteCompletesTheApply : Obligations.LastWriteCompletesTheApply := by
  refine ⟨fun s x k n i j h hn => ?next, fun s x k i h _ hn => ?last⟩
  case next =>
    obtain ⟨completed, _⟩ := applyWrite_exec h
    exact settled_next completed (next_arb h hn)
  case last =>
    obtain ⟨completed, granted⟩ := last_arb h hn
    exact applyCompletes_of completed (congrArg unmarked granted) rfl rfl

end Sys2Proof.Machine
end

section
/-! SUPPORT. The control block agent: its next access by the table of R181, the marks before a result, and what the grant of each
of its writes does to memory, to the marks and to the agent. -/

namespace Sys2Proof.Machine

/-! ## The agent's next access (R181) -/

/-- A chosen access is requested in its step; at a FREE port that step is the one in which the port's last access completes. -/
theorem agentRequest_next {s : State} {q : AgentRequest} (hn : s.path.agent = none) (hq : chooseAccess s = some q) :
    (s.path.port ≠ .free → ∃ t, exec .agentAccessRequest s = .next t ∧
      unmarked t = unmarked { s with path := { s.path with agent := some q } }) ∧
    (∀ p b, PortServes s → s.path.port = .free → p ≠ .host → ∃ t, exec .agentAccessRequest s = .next t ∧
      exec .memoryAccessComplete { s with path := { s.path with port := .busy p b, agent := some q } } = .next t) := by
  have ready : agentReady s = true := by simp [agentReady, hn, hq]
  have requested : exec .agentAccessRequest s = .next (settle s { s with path := { s.path with agent := some q } }) := by
    show when s (agentReady s) (requestAgent s) = _
    rw [ready, when_true, requestAgent, hq]
  refine ⟨fun busy => served_next requested (serves_busy busy), fun p b _ free hp => ⟨_, requested, ?_⟩⟩
  rw [complete_exec rfl,
    complete_internal (s := { s with path := { s.path with port := .busy p b, agent := some q } }) rfl hp, ← free]
  exact congrArg Host.Outcome.next (settle_values _ fun m =>
    statusValue_congr (s := { s with path := { s.path with port := .busy p b, agent := some q } })
      rfl rfl rfl rfl rfl rfl rfl rfl rfl rfl m).symm

theorem chooseAccess_loading {s : State} (ht : s.top = .loading) :
    chooseAccess s = (eventContinues s.agent <|> if wantsLoadRead s then some .loadRead else none) := by
  rw [chooseAccess, if_neg (by rw [ht]; exact nofun), if_pos ht]

theorem chooseAccess_event {s : State} {w : EventWrite} (hr : s.top ≠ .inReset) (hw : s.agent.writing = some w) :
    chooseAccess s = some (if w.third then .eventThird else .eventSecond) := by
  unfold chooseAccess eventContinues
  rw [if_neg hr, hw]
  split <;> rfl

/-- Outside LOADING and with no event in progress the agent chooses by rows 3 to 6. -/
theorem chooseAccess_rows {s : State} (hr : s.top ≠ .inReset) (hl : s.top ≠ .loading) (hw : s.agent.writing = none) :
    chooseAccess s = (priorWord s.agent <|> resultDue s.agent <|> eventDue s <|> statusDue s.agent) := by
  unfold chooseAccess eventContinues
  rw [if_neg hr, if_neg hl, hw]
  rfl

theorem priorWord_some {a : Agent} {x : Executing} {b : BitVec 38} {m : Fin 38} (hx : a.executing = some x)
    (hb : x.prior = some b) (hm : IsLowest b m) : priorWord a = some (.statusWord m) := by
  rw [priorWord, hx, Option.bind_some, hb, Option.bind_some, lowestMark_of_isLowest b m hm]
  rfl

theorem priorWord_done {a : Agent} {x : Executing} (hx : a.executing = some x)
    (hb : x.prior = none ∨ x.prior = some 0#38) : priorWord a = none := by
  rw [priorWord, hx, Option.bind_some]
  rcases hb with hb | hb
  · rw [hb]; rfl
  · rw [hb, Option.bind_some, lowestMark_zero]; rfl

theorem noResult_rows {s : State} (h : NoResult s) : priorWord s.agent = none ∧ resultDue s.agent = none := by
  unfold priorWord resultDue
  cases hx : s.agent.executing with
  | none => exact ⟨rfl, rfl⟩
  | some x =>
    obtain ⟨result, prior⟩ := h x hx
    rw [Option.bind_some, Option.bind_some, result, prior]
    exact ⟨rfl, rfl⟩

theorem eventDue_some {s : State} (ht : s.top = .configured ∨ s.top = .running) (he : s.agent.events ≠ [])
    (room : (s.agent.producer - s.agent.consumer).toNat < 31) : eventDue s = some .eventFirst :=
  if_pos ⟨ht, he, room⟩

theorem eventDue_none {s : State}
    (h : s.top = .unconfigured ∨ s.agent.events = [] ∨ 31 ≤ (s.agent.producer - s.agent.consumer).toNat) :
    eventDue s = none := by
  refine if_neg fun ⟨ht, he, room⟩ => ?_
  rcases h with unconfigured | empty | full
  · rw [unconfigured] at ht
    exact ht.elim nofun nofun
  · exact he empty
  · exact absurd room (Nat.not_lt.mpr full)

/-! ## The marks before a result (R181) -/

theorem priorOf_some {a : Agent} {b : BitVec 38} : priorOf a = some b ↔ ∃ x, a.executing = some x ∧ x.prior = some b :=
  Option.bind_eq_some_iff

theorem priorOf_none {a : Agent} : priorOf a = none ↔ ∀ x, a.executing = some x → x.prior = none :=
  Option.bind_eq_none_iff

/-- The end of a step leaves the marks that precede a result already. -/
theorem priorOf_settle {s u : State} {b : BitVec 38} (h : priorOf (arbitrate u).agent = some b) :
    priorOf (settle s u).agent = some b := by
  obtain ⟨x, hx, hb⟩ := priorOf_some.mp h
  refine priorOf_some.mpr ⟨x, ?_, hb⟩
  rw [settle_executing, hx, Option.map_some, if_neg (by simp [hb])]

/-- A result that has no marks before it yet gets those that stand at the step's end. -/
theorem settle_fixes {s u : State} {x : Executing} {r : ResultCode} (none : priorOf (arbitrate u).agent = none)
    (hx : (settle s u).agent.executing = some x) (hr : x.result = some r) : x.prior = some (settle s u).agent.marks := by
  rw [settle_executing] at hx
  obtain ⟨y, hy, rfl⟩ := Option.map_eq_some_iff.mp hx
  have prior := priorOf_none.mp none y hy
  by_cases hs : y.result.isSome
  · rw [if_pos ⟨hs, prior⟩]
  · rw [if_neg fun h => hs h.1] at hr
    exact absurd (by rw [hr]; rfl) hs

theorem arbitrate_noPrior {u : State} (h : priorOf u.agent = none) : priorOf (arbitrate u).agent = none := by
  rcases arbitrate_marks u with ⟨_, same⟩ | ⟨q, _, _, k⟩
  · exact same.trans h
  · exact k.noPrior h

/-- Over a step the marks before a result shrink by the words written, and end with the result's own write. -/
theorem settle_prior {c : Instr} {s u : State} {b : BitVec 38} (inside : Inside s u)
    (port : u.path.port = .free → s.path.port = .free ∨ c = .memoryAccessComplete) (hb : priorOf s.agent = some b) :
    ((settle s u).agent.executing = none ∧ AgentWrites c s (settle s u) 69) ∨
      ∃ b', priorOf (settle s u).agent = some b' ∧ ∀ m : Fin 38,
        (b'.getLsbD m.val = true → b.getLsbD m.val = true) ∧
        (b.getLsbD m.val = true → ¬ AgentWrites c s (settle s u) (70 + m.val) → b'.getLsbD m.val = true) := by
  have hu : priorOf u.agent = some b := inside.prior.trans hb
  rcases arbitrate_marks u with ⟨_, same⟩ | ⟨q, free, busy, k⟩
  · exact .inr ⟨b, priorOf_settle (same.trans hu), fun _ => ⟨id, fun h _ => h⟩⟩
  by_cases result : q = .result
  · subst result
    refine .inl ⟨?_, agentWrites_of inside rfl port free busy (result_index u)⟩
    rw [settle_executing, k.ended rfl]
    rfl
  · obtain ⟨b', hb', shrinks⟩ := k.prior result b hu
    exact .inr ⟨b', priorOf_settle hb', fun m => ⟨(shrinks m).1, fun set unwritten => (shrinks m).2 set fun writes =>
      unwritten (agentWrites_of inside rfl port free busy (writes.index u))⟩⟩

/-- Settles O31: the rows of the table one by one; over a step the marks before a result by the arbiter's grant. -/
theorem agentChoosesByTheTable : Obligations.AgentChoosesByTheTable := by
  refine ⟨fun s hn hr => ⟨fun w hw => agentRequest_next hn (chooseAccess_event hr hw), fun hw ht more => ?load,
    fun hw hl => ⟨fun x b m hx hb hm => ?prior, fun x r hx hres hb => ?result, fun none ht he room => ?event,
      fun m none idle hm => ?word⟩⟩, fun c s t hx hc hr => ?steps⟩
  case load =>
    refine agentRequest_next hn ?_
    rw [chooseAccess_loading ht, wantsLoadRead, decide_eq_true ht, decide_eq_true (by exact more), eventContinues, hw]
    rfl
  case prior =>
    refine agentRequest_next hn ?_
    rw [chooseAccess_rows hr hl hw, priorWord_some hx hb hm]
    rfl
  case result =>
    refine agentRequest_next hn ?_
    rw [chooseAccess_rows hr hl hw, priorWord_done hx hb, resultDue, hx, Option.bind_some, hres]
    rfl
  case event =>
    refine agentRequest_next hn ?_
    obtain ⟨prior, result⟩ := noResult_rows none
    rw [chooseAccess_rows hr hl hw, prior, result, eventDue_some ht he room]
    rfl
  case word =>
    refine agentRequest_next hn ?_
    obtain ⟨prior, result⟩ := noResult_rows none
    rw [chooseAccess_rows hr hl hw, prior, result, eventDue_none idle, statusDue, lowestMark_of_isLowest _ _ hm]
    rfl
  case steps =>
    rcases exec_port hx hc with ⟨u, inside, rfl, port⟩ | ⟨_, _, _, _, inReset, _⟩
    swap
    · exact absurd inReset hr
    refine ⟨fun x r none hx hres => ?_, fun y b hy hb => ?_⟩
    · exact settle_fixes (arbitrate_noPrior (inside.prior.trans (priorOf_none.mpr none))) hx hres
    · refine (settle_prior inside port (priorOf_some.mpr ⟨y, hy, hb⟩)).imp_right fun ⟨b', hb', shrinks⟩ => ?_
      obtain ⟨x, hx, hp⟩ := priorOf_some.mp hb'
      exact ⟨x, b', hx, hp, shrinks⟩

end Sys2Proof.Machine
end

section
/-! SUPPORT. The agent's writes: what the grant of each does to memory, to the marks and to the agent, and the value of every
status, result and event word by its fields. -/

namespace Sys2Proof.Machine

/-! ## The grant of an AGENT write (R180, R181, R184, R185) -/

/-- A grant that clears the mark of one word and changes no status word leaves that mark clear, before a result too. -/
theorem clearing_next {s g : State} {q : AgentRequest} {a : Access} {n : Fin 38} (h : AgentMeets s q)
    (ha : agentAccess s q = a)
    (hg : grantAgent (agentGranted s a) q (readWord s.mem (wordAddress a.addr)) = clearMark g n)
    (hv : ∀ m, statusValue s m = statusValue g m) :
    ∃ t, exec .memoryAccessComplete s = .next t ∧ MarkCleared t n ∧ unmarked t = unmarked g := by
  obtain ⟨completed, granted⟩ := agent_exec h
  rw [grantPort_eq ha, hg] at granted
  have freed : changedMarks s (portFreed s) = 0#38 := changed_none fun m _ => (portFreed_value s m).symm
  have written : changedMarks (portFreed s) (clearMark g n) = 0#38 := changed_none fun m _ => by
    rw [portFreed_value, hv]
    exact statusValue_congr (t := clearMark g n) rfl rfl rfl rfl rfl rfl rfl rfl rfl rfl m
  have marks : (settle s (portFreed s)).agent.marks = g.agent.marks &&& ~~~ markBit n := by
    rw [marks_settle, granted, freed, written]
    simp [clearMark]
  refine ⟨_, completed, ⟨by rw [marks]; exact cleared_bit _ _, fun x b hx hb => ?_⟩,
    by rw [unmarked_settle, granted, clear_unmarked]⟩
  rw [settle_executing, granted] at hx
  obtain ⟨y, hy, rfl⟩ := Option.map_eq_some_iff.mp hx
  split at hb
  · cases hb
    rw [marks]
    exact cleared_bit _ _
  · have prior : priorOf (clearMark g n).agent = some b := priorOf_some.mpr ⟨y, hy, hb⟩
    rw [clearMark_prior] at prior
    obtain ⟨before, _, rfl⟩ := Option.map_eq_some_iff.mp prior
    exact cleared_bit _ _

theorem agentAccess_statusWord (s : State) (m : Fin 38) :
    agentAccess s (.statusWord m) = cbWrite s (70 + m.val) 15#4 (statusValue s m) := agent_write_eq s _ _

theorem agentAccess_result {s : State} {x : Executing} {r : ResultCode} (hx : s.agent.executing = some x)
    (hr : x.result = some r) : agentAccess s .result = cbWrite s 69 15#4 (resultWord x r) := by
  simp only [agentAccess, hx, hr, Option.elim_some]
  exact agent_write_eq s _ _

theorem agentAccess_eventFirst {s : State} {e : Event} {rest : List Event} (he : s.agent.events = e :: rest) :
    agentAccess s .eventFirst = cbWrite s (108 + 2 * s.agent.producer.toNat) 15#4 (eventWord0 e) := by
  simp only [agentAccess, oldestEvent, he, List.head?_cons, Option.elim_some]
  exact agent_write_eq s _ _

theorem agentAccess_eventSecond {s : State} {w : EventWrite} (hw : s.agent.writing = some w) :
    agentAccess s .eventSecond = cbWrite s (108 + 2 * w.entry.toNat + 1) 15#4 w.event.stamp := by
  simp only [agentAccess, hw, Option.elim_some]
  exact agent_write_eq s _ _

theorem agentAccess_eventThird {s : State} {w : EventWrite} (hw : s.agent.writing = some w) :
    agentAccess s .eventThird = cbWrite s 71 15#4 ((w.entry + 1).zeroExtend 32) := by
  simp only [agentAccess, hw, Option.elim_some]
  exact agent_write_eq s _ _

theorem grantEventFirst_eq {s : State} {e : Event} {rest : List Event} (he : s.agent.events = e :: rest) :
    grantEventFirst s = { s with agent := { s.agent with
      events := rest, producer := s.agent.producer + 1
      writing := some { entry := s.agent.producer, event := e, third := false } } } := by
  rw [grantEventFirst, he]

theorem grantEventThird_eq {s : State} {w : EventWrite} (hw : s.agent.writing = some w) :
    grantEventThird s = clearMark { s with agent := { s.agent with
      writing := none, written := w.entry + 1, attn := decide (w.entry + 1 ≠ s.agent.consumer) } } markProducer := by
  rw [grantEventThird, hw]
  rfl

/-- What the grant of each AGENT write leaves. -/
theorem agentWrite_granted (s : State) :
    (∀ m, AgentMeets s (.statusWord m) → m ≠ 1 →
      ∃ t, exec .memoryAccessComplete s = .next t ∧ MarkCleared t m ∧
        unmarked t = unmarked (agentGranted s (cbWrite s (70 + m.val) 15#4 (statusValue s m)))) ∧
    (AgentMeets s (.statusWord 1) →
      ∃ t, exec .memoryAccessComplete s = .next t ∧ MarkCleared t 1 ∧
        unmarked t = unmarked { agentGranted s (cbWrite s 71 15#4 (s.agent.producer.zeroExtend 32)) with
          agent := { s.agent with
            written := s.agent.producer, attn := decide (s.agent.producer ≠ s.agent.consumer) } }) ∧
    (∀ x r, AgentMeets s .result → s.agent.executing = some x → x.result = some r →
      ∃ t, exec .memoryAccessComplete s = .next t ∧
        unmarked t = unmarked { agentGranted s (cbWrite s 69 15#4 (resultWord x r)) with
          agent := { s.agent with executing := none } }) ∧
    (∀ e rest, AgentMeets s .eventFirst → s.agent.events = e :: rest →
      ∃ t, exec .memoryAccessComplete s = .next t ∧
        unmarked t = unmarked { agentGranted s (cbWrite s (108 + 2 * s.agent.producer.toNat) 15#4 (eventWord0 e)) with
          agent := { s.agent with
            events := rest, producer := s.agent.producer + 1
            writing := some { entry := s.agent.producer, event := e, third := false } } }) ∧
    (∀ w, AgentMeets s .eventSecond → s.agent.writing = some w →
      ∃ t, exec .memoryAccessComplete s = .next t ∧
        unmarked t = unmarked { agentGranted s (cbWrite s (108 + 2 * w.entry.toNat + 1) 15#4 w.event.stamp) with
          agent := { s.agent with writing := some { w with third := true } } }) ∧
    (∀ w, AgentMeets s .eventThird → s.agent.writing = some w →
      ∃ t, exec .memoryAccessComplete s = .next t ∧ MarkCleared t 1 ∧
        unmarked t = unmarked { agentGranted s (cbWrite s 71 15#4 ((w.entry + 1).zeroExtend 32)) with
          agent := { s.agent with
            writing := none, written := w.entry + 1, attn := decide (w.entry + 1 ≠ s.agent.consumer) } }) := by
  refine ⟨fun m h hm => clearing_next h (agentAccess_statusWord s m) (if_neg hm) (fun k => statusValue_congr rfl rfl rfl rfl rfl rfl rfl rfl rfl rfl k),
    fun h => ?producer,
    fun x r h hx hr => agent_step h (agentAccess_result hx hr) _ rfl,
    fun e rest h he => agent_step h (agentAccess_eventFirst he) _ ?first,
    fun w h hw => agent_step h (agentAccess_eventSecond hw) _ ?second,
    fun w h hw => clearing_next h (agentAccess_eventThird hw) (grantEventThird_eq (s := agentGranted s _) hw)
      fun k => statusValue_congr rfl rfl rfl rfl rfl rfl rfl rfl rfl rfl k⟩
  case producer => exact clearing_next h (agentAccess_statusWord s 1) rfl fun k => statusValue_congr rfl rfl rfl rfl rfl rfl rfl rfl rfl rfl k
  case first => exact congrArg unmarked (grantEventFirst_eq he)
  case second =>
    show unmarked { agentGranted s _ with agent := { s.agent with writing := s.agent.writing.map _ } } = _
    rw [hw]
    rfl

/-! ## Words by their fields (R190 to R192) -/

/-- A word holds the number `x` in its bits below `top`, and zeros from there on. -/
def HoldsBelow (w : Word) (x top : Nat) : Prop := w.toNat = x ∧ x < 2 ^ top

theorem holdsBelow_place {v n : Nat} (hv : v < 2 ^ n) (hn : n ≤ 32) : HoldsBelow (place v 0 n) v n := by
  refine ⟨?_, hv⟩
  rw [place_zero, BitVec.toNat_ofNat, Nat.mod_eq_of_lt hv, Nat.mod_eq_of_lt (hv.trans_le (Nat.pow_le_pow_right (by decide) hn))]

/-- One more field above those placed already. -/
theorem HoldsBelow.or_place {w : Word} {x top v : Nat} (h : HoldsBelow w x top) (lo n : Nat) (hv : v < 2 ^ n) (hl : top ≤ lo)
    (hn : lo + n ≤ 32) : HoldsBelow (w ||| place v lo n) (x + 2 ^ lo * v) (lo + n) := by
  obtain ⟨rfl, bound⟩ := h
  have low : w.toNat < 2 ^ lo := bound.trans_le (Nat.pow_le_pow_right (by decide) hl)
  have sum : v * 2 ^ lo + w.toNat < 2 ^ (lo + n) := by
    rw [Nat.pow_add]
    calc v * 2 ^ lo + w.toNat < (v + 1) * 2 ^ lo := by rw [Nat.succ_mul]; omega
      _ ≤ 2 ^ lo * 2 ^ n := by rw [Nat.mul_comm]; exact Nat.mul_le_mul_left _ hv
  have fits : v * 2 ^ lo + w.toNat < 2 ^ 32 := sum.trans_le (Nat.pow_le_pow_right (by decide) hn)
  have word : w ||| place v lo n = BitVec.ofNat 32 (v * 2 ^ lo + w.toNat) := by
    have placed := Sys2Proof.Machine.or_place v n low
    rwa [BitVec.ofNat_toNat, BitVec.setWidth_eq, Nat.mod_eq_of_lt hv] at placed
  rw [Nat.add_comm, Nat.mul_comm]
  exact ⟨word_of word fits, sum⟩

theorem flag_lt (b : Bool) : flag b < 2 ^ 1 := by cases b <;> decide

theorem resultWord_toNat (x : Executing) (c : ResultCode) :
    (resultWord x c).toNat = x.tag.toNat + 256 * x.code.toNat + 2 ^ 16 * c.code := by
  obtain ⟨_, _, _, _, _, _, hc, _⟩ := code_bounds .unconfigured .detached .detached .none .off .off c .escape
  exact (((holdsBelow_place x.tag.isLt (by decide)).or_place 8 8 x.code.isLt (by decide) (by decide)).or_place 16 8 hc
    (by decide) (by decide)).1

theorem eventWord0_toNat (e : Event) :
    (eventWord0 e).toNat = eventCode e.kind + 64 * e.region.val + 1024 * e.station.val + 2 ^ 14 * e.seq.toNat +
      2 ^ 22 * e.detail.toNat := by
  obtain ⟨_, _, _, _, _, _, _, hk⟩ := code_bounds .unconfigured .detached .detached .none .off .off .done e.kind
  exact (((((holdsBelow_place hk (by decide)).or_place 6 4 e.region.isLt (by decide) (by decide)).or_place 10 4 e.station.isLt
    (by decide) (by decide)).or_place 14 8 e.seq.isLt (by decide) (by decide)).or_place 22 10 e.detail.isLt (by decide)
    (by decide)).1

/-- The part state word by its fields, whoever's the phase and the cycle number. -/
theorem partStateWord_toNat (s : State) : (partStateWord s).toNat =
    s.top.code + 16 * phaseField s + 256 * s.straps.stn.val + 4096 * (lastCycleNumber s).toNat +
      2 ^ 20 * s.agent.loadError.code + 2 ^ 24 * s.agent.errorIndex.val := by
  obtain ⟨ht, hp, hm, he, _⟩ :=
    code_bounds s.top s.tc.phase s.tc.member s.agent.loadError .off .off .done .escape
  have phase : phaseField s < 2 ^ 4 := by
    unfold phaseField
    split
    · exact hp
    · exact hm
  exact ((((((holdsBelow_place ht (by decide)).or_place 4 4 phase (by decide) (by decide)).or_place 8 4 s.straps.stn.isLt
    (by decide) (by decide)).or_place 12 8 (lastCycleNumber s).isLt (by decide) (by decide)).or_place 20 4 he (by decide)
    (by decide)).or_place 24 4 s.agent.errorIndex.isLt (by decide) (by decide)).1

theorem poolWord_toNat {s : State} (h : poolLevel s ≤ 64) : (poolWord s).toNat = poolLevel s + match s.cap.held with
    | none => 0
    | some x => 256 + 512 * x.region.val + 8192 * (match x.reason with | .pool => 0 | .limit => 1) := by
  have level : HoldsBelow (place (poolLevel s) 0 7) (poolLevel s) 7 :=
    holdsBelow_place (Nat.lt_of_le_of_lt h (by decide)) (by decide)
  unfold poolWord
  cases hh : s.cap.held with
  | none => simpa using level.1
  | some x =>
    have word := (((level.or_place 8 1 (v := 1) (by decide) (by decide) (by decide)).or_place 9 4 x.region.isLt (by decide)
      (by decide)).or_place 13 1 (flag_lt (decide (x.reason = .limit))) (by decide) (by decide)).1
    simp only [← BitVec.or_assoc]
    rw [word]
    cases x.reason <;> simp [flag] <;> omega

theorem regionWord0_published {x : Region} {p : PubRecord} (h : x.record = .published p) : (regionWord0 x).toNat =
    1 + 4 * p.state.code + 256 * p.generation.toNat + 2 ^ 16 * p.nextSeq.toNat + 2 ^ 24 * p.lastReleased.toNat := by
  obtain ⟨_, _, _, _, hs, _⟩ := code_bounds .unconfigured .detached .detached .none p.state .off .done .escape
  simp only [regionWord0, h]
  exact (((((holdsBelow_place (v := 1) (n := 2) (by decide) (by decide)).or_place 2 3 hs (by decide) (by decide)).or_place 8 8
    p.generation.isLt (by decide) (by decide)).or_place 16 8 p.nextSeq.isLt (by decide) (by decide)).or_place 24 8
    p.lastReleased.isLt (by decide) (by decide)).1

theorem regionWord0_subscribed {x : Region} {q : SubRecord} (h : x.record = .subscribed q) : (regionWord0 x).toNat =
    2 + 4 * q.state.code + 256 * q.generation.toNat + 2 ^ 16 * q.accepted.toNat + 2 ^ 24 * q.applied.toNat := by
  obtain ⟨_, _, _, _, _, hs, _⟩ := code_bounds .unconfigured .detached .detached .none .off q.state .done .escape
  simp only [regionWord0, h]
  exact (((((holdsBelow_place (v := 2) (n := 2) (by decide) (by decide)).or_place 2 3 hs (by decide) (by decide)).or_place 8 8
    q.generation.isLt (by decide) (by decide)).or_place 16 8 q.accepted.isLt (by decide) (by decide)).or_place 24 8
    q.applied.isLt (by decide) (by decide)).1

theorem regionWord1_published {x : Region} {p : PubRecord} (h : x.record = .published p) (hr : p.retained.length ≤ 4)
    (hw : waitingForRefresh p ≤ 14) : (regionWord1 x).toNat =
      p.retained.length + 8 * flag p.openBatch.isSome + 16 * flag p.closePending + 256 * waitingForRefresh p := by
  simp only [regionWord1, h]
  exact ((((holdsBelow_place (n := 3) (Nat.lt_of_le_of_lt hr (by decide)) (by decide)).or_place 3 1 (flag_lt _) (by decide)
    (by decide)).or_place 4 1 (flag_lt _) (by decide) (by decide)).or_place 8 5 (Nat.lt_of_le_of_lt hw (by decide)) (by decide)
    (by decide)).1

theorem regionWord1_subscribed {x : Region} {q : SubRecord} (h : x.record = .subscribed q) :
    (regionWord1 x).toNat = match q.settle with
      | none => 0
      | some z => z.toNat + 256 := by
  have settle : q.settle.elim 0 BitVec.toNat < 2 ^ 8 := by
    cases q.settle with
    | none => decide
    | some z => exact z.isLt
  have word := ((holdsBelow_place settle (by decide)).or_place 8 1 (flag_lt q.settle.isSome) (by decide) (by decide)).1
  simp only [regionWord1, h]
  rw [word]
  cases q.settle <;> rfl

theorem rosterWord_toNat (s : State) : (rosterWord s).toNat = s.tc.roster.toNat % 2 ^ 15 := by
  rw [rosterWord, place_zero, BitVec.toNat_ofNat]
  omega

theorem regionRecords_pubAt (s : State) (r : RegionId) : regionRecords (regionAt s r) = (pubAt s r).elim 0 pubRecords := by
  unfold regionRecords pubAt
  cases (regionAt s r).record <;> rfl

theorem regionWord_off {s : State} {r : RegionId} (hp : pubAt s r = none) (hs : subAt s r = none) :
    regionWord0 (regionAt s r) = 0#32 ∧ regionWord1 (regionAt s r) = 0#32 := by
  unfold pubAt subAt regionWord0 regionWord1 at *
  cases h : (regionAt s r).record with
  | off => exact ⟨rfl, rfl⟩
  | published p => rw [h] at hp; cases hp
  | subscribed q => rw [h] at hs; cases hs

/-- Settles O32: the grants by their requests, the words by their fields. -/
theorem agentWriteTakesEffectAtItsGrant : Obligations.AgentWriteTakesEffectAtItsGrant := by
  refine ⟨agentWrite_granted, fun s => ⟨⟨rfl, ?_, ?_⟩, ?part, rosterWord_toNat s, poolWord_toNat, fun r m k hm hk => ?region⟩,
    fun s => ?pool, fun x c e => ⟨resultWord_toNat x c, eventWord0_toNat e⟩, by decide⟩
  · exact BitVec.toNat_setWidth_of_le (w := 5) (w' := 32) (by decide)
  · exact BitVec.toNat_setWidth_of_le (w := 16) (w' := 32) (by decide)
  case part =>
    refine (partStateWord_toNat s).trans ?_
    unfold phaseField lastCycleNumber isMaster
    by_cases master : s.straps.stn = 0 <;> simp [master]
  case region =>
    obtain ⟨word0, word1⟩ := status_region s r m k hm hk
    dsimp only
    rw [word0, word1]
    refine ⟨fun hp hs => ?_, fun p hp => ⟨regionWord0_published (regionAt_pub hp), fun hr hw => ?_⟩,
      fun q hq => ⟨regionWord0_subscribed (regionAt_sub hq), regionWord1_subscribed (regionAt_sub hq)⟩⟩
    · obtain ⟨off0, off1⟩ := regionWord_off hp hs
      rw [off0, off1]
      exact ⟨rfl, rfl⟩
    · exact regionWord1_published (regionAt_pub hp) hr hw
  case pool =>
    simp only [poolLevel, regionRecords_pubAt]
    rfl

end Sys2Proof.Machine
end

section
/-! SUPPORT. The dirty marks over a step, and the two reset pins. -/

namespace Sys2Proof.Machine

/-! ## The marks (R177, R180) -/

/-- What the marks of a step's end are made of: what the arbiter leaves, and the words that its two moments change. -/
theorem settle_mark_iff (s u : State) (m : Fin 38) : (settle s u).agent.marks.getLsbD m.val = true ↔
    (arbitrate u).agent.marks.getLsbD m.val = true ∨ WordMoved s u m ∨ WordMoved u (arbitrate u) m := by
  rw [marks_settle, BitVec.getLsbD_or, BitVec.getLsbD_or, Bool.or_eq_true, Bool.or_eq_true, changedMarks_iff, changedMarks_iff]
  rfl

theorem changed_in_a_moment {s u : State} {m : Fin 38} (h : statusValue (settle s u) m ≠ statusValue s m) :
    statusValue u m ≠ statusValue s m ∨ statusValue (settle s u) m ≠ statusValue u m := by
  by_contra none
  obtain ⟨effect, grant⟩ := not_or.mp none
  exact h ((not_not.mp grant).trans (not_not.mp effect))

/-- A mark stands over a step that does not grant the write of its word. -/
theorem settle_keeps_mark {c : Instr} {s u : State} {m : Fin 38} (inside : Inside s u)
    (port : u.path.port = .free → s.path.port = .free ∨ c = .memoryAccessComplete)
    (set : s.agent.marks.getLsbD m.val = true) (unwritten : ¬ AgentWrites c s (settle s u) (70 + m.val)) :
    (settle s u).agent.marks.getLsbD m.val = true := by
  refine (settle_mark_iff s u m).mpr (.inl ?_)
  have before := inside.marks _ set
  rcases arbitrate_marks u with ⟨kept, _⟩ | ⟨q, free, busy, k⟩
  · exact kept _ before
  · exact k.marks m before fun writes => unwritten (agentWrites_of inside rfl port free busy (writes.index u))

theorem leaveReset_marks (s : State) (stn : StationId) (cba : Byte) (ald : Bool) :
    (leaveReset s stn cba ald).agent.marks = s.agent.marks := by
  cases ald <;> rfl

theorem markChanges_bit_iff (s u : State) (m : Fin 38) : (markChanges s u).agent.marks.getLsbD m.val = true ↔
    u.agent.marks.getLsbD m.val = true ∨ (m ≠ 0 ∧ statusValue u m ≠ statusValue s m) := by
  show (u.agent.marks ||| changedMarks s u).getLsbD m.val = true ↔ _
  rw [BitVec.getLsbD_or, Bool.or_eq_true, changedMarks_iff]
  rfl

/-- Settles O34: the marks of a step's end by its two moments. -/
theorem changedStatusWordIsMarked : Obligations.ChangedStatusWordIsMarked := by
  refine ⟨fun c s t m hx hc hr hm hv => ?changed, fun s u m hm h => marked_settle hm h, fun c s t m hx hc set unwritten => ?kept,
    fun s u m => ⟨fun idle => ?idle, fun v free hv => ?granted⟩, fun s u m => ⟨markChanges_bit_iff s u m, rfl⟩⟩
  case changed =>
    rcases exec_port hx hc with ⟨u, _, rfl, _⟩ | ⟨_, _, _, _, inReset, _⟩
    · exact marked_settle hm (changed_in_a_moment hv)
    · exact absurd inReset hr
  case kept =>
    rcases exec_port hx hc with ⟨u, inside, rfl, port⟩ | ⟨stn, cba, ald, _, _, rfl⟩
    · exact settle_keeps_mark inside port set unwritten
    · rwa [leaveReset_marks]
  case idle =>
    rw [settle_mark_iff, arbitrate_none fun free => idle.resolve_left fun busy => busy free]
    exact or_congr_right ⟨fun h => h.resolve_right fun moved => moved.2 rfl, .inl⟩
  case granted => rw [settle_mark_iff, arbitrate_some free hv]

/-! ## The reset pins (R1, R168, R171, R172) -/

theorem resetTurns_eq (s : State) : resetTurns s = { Turns.reset with lineLast :=
    if s.line.tx = .character ∨ s.line.tx = .breakLow ∨ s.line.tx = .breakHigh then s.clock.ticks else s.tc.lineLast } := by
  unfold resetTurns cutShort onTheLine
  cases s.line.tx <;> rfl

theorem resetHost_granted {h : HostAccess} (hc : h.condition = .granted) : resetHost h = h := by
  rw [resetHost, if_pos hc, ← hc]

theorem resetHost_waits {h : HostAccess} (hc : h.condition ≠ .granted) : resetHost h = { h with condition := .awaitingGrant } := by
  rw [resetHost, if_neg hc]

/-- With RESET_N asserted no internal request waits: the port serves unless a host access awaits grant. -/
theorem resetPart_serves {s : State} (h : waitingHost (resetPart s) = none) : PortServes (resetPart s) :=
  fun _ => ⟨h, nofun, rfl, rfl⟩

/-- Settles O36: the reset values by their definition, the host access by its condition. -/
theorem resetPinsSetThePart : Obligations.ResetPinsSetThePart := by
  refine ⟨fun s => ?assert, fun stn cba s hr => ⟨?plain, ?auto⟩, rfl⟩
  case assert =>
    intro g
    have stays {x : Option HostAccess} (hx : s.path.host.map resetHost = x) (serves : PortServes (resetPart s)) :
        exec .resetNAssert s = .next { g with path := { g.path with host := x } } := by
      show Host.Outcome.next (arbitrate (resetPart s)) = _
      rw [arbitrate_id serves, resetPart, resetPath, resetTurns_eq, hx]
    refine ⟨fun hn => ?none, fun h hh hc => ?granted, fun h hh hc busy => ?waits, fun h hh hc free => ?grant⟩
    case none =>
      refine stays (by rw [hn]; rfl) (resetPart_serves ?_)
      show (s.path.host.map resetHost).filter _ = none
      rw [hn]; rfl
    case granted =>
      have kept : s.path.host.map resetHost = some h := by rw [hh, Option.map_some, resetHost_granted hc]
      refine stays kept (resetPart_serves ?_)
      show (s.path.host.map resetHost).filter _ = none
      rw [kept, Option.filter_some, hc]; rfl
    case waits => exact stays (by rw [hh, Option.map_some, resetHost_waits hc]) (serves_busy busy)
    case grant =>
      have waits : s.path.host.map resetHost = some { h with condition := .awaitingGrant } := by
        rw [hh, Option.map_some, resetHost_waits hc]
      show Host.Outcome.next (arbitrate (resetPart s)) = _
      rw [arbitrate_host (s := resetPart s) free waits rfl nofun, grantHost_unclaimed (s := resetPart s) rfl,
        observe_id (resetPart s) (grantedNow (resetPart s) h.access) (.inl rfl) rfl rfl, grantedNow, resetPart, resetTurns_eq]
      rfl
  case plain => exact if_pos hr
  case auto =>
    refine (if_pos hr).trans ?_
    rw [leaveReset, if_pos rfl, enterLoading, withdrawForLoad_eq]
    rfl

end Sys2Proof.Machine
end

section
/-! SUPPORT. LOAD: the words that its reads take, the checks in their order and by the fields of the words, and what a LOAD that
succeeds or fails leaves. -/

namespace Sys2Proof.Machine

/-! ## The checks in their order (R176, R188, R189) -/

theorem firstFault_none {α : Type} (l : List (Prop × α)) : firstFault l = none ↔ ∀ x ∈ l, x.1 := by
  induction l with
  | nil => exact iff_of_true rfl nofun
  | cons x l ih =>
    rw [firstFault, List.forall_mem_cons]
    split
    · rename_i holds; rw [ih]; exact (and_iff_right holds).symm
    · rename_i fails; exact iff_of_false nofun fun h => fails h.1

/-- The one error of step 7. -/
theorem checkOverlap_cases (cba : Byte) (ws : List Word) (i : Nat) :
    checkOverlap cba ws i = none ∨ checkOverlap cba ws i = some .overlap := by
  unfold checkOverlap failIf
  dsimp only
  split_ifs <;> simp

/-- Descriptor `i` is used: its role publishes or subscribes. -/
def usedDescriptor (ws : List Word) (i : Fin 16) : Prop := wordField ws (5 + 4 * i.val) 9 2 = 1 ∨ wordField ws (5 + 4 * i.val) 9 2 = 2

/-- The byte addresses of descriptor `i`: its first, and the one past its last. -/
def descStart (ws : List Word) (i : Fin 16) : Nat := wordField ws (4 + 4 * i.val) 0 24

def descStop (ws : List Word) (i : Fin 16) : Nat := descStart ws i + 4 * wordField ws (5 + 4 * i.val) 0 9

/-- Step 7 of R176 for descriptor `i`. -/
def PlacedApart (cba : Byte) (ws : List Word) (i : Fin 16) : Prop := usedDescriptor ws i →
  (descStop ws i ≤ 65536 * cba.toNat ∨ 65536 * cba.toNat + 688 ≤ descStart ws i) ∧
    ∀ j, j < i → usedDescriptor ws j → descStop ws i ≤ descStart ws j ∨ descStop ws j ≤ descStart ws i

theorem checkOverlap_none (cba : Byte) (ws : List Word) (i : Fin 16) :
    checkOverlap cba ws i.val = none ↔ PlacedApart cba ws i := by
  rw [overlap_iff]
  refine imp_congr_right fun _ => and_congr_right fun _ => ⟨fun h j hj => h j.val hj, fun h j hj => ?_⟩
  exact h ⟨j, hj.trans i.isLt⟩ hj

theorem firstFailing_descriptors (stn : StationId) (ws : List Word) :
    firstFailing (checkDescriptor stn ws) = firstFault (allIds.flatMap (descriptorChecks stn ws)) := by
  rw [firstFault_flat, firstFailing]
  simp only [descriptor_fault]

theorem firstFailing_overlap (cba : Byte) (ws : List Word) :
    firstFailing (checkOverlap cba ws) = firstFault (allIds.map fun i => (PlacedApart cba ws i, LoadError.overlap, i)) := by
  refine (firstFault_map (PlacedApart cba ws) (fun i => (LoadError.overlap, i)) _ _ fun i => ⟨fun apart => ?_, fun near => ?_⟩).symm
  · rw [(checkOverlap_none cba ws i).mpr apart]; rfl
  · rw [(checkOverlap_cases cba ws i.val).resolve_left fun none => near ((checkOverlap_none cba ws i).mp none)]; rfl

/-- Steps 1 to 5 of R176, in their order. -/
def wordChecks (stn : StationId) (ws : List Word) : List (Prop × LoadError × Fin 16) :=
  [(ws.getD 0 0#32 = 1#32, .badVersion, 0),
   (stn ≠ 15, .badStation, 0),
   (2 ≤ wordField ws 1 0 12 ∧ wordField ws 1 12 2 ≠ 3 ∧ wordField ws 1 14 2 ≠ 3, .badLineFormat, 0),
   (1 ≤ wordField ws 2 0 4 ∧ wordField ws 2 0 4 ≤ 8 ∧ 1 ≤ wordField ws 2 4 3 ∧ 2 ≤ wordField ws 2 8 6 ∧
      1 ≤ wordField ws 2 16 8, .badTurn, 0),
   (16 ≤ wordField ws 3 0 10 ∧ wordField ws 2 8 6 + 16 < wordField ws 3 0 10 ∧ 24 ≤ wordField ws 3 10 10, .badTimeout, 0)]

theorem loadChecks_eq (stn : StationId) (cba : Byte) (ws : List Word) : loadChecks stn cba ws =
    wordChecks stn ws ++ allIds.flatMap (descriptorChecks stn ws) ++
      allIds.map fun i => (PlacedApart cba ws i, .overlap, i) := rfl

/-- The checks of a LOAD are those of its list, in the list's order. -/
theorem checkConfig_eq (stn : StationId) (cba : Byte) (ws : List Word) :
    checkConfig stn cba ws = firstFault (loadChecks stn cba ws) := by
  rw [loadChecks_eq, firstFault_append, firstFault_append, ← firstFailing_descriptors, ← firstFailing_overlap, orElse_assoc_eq]
  unfold checkConfig wordChecks
  simp only [map_orElse, fail_map, formatOf, paramsOf, bits_field]
  rw [firstFault_cons _ _ _ (configWord ws 0 != 1#32) (by simp [configWord]),
    firstFault_cons _ _ _ (decide (stn = 15)) (by simp),
    firstFault_cons _ _ _ (decide (wordField ws 1 0 12 < 2) || decide (wordField ws 1 12 2 = 3) ||
      decide (wordField ws 1 14 2 = 3)) (by simp [and_assoc]; omega),
    firstFault_cons _ _ _ (!(decide (1 ≤ wordField ws 2 0 4) && decide (wordField ws 2 0 4 ≤ 8) &&
      decide (1 ≤ wordField ws 2 4 3) && decide (2 ≤ wordField ws 2 8 6) && decide (1 ≤ wordField ws 2 16 8)))
      (by simp [and_assoc]),
    firstFault_single _ _ (!(decide (16 ≤ wordField ws 3 0 10) && decide (wordField ws 2 8 6 + 16 < wordField ws 3 0 10) &&
      decide (24 ≤ wordField ws 3 10 10))) (by simp [and_assoc])]

/-- The configurations that a LOAD accepts: every check of the list holds. -/
theorem checkConfig_none (stn : StationId) (cba : Byte) (ws : List Word) : checkConfig stn cba ws = none ↔
    (∀ x ∈ wordChecks stn ws, x.1) ∧ (∀ i, ∀ x ∈ descriptorChecks stn ws i, x.1) ∧ ∀ i, PlacedApart cba ws i := by
  rw [checkConfig_eq, firstFault_none, loadChecks_eq, List.forall_mem_append, List.forall_mem_append, List.forall_mem_flatMap,
    List.forall_mem_map, and_assoc]
  simp only [mem_allIds, forall_const]

theorem role_cases (ws : List Word) (i : Fin 16) (h : wordField ws (5 + 4 * i.val) 9 2 ≠ 3) :
    wordField ws (5 + 4 * i.val) 9 2 ≠ 0 ↔ usedDescriptor ws i := by
  have := field_lt ws (5 + 4 * i.val) 9 2
  unfold usedDescriptor
  omega

/-- The accepted configurations by the fields of their words. -/
theorem checkConfig_none_iff_fields (stn : StationId) (cba : Byte) (ws : List Word) : checkConfig stn cba ws = none ↔
    let word : Nat → Word := fun i => ws.getD i 0#32
    let field : Nat → Nat → Nat → Nat := fun i lo n => (word i).toNat / 2 ^ lo % 2 ^ n
    let role : Fin 16 → Nat := fun i => field (5 + 4 * i.val) 9 2
    let base : Fin 16 → Nat := fun i => field (4 + 4 * i.val) 0 24
    let len : Fin 16 → Nat := fun i => field (5 + 4 * i.val) 0 9
    word 0 = 1#32 ∧ stn ≠ 15 ∧
    (2 ≤ field 1 0 12 ∧ field 1 12 2 ≠ 3 ∧ field 1 14 2 ≠ 3) ∧
    (1 ≤ field 2 0 4 ∧ field 2 0 4 ≤ 8 ∧ 1 ≤ field 2 4 3 ∧ 2 ≤ field 2 8 6 ∧ 1 ≤ field 2 16 8) ∧
    (16 ≤ field 3 0 10 ∧ field 2 8 6 + 16 < field 3 0 10 ∧ 24 ≤ field 3 10 10) ∧
    (∀ i : Fin 16, role i ≠ 3) ∧
    (∀ i : Fin 16, role i ≠ 0 → 1 ≤ len i ∧ len i ≤ 256 ∧ base i % 4 = 0 ∧ base i + 4 * len i - 1 ≤ 0xFFFFFF) ∧
    (∀ i : Fin 16, role i = 1 →
      (word (6 + 4 * i.val)).getLsbD 15 = false ∧ (word (6 + 4 * i.val)).getLsbD stn.val = false ∧
      (field (6 + 4 * i.val) 24 1 = 1 → field (6 + 4 * i.val) 16 8 < len i) ∧
      (1 ≤ field (5 + 4 * i.val) 17 5 ∧ field (5 + 4 * i.val) 17 5 ≤ 16) ∧ 1 ≤ field (7 + 4 * i.val) 16 12) ∧
    (∀ i : Fin 16, role i = 2 →
      field (5 + 4 * i.val) 13 4 ≠ 15 ∧ field (5 + 4 * i.val) 13 4 ≠ stn.val ∧ field (5 + 4 * i.val) 11 2 < 2) ∧
    (∀ i : Fin 16, role i ≠ 0 →
      base i + 4 * len i ≤ 65536 * cba.toNat ∨ 65536 * cba.toNat + 688 ≤ base i) ∧
    (∀ i j : Fin 16, j < i → role i ≠ 0 → role j ≠ 0 → base i + 4 * len i ≤ base j ∨ base j + 4 * len j ≤ base i) := by
  rw [checkConfig_none]
  simp only [wordChecks, descriptorChecks, List.forall_mem_cons, List.not_mem_nil, false_imp_iff, implies_true, and_true]
  constructor
  · rintro ⟨⟨version, station, format, turn, timeout⟩, descs, apart⟩
    have valid (i : Fin 16) (h : wordField ws (5 + 4 * i.val) 9 2 ≠ 0) : usedDescriptor ws i :=
      (role_cases ws i (descs i).1).mp h
    refine ⟨version, station, format, turn, timeout, fun i => (descs i).1, fun i used => ?_, fun i publishes => ?_,
      fun i subscribes => ?_, fun i used => (apart i (valid i used)).1,
      fun i j hj used used' => (apart i (valid i used)).2 j hj (valid j used')⟩
    all_goals obtain ⟨_, length, placement, publisher, guard, subscribers, close, batch, hold⟩ := descs i
    · obtain ⟨low, high⟩ := length used
      exact ⟨low, high, placement used⟩
    · obtain ⟨none, self⟩ := subscribers publishes
      exact ⟨none, self, close publishes, batch publishes, hold publishes⟩
    · obtain ⟨none, self⟩ := publisher subscribes
      exact ⟨none, self, guard subscribes⟩
  · rintro ⟨version, station, format, turn, timeout, field, place, publish, subscribe, block, others⟩
    have used (i : Fin 16) (h : usedDescriptor ws i) : wordField ws (5 + 4 * i.val) 9 2 ≠ 0 := (role_cases ws i (field i)).mpr h
    refine ⟨⟨version, station, format, turn, timeout⟩, fun i => ?_, fun i hi =>
      ⟨block i (used i hi), fun j hj hu => others i j hj (used i hi) (used j hu)⟩⟩
    refine ⟨field i, fun h => ?_, fun h => ?_, fun h => ?_, fun h => ?_, fun h => ?_, fun h => ?_, fun h => ?_, fun h => ?_⟩
    · exact ⟨(place i h).1, (place i h).2.1⟩
    · exact (place i h).2.2
    · exact ⟨(subscribe i h).1, (subscribe i h).2.1⟩
    · exact (subscribe i h).2.2
    · exact ⟨(publish i h).1, (publish i h).2.1⟩
    · exact (publish i h).2.2.1
    · exact (publish i h).2.2.2.1
    · exact (publish i h).2.2.2.2

/-! ## What a LOAD reads and loads (R175 to R177, R188) -/

theorem formatOf_fields (ws : List Word) :
    let f := formatOf ws
    f.divisor = wordField ws 1 0 12 ∧
    (wordField ws 1 12 2 = 0 → f.samplesPerBit = 8) ∧ (wordField ws 1 12 2 = 1 → f.samplesPerBit = 12) ∧
    (wordField ws 1 12 2 = 2 → f.samplesPerBit = 16) ∧
    (wordField ws 1 14 2 = 0 → f.parity = .none) ∧ (wordField ws 1 14 2 = 1 → f.parity = .even) ∧
    (wordField ws 1 14 2 = 2 → f.parity = .odd) ∧
    (f.twoStops = true ↔ wordField ws 1 16 1 = 1) := by
  simp only [formatOf, bits_field, decide_eq_true_eq]
  refine ⟨trivial, fun h => ?_, fun h => ?_, fun h => ?_, fun h => ?_, fun h => ?_, fun h => ?_, trivial⟩ <;> simp only [h]

theorem descWord_field (ws : List Word) (i k lo n : Nat) : bits (descWord ws i k) lo n = wordField ws (4 + 4 * i + k) lo n :=
  bits_field ws _ lo n

theorem extract_field (ws : List Word) (i k lo n : Nat) :
    ((descWord ws i k).extractLsb' lo n).toNat = wordField ws (4 + 4 * i + k) lo n := bits_eq _ lo n

theorem descriptorOf_fields (ws : List Word) (i : Fin 16) :
    let d := descriptorOf ws i.val
    let field (k lo n : Nat) : Nat := wordField ws (4 + 4 * i.val + k) lo n
    d.base.toNat = field 0 0 24 ∧ d.length = field 1 0 9 ∧
    (field 1 9 2 = 0 → d.role = .off) ∧ (field 1 9 2 = 1 → d.role = .publish) ∧ (field 1 9 2 = 2 → d.role = .subscribe) ∧
    (field 1 11 2 = 0 → d.guard = .guarded) ∧ (field 1 11 2 = 1 → d.guard = .openMode) ∧
    d.publisher.val = field 1 13 4 ∧ d.batchLimit = field 1 17 5 ∧ d.subscribers.toNat = field 2 0 16 ∧
    d.closeOffset.map BitVec.toNat = (if field 2 24 1 = 1 then some (field 2 16 8) else none) ∧
    d.quietInterval = field 3 0 16 ∧ d.holdLimit = field 3 16 12 := by
  simp only [descriptorOf, roleCode, descWord_field, extract_field]
  refine ⟨trivial, trivial, fun h => ?_, fun h => ?_, fun h => ?_, fun h => ?_, fun h => ?_, ?publisher, trivial, trivial,
    ?close, trivial, trivial⟩
  case publisher => exact Nat.mod_eq_of_lt (field_lt ws _ 13 4)
  case close =>
    split
    · exact congrArg some (extract_field ws i.val 2 16 8)
    · rfl
  all_goals simp [h]

theorem agentAccess_loadRead (s : State) : agentAccess s .loadRead = loadAccess s := by
  simp only [agentAccess, loadAccess, blockAddress, blockBase, Nat.mul_comm]

/-- The read of word `n` is aligned and within the address space: its word is the one at the block's base plus 4n. -/
theorem wordAddress_loadAccess {s : State} (h : s.agent.loadWords.length < 68) :
    wordAddress (loadAccess s).addr = 65536 * s.straps.cba.toNat + 4 * s.agent.loadWords.length := by
  have := s.straps.cba.isLt
  rw [wordAddress, loadAccess, BitVec.toNat_ofNat, Nat.mod_eq_of_lt (by omega)]
  omega

theorem wordsRead_eq {s : State} (h : s.agent.loadWords.length < 68) :
    wordsRead s = s.agent.loadWords ++ [readWord s.mem (wordAddress (loadAccess s).addr)] := by
  rw [wordAddress_loadAccess h]
  rfl

theorem wordsRead_length (s : State) : (wordsRead s).length = s.agent.loadWords.length + 1 := List.length_append

/-- The state in which the grant of a LOAD read leaves the part, before the checks. -/
def wordTaken (s : State) : State :=
  { agentGranted s (loadAccess s) with agent := { s.agent with loadWords := wordsRead s } }

theorem grantLoadRead_more {s : State} (h : s.agent.loadWords.length < 67) :
    grantAgent (agentGranted s (loadAccess s)) .loadRead (readWord s.mem (wordAddress (loadAccess s).addr)) = wordTaken s := by
  have words := wordsRead_eq (s := s) (by omega)
  have more : (wordsRead s).length < 68 := by rw [wordsRead_length]; omega
  rw [words] at more
  rw [wordTaken, words]
  exact if_pos more

theorem grantLoadRead_last {s : State} (h : s.agent.loadWords.length = 67) :
    grantAgent (agentGranted s (loadAccess s)) .loadRead (readWord s.mem (wordAddress (loadAccess s).addr)) =
      loadCheck (wordTaken s) := by
  have words := wordsRead_eq (s := s) (by omega)
  have last : ¬ (wordsRead s).length < 68 := by rw [wordsRead_length]; omega
  rw [words] at last
  rw [wordTaken, words]
  exact if_neg last

/-- A LOAD that succeeds, by the table that it loads. -/
theorem loadSucceeds_eq (s : State) : loadSucceeds s = { s with
    top := .configured
    regions := (loadTable s).regions
    line := { format := some (formatOf s.agent.loadWords), rx := .arming, tx := .idle, txSince := s.clock.ticks, noisy := false,
              clean := 0, gapFrom := none, sampling := sampledAnew s, fault := none, lrx := s.line.lrx }
    params := paramsOf s.agent.loadWords
    cap := Capture.reset
    del := { Delivery.reset with passSerial := s.del.passSerial }
    inb := Inbound.reset
    fu := FrameUnit.reset
    tc := { Turns.reset with lineLast := s.tc.lineLast }
    agent := { s.agent with
      producer := 0, consumer := 0, copy := 0, lost := 0, loadError := .none, errorIndex := 0, marks := BitVec.allOnes 38
      executing := s.agent.executing.map fun x => { x with result := some .done } } } := by
  obtain ⟨table, loaded⟩ : ∃ R, loadTable s = { s with regions := R } := ⟨_, loadTable_only s⟩
  rw [loadSucceeds, loaded]
  rfl

theorem loadSucceeds_regionAt (s : State) (r : RegionId) :
    regionAt (loadSucceeds s) r = loadedRegion (descriptorOf s.agent.loadWords r.val) := by
  have table : (loadSucceeds s).regions = (loadTable s).regions := by rw [loadSucceeds_eq]
  rw [← loadTable_at, regionAt_congr table]

/-- Settles O33: the grants by the number of words read, the checks by their list, the loaded values by their fields. -/
theorem loadReadsChecksAndConfigures : Obligations.LoadReadsChecksAndConfigures := by
  refine ⟨fun s h ht hn => ⟨fun more => ?more, fun last ok => ?ok, fun e i last bad => ?bad⟩, checkConfig_none_iff_fields,
    fun stn cba ws before after holds e i hl hb hf => ?first, fun ws => ?format, descriptorOf_fields⟩
  case first => rw [checkConfig_eq, hl, firstFault_at before after holds (e, i) hb hf]
  case format =>
    obtain ⟨divisor, s8, s12, s16, none, even, odd, stops⟩ := formatOf_fields ws
    refine ⟨divisor, s8, s12, s16, none, even, odd, stops, ?_⟩
    simp only [paramsOf, bits_field]
  case more => exact agent_step h (agentAccess_loadRead s) _ (congrArg unmarked (grantLoadRead_more more))
  case ok =>
    obtain ⟨completed, granted⟩ := agent_exec h
    rw [grantPort_eq (agentAccess_loadRead s), grantLoadRead_last last, loadCheck_ok (s := wordTaken s) ok] at granted
    have loaded := unmarked_settle s (portFreed s)
    rw [granted] at loaded
    have marks : (loadSucceeds (wordTaken s)).agent.marks = BitVec.allOnes 38 := by rw [loadSucceeds_eq]
    refine ⟨_, completed, ?_, fun r => ?_, ?_⟩
    · rw [marks_settle, granted, marks]
      exact BitVec.allOnes_or
    · rw [regionAt_congr (unmarked_regions loaded), loadSucceeds_regionAt]
      rfl
    · rw [loaded, unmarked_regions loaded, loadSucceeds_eq]
      rfl
  case bad =>
    refine agent_step h (agentAccess_loadRead s) _ (congrArg unmarked ?_)
    rw [grantLoadRead_last last, loadCheck_bad (s := wordTaken s) bad]
    rfl

end Sys2Proof.Machine
end

section
/-! SUPPORT. The stream of a published region cut: the escape of a held write, the suspension of a region and the end of its
pass. -/

namespace Sys2Proof.Machine

/-! ## The discard of a region (R8, R30, R101, R102) -/

/-- The capture state without region `r`. -/
def captureWithout (c : Capture) (r : RegionId) : Capture :=
  { c with sendQueue := c.sendQueue.filter fun e => decide (e.1 ≠ r), claim := c.claim.filter fun c => decide (c.region ≠ r) }

/-- The pass of a region ends, the region is discarded, and then its record changes. -/
theorem updPub_discard {s : State} {r : RegionId} {p : PubRecord} (hp : pubAt s r = some p) (f : PubRecord → PubRecord) :
    updPub (Machine.discard (abandonPass s r) r) r f =
      { withPub (abandonPass s r) r (f (discarded { p with pass := none })) with cap := captureWithout s.cap r } := by
  obtain ⟨abandoned, cap, _⟩ := abandon_form hp
  have claim : claimOf (updPub (abandonPass s r) r discardRecord) r = s.cap.claim.any fun c => decide (c.region = r) := by
    unfold claimOf
    rw [updPub_cap, cap]
  unfold Machine.discard
  dsimp only
  rw [claim, updPub_cap, cap, claim_filter, updPub_with _ abandoned, updPub_capd]
  rfl

theorem abandonPass_host {s : State} {r : RegionId} {p : PubRecord} (hp : pubAt s r = some p) :
    (abandonPass s r).path.host = s.path.host := (abandon_form hp).2.2

theorem abandonPass_absent {s : State} {r : RegionId} {p : PubRecord} (hp : pubAt s r = some p) (h : p.pass = none) :
    abandonPass s r = s := by
  rw [abandonPass, hp, Option.any_some, h, Option.isSome_none, if_neg Bool.false_ne_true]

theorem abandonPass_present {s : State} {r : RegionId} {p : PubRecord} (hp : pubAt s r = some p) (h : p.pass.isSome = true) :
    abandonPass s r = withdrawChunk (withPub s r { p with pass := none }) r := by
  rw [abandonPass, hp, Option.any_some, if_pos h, updPub_with _ hp]

theorem withdrawChunk_other {s : State} {r : RegionId} (h : ∀ k n ws, s.fu.assembly ≠ .assembling r k n ws) :
    withdrawChunk s r = s := by
  unfold withdrawChunk
  split
  · rename_i q k n ws assembling
    exact if_neg fun (same : q = r) => h k n ws (same ▸ assembling)
  · rfl

theorem withdrawChunk_own {s : State} {r : RegionId} {k n : Nat} {ws : List Word} (h : s.fu.assembly = .assembling r k n ws) :
    withdrawChunk s r = { s with
      fu := { s.fu with assembly := .empty }
      path := { s.path with snap := false }
      del := { s.del with turnList := s.del.turnList.filter fun e => decide (e ≠ .chunk r k n) } } := by
  unfold withdrawChunk
  rw [h]
  exact if_pos rfl

/-! ## The suspension of a region (R12, R43, R45) -/

theorem suspendRegion_notLive {s : State} {r : RegionId} (h : ∀ p, pubAt s r = some p → p.state ≠ .live) :
    suspendRegion s r = s := by
  refine if_neg fun live => ?_
  obtain ⟨p, hp, hl⟩ := (isLive_iff s r).mp live
  exact h p hp hl

/-- A LIVE region's suspension, before what becomes of a held write. -/
theorem suspendRegion_live {s g : State} {r : RegionId} {p : PubRecord} (hp : pubAt s r = some p) (hl : p.state = .live)
    (hg : g = { withPub (abandonPass s r) r (suspendRecord (discarded { p with pass := none })) with
      cap := captureWithout s.cap r }) :
    suspendRegion s r =
      if s.cap.held.any fun h => decide (h.region = r) then releaseHeld g else reevaluateAfterDiscard g r := by
  subst g
  unfold suspendRegion
  rw [if_pos ((isLive_iff s r).mpr ⟨p, hp, hl⟩)]
  dsimp only
  rw [updPub_discard hp]
  rfl

/-- Settles O38: the suspension by the write that is held, the abandoned pass by the chunk that is in assembly. -/
theorem suspendedRegionIsDiscarded : Obligations.SuspendedRegionIsDiscarded := by
  refine ⟨fun s r p hp hl => ?_, fun s r h => suspendRegion_notLive h, fun s r p hp => ⟨abandonPass_absent hp,
    fun h other => ?other, fun k n ws h own => ?own⟩, fun _ => rfl⟩
  case other => exact (abandonPass_present hp h).trans (withdrawChunk_other (s := withPub s r _) other)
  case own => exact (abandonPass_present hp h).trans (withdrawChunk_own (s := withPub s r _) own)
  intro p' g
  have suspended := suspendRegion_live (g := g) hp hl rfl
  refine ⟨fun none => ?none, fun h held same => ?same, fun h held other => ?different⟩
  case none =>
    rw [suspended, none, Option.any_none, if_neg Bool.false_ne_true, reevaluateAfterDiscard]
    refine if_neg ?_
    show ¬ s.cap.held.any _ = true
    rw [none]
    exact Bool.false_ne_true
  case same =>
    rw [suspended, held, Option.any_some, if_pos (decide_eq_true same), releaseHeld, setHostCondition]
    show { g with cap := _, path := { g.path with host := (abandonPass s r).path.host.map _ } } = _
    rw [abandonPass_host hp]
  case different =>
    rw [suspended, held, Option.any_some, if_neg (by simpa using other), reevaluateAfterDiscard]
    refine if_pos ?_
    show s.cap.held.any _ = true
    rw [held]
    exact decide_eq_true other

/-! ## The escape of a held write (R13, R44) -/

theorem escape_exec {s : State} {h : HeldWrite} {p : PubRecord} (hh : s.cap.held = some h) (hp : pubAt s h.region = some p)
    (hl : p.state = .live) : exec .escape s = .next (settle s (escapeRegion s h.region)) := by
  have escapes : escaping s = some h.region := by
    rw [escaping, hh, Option.filter_some, if_pos ((isLive_iff s h.region).mpr ⟨p, hp, hl⟩)]
    rfl
  show when s (escaping s).isSome ((escaping s).elim s (escapeRegion s)) = _
  rw [escapes]
  rfl

/-- The host access that a step lets go on is granted at once at a FREE port. The agent observes nothing in an access to a
region, which the straps alone tell from one to the control block. -/
theorem arbitrate_released {s u : State} {w : HostAccess} {r : RegionId} {o : Nat} (free : u.path.port = .free)
    (hw : u.path.host = some w) (hc : w.condition = .awaitingGrant) (hl : u.path.last ≠ .host) (hk : u.cap.claim = none)
    (hm : matchAddress s w.access.addr = .region r o) (hs : u.straps = s.straps) : arbitrate u = grantedNow u w.access := by
  rw [arbitrate_host free hw hc hl, grantHost_unclaimed hk]
  exact observe_region (grantedNow u w.access) hm hs

/-- Settles O37: the escape by its equation; with no turn open and no chunk in assembly no choice follows. -/
theorem escapeRestartsTheStream : Obligations.EscapeRestartsTheStream := by
  intro s h p hh hp hl r p' e left gone u
  have escaped : exec .escape s = .next (settle s (postAmong s.agent.events.length (pump u) e)) :=
    (escape_exec hh hp hl).trans (congrArg (fun t => Host.Outcome.next (settle s t)) (escapeRegion_eq hp))
  have bare (empty : s.fu.assembly = .empty) : u = { withPub s r p' with
      cap := left, path := { s.path with host := s.path.host.map fun x => { x with condition := .awaitingGrant } } } := by
    have abandoned : gone = withPub s r { p with pass := none } := abandonPass_eq hp empty
    simp only [u, abandoned, withPub_withPub]
    rfl
  have alone (turn : s.del.turn = none) (empty : s.fu.assembly = .empty) :
      postAmong s.agent.events.length (pump u) e = post u e := by
    have idle : pump u = u := pump_id (by rw [bare empty]; exact turn) (by rw [bare empty]; exact empty)
    rw [idle]
    exact postAmong_alone e (by rw [bare empty]; exact Nat.le_refl _)
  refine ⟨escaped, fun busy turn empty => ?busy, fun w o served free turn empty hw hm hlast => ?free⟩
  case busy =>
    rw [alone turn empty] at escaped
    refine served_next escaped (serves_busy ?_)
    rw [bare empty, post_eq]
    exact busy
  case free =>
    rw [alone turn empty] at escaped
    have unclaimed : s.cap.claim = none := (held_alone (by rw [hh]; rfl) served.2).1
    refine settled_next escaped ?_
    rw [bare empty, hw, post_eq, post_eq]
    refine Eq.trans (arbitrate_released (w := { w with condition := .awaitingGrant }) ?port ?host rfl ?last ?claim hm ?straps) ?_
    case port => exact free
    case last => exact hlast
    case claim =>
      show s.cap.claim.filter _ = none
      rw [unclaimed]
      rfl
    all_goals rfl

end Sys2Proof.Machine
end

section
/-! SUPPORT. The line-lost timer: the roster copy cleared, the regions that become UNSYNCED together, and what follows a change of
the roster. -/

namespace Sys2Proof.Machine

/-! ## The expiry (R12, R20, R110, R125) -/

theorem lineLost_exec {s : State} {since : Word} (ht : s.top = .running) (hl : s.tc.lost = .running since) :
    exec .lineLost s = .next (settle s (lineLost s)) := by
  refine when_eq ?_
  rw [lostRuns, hl]
  exact decide_eq_true ht

theorem losePlace_stays {s : State} (he : s.tc.member ≠ .enrolled) (hs : s.tc.member ≠ .speaking) : losePlace s = s := by
  unfold losePlace
  split
  · exact absurd (by assumption) he
  · exact absurd (by assumption) hs
  · rfl
  · rfl

theorem losePlace_enrolled {s : State} (h : s.tc.member = .enrolled) : losePlace s = leaveRoster s := by
  rw [losePlace, h]

theorem losePlace_speaking {s : State} (h : s.tc.member = .speaking) :
    losePlace s = leaveRoster { s with tc := { s.tc with probeReply := true } } := by
  rw [losePlace, h]

/-! ## What follows a change of the roster (R18, R20, R54, R101) -/

theorem pubAt_updAllPubs (s : State) (f : PubRecord → PubRecord) (r : RegionId) :
    pubAt (updAllPubs s f) r = (pubAt s r).map f := by
  unfold pubAt
  rw [regionAt_updAllPubs, mapPub]
  cases h : (regionAt s r).record <;> simp [h]

theorem abandonIfEmpty_empty {s : State} {r : RegionId} {p : PubRecord} {c : Pass} (hp : pubAt s r = some p)
    (hc : p.pass = some c) (h : c.targets = 0#16) : abandonIfEmpty s r = abandonPass s r := by
  rw [abandonIfEmpty, hp, Option.any_some, hc, Option.any_some, if_pos (decide_eq_true h)]

theorem abandonIfEmpty_targets {s : State} {r : RegionId}
    (h : ∀ p c, pubAt s r = some p → p.pass = some c → c.targets ≠ 0) : abandonIfEmpty s r = s := by
  refine if_neg fun empty => ?_
  simp only [Option.any_eq_true, decide_eq_true_eq] at empty
  obtain ⟨p, hp, c, hc, h0⟩ := empty
  exact h p c hp hc h0

theorem rosterChanged_eq (s : State) : rosterChanged s = allIds.foldl releaseCheck (allIds.foldl abandonIfEmpty
    (updAllPubs (unsyncAbsent s) (rosterRecord s.tc.roster))) := by
  rw [rosterChanged, rosterChangedForPubs, (unsyncAbsent_rest s).1]
  rfl

/-- Settles O39: the expiry by the member's state; the regions that move together by the specification of their move. -/
theorem lineLossClearsTheRoster : Obligations.LineLossClearsTheRoster := by
  refine ⟨fun s since ht hl => ?expiry, fun _ _ => rfl, fun s => ?unsync, fun s =>
    ⟨rosterChanged_eq s, pubAt_updAllPubs s, fun _ _ => rfl, fun r p c hp hc h => abandonIfEmpty_empty hp hc h,
      fun r h => abandonIfEmpty_targets h⟩⟩
  case expiry =>
    intro c e left n follows
    have expires {x : State} (h : losePlace c = x) : exec .lineLost s = .next (settle s (follows x)) := by
      subst h
      exact lineLost_exec ht hl
    exact ⟨fun he hs => expires (losePlace_stays (s := c) he hs), fun h => expires (losePlace_enrolled (s := c) h),
      fun h => expires (losePlace_speaking (s := c) h)⟩
  case unsync =>
    intro unsyncs follows
    have moved {p : RegionId → Bool} {P : RegionId → SubRecord → Prop}
        (h : ∀ r q, (following q = true ∧ p r = true) ↔ P r q) : (fun r q => following q = true ∧ p r = true) = P := by
      funext r q
      exact propext (h r q)
    refine ⟨?all, ?absent⟩
    case all =>
      have spec := unsyncAll_spec s (fun _ => true) .notEnrolled rfl
      rw [moved (P := fun _ q => follows q) fun r q => (and_iff_left rfl).trans (following_iff q)] at spec
      exact spec
    case absent =>
      have spec := unsyncAll_spec s (fun r => !member (descAt s r).publisher s.tc.roster) .publisherAbsent rfl
      rw [moved (p := fun r => !member (descAt s r).publisher s.tc.roster)
        (P := fun r q => follows q ∧ s.tc.roster.getLsbD (descAt s r).publisher.val = false) fun r q =>
        and_congr (following_iff q) (Bool.not_eq_true' _).to_iff] at spec
      exact spec

end Sys2Proof.Machine
end

section
/-! SUPPORT. The timers of the turn controller, the master's next step, the cycle start, the lapse of a member's turn and the
turnaround gap. -/

namespace Sys2Proof.Machine

/-! ## Timers that let the master go on (R113, R115 to R118, R155) -/

theorem missWatch_eq {s : State} {w : Watch} (h : s.tc.watch = some w) :
    missWatch s = masterNext { s with tc := afterMiss s.tc s.params w } := by
  rw [missWatch, h]
  exact endWatch_miss s w

theorem masterNext_break {s : State} (h : s.tc.breakDue = true) :
    masterNext s = { s with tc := { s.tc with phase := .breaking, gap := .counting s.tc.lineLast } } := by
  rw [masterNext, if_pos h]
  rfl

/-- Settles O40: each timer by what it lets the master go on to. -/
theorem timersLetTheMasterGoOn : Obligations.TimersLetTheMasterGoOn := by
  refine ⟨fun s w hw => ⟨fun reply => ?reply, fun silence => ?silence, fun frames => ?frames⟩, fun s =>
    ⟨fun hp running => ?pause, fun hp running due serves => ?wait, fun htx => ?high⟩⟩
  case reply =>
    refine (when_eq (by rw [replyRuns, hw]; exact reply)).trans ?_
    rw [replyExpires, missWatch_eq (s := { s with tc := { s.tc with lineLast := nowTick s } }) hw]
    rfl
  case silence =>
    refine (when_eq (by rw [silenceRuns, hw]; exact silence)).trans ?_
    rw [silenceExpires, missWatch_eq (s := { s with tc := { s.tc with breakDue := true } }) hw]
  case frames =>
    refine (when_eq (by rw [framesReached, hw]; exact decide_eq_true frames)).trans ?_
    rw [missWatch_eq hw]
  case pause => exact when_eq (by rw [pauseRuns, decide_eq_true hp, running]; rfl)
  case wait =>
    refine done_serves serves rfl ((when_eq (by rw [silenceWaits, decide_eq_true hp, running]; rfl)).trans ?_)
    rw [silenceWaitOver, masterNext_break (s := { s with tc := { s.tc with silenceFrom := none } }) due]
  case high =>
    refine (when_eq (decide_eq_true htx)).trans ?_
    rw [breakEnds, setLineRx_arming]
    rfl

/-! ## The master's next step (R113, R114, R117) -/

theorem masterNext_cycle {s : State} (h : s.tc.breakDue = false) (hn : s.tc.next = .cycleStart) : masterNext s = cycleStart s := by
  simp only [masterNext, h, hn, Bool.false_eq_true, if_false]

theorem masterNext_pause {s : State} (h : s.tc.breakDue = false) (hn : s.tc.next = .pause) : masterNext s = startPause s := by
  simp only [masterNext, h, hn, Bool.false_eq_true, if_false]

theorem masterNext_polls {s : State} {st : StationId} (h : s.tc.breakDue = false) (hn : s.tc.next = .poll)
    (hp : pollTarget s = some st) : masterNext s = sendPoll s .polling st s.params.budget := by
  simp only [masterNext, h, hn, hp, Bool.false_eq_true, if_false]

theorem masterNext_probes {s : State} (h : s.tc.breakDue = false) (hn : s.tc.next = .poll) (hp : s.tc.pollPos = none) :
    masterNext s = probeOrPause s := by
  simp only [masterNext, h, hn, pollTarget, hp, Option.bind_none, Bool.false_eq_true, if_false]

theorem mem_probeOrder (p st : StationId) : st ∈ probeOrder p ↔ 1 ≤ st.val ∧ st.val ≤ 14 := by
  unfold probeOrder
  rw [List.mem_filter, Bool.and_eq_true, decide_eq_true_eq, decide_eq_true_eq, and_iff_right (mem_idsAfter p st), Ne, Ne,
    Fin.ext_iff, Fin.ext_iff]
  have := st.isLt
  show ¬ st.val = 0 ∧ ¬ st.val = 15 ↔ _
  omega

theorem probeOrder_sorted (p : StationId) : (probeOrder p).Pairwise fun x y => placeAfter p x < placeAfter p y :=
  (idsAfter_sorted p).filter _

/-- A station that may be probed: an id 1..14 outside the roster. -/
def Probable (s : State) (st : StationId) : Prop := 1 ≤ st.val ∧ st.val ≤ 14 ∧ s.tc.roster.getLsbD st.val = false

theorem probeTarget_none (s : State) : probeTarget s = none ↔ ∀ st, ¬ Probable s st := by
  unfold probeTarget member Probable
  rw [List.find?_eq_none]
  simp only [mem_probeOrder, Bool.not_eq_true', not_and, Bool.not_eq_false, and_imp]

theorem probeTarget_least {s : State} {st : StationId} (h : probeTarget s = some st) :
    Probable s st ∧ ∀ q, Probable s q → placeAfter s.tc.probePos st ≤ placeAfter s.tc.probePos q := by
  obtain ⟨outside, least⟩ := find_least (placeAfter s.tc.probePos) _ (probeOrder_sorted _) st h
  obtain ⟨low, high⟩ := (mem_probeOrder _ _).mp (List.mem_of_find?_eq_some h)
  exact ⟨⟨low, high, (Bool.not_eq_true' _).mp outside⟩, fun q ⟨qlow, qhigh, qout⟩ =>
    least q ((mem_probeOrder _ _).mpr ⟨qlow, qhigh⟩) ((Bool.not_eq_true' _).mpr qout)⟩

theorem probeTarget_some (s : State) (st : StationId) : probeTarget s = some st ↔
    Probable s st ∧ ∀ q, Probable s q → placeAfter s.tc.probePos st ≤ placeAfter s.tc.probePos q := by
  refine ⟨probeTarget_least, fun ⟨outside, least⟩ => ?_⟩
  cases found : probeTarget s with
  | none => exact absurd outside ((probeTarget_none s).mp found st)
  | some q =>
    obtain ⟨qout, qleast⟩ := probeTarget_least found
    exact congrArg some (placeAfter_inj _ _ _ (Nat.le_antisymm (qleast st outside) (least q qout)))

/-- Settles O41: the next step by what is due and by the poll position; the probed station as the least of an order. -/
theorem masterTakesTheNextStep : Obligations.MasterTakesTheNextStep := by
  refine ⟨fun s _ buffer => ⟨masterNext_break, fun i st due next hp hl => ?poll, fun st due next hp ht => ?probe,
    fun due next => ?pause, fun due next => ?cycle⟩, fun s => ⟨probeTarget_some s, (probeTarget_none s).trans ?none⟩⟩
  case poll =>
    have target : pollTarget s = some st := by rw [pollTarget, hp]; exact hl
    rw [masterNext_polls due next target]
    exact sendPoll_eq .polling st s.params.budget buffer
  case probe =>
    rw [masterNext_probes due next hp, probeOrPause, ht]
    exact sendPoll_eq (s := { s with tc := { s.tc with probePos := st, next := .pause } }) .probing st 0 buffer
  case pause =>
    rcases next with next | ⟨next, hp, ht⟩
    · rw [masterNext_pause due next]
      rfl
    · rw [masterNext_probes due next hp, probeOrPause, ht]
      rfl
  case cycle => exact masterNext_cycle due next
  case none =>
    unfold Probable
    simp only [not_and, Bool.not_eq_false]

/-! ## The cycle start (R48, R49, R58, R112) -/

theorem applyRosterChanges_eq (s : State) : applyRosterChanges s =
    if (rosterUpdated s).tc.roster = s.tc.roster then rosterUpdated s else rosterChanged (rosterUpdated s) := rfl

/-- What `rosterUpdated` makes of the state: the events of the stations lost and joined, and four fields of the turn controller. -/
theorem rosterUpdated_eq (s : State) : rosterUpdated s =
    { ((members s.tc.additions).map (stationJoined s)).foldl post
        (((members s.tc.removals).map (stationLost s)).foldl post s) with
      tc := { s.tc with
        roster := (members s.tc.additions).foldl (fun x st => addStation st x)
          ((members s.tc.removals).foldl (fun x st => dropStation st x) s.tc.roster)
        misses := (members s.tc.additions).foldl (fun m st => m.set st.val 0 st.isLt)
          ((members s.tc.removals).foldl (fun m st => m.set st.val 0 st.isLt) s.tc.misses)
        removals := 0, additions := 0 } } := by
  unfold rosterUpdated
  rw [removed_eq, joined_after s _ { s.tc with
    roster := (members s.tc.removals).foldl (fun x st => dropStation st x) s.tc.roster
    misses := (members s.tc.removals).foldl (fun m st => m.set st.val 0 st.isLt) s.tc.misses } _ rfl]

theorem rosterUpdated_rest (s : State) : (rosterUpdated s).tc.cycle = s.tc.cycle ∧
    (rosterUpdated s).tc.lineLast = s.tc.lineLast ∧ (rosterUpdated s).params = s.params := by
  rw [rosterUpdated_eq]
  refine ⟨rfl, rfl, ?_⟩
  exact (foldl_post_rest _ _).2.trans (foldl_post_rest _ _).2

/-- Settles O42: the cycle start by its parts, the roster and the miss counts station by station. -/
theorem cycleStartOpensTheOwnTurn : Obligations.CycleStartOpensTheOwnTurn := by
  refine ⟨fun s => ?start, fun s => ?roster⟩
  case start =>
    intro x c l tc u
    obtain ⟨cycle, lineLast, params⟩ := rosterUpdated_rest s
    have after : c.tc.cycle = s.tc.cycle ∧ c.tc.lineLast = s.tc.lineLast ∧ c.params = s.params := by
      simp only [c]
      split
      · exact ⟨cycle, lineLast, params⟩
      · obtain ⟨htc, hparams⟩ := rosterChanged_rest x
        rw [htc, hparams]
        exact ⟨cycle, lineLast, params⟩
    obtain ⟨ccycle, clineLast, cparams⟩ := after
    have changed : applyRosterChanges s = c := applyRosterChanges_eq s
    unfold cycleStart
    dsimp only
    rw [changed, fixPollList_eq, openTurn_eq]
    simp only [awaitGap, u, tc, l, ccycle, clineLast, cparams]
  case roster =>
    intro t out in_
    have updated : t = _ := rosterUpdated_eq s
    refine ⟨?_, ?_, fun st => ?_, fun st => ⟨rfl, rfl⟩, fun _ => rfl⟩
    · rw [updated]
    · rw [updated]
      refine BitVec.eq_of_getLsbD_eq fun i hi => ?_
      rw [add_bits _ i hi, drop_bits _ i hi, members_any _ i hi, members_any _ i hi, BitVec.getLsbD_or, BitVec.getLsbD_and,
        BitVec.getLsbD_not, decide_eq_true hi, Bool.true_and]
    · rw [updated]
      show Vector.get (List.foldl _ _ _) st = _
      rw [miss_get, miss_get]
      simp only [mem_members]
      rw [← ite_or]
      exact if_congr or_comm rfl rfl

/-! ## The lapse of a member's turn (R57, R100, R122, R124, R158) -/

theorem returnable_first_iff (s : State) (r : RegionId) (q : Byte) (n : Nat) :
    ((pubAt s r).any fun p => decide (p.epoch = n) && p.retained.any fun b => decide (b.seq = some q) && !b.sent) = true ↔
      ∃ p b, pubAt s r = some p ∧ p.epoch = n ∧ b ∈ p.retained ∧ b.seq = some q ∧ b.sent = false := by
  simp only [Option.any_eq_true, Bool.and_eq_true, decide_eq_true_eq, List.any_eq_true, Bool.not_eq_true']
  exact ⟨fun ⟨p, hp, hn, b, hb, hq, unsent⟩ => ⟨p, b, hp, hn, hb, hq, unsent⟩,
    fun ⟨p, b, hp, hn, hb, hq, unsent⟩ => ⟨p, hp, hn, b, hb, hq, unsent⟩⟩

theorem chunkListed_iff (l : List TurnEntry) (r : RegionId) (serial : Nat) :
    (l.any fun e => match e with | .chunk q _ n => decide (q = r) && decide (n = serial) | _ => false) = true ↔
      ∃ k, .chunk r k serial ∈ l := by
  rw [List.any_eq_true]
  constructor
  · rintro ⟨e, he, h⟩
    cases e with
    | chunk q k n =>
      rw [Bool.and_eq_true, decide_eq_true_eq, decide_eq_true_eq] at h
      obtain ⟨rfl, rfl⟩ := h
      exact ⟨k, he⟩
    | first => cases h
    | repeated => cases h
  · rintro ⟨k, hk⟩
    exact ⟨_, hk, by simp⟩

theorem setBackRecord_listed {l : List TurnEntry} {r : RegionId} {p : PubRecord} {c : Pass} {k : Nat} (hc : p.pass = some c)
    (h : .chunk r k c.serial ∈ l) : setBackRecord l r p = { p with pass := some { c with
      nextChunk := c.sentCount, settle := none, baseSeq := if c.sentCount = 0 then none else c.baseSeq } } := by
  unfold setBackRecord
  rw [hc]
  exact if_pos ((chunkListed_iff l r c.serial).mpr ⟨k, h⟩)

theorem setBackRecord_unlisted {l : List TurnEntry} {r : RegionId} {p : PubRecord}
    (h : ∀ c k, p.pass = some c → .chunk r k c.serial ∉ l) : setBackRecord l r p = p := by
  unfold setBackRecord
  cases hc : p.pass with
  | none => rfl
  | some c =>
    exact if_neg fun listed => by
      obtain ⟨k, hk⟩ := (chunkListed_iff l r c.serial).mp listed
      exact h c k hc hk

theorem setBack_published {s : State} {r : RegionId} {p : PubRecord} (hp : pubAt s r = some p) :
    regionAt (setBackPasses s) r = { desc := descAt s r, record := .published (setBackRecord s.del.turnList r p) } := by
  rw [setBack_at, mapPub, regionAt_pub hp]
  rfl

theorem setBack_unpublished {s : State} {r : RegionId} (h : pubAt s r = none) :
    regionAt (setBackPasses s) r = regionAt s r := by
  rw [setBack_at, mapPub]
  unfold pubAt at h
  cases hr : (regionAt s r).record with
  | published p => rw [hr] at h; cases h
  | off => rfl
  | subscribed q => rfl

theorem memberAborted_rest (s : State) : (memberAborted s).line = s.line ∧ (memberAborted s).clock = s.clock ∧
    (memberAborted s).path = { s.path with snap := false } := by
  unfold memberAborted turnAborted
  generalize (setBackPasses s).regions = table
  exact ⟨rfl, rfl, rfl⟩

theorem lapse_eq (s : State) : lapse s = { memberAborted s with
    line := { s.line with
      tx := .idle, txSince := s.clock.ticks, fault := none, rx := if s.line.rx = .echo then .arming else s.line.rx
      sampling := if s.line.rx = .echo then sampledAnew s else s.line.sampling } } := by
  obtain ⟨line, clock, _⟩ := memberAborted_rest s
  rw [lapse, abortMemberTurn_eq, cutTransmission_eq]
  simp only [sampledAnew, line, clock]

/-- Settles O43: the lapse as an abort and a cut transmission; what returns and what is set back, entry by entry. -/
theorem lapseAbortsTheMembersTurn : Obligations.LapseAbortsTheMembersTurn := by
  refine ⟨fun s t serves ht own htx => ?lapse, fun s r q n => ⟨fun waits => ?returns, fun gone => ?stays, rfl, fun _ => rfl⟩,
    fun s r => ⟨fun p c k hp hc listed => ?back, fun p hp unlisted => ?kept, setBack_unpublished⟩⟩
  case lapse =>
    have lapses : mayLapse s = true := by
      rw [mayLapse, memberTurnOpen, ht, Option.any_some, decide_eq_true own, Bool.true_and, Bool.or_eq_true, decide_eq_true_eq,
        decide_eq_true_eq]
      exact htx
    have path : (lapse s).path = { s.path with snap := false } := by
      rw [lapse_eq]
      exact (memberAborted_rest s).2.2
    rw [← lapse_eq]
    exact served_next (when_eq lapses) (serves_snap serves path)
  case returns => exact if_pos ((returnable_first_iff s r q n).mpr waits)
  case stays => exact if_neg fun listed => gone ((returnable_first_iff s r q n).mp listed)
  case back => rw [setBack_published hp, setBackRecord_listed hc listed]
  case kept => rw [setBack_published hp, setBackRecord_unlisted unlisted]

/-! ## The turnaround gap (R113, R122, R140, R154, R155) -/

theorem beginBreak_eq (s : State) : beginBreak s = { echoEntered s with
    line := { (echoEntered s).line with tx := .breakLow, txSince := s.clock.ticks, fault := none }
    tc := { (echoEntered s).tc with gap := .notAwaited } } := by
  unfold beginBreak setTx nowTick
  rw [enterEcho_eq, ← echoEntered_clock s]

theorem echoEntered_sameTc (s : State) : (echoEntered s).tc = s.tc := (congrArg State.tc (echoEntered_tc s s.tc) :)

/-- Settles O44: the gap by what waits for it. -/
theorem turnaroundGapBeginsTheStep : Obligations.TurnaroundGapBeginsTheStep := by
  intro s since ht htx hg t drive
  have runs : gapRuns s = true := by
    rw [gapRuns, hg, isRunning, decide_eq_true ht, decide_eq_true htx]
    rfl
  have passes {u : State} (h : gapPasses s = u) : exec .turnaroundGap s = .next (settle s u) := by
    subst h
    exact when_eq runs
  refine ⟨fun hp => passes ?breaks, fun hp some => passes ?frame, fun hp none => passes ?none⟩
  case breaks =>
    rw [gapPasses, if_pos hp]
    exact beginBreak_eq s
  case frame =>
    have waits : s.fu.lineBuf.isNone = false := by rw [← Option.not_isSome, some]; rfl
    rw [gapPasses, if_neg hp, tryBegin_eq (by exact waits), if_pos (.inr ⟨htx, rfl⟩), beginFrame_eq, echoEntered_tc]
    simp only [drive, t, echoEntered_sameTc]
  case none =>
    rw [gapPasses, if_neg hp, tryBegin, none]
    rfl

end Sys2Proof.Machine
end

section
/-! SUPPORT. The line states: what moves them on, and what a sample tick does in each of them. -/

namespace Sys2Proof.Machine

/-! ## The line states that a command moves on (R147, R148, R152, R154, R155) -/

/-- The outcome of a step that leaves the memory path alone, by the state that it makes. -/
theorem moved_next {o : Host.Outcome State Fault Refusal} {s u v : State} (serves : PortServes s) (h : o = .next (settle s u))
    (e : u = v) (hp : v.path = s.path) : ∃ t, o = .next t ∧ unmarked t = unmarked v := by
  subst e
  exact done_serves serves hp h

theorem startVoted_valid {s : State} {v : Vote} {f : LineFormat} (hf : s.line.format = some f) (hv : majority v = false) :
    startVoted s v = { s with line := { s.line with
      rx := .character v, gapFrom := none, sampling := { sampledAnew s with sample := some (f.samplesPerBit / 2 + 1) } } } := by
  rw [startVoted, if_neg (by rw [hv]; exact Bool.false_ne_true), setLineRx, samplingAt]
  dsimp only
  rw [hf]
  rfl

theorem startVoted_false {s : State} {v : Vote} (hr : s.line.rx = .idle) (hv : majority v = true) :
    startVoted s v = { s with line := { s.line with sampling := sampledAnew s } } := by
  rw [startVoted, if_pos hv, setLineRx_idle, ← hr]

theorem setLineRx_inBreak {s : State} {f : LineFormat} (hf : s.line.format = some f) :
    setLineRx s .inBreak = { s with line := { s.line with
      rx := .inBreak
      sampling := { sampledAnew s with
        sample := some (max (2 * charBits f * f.samplesPerBit - f.samplesPerBit / 2) (s.line.sampling.sample.getD 0)) } } } := by
  rw [setLineRx, samplingAt, hf]
  rfl

theorem postHeldFraming_none {s : State} (h : s.fu.heldFraming = none) : postHeldFraming s = s := by
  rw [postHeldFraming, h]

theorem postHeldFraming_some {s : State} {e : Event} (h : s.fu.heldFraming = some e) : postHeldFraming s =
    if s.top = .running then post { s with fu := { s.fu with heldFraming := none } } e
    else { s with fu := { s.fu with heldFraming := none } } := by
  rw [postHeldFraming, h]
  exact post_running _ _

theorem lowWatching_of {s : State} {z : Bool} (h : s.line.rx = .lowWatch z) : lowWatching s = true := by
  rw [lowWatching, h]

/-- The whole frames that the model takes as one event (log 4). -/
def wholeFrames (source : StationId) (cycle budget : Byte) (d : DataFrame) (k : ChunkFrame) (y : YieldFrame) : List Instr :=
  [.pollReceived source cycle budget, .dataReceived source d, .chunkReceived source k, .yieldReceived source y]

/-- A whole frame is one that the receiver takes if it looks for a start. -/
theorem wholeFrame_exec {source : StationId} {cycle budget : Byte} {d : DataFrame} {k : ChunkFrame} {y : YieldFrame} {c : Instr}
    (hc : c ∈ wholeFrames source cycle budget d k y) (s : State) :
    ∃ f : Frame, exec c s = when s (hearsFrames s) (frameReceived s source f) := by
  simp only [wholeFrames, List.mem_cons, List.not_mem_nil, or_false] at hc
  rcases hc with rfl | rfl | rfl | rfl
  · exact ⟨.poll s.straps.stn cycle budget, rfl⟩
  · exact ⟨.data d, rfl⟩
  · exact ⟨.chunk k, rfl⟩
  · exact ⟨.yield y, rfl⟩

/-! ## A sample tick by the receiver's state (R136, R147 to R149, R152, R153) -/

theorem sampleReceiver_seeks {s : State} {f : LineFormat} {b : Bool}
    (h : s.line.rx = .idle ∨ ∃ v, s.line.rx = .character v) :
    sampleReceiver s f b = (seekStart f s.line.sampling b, s.line.fault) := by
  rcases h with h | ⟨v, h⟩ <;> simp only [sampleReceiver, h]

theorem sampleReceiver_low {s : State} {f : LineFormat} {b : Bool} (h : (∃ z, s.line.rx = .lowWatch z) ∨ s.line.rx = .inBreak) :
    sampleReceiver s f b = (watchLow s.line.sampling b, s.line.fault) := by
  rcases h with ⟨z, h⟩ | h <;> simp only [sampleReceiver, h]

theorem seekStart_edge {f : LineFormat} {p : Sampling} {b : Bool} (h : p.sample = none) :
    (seekStart f p b).sample = if p.level = true ∧ b = false then some 0 else none := by
  unfold seekStart
  rw [h]
  cases p.level <;> cases b <;> simp [h]

theorem seekStart_next {f : LineFormat} {p : Sampling} {b : Bool} {j : Nat} (h : p.sample = some j) :
    seekStart f p b = nextSample f p (j + 1) b := by
  rw [seekStart, h]

theorem isCentre_iff (f : LineFormat) (j : Nat) : isCentre f j = true ↔
    f.samplesPerBit / 2 - 1 ≤ j % f.samplesPerBit ∧ j % f.samplesPerBit ≤ f.samplesPerBit / 2 + 1 := by
  rw [isCentre, Bool.and_eq_true, decide_eq_true_eq, decide_eq_true_eq]
  omega

theorem nextSample_centre (f : LineFormat) (p : Sampling) (j : Nat) (b : Bool) : (nextSample f p j b).centre =
    if f.samplesPerBit / 2 - 1 ≤ j % f.samplesPerBit ∧ j % f.samplesPerBit ≤ f.samplesPerBit / 2 + 1 then p.centre ++ [b]
    else p.centre :=
  if_congr (isCentre_iff f j) rfl rfl

/-- The third centre sample of the start bit completes its vote. -/
theorem nextSample_start {f : LineFormat} {p : Sampling} {b x y : Bool} (hN : 8 ≤ f.samplesPerBit) (hc : p.centre = [x, y]) :
    latestVote (nextSample f p (f.samplesPerBit / 2 + 1) b).centre = voteOf x y b := by
  have inBit : (f.samplesPerBit / 2 + 1) % f.samplesPerBit = f.samplesPerBit / 2 + 1 := Nat.mod_eq_of_lt (by omega)
  rw [nextSample_centre, inBit, if_pos (by omega), hc]
  rfl

theorem charSamples_get {l : List Bool} {k : Nat} {x y z : Bool} (hx : l[3 * k]? = some x) (hy : l[3 * k + 1]? = some y)
    (hz : l[3 * k + 2]? = some z) : (charSamples l)[k]? = some (voteOf x y z) := by
  have vote := votesOf_get l k x y z hx hy hz
  unfold charSamples
  dsimp only
  rw [List.getElem?_append_left (List.getElem?_eq_some_iff.mp vote).1]
  exact vote

theorem atSample_iff {s : State} {f : LineFormat} (n : LineFormat → Nat) (hf : s.line.format = some f) :
    atSample s n = true ↔ s.line.sampling.sample = some (n f) := by
  rw [atSample, hf, Option.any_some, decide_eq_true_eq]

theorem runOfOnes_zero (n : Nat) (b : Bool) : runOfOnes n b = 0 ↔ b = false := by
  cases b <;> simp [runOfOnes]

theorem dueSampled_arming {s : State} {f : LineFormat} (hr : s.line.rx = .arming) (hf : s.line.format = some f) :
    .receiverArmed ∈ dueSampled s ↔ f.samplesPerBit ≤ s.line.sampling.ones := by
  simp only [dueSampled, hr, hf, mem_dueIf, Option.any_some, decide_eq_true_eq, and_true]

theorem dueSampled_idle {s : State} {f : LineFormat} (hr : s.line.rx = .idle) (hf : s.line.format = some f) (v : Vote) :
    .startBitVote v ∈ dueSampled s ↔
      s.line.sampling.sample = some (startSample f) ∧ v = latestVote s.line.sampling.centre := by
  simp only [dueSampled, hr, mem_dueIf, atSample_iff _ hf, Instr.startBitVote.injEq]

theorem dueSampled_character {s : State} {f : LineFormat} {v : Vote} (hr : s.line.rx = .character v)
    (hf : s.line.format = some f) (xs : List Vote) : .characterReceived xs ∈ dueSampled s ↔
      s.line.sampling.sample = some (lastSample f) ∧ xs = charSamples s.line.sampling.centre := by
  simp only [dueSampled, hr, mem_dueIf, atSample_iff _ hf, Instr.characterReceived.injEq]

theorem dueSampled_return {s : State} {z : Bool} (hr : s.line.rx = .lowWatch z) :
    .lowWatchReturn ∈ dueSampled s ↔ 3 ≤ s.line.sampling.ones := by
  simp [dueSampled, hr, mem_dueIf]

theorem dueSampled_breakLength {s : State} {f : LineFormat} {z : Bool} (hr : s.line.rx = .lowWatch z)
    (hf : s.line.format = some f) : .breakLengthReached ∈ dueSampled s ↔
      z = true ∧ s.line.sampling.ones = 0 ∧ breakTicks f ≤ s.line.sampling.sample.getD 0 := by
  simp [dueSampled, hr, hf, mem_dueIf, and_assoc]

theorem dueSampled_reset {s : State} (hr : s.line.rx = .inBreak) (n : Nat) : .lineReset n ∈ dueSampled s ↔
    3 ≤ s.line.sampling.ones ∧ n = s.line.sampling.sample.getD 0 - 2 := by
  simp only [dueSampled, hr, mem_dueIf, decide_eq_true_eq, Instr.lineReset.injEq]

theorem inReception_iff (s : State) : inReception s = true ↔ s.fu.rx ≠ .idle := by
  unfold inReception
  cases s.fu.rx <;> simp

theorem dueGap_iff (s : State) : dueGap s = true ↔ s.fu.rx ≠ .idle ∧
    (∃ g, s.line.gapFrom = some g ∧ charsPassed s g 2 = true) ∧
    ¬ (s.line.rx = .idle ∧ s.line.sampling.sample.isSome = true) := by
  unfold dueGap gapMeasured startPending
  cases s.line.gapFrom with
  | none => simp
  | some g =>
    simp only [Bool.and_eq_true, inReception_iff, Option.isSome_some, and_true, Bool.not_eq_true', Option.any_some,
      Option.some.injEq, exists_eq_left', Bool.and_eq_false_iff, decide_eq_false_iff_not, not_and_or, Bool.not_eq_true]
    tauto

theorem charsPassed_format {s : State} {f : LineFormat} (hf : s.line.format = some f) (q n : Nat) :
    charsPassed s q n = true ↔ q + n * (charBits f * f.samplesPerBit) ≤ s.clock.ticks := by
  rw [charsPassed_iff, hf]
  simp only [Option.some.injEq, exists_eq_left']

/-- What a sample tick leaves: the line of `u`, whose dues join the queue. -/
structure TickLeaves (s : State) (f : LineFormat) (b : Bool) (u : State) : Prop where
  next : step s = .next (queueDue u)
  due : ∀ c, c ∈ dueOf (queueDue u) ↔ c ∈ dueNow u
  line : u.line = { s.line with
    sampling := { (sampleReceiver (tickClock s) f b).1 with level := b }, fault := (sampleReceiver (tickClock s) f b).2
    lrx := u.line.lrx }
  ticks : u.clock.ticks = s.clock.ticks + 1
  fu : u.fu = s.fu

theorem tickLeaves {s : State} {f : LineFormat} {b : Bool} {rest : List Bool} (h : SampleTick s f) (hl : s.line.lrx = b :: rest) :
    ∃ u, TickLeaves s f b u := by
  obtain ⟨u, _, next, _, due, line, ticks, fu⟩ := sampleTick_line h hl
  exact ⟨u, next, due, by rw [line], ticks, fu⟩

section
variable {s u : State} {f : LineFormat} {b : Bool} (t : TickLeaves s f b u)
include t

theorem TickLeaves.rx : u.line.rx = s.line.rx := by rw [t.line]

theorem TickLeaves.format : u.line.format = s.line.format := by rw [t.line]

theorem TickLeaves.gapFrom : u.line.gapFrom = s.line.gapFrom := by rw [t.line]

theorem TickLeaves.sampling : u.line.sampling = { (sampleReceiver (tickClock s) f b).1 with level := b } := by rw [t.line]

theorem TickLeaves.fault : u.line.fault = (sampleReceiver (tickClock s) f b).2 := by rw [t.line]

theorem TickLeaves.seeks (h : s.line.rx = .idle ∨ ∃ v, s.line.rx = .character v) :
    u.line.sampling = { seekStart f s.line.sampling b with level := b } := by
  rw [t.sampling, sampleReceiver_seeks (s := tickClock s) h]
  rfl

theorem TickLeaves.samples {j : Nat} (h : s.line.rx = .idle ∨ ∃ v, s.line.rx = .character v)
    (hj : s.line.sampling.sample = some j) :
    u.line.sampling = { nextSample f s.line.sampling (j + 1) b with level := b } := by
  rw [t.seeks h, seekStart_next hj]

theorem TickLeaves.low (h : (∃ z, s.line.rx = .lowWatch z) ∨ s.line.rx = .inBreak) :
    u.line.sampling = { watchLow s.line.sampling b with level := b } := by
  rw [t.sampling, sampleReceiver_low (s := tickClock s) h]
  rfl

theorem TickLeaves.sampled {c : Instr} (h : fromSampling c = true) : c ∈ dueOf (queueDue u) ↔ c ∈ dueSampled u :=
  (t.due c).trans (mem_dueNow_sampled u h)

theorem TickLeaves.startVote {j : Nat} {x y : Bool} (hf : s.line.format = some f) (hN : 8 ≤ f.samplesPerBit)
    (hr : s.line.rx = .idle) (hj : s.line.sampling.sample = some j) (hc : s.line.sampling.centre = [x, y]) (v : Vote) :
    .startBitVote v ∈ dueOf (queueDue u) ↔
      j + 1 = f.samplesPerBit / 2 + 1 ∧ v.getLsbD 0 = x ∧ v.getLsbD 1 = y ∧ v.getLsbD 2 = b := by
  rw [t.sampled rfl, dueSampled_idle (t.rx.trans hr) (t.format.trans hf), t.samples (.inl hr) hj]
  show some (j + 1) = some (f.samplesPerBit / 2 + 1) ∧ v = latestVote (nextSample f s.line.sampling (j + 1) b).centre ↔ _
  rw [Option.some.injEq]
  refine and_congr_right fun atStart => ?_
  rw [atStart, nextSample_start hN hc, voteOf_iff]

theorem TickLeaves.character {j : Nat} {v : Vote} (hf : s.line.format = some f) (hr : s.line.rx = .character v)
    (hj : s.line.sampling.sample = some j) (xs : List Vote) : .characterReceived xs ∈ dueOf (queueDue u) ↔
      j + 1 = (charBits f - 1) * f.samplesPerBit + f.samplesPerBit / 2 + 1 ∧ xs = charSamples u.line.sampling.centre := by
  rw [t.sampled rfl, dueSampled_character (t.rx.trans hr) (t.format.trans hf), t.samples (.inr ⟨v, hr⟩) hj]
  show some (j + 1) = some (lastSample f) ∧ _ ↔ _
  rw [Option.some.injEq]
  rfl

theorem TickLeaves.gap (hf : s.line.format = some f) : .gap ∈ dueOf (queueDue u) ↔ s.fu.rx ≠ .idle ∧
    (∃ g, s.line.gapFrom = some g ∧ g + 2 * (charBits f * f.samplesPerBit) ≤ s.clock.ticks + 1) ∧
    ¬ (s.line.rx = .idle ∧ u.line.sampling.sample.isSome = true) := by
  rw [t.due, mem_dueNow_gap, dueGap_iff, t.fu, t.gapFrom, t.rx]
  simp only [charsPassed_format (t.format.trans hf), t.ticks]

end

/-- Settles O45: the states that a command moves on, and a sample tick state by state. -/
theorem lineStatesMoveOn : Obligations.LineStatesMoveOn := by
  refine ⟨fun s serves => ?moves, fun s f b rest tick hl hN => ?ticks⟩
  case moves =>
    refine ⟨fun h => ?_, fun h => ?_, fun h => ?_, fun v f h hf hv => ?_, fun v h hv => ?_, fun f h hf => ?_, fun h => ?_,
      fun z h none => ?_, fun z e h some run => ?_, fun z e h some idle => ?_, fun source cycle budget d k y c hc => ⟨fun h => ?_,
        fun h idle => ?_⟩⟩
    · exact moved_next serves (when_eq (decide_eq_true h)) rfl rfl
    · exact moved_next serves (when_eq (decide_eq_true h)) (setLineRx_arming _) rfl
    · exact moved_next serves (when_eq (decide_eq_true h)) (setLineRx_idle s) rfl
    · exact moved_next serves (when_eq (decide_eq_true h)) (startVoted_valid hf hv) rfl
    · exact moved_next serves (when_eq (decide_eq_true h)) (startVoted_false h hv) rfl
    · exact moved_next serves (when_eq (decide_eq_true h)) (setLineRx_inBreak hf) rfl
    · refine moved_next serves (u := s) ?_ rfl rfl
      show when s (decide (s.line.rx = .lowWatch true)) _ = _
      rw [h]
      rfl
    · refine moved_next serves (when_eq (lowWatching_of h)) ?_ rfl
      rw [setLineRx_idle]
      exact postHeldFraming_none none
    · refine moved_next serves (when_eq (lowWatching_of h)) ?_ (by rw [post_eq])
      rw [setLineRx_idle]
      exact (postHeldFraming_some (by exact some)).trans (if_pos run)
    · refine moved_next serves (when_eq (lowWatching_of h)) ?_ rfl
      rw [setLineRx_idle]
      exact (postHeldFraming_some (by exact some)).trans (if_neg idle)
    · obtain ⟨x, hx⟩ := wholeFrame_exec hc s
      refine moved_next serves (u := s) (hx.trans ?_) rfl rfl
      rw [hearsFrames_not h]
      rfl
    · obtain ⟨x, hx⟩ := wholeFrame_exec hc s
      refine moved_next serves ((hx.trans (frame_exec h)).trans ?_) rfl rfl
      rw [handOn_outside (s := heardAt s s.clock.ticks) source x idle]
  case ticks =>
    obtain ⟨_, _, _, hf, _⟩ := id tick
    obtain ⟨u, t⟩ := tickLeaves tick hl
    refine ⟨queueDue u, t.next, ?_⟩
    rw [queueDue_line]
    refine ⟨by rw [t.sampling], fun hr => ?off, fun hr => ?arming, fun hr none => ?edge, fun j hr hj => ?next,
      fun j x y v hr hj hc => t.startVote hf hN hr hj hc v, fun j v hr hj => ?character, fun j hr hj => ?low,
      fun j z hr hj => ?lowWatch, fun j n hr hj => ?inBreak, t.gap hf⟩
    case off =>
      rw [t.sampling]
      simp only [sampleReceiver, show (tickClock s).line = s.line from rfl, hr]
    case arming =>
      have ones : u.line.sampling.ones = runOfOnes s.line.sampling.ones b := by
        rw [t.sampling]
        simp only [sampleReceiver, show (tickClock s).line = s.line from rfl, hr]
      exact ⟨ones, by rw [t.sampled rfl, dueSampled_arming (t.rx.trans hr) (t.format.trans hf), ones]; rfl⟩
    case edge =>
      rw [t.seeks (.inl hr)]
      exact seekStart_edge none
    case next =>
      rw [t.samples hr hj]
      exact ⟨rfl, nextSample_centre f s.line.sampling (j + 1) b⟩
    case character =>
      refine ⟨fun xs due => ((t.character hf hr hj xs).mp due).1, fun last =>
        ⟨_, (t.character hf hr hj _).mpr ⟨last, rfl⟩, fun k x y z hx hy hz => ?_⟩⟩
      exact ⟨_, charSamples_get hx hy hz, voteOf_bits x y z⟩
    case low =>
      rw [t.low hr]
      simp only [watchLow, hj]
      exact ⟨rfl, rfl⟩
    case lowWatch =>
      rw [t.sampled rfl, t.sampled rfl, dueSampled_return (t.rx.trans hr),
        dueSampled_breakLength (t.rx.trans hr) (t.format.trans hf), t.low (.inl ⟨z, hr⟩)]
      simp only [watchLow, hj, runOfOnes_zero]
      exact ⟨Iff.rfl, Iff.rfl⟩
    case inBreak =>
      rw [t.sampled rfl, dueSampled_reset (t.rx.trans hr), t.low (.inr hr)]
      simp only [watchLow, hj]
      rfl

end Sys2Proof.Machine
end

section
/-! SUPPORT. The echo check and the collision: what a sample tick finds in ECHO, when the collision is due, and how it ends the
step. -/

namespace Sys2Proof.Machine

/-! ## The end of the step (R118, R124, R143, R157) -/

theorem collidable_of {s : State} {f : EchoFault} (ht : s.top = .running) (hc : f ≠ .contention → s.line.tx = .character)
    (hh : f = .contention → s.line.tx = .holding false) : collidable s f = true := by
  unfold collidable isRunning
  rw [decide_eq_true ht, Bool.true_and]
  cases f with
  | mismatch => exact decide_eq_true (hc nofun)
  | framing => exact decide_eq_true (hc nofun)
  | contention => exact decide_eq_true (hh rfl)

theorem collisionDetail_eq (f : EchoFault) (k : Byte) : collisionDetail f k =
    match f with | .mismatch => 256 + k.toNat | .framing => 512 + k.toNat | .contention => 1023 := by
  cases f <;> rfl

/-- The kind field of COLLISION, by the frame. -/
theorem frameKind_byte (x : Frame) : byteOf (frameKind x) =
    match x with | .poll _ _ _ => 1 | .data _ => 2 | .chunk _ => 3 | .yield _ => 4 := by
  cases x <;> rfl

theorem frameRegion_eq (x : Frame) : frameRegion x =
    match x with | .poll _ _ _ => 15 | .data d => d.region | .chunk c => c.region | .yield _ => 15 := by
  cases x <;> rfl

theorem collision_exec {s u : State} {f : EchoFault} {k : Byte} (hc : collidable s f = true)
    (hu : collisionEndsStep (collided s f) = u) :
    exec (.collision f k) s = .next (settle s (post u (collisionEvent s f k))) := by
  subst hu
  rw [← collisionStops_eq]
  exact when_eq hc

theorem collisionEndsStep_member {s : State} (h : s.straps.stn ≠ 0) : collisionEndsStep s = memberAborted s := by
  rw [collisionEndsStep, isMaster, decide_eq_false h, if_neg Bool.false_ne_true, abortMemberTurn_eq]

theorem collisionEndsStep_master {s : State} (h : s.straps.stn = 0) : collisionEndsStep s = masterCollision s := by
  rw [collisionEndsStep, isMaster, decide_eq_true h, if_pos rfl]

theorem masterCollision_own {s : State} (h : s.tc.phase = .ownTurn) : masterCollision s = waitsForSilence (turnAborted s) := by
  rw [masterCollision, h]
  dsimp only
  rw [abortTurn_eq, enterSilenceWait_eq]

theorem masterCollision_polling {s : State} (h : s.tc.phase = .polling) :
    masterCollision s = waitsForSilence (advancePoll (emptyBuffers s)) := by
  rw [masterCollision, h]
  exact enterSilenceWait_eq _

theorem masterCollision_probing {s : State} (h : s.tc.phase = .probing) :
    masterCollision s = waitsForSilence (emptyBuffers s) := by
  rw [masterCollision, h]
  exact enterSilenceWait_eq _

/-! ## A sample tick of the echo check (R156) -/

/-- A sample tick leaves the line as its level, and those that the receiver's state looks at, say. -/
theorem tickLeaves_level {s : State} {f : LineFormat} (h : SampleTick s f) :
    ∃ u, TickLeaves s f (lrxLevel (tickClock s)) u ∧ u.line.txSince = s.line.txSince := by
  obtain ⟨next, ticks⟩ := sampleTick_step h
  exact ⟨_, ⟨next, fun c => mem_queueDue (sampleLine_pending h) (sampleLine_due h) c, rfl, ticks, rfl⟩, rfl⟩

/-- The sampling of the echo check in a character: the samples are counted by the transmitter. -/
def echoSampled (s : State) (f : LineFormat) (b : Bool) : Sampling :=
  { nextSample f s.line.sampling (txTicks s) b with sample := s.line.sampling.sample }

theorem sampleEcho_character {s : State} {f : LineFormat} {b : Bool} {x : TxFrame} (htx : s.line.tx = .character)
    (hx : s.fu.lineBuf = some x) : sampleEcho s f b =
      if echoVoted s f then
        ((echoSampled s f b).restart, s.line.fault <|> echoFault s f x (latestVote (echoSampled s f b).centre))
      else (echoSampled s f b, s.line.fault) := by
  simp only [sampleEcho, htx, hx, echoSampled]

theorem sampleEcho_holding {s : State} {f : LineFormat} {b : Bool} (htx : s.line.tx = .holding false) : sampleEcho s f b =
    if (seekStart f s.line.sampling b).sample = some (startSample f) then
      ((seekStart f s.line.sampling b).restart,
        s.line.fault <|> (if majority (latestVote (seekStart f s.line.sampling b).centre) then none
          else some (.contention, 255#8)))
    else (seekStart f s.line.sampling b, s.line.fault) := by
  simp only [sampleEcho, htx]

/-- A fault found before stands at every later tick. -/
theorem sampleReceiver_fault {s : State} {f : LineFormat} {b : Bool} {y : EchoFault × Byte} (h : s.line.fault = some y) :
    (sampleReceiver s f b).2 = some y := by
  unfold sampleReceiver
  cases s.line.rx
  case echo =>
    dsimp only
    unfold sampleEcho
    dsimp only
    rw [h]
    repeat' split
    all_goals rfl
  all_goals exact h

theorem charBits_pos (f : LineFormat) : 0 < charBits f := by
  unfold charBits
  omega

/-- The level of bit position `p` of character `k` of a frame. -/
theorem frameLevel_at {f : LineFormat} {bytes : List Byte} {k p : Nat} {c : Byte} (hp : p < charBits f)
    (hc : bytes[k]? = some c) : frameLevel f bytes (k * charBits f + p) = charLevel f c (decide (k = 0)) p := by
  obtain ⟨div, mod⟩ : (k * charBits f + p) / charBits f = k ∧ (k * charBits f + p) % charBits f = p := by
    rw [Nat.mul_comm]
    exact ⟨by rw [Nat.mul_add_div (charBits_pos f), Nat.div_eq_of_lt hp, Nat.add_zero], by
      rw [Nat.mul_add_mod, Nat.mod_eq_of_lt hp]⟩
  rw [frameLevel, div, mod, hc]

theorem echoFault_at {s : State} {f : LineFormat} {x : TxFrame} {k p : Nat} {c : Byte} (v : Vote)
    (hi : txTicks s / f.samplesPerBit = k * charBits f + p) (hp : p < charBits f)
    (hc : (frameBytes s.straps.stn x.frame)[k]? = some c) :
    echoFault s f x v = if majority v = charLevel f c (decide (k = 0)) p then none
      else some (if stopPosition f ≤ p then .framing else .mismatch, BitVec.ofNat 8 k) := by
  have pos := charBits_pos f
  have div : (k * charBits f + p) / charBits f = k := by
    rw [Nat.mul_comm, Nat.mul_add_div pos, Nat.div_eq_of_lt hp, Nat.add_zero]
  have mod : (k * charBits f + p) % charBits f = p := by rw [Nat.mul_comm, Nat.mul_add_mod, Nat.mod_eq_of_lt hp]
  unfold echoFault
  dsimp only
  rw [hi, frameLevel_at hp hc, div, mod]
  rfl

theorem stopPosition_eq (f : LineFormat) : stopPosition f = if f.parity = .none then 10 else 11 := by
  unfold stopPosition hasParity
  by_cases h : f.parity = .none <;> simp [h]

theorem latestVote_majority (x y z : Bool) : majority (latestVote [x, y, z]) = ((x && y) || (x && z) || (y && z)) :=
  voteOf_majority x y z

/-- Settles O46: the collision by the step it ends; the echo check tick by tick. -/
theorem collisionEndsTheStep : Obligations.CollisionEndsTheStep := by
  refine ⟨fun s f k ht hc hh => ?ends, fun s f x b rest tick hl hr htx hx hf hN => ?character,
    fun s f b rest tick hl hr htx hf hN => ?holding, fun s f g k tick hf hg => ?due⟩
  case ends =>
    intro region kind e c emptied
    have event : collisionEvent s f k = e := by
      unfold collisionEvent
      rw [collisionDetail_eq]
      simp only [frameRegion_eq, frameKind_byte]
      rfl
    have ends {u : State} (hu : collisionEndsStep c = u) : exec (.collision f k) s = .next (settle s (post u e)) := by
      rw [← event]
      exact collision_exec (collidable_of ht hc hh) hu
    exact ⟨fun station => ends (collisionEndsStep_member (s := c) station),
      fun station phase => ends ((collisionEndsStep_master (s := c) station).trans (masterCollision_own (s := c) phase)),
      fun station phase => ends ((collisionEndsStep_master (s := c) station).trans (masterCollision_probing (s := c) phase)),
      fun station phase => ends ((collisionEndsStep_master (s := c) station).trans (masterCollision_polling (s := c) phase))⟩
  case character =>
    intro N n taken
    obtain ⟨u, t⟩ := tickLeaves tick hl
    have ticks : txTicks (tickClock s) = n := by
      show (tickClock s).clock.ticks - s.line.txSince = _
      rw [(sampleTick_step tick).2]
    have echo : sampleReceiver (tickClock s) f b = sampleEcho (tickClock s) f b := by
      simp only [sampleReceiver, show (tickClock s).line = s.line from rfl, hr]
    have atThird : echoVoted (tickClock s) f = true ↔ n % N = N / 2 + 1 := by
      rw [echoVoted, ticks, decide_eq_true_eq]
      rfl
    have other (h : n % N ≠ N / 2 + 1) : sampleReceiver (tickClock s) f b = (echoSampled (tickClock s) f b, none) := by
      rw [echo, sampleEcho_character (by exact htx) (by exact hx),
        if_neg fun voted => h (atThird.mp voted), show (tickClock s).line.fault = none from hf]
    have third (h : n % N = N / 2 + 1) : sampleReceiver (tickClock s) f b = ((echoSampled (tickClock s) f b).restart,
        echoFault (tickClock s) f x (latestVote (echoSampled (tickClock s) f b).centre)) := by
      rw [echo, sampleEcho_character (by exact htx) (by exact hx), if_pos (atThird.mpr h),
        show (tickClock s).line.fault = none from hf]
      rfl
    have centre : (echoSampled (tickClock s) f b).centre =
        if N / 2 - 1 ≤ n % N ∧ n % N ≤ N / 2 + 1 then taken ++ [b] else taken := by
      rw [echoSampled, ticks]
      exact nextSample_centre f s.line.sampling n b
    refine ⟨queueDue u, t.next, ?_⟩
    rw [queueDue_line, t.fault, t.sampling]
    refine ⟨fun h => ?before, fun h => by rw [third h]; exact ⟨rfl, rfl⟩, fun k p c y z h hi hp hc two => ?voted⟩
    case before =>
      rw [other h]
      refine ⟨rfl, rfl, centre.trans (if_congr ?_ rfl rfl)⟩
      omega
    case voted =>
      intro sent voted stop
      have vote : majority (latestVote (echoSampled (tickClock s) f b).centre) = voted := by
        rw [centre, if_pos (by omega), two]
        exact latestVote_majority y z b
      rw [third h, echoFault_at _ (by rw [ticks]; exact hi) hp (by exact hc), vote, stopPosition_eq]
      exact ⟨fun same => if_pos same, fun differs low => (if_neg differs).trans (by rw [if_neg (Nat.not_le.mpr low)]),
        fun differs high => (if_neg differs).trans (by rw [if_pos high])⟩
  case holding =>
    intro p
    obtain ⟨u, t⟩ := tickLeaves tick hl
    have echo : sampleReceiver (tickClock s) f b =
        if (seekStart f p b).sample = some (startSample f) then
          ((seekStart f p b).restart, if majority (latestVote (seekStart f p b).centre) then none else some (.contention, 255#8))
        else (seekStart f p b, none) := by
      have fault : (tickClock s).line.fault = none := hf
      simp only [sampleReceiver, show (tickClock s).line.rx = .echo from hr]
      rw [sampleEcho_holding (by exact htx), fault]
      rfl
    refine ⟨queueDue u, t.next, ?_⟩
    rw [t.due, mem_dueNow_collision, queueDue_line, t.fault, t.sampling, echo]
    refine ⟨fun none => ?edge, fun j hj h => ?between, fun j y z hj h two => ?vote⟩
    case edge =>
      have edge := seekStart_edge (f := f) (b := b) none
      rw [if_neg ?_]
      · exact ⟨rfl, edge⟩
      · rw [edge]
        unfold startSample
        split <;> simp
    case between =>
      have next : (seekStart f p b).sample = some (j + 1) := by rw [seekStart_next hj]; rfl
      rw [if_neg (by rw [next]; exact fun same => h (Option.some.inj same))]
      exact ⟨rfl, next⟩
    case vote =>
      have next : seekStart f p b = nextSample f p (f.samplesPerBit / 2 + 1) b := by rw [seekStart_next hj, h]
      have vote : majority (latestVote (seekStart f p b).centre) = ((y && z) || (y && b) || (z && b)) := by
        rw [next, nextSample_start hN two]
        exact voteOf_majority y z b
      rw [if_pos (by rw [next]; rfl), vote]
      refine ⟨rfl, fun one => if_pos one, fun zero => ?_⟩
      have fault : u.line.fault = some (.contention, 255) := by
        rw [t.fault, echo, if_pos (by rw [next]; rfl), vote, zero]
        rfl
      refine ⟨by rw [zero]; rfl, ?_⟩
      rw [dueCollision, fault]
      exact List.mem_singleton.mpr rfl
  case due =>
    obtain ⟨u, t, since⟩ := tickLeaves_level tick
    have fault : u.line.fault = some (g, k) := by rw [t.fault]; exact sampleReceiver_fault hf
    refine ⟨queueDue u, t.next, by rw [queueDue_line, fault, hf], ?_, ?_⟩
    · rw [t.due, mem_dueNow_sent, dueSent, sending, if_neg fun sends => by rw [fault] at sends; cases sends.2]
      exact Bool.false_ne_true
    · have charged : dueCollision u = dueIf (charsPassed u u.line.txSince (k.toNat + 1)) (.collision g k) := by
        rw [dueCollision, fault]
        cases g with
        | contention => exact absurd rfl hg
        | mismatch => rfl
        | framing => rfl
      obtain ⟨_, _, _, format, _⟩ := tick
      rw [t.due, mem_dueNow_collision, charged, mem_dueIf, charsPassed_format (t.format.trans format), since, t.ticks]
      exact and_iff_left rfl

end Sys2Proof.Machine
end

section
/-! SUPPORT. The frames that an open turn chooses, and what the completion of each kind of frame does. -/

namespace Sys2Proof.Machine

/-! ## The choice of a frame (R58 to R61, R141) -/

theorem choose_open {s : State} {t : Turn} (ht : s.del.turn = some t) (hy : t.yieldHanded = false)
    (he : s.fu.assembly = .empty) : choose s = chooseFrame s t := by
  rw [choose, ht]
  dsimp only
  rw [hy, decide_eq_true he]
  rfl

theorem chooseFrame_repeats {s : State} {t : Turn} {r : RegionId} {g : Byte} {b : Batch}
    (room : s.del.turnList.length < t.budget) (h : chooseRepeat s = some (r, g, b)) : chooseFrame s t = takeRepeat s r g b := by
  rw [chooseFrame, if_pos room, h]

theorem chooseFrame_refreshes {s : State} {t : Turn} {r : RegionId} (room : s.del.turnList.length < t.budget)
    (h : chooseRepeat s = none) (hr : chooseRefresh s = some r) : chooseFrame s t = takeRefresh s r := by
  rw [chooseFrame, if_pos room, h]
  dsimp only
  rw [hr]

theorem chooseFrame_new {s : State} {t : Turn} {r : RegionId} {q : Byte} {rest : List (RegionId × Byte)}
    (room : s.del.turnList.length < t.budget) (h : chooseRepeat s = none) (hr : chooseRefresh s = none)
    (hq : s.cap.sendQueue = (r, q) :: rest) : chooseFrame s t = takeNew s t r q rest := by
  simp only [chooseFrame, if_pos room, h, hr, hq]

theorem chooseFrame_yields {s : State} {t : Turn}
    (h : ¬ s.del.turnList.length < t.budget ∨ (chooseRepeat s = none ∧ chooseRefresh s = none ∧ s.cap.sendQueue = [])) :
    chooseFrame s t = handYield s t := by
  by_cases room : s.del.turnList.length < t.budget
  · obtain ⟨none, work, empty⟩ := h.resolve_left (not_not.mpr room)
    simp only [chooseFrame, if_pos room, none, work, empty]
  · rw [chooseFrame, if_neg room]

theorem epochOf_pub {s : State} {r : RegionId} {p : PubRecord} (h : pubAt s r = some p) : epochOf s r = p.epoch := by
  rw [epochOf, h]
  rfl

theorem handData_pub {s : State} {r : RegionId} {p : PubRecord} (b : Batch) (h : pubAt s r = some p) :
    handData s r b = assembleWhole s (.data (dataFrame p r b)) p.epoch := by
  rw [handData, h]

theorem takeRepeat_eq {s : State} {r : RegionId} {p : PubRecord} (g : Byte) (b : Batch) (h : pubAt s r = some p) :
    takeRepeat s r g b = { s with
      del := { s.del with kept := some (r, g), turnList := s.del.turnList ++ [.repeated r (b.seq.getD 0) p.epoch] }
      fu := { s.fu with assembly := .complete { frame := .data (dataFrame p r b), serial := p.epoch } } } := by
  rw [takeRepeat, epochOf_pub h, handData_pub b (by exact h)]
  rfl

theorem takeNew_eq {s : State} {t : Turn} {r : RegionId} {q : Byte} {rest : List (RegionId × Byte)} {p : PubRecord} {b : Batch}
    (h : pubAt s r = some p) (hb : (p.retained.find? fun y => decide (y.seq = some q)) = some b) :
    takeNew s t r q rest = { s with
      cap := { s.cap with sendQueue := rest }
      del := { s.del with turnList := s.del.turnList ++ [.first r q p.epoch] }
      fu := { s.fu with assembly := .complete { frame := .data (dataFrame p r b), serial := p.epoch } } } := by
  have found : (pubAt { s with cap := { s.cap with sendQueue := rest } } r).bind (fun p => p.retained.find? fun b =>
      decide (b.seq = some q)) = some b := by
    rw [show pubAt { s with cap := { s.cap with sendQueue := rest } } r = some p from h, Option.bind_some, hb]
  unfold takeNew
  dsimp only
  rw [found]
  dsimp only
  rw [epochOf_pub (p := p) (by exact h), handData_pub b (p := p) (by exact h)]
  rfl

/-- The reads of chunk `k` of region `r` begin, its entry in the turn list. -/
def chunkBegun (s u : State) (r : RegionId) (k n : Nat) : State := { u with
  del := { u.del with roundRobin := r, turnList := s.del.turnList ++ [.chunk r k n] }
  fu := { s.fu with assembly := .assembling r k n [] }
  path := { u.path with snap := true } }

theorem releaseCheck_del (s : State) (r : RegionId) : (releaseCheck s r).del = s.del := by rw [releaseCheck_part]

theorem takeRefresh_starts {s : State} {r : RegionId} {p : PubRecord} (hp : pubAt s r = some p)
    (h : ∀ c, p.pass = some c → c.nextChunk = 0) {c : Pass} (hc : (passStarted s r p).pass = some c) :
    takeRefresh s r = chunkBegun s (releaseCheck { withPub s r (passStarted s r p) with
      del := { s.del with passSerial := s.del.passSerial + 1 } } r) r 0 c.serial := by
  rw [takeRefresh_start hp h hc, startPass_eq hp, beginChunk, enterTurn, chunkBegun]
  simp only [releaseCheck_del, releaseCheck_fu]
  rfl

/-! ## The retransmission and the refresh step (R48, R49, R59, R60) -/

theorem findGoBack_first {s : State} {r : RegionId} {p : PubRecord} {x : Batch} (hp : pubAt s r = some p ∧ p.state = .live)
    (hx : FirstOf p.retained (NeedsRepeat s r p) x)
    (none : ∀ q, q < r → ∀ u, (pubAt s q = some u ∧ u.state = .live) → ∀ y ∈ u.retained, ¬ NeedsRepeat s q u y) :
    findGoBack s = some (r, x.seq.getD 0) := by
  refine findSome_ids _ allIds allIds_sorted r _ (mem_allIds r) ?_ fun q _ hq => goBack_none (none q hq)
  rw [liveAt_iff.mpr hp, Option.bind_some, (find_first (needs_iff s r p) x).mpr hx]
  rfl

theorem findGoBack_none {s : State}
    (idle : ∀ r p, (pubAt s r = some p ∧ p.state = .live) → ∀ y ∈ p.retained, ¬ NeedsRepeat s r p y) : findGoBack s = none :=
  List.findSome?_eq_none_iff.mpr fun r _ => goBack_none (idle r)

theorem chooseRepeat_afresh {s : State} (h : ∀ r g p, s.del.kept = some (r, g) → (pubAt s r = some p ∧ p.state = .live) →
    ∀ b ∈ p.retained, ¬ RepeatsFrom s r p g b) : chooseRepeat s = (findGoBack s).bind (repeatAt s) := by
  have kept : s.del.kept.bind (repeatAt s) = none := by
    cases hk : s.del.kept with
    | none => rfl
    | some k => exact repeatAt_none fun p => h k.1 k.2 p hk
  rw [chooseRepeat, kept]
  rfl

theorem chooseRefresh_none (s : State) : chooseRefresh s = none ↔ ∀ r, ¬ RefreshWork s r := by
  unfold chooseRefresh
  rw [List.find?_eq_none]
  simp only [mem_idsAfter, work_iff, forall_const]

theorem chooseRefresh_least {s : State} {r : RegionId} (h : chooseRefresh s = some r) :
    RefreshWork s r ∧ ∀ q, RefreshWork s q → placeAfter s.del.roundRobin r ≤ placeAfter s.del.roundRobin q := by
  obtain ⟨work, least⟩ := find_least (placeAfter s.del.roundRobin) _ (idsAfter_sorted _) r h
  exact ⟨(work_iff s r).mp work, fun q hq => least q (mem_idsAfter _ q) ((work_iff s q).mpr hq)⟩

theorem chooseRefresh_some (s : State) (r : RegionId) : chooseRefresh s = some r ↔
    RefreshWork s r ∧ ∀ q, RefreshWork s q → placeAfter s.del.roundRobin r ≤ placeAfter s.del.roundRobin q := by
  refine ⟨chooseRefresh_least, fun ⟨work, least⟩ => ?_⟩
  cases found : chooseRefresh s with
  | none => exact absurd work ((chooseRefresh_none s).mp found r)
  | some q =>
    obtain ⟨qwork, qleast⟩ := chooseRefresh_least found
    exact congrArg some (placeAfter_inj _ _ _ (Nat.le_antisymm (qleast r work) (least q qwork)))

/-! ## The own ack entry and summary (R62, R63) -/

theorem ownAck_sub {s : State} {r : RegionId} {q : SubRecord} (h : subAt s r = some q) : ownAck s r =
    if q.state = .off then none
    else some { region := r, generation := q.generation, appliedSeq := q.applied, state := reportOf q.state } := by
  rw [ownAck, h]
  rfl

/-- Settles O47: the choice by the first step that has a frame, each step by what it looks for. -/
theorem turnChoosesItsFrames : Obligations.TurnChoosesItsFrames := by
  refine ⟨fun s t ht hy he => ?chooses, fun s => ⟨fun f => pump_complete, fun f x => pump_waits, fun r k n ws => pump_assembling,
    pump_empty_id⟩, fun s => ⟨fun r g p b hk hp hb => ?kept, fun gone => ⟨fun r p x b hp hx none hb => ?afresh, fun none => ?none⟩⟩,
    fun s => ⟨chooseRefresh_some s, chooseRefresh_none s⟩, fun s r => ?own⟩
  case chooses =>
    intro goesOn room assembled data reads
    have chosen {v : State} (h : chooseFrame s t = v) (hv : v.fu.assembly ≠ .empty) : pump s = goesOn v :=
      pump_chosen he ((choose_open ht hy he).trans h) hv
    refine ⟨fun h => chosen (chooseFrame_yields h) nofun, fun r g b p hroom h hp => ?_, fun r p hroom h hr hp =>
      ⟨fun first c hc => ?_, fun c hc next => ?_⟩, fun r q rest p b hroom h hr hq hp hb => ?_⟩
    · exact chosen ((chooseFrame_repeats hroom h).trans (takeRepeat_eq g b hp)) nofun
    · exact chosen ((chooseFrame_refreshes hroom h hr).trans (takeRefresh_starts hp first hc)) nofun
    · exact chosen ((chooseFrame_refreshes hroom h hr).trans (takeRefresh_next hp hc next)) nofun
    · exact chosen ((chooseFrame_new hroom h hr hq).trans (takeNew_eq hp hb)) nofun
  case kept =>
    rw [chooseRepeat, hk, Option.bind_some, repeatAt_some hp hb]
    rfl
  case afresh => rw [chooseRepeat_afresh gone, findGoBack_first hp hx none, Option.bind_some, repeatAt_some hp hb]
  case none => rw [chooseRepeat_afresh gone, findGoBack_none none, Option.bind_none]
  case own =>
    refine ⟨fun q hq => ⟨fun h => ?_, fun h => ?_, fun h => ?_, fun h => ?_, fun h => ?_⟩, fun none => ?_, fun p hp => ?_,
      fun none => ?_, rfl⟩
    iterate 5
      rw [ownAck_sub hq, h]
      rfl
    · rw [ownAck, none]; rfl
    · rw [ownSummary, hp]; rfl
    · rw [ownSummary, none]; rfl

/-! ## The completion of a frame (R57, R99, R115, R122, R142) -/

theorem frameSent_exec {s u : State} {x : TxFrame} (htx : s.line.tx = .character) (hf : s.line.fault = none)
    (hx : s.fu.lineBuf = some x) (hu : reportSent (transmitted s (endsStep x.frame)) x = u) :
    exec .frameTransmitComplete s = .next (settle s (pump u)) := by
  subst hu
  have sends : sending s = some x := by rw [sending, if_pos ⟨htx, hf⟩, hx]
  show when s (sending s).isSome ((sending s).elim s (frameSent s)) = _
  rw [sends]
  rfl

theorem dataSent_gone {s : State} {r : RegionId} {p : PubRecord} (q : Byte) {n : Nat} (hp : pubAt s r = some p)
    (h : p.epoch ≠ n) : dataSent s r q n = s := by
  rw [dataSent, epochOf_pub hp, if_neg h]

theorem dataSent_kept {s : State} {r : RegionId} {p : PubRecord} (q : Byte) {n : Nat} (hp : pubAt s r = some p)
    (h : p.epoch = n) : dataSent s r q n = releaseCheck (withPub s r (sentIn s.del.ownTurn q p)) r := by
  rw [dataSent, epochOf_pub hp, if_pos h, updPub_with _ hp]
  rfl

theorem chunkSentRecord_counts {p : PubRecord} {c : Pass} {n : Nat} (hc : p.pass = some c) (h : c.serial = n) :
    chunkSentRecord p n = if c.sentCount + 1 = c.chunkCount then { p with pass := none, endGuard := true }
      else { p with pass := some { c with sentCount := c.sentCount + 1 } } := by
  rw [chunkSentRecord, hc]
  exact if_pos h

theorem chunkSentRecord_other {p : PubRecord} {n : Nat} (h : ∀ c, p.pass = some c → c.serial ≠ n) : chunkSentRecord p n = p := by
  unfold chunkSentRecord
  cases hc : p.pass with
  | none => rfl
  | some c => exact if_neg (h c hc)

theorem chunkSent_eq {s : State} {r : RegionId} {p : PubRecord} (n : Nat) (hp : pubAt s r = some p) :
    chunkSent s r n = releaseCheck (withPub s r (chunkSentRecord p n)) r := by
  rw [chunkSent, updPub_with _ hp]

/-- Settles O48: the completion by the kind of the frame sent. -/
theorem completedFrameIsReported : Obligations.CompletedFrameIsReported := by
  intro s x htx hf hx
  refine ⟨fun d p hd hp gone => ?_, fun d p hd hp kept => ?_, fun ch p c hch hp hc same => ?_, fun ch p hch hp other => ?_,
    fun st cycle budget hpoll ht he => ?poll, fun y hyield => ⟨fun master => ?master, fun member he => ?member⟩⟩
  · refine frameSent_exec htx hf hx ?_
    rw [reportSent, hd]
    exact dataSent_gone (s := transmitted s false) d.seq hp gone
  · refine frameSent_exec htx hf hx ?_
    rw [reportSent, hd]
    exact dataSent_kept (s := transmitted s false) d.seq hp kept
  · refine frameSent_exec htx hf hx ?_
    rw [reportSent, hch]
    dsimp only
    rw [chunkSent_eq (s := transmitted s _) x.serial hp, chunkSentRecord_counts hc same]
    rfl
  · refine frameSent_exec htx hf hx ?_
    rw [reportSent, hch]
    dsimp only
    rw [chunkSent_eq (s := transmitted s _) x.serial hp, chunkSentRecord_other other, withPub_self (s := transmitted s _) hp]
    rfl
  case poll =>
    intro t w
    have reported : reportSent (transmitted s (endsStep x.frame)) x = { t with tc := { t.tc with watch := some w } } := by
      rw [reportSent, hpoll]
      rfl
    rw [frameSent_exec htx hf hx reported, pump_id (by exact ht) (by exact he)]
  case master =>
    refine frameSent_exec htx hf hx ?_
    rw [reportSent, hyield]
    exact if_pos (decide_eq_true master)
  case member =>
    have reported : reportSent (transmitted s (endsStep x.frame)) x = closeMemberTurn { transmitted s true with
        del := { s.del with turn := none, turnList := [], kept := none } } := by
      rw [reportSent, hyield]
      exact if_neg fun master => member (of_decide_eq_true master)
    rw [frameSent_exec htx hf hx reported, pump_id rfl (by exact he)]
    rfl

end Sys2Proof.Machine
end

section
/-! SUPPORT. Characters as the frame unit takes them: the ends of a frame that is no good one, the lead character, and the
buffer. -/

namespace Sys2Proof.Machine

/-! ## The frame in reception ends (R136, R138) -/

theorem truncate_receiving {s : State} {buffer : List Byte} {crc : BitVec 16} (h : s.fu.rx = .receiving buffer crc)
    (x : FrameFault) : truncate s x = frameFailed s buffer x := by
  simp only [truncate, h, failFrame_eq]

theorem truncate_counting {s : State} {k n : Nat} (h : s.fu.rx = .counting k n) (x : FrameFault) :
    truncate s x = frameCounted { s with fu := { s.fu with rx := .idle } } := by
  simp only [truncate, h, endFrame_eq]

theorem truncate_idle {s : State} (h : s.fu.rx = .idle) (x : FrameFault) : truncate s x = s := by
  simp only [truncate, h]

theorem truncateFraming_receiving {s : State} {buffer : List Byte} {crc : BitVec 16} (h : s.fu.rx = .receiving buffer crc) :
    truncateFraming s =
      let t := frameCounted { s with fu := { s.fu with rx := .idle } }
      { t with fu := { t.fu with heldFraming := some (frameErrorEvent buffer .framing) } } := by
  simp only [truncateFraming, h, endFrame_eq]

/-! ## A character in each state of the receiver (R134 to R137) -/

section
variable {s : State} {c : VotedChar}

theorem deliver_framing (h : c.framingError = true) : deliverCharacter s c = truncateFraming s := by
  rw [deliverCharacter, if_pos h]

theorem deliver_parity (hf : c.framingError = false) (h : c.parityError = true) :
    deliverCharacter s c = truncate s .parity := by
  rw [deliverCharacter, if_neg (by rw [hf]; nofun), if_pos h]

theorem deliver_leads (h : c.framingError = false ∧ c.parityError = false) (hl : c.lead = true) :
    deliverCharacter s c = leadDecided (truncate (leadHeard s) .lead) c.byte := by
  rw [deliverCharacter, if_neg (by rw [h.1]; nofun), if_neg (by rw [h.2]; nofun), if_pos hl, begin_eq, lead_eq]

theorem deliver_follows (h : c.framingError = false ∧ c.parityError = false) (hl : c.lead = false) :
    deliverCharacter s c = followCharacter s c.byte := by
  rw [deliverCharacter, if_neg (by rw [h.1]; nofun), if_neg (by rw [h.2]; nofun), if_neg (by rw [hl]; nofun)]

/-- In IDLE only a clean lead character does anything. -/
theorem deliver_idle (hr : s.fu.rx = .idle) :
    (¬ (c.framingError = false ∧ c.parityError = false) ∨ c.lead = false → deliverCharacter s c = s) ∧
    (c.framingError = false ∧ c.parityError = false → c.lead = true →
      deliverCharacter s c = leadDecided (leadHeard s) c.byte) := by
  constructor
  · intro h
    by_cases hc : c.framingError = false ∧ c.parityError = false
    · rw [deliver_follows hc (h.resolve_left (not_not_intro hc))]
      simp only [followCharacter, hr]
    · rcases clean_not hc with hf | ⟨hf, hp⟩
      · rw [deliver_framing hf]
        simp only [truncateFraming, hr]
      · rw [deliver_parity hf hp, truncate_idle hr]
  · intro hc hl
    rw [deliver_leads hc hl, truncate_idle (by exact hr)]

/-- In COUNTING a character counts to the end of the muted frame, unless it ends it. -/
theorem deliver_counting {k n : Nat} (hr : s.fu.rx = .counting k n) :
    (¬ (c.framingError = false ∧ c.parityError = false) →
      deliverCharacter s c = frameCounted { s with fu := { s.fu with rx := .idle } }) ∧
    (c.framingError = false ∧ c.parityError = false → c.lead = true → deliverCharacter s c =
      leadDecided (frameCounted { leadHeard s with fu := { (leadHeard s).fu with rx := .idle } }) c.byte) ∧
    (c.framingError = false ∧ c.parityError = false → c.lead = false → deliverCharacter s c =
      if k + 1 = n + 5 then frameCounted { s with fu := { s.fu with rx := .idle } }
      else { s with fu := { s.fu with rx := .counting (k + 1) n } }) := by
  refine ⟨fun hc => ?_, fun hc hl => ?_, fun hc hl => ?_⟩
  · rcases clean_not hc with hf | ⟨hf, hp⟩
    · rw [deliver_framing hf]
      simp only [truncateFraming, hr, endFrame_eq]
    · rw [deliver_parity hf hp, truncate_counting hr]
  · rw [deliver_leads hc hl, truncate_counting (by exact hr)]
  · rw [deliver_follows hc hl]
    simp only [followCharacter, hr, endFrame_eq]
    rfl

/-! ## A character taken into the buffer (R134, R135, R137) -/

variable {buffer : List Byte} {crc : BitVec 16} {b : Byte}

theorem takeCharacter_header (h : (buffer ++ [b]).length ≤ 2) : takeCharacter s buffer crc b =
    { s with fu := { s.fu with rx := .receiving (buffer ++ [b]) (crcByte crc b) } } := by
  rw [takeCharacter, if_pos h]; rfl

theorem takeCharacter_long (h : 2 < (buffer ++ [b]).length) (hn : 160 < bufferLength (buffer ++ [b])) :
    takeCharacter s buffer crc b = frameFailed s (buffer ++ [b]) .length := by
  rw [takeCharacter, if_neg (by omega), if_pos (by exact hn), failFrame_eq]

theorem takeCharacter_muted (h : mutedRegion s (buffer ++ [b]) = true) (hn : bufferLength (buffer ++ [b]) ≤ 160) :
    takeCharacter s buffer crc b =
      { s with fu := { s.fu with rx := .counting 4 (bufferLength (buffer ++ [b])) } } := by
  obtain ⟨c0, c1, m, r, hc, -⟩ := (mutedRegion_iff s _).mp h
  have length : (buffer ++ [b]).length = 4 := by rw [hc]; rfl
  rw [takeCharacter, if_neg (by omega)]
  dsimp only
  rw [if_neg (show ¬ Config.payloadLimit < _ from Nat.not_lt.mpr hn), if_pos h, length]
  rfl

/-- A character past the header, of a frame that is not muted, is taken; the last one ends the frame. -/
theorem takeCharacter_taken (h : 2 < (buffer ++ [b]).length) (hn : bufferLength (buffer ++ [b]) ≤ 160)
    (hm : mutedRegion s (buffer ++ [b]) = false) : takeCharacter s buffer crc b =
      let crc' := if (buffer ++ [b]).length ≤ bufferLength (buffer ++ [b]) + 3 then crcByte crc b else crc
      if (buffer ++ [b]).length = bufferLength (buffer ++ [b]) + 5 then finishFrame s (buffer ++ [b]) crc'
      else { s with fu := { s.fu with rx := .receiving (buffer ++ [b]) crc' } } := by
  rw [takeCharacter, if_neg (by omega)]
  dsimp only
  rw [if_neg (show ¬ Config.payloadLimit < _ from Nat.not_lt.mpr hn), if_neg (by rw [hm]; nofun)]
  rfl

end

/-! ## The whole-frame check (R137, R187) -/

/-- Two characters are the CRC's when they read as it, high byte first. -/
theorem eq_twoBytes_iff (h l : Byte) (crc : BitVec 16) : [h, l] = twoBytes crc ↔ h ++ l = crc := by
  constructor
  · intro e
    obtain ⟨rfl, rfl⟩ : h = crc.extractLsb' 8 8 ∧ l = crc.extractLsb' 0 8 := by
      simpa only [twoBytes, List.cons.injEq, and_true] using e
    exact twoBytes_back crc
  · rintro rfl
    rw [twoBytes, BitVec.extractLsb'_append_eq_left, BitVec.extractLsb'_append_eq_right]

section
variable {c0 c1 n h l : Byte} {payload : List Byte} {crc : BitVec 16}

theorem checkFrame_crcFault (hl : payload.length = n.toNat) (hc : h ++ l ≠ crc) :
    checkFrame (c0 :: c1 :: n :: (payload ++ [h, l])) crc = .crcFault := by
  rw [checkFrame, ← hl, List.drop_left, if_neg (mt (eq_twoBytes_iff h l crc).mp hc)]

/-- With its CRC good, a frame is judged by its source and its content. -/
theorem checkFrame_judged (hl : payload.length = n.toNat) (hc : h ++ l = crc) :
    checkFrame (c0 :: c1 :: n :: (payload ++ [h, l])) crc =
      if sourceOf c1 = 15 then .contentFault
      else (contentOf (kindOf c0) (destinationOf c0) payload).elim .contentFault (.good (sourceOf c1)) := by
  rw [checkFrame, ← hl, List.drop_left, List.take_left, if_pos ((eq_twoBytes_iff h l crc).mpr hc)]
  cases contentOf (kindOf c0) (destinationOf c0) payload <;> rfl

end

/-- A POLL for all, of another length or with a budget above 8, and any other frame for one station, has no content. -/
theorem contentOf_none {kind : Nat} {destination : StationId} {payload : List Byte}
    (h : (kind = 1 ∧ (destination = 15 ∨ payload.length ≠ 2 ∨ 8 < (payload.getD 1 0#8).toNat)) ∨
      (kind ≠ 1 ∧ destination ≠ 15)) : contentOf kind destination payload = none := by
  rcases h with ⟨rfl, h⟩ | ⟨hk, hd⟩
  · show (if destination = 15 then none else pollContent destination payload) = none
    split
    · rfl
    · rename_i hd
      unfold pollContent
      split
      · exact if_neg fun hb => by simp_all; omega
      · rfl
  · unfold contentOf
    split
    · exact absurd rfl hk
    all_goals simp [hd]

section
variable {s : State} {chars : List Byte} {crc : BitVec 16}

theorem finishFrame_good {source : StationId} {g : Frame} (h : checkFrame chars crc = .good source g) :
    finishFrame s chars crc = handOn { s with fu := { s.fu with rx := .idle } } source g := by
  rw [finishFrame, h]; rfl

theorem finishFrame_content (h : checkFrame chars crc = .contentFault) :
    finishFrame s chars crc = frameFailed s chars .content := by
  rw [finishFrame, h]; exact failFrame_eq s chars .content

theorem finishFrame_crc (h : checkFrame chars crc = .crcFault) : finishFrame s chars crc =
    let t := frameCounted { s with fu := { s.fu with rx := .idle } }
    if s.top = .running then
      post t (mkEvent .crcError (bufferRegion chars) (bufferStation chars) (BitVec.ofNat 8 (bufferKind chars))
        (bufferLength chars))
    else t := by
  rw [finishFrame, h]
  exact (post_running _ _).trans (by rw [endFrame_eq]; rfl)

end

end Sys2Proof.Machine
end

section
/-! SUPPORT. A received character: the receiver's next state, the noise state, the frame unit and the gap; and the ends of a
frame in reception. -/

namespace Sys2Proof.Machine

/-! ## The moment a character ends (R148 to R150) -/

/-- What a voted character leaves of the line before the frame unit takes it, with the noise state it brings. -/
def characterState (s : State) (f : LineFormat) (c : VotedChar) (noisy : Bool) (clean : Nat) : State :=
  heardAt { s with line := { s.line with
    noisy := noisy, clean := clean
    rx := if c.framingError then .lowWatch c.allZero else .idle
    sampling :=
      if c.framingError then
        { sampledAnew s with sample := some ((charBits f - 1) * f.samplesPerBit + f.samplesPerBit / 2 + 1) }
      else sampledAnew s } } (s.clock.ticks + f.samplesPerBit / 2 - 1)

/-- The gap to the next character of a frame in reception is measured from `e` (R136). -/
def gapTimed (e : Nat) (d : State) : State :=
  { d with line := { d.line with gapFrom := if d.fu.rx = .idle then none else some e } }

theorem setLineRx_lowWatch {s : State} {f : LineFormat} (hf : s.line.format = some f) (z : Bool) :
    setLineRx s (.lowWatch z) = { s with line := { s.line with
      rx := .lowWatch z
      sampling := { sampledAnew s with sample := some ((charBits f - 1) * f.samplesPerBit + f.samplesPerBit / 2 + 1) } } } := by
  rw [setLineRx, samplingAt, hf]
  rfl

section
variable {s : State} {v : Vote} {f : LineFormat} {samples : List Vote} {c : VotedChar}

theorem character_exec (hx : s.line.rx = .character v) (hf : s.line.format = some f) :
    exec (.characterReceived samples) s = .next (settle s (characterHeard s f (voteChar f v samples))) := by
  have taken : sampling s = some (f, v) := by rw [sampling, hx, hf]
  refine (when_eq (by rw [taken]; rfl)).trans ?_
  rw [taken]
  rfl

theorem noiseMoves_character (hf : s.line.format = some f) :
    noiseMoves (heardAt (setLineRx s (if c.framingError then .lowWatch c.allZero else .idle)) (characterEnd s f)) c =
      characterState s f c (noiseAfter s.line.noisy s.line.clean c.firstNoisy.isSome).1
        (noiseAfter s.line.noisy s.line.clean c.firstNoisy.isSome).2 := by
  unfold characterState
  cases c.framingError with
  | false => rw [if_neg nofun, setLineRx_idle]; rfl
  | true => rw [if_pos rfl, setLineRx_lowWatch hf]; rfl

theorem gapTimed_idle {d : State} (h : d.fu.rx = .idle) (e : Nat) :
    gapTimed e d = { d with line := { d.line with gapFrom := none } } := by
  rw [gapTimed, if_pos h]

theorem gapTimed_receiving {d : State} (h : d.fu.rx ≠ .idle) (e : Nat) :
    gapTimed e d = { d with line := { d.line with gapFrom := some e } } := by
  rw [gapTimed, if_neg h]

/-- A framing error in a quiet spell leaves the receiver in LOW WATCH. -/
theorem characterState_framing (h : c.framingError = true) (hn : s.line.noisy = false) :
    characterState s f c false s.line.clean = { heardAt s (s.clock.ticks + f.samplesPerBit / 2 - 1) with
      line := { s.line with
        rx := .lowWatch c.allZero
        sampling := { sampledAnew s with
          sample := some ((charBits f - 1) * f.samplesPerBit + f.samplesPerBit / 2 + 1) } } } := by
  rw [characterState, h, ← hn]
  rfl

theorem characterHeard_gapTimed : characterHeard s f c = gapTimed (s.clock.ticks + f.samplesPerBit / 2 - 1)
    (hearCharacter (heardAt (setLineRx s (if c.framingError then .lowWatch c.allZero else .idle)) (characterEnd s f)) c) := by
  have gap (u : State) (e : Nat) : (if inReception u = true then some e else none) =
      if u.fu.rx = .idle then none else some e := by
    rw [if_congr (inReception_iff u) rfl rfl, ite_not]
  unfold characterHeard
  dsimp only
  rw [turnHears_eq, gap]
  rfl

/-- A character that starts no noisy spell goes to the frame unit alone. -/
theorem characterHeard_silent (hf : s.line.format = some f)
    (h : c.firstNoisy = none ∨ s.line.noisy = true) : characterHeard s f c =
      gapTimed (s.clock.ticks + f.samplesPerBit / 2 - 1) (deliverCharacter
        (characterState s f c (noiseAfter s.line.noisy s.line.clean c.firstNoisy.isSome).1
          (noiseAfter s.line.noisy s.line.clean c.firstNoisy.isSome).2) c) := by
  have silent : noiseEvent (heardAt (setLineRx s (if c.framingError then .lowWatch c.allZero else .idle))
      (characterEnd s f)) c = none := by
    unfold noiseEvent
    split
    · rename_i p hp
      exact if_pos (h.resolve_left (by rw [hp]; nofun))
    · rfl
  rw [characterHeard_gapTimed, hearCharacter_clean silent, noiseMoves_character hf]

/-- The first noisy character of a spell posts NOISE in RUNNING, among the events of its delivery (log 25). -/
theorem characterHeard_noise {p : Nat} (hf : s.line.format = some f) (hp : c.firstNoisy = some p)
    (hn : s.line.noisy = false) : characterHeard s f c = gapTimed (s.clock.ticks + f.samplesPerBit / 2 - 1)
      (let d := deliverCharacter (characterState s f c true 0) c
       if s.top = .running then postAmong s.agent.events.length d (mkEvent .noise 15 15 c.byte p) else d) := by
  have noise : noiseEvent (heardAt (setLineRx s (if c.framingError then .lowWatch c.allZero else .idle))
      (characterEnd s f)) c = some (mkEvent .noise 15 15 c.byte p) := by
    unfold noiseEvent
    rw [hp]
    exact if_neg fun noisy => Bool.false_ne_true (hn.symm.trans noisy)
  rw [characterHeard_gapTimed]
  unfold hearCharacter
  rw [noise, noiseMoves_character hf, hp]
  dsimp only
  congr 1
  exact if_congr decide_eq_true_iff rfl rfl

end

/-! ## The buffer's fields (R138, R193) -/

theorem nibbles_toNat (b : Byte) : (b.extractLsb' 4 4).toNat = b.toNat / 16 ∧ (b.extractLsb' 0 4).toNat = b.toNat % 16 := by
  have := b.isLt
  rw [BitVec.extractLsb'_toNat, BitVec.extractLsb'_toNat, Nat.shiftRight_eq_div_pow, Nat.shiftRight_eq_div_pow]
  omega

theorem kindOf_eq (b : Byte) : kindOf b = b.toNat / 16 := (nibbles_toNat b).1

theorem sourceOf_val (b : Byte) : (sourceOf b).val = b.toNat % 16 := (nibbles_toNat b).2

theorem regionByte_of_lt {r : Byte} (h : r.toNat < 16) : regionByte r = some ⟨r.toNat, h⟩ := by
  rw [regionByte, dif_pos h]

theorem bufferRegion_named {c0 c1 n r : Byte} {rest : List Byte} (h : c0.toNat / 16 = 2 ∨ c0.toNat / 16 = 3) (hn : n ≠ 0)
    (hr : r.toNat < 16) : (bufferRegion (c0 :: c1 :: n :: r :: rest)).val = r.toNat := by
  rw [bufferRegion, kindOf_eq, if_pos ⟨h, hn⟩, regionByte_of_lt hr]
  rfl

theorem bufferRegion_unnamed {buffer : List Byte} (h : ∀ c0 c1 n r rest, buffer = c0 :: c1 :: n :: r :: rest →
    ¬ ((c0.toNat / 16 = 2 ∨ c0.toNat / 16 = 3) ∧ n ≠ 0 ∧ r.toNat < 16)) : bufferRegion buffer = 15 := by
  unfold bufferRegion
  split
  · rename_i c0 c1 n r rest
    split
    · rename_i named
      rw [kindOf_eq] at named
      have high : ¬ r.toNat < 16 := fun hr => h _ _ _ _ _ rfl ⟨named.1, named.2, hr⟩
      rw [regionByte, dif_neg high]
      rfl
    · rfl
  · rfl

/-! ## A frame's last character (R137) -/

section
variable {s : State} {c : VotedChar} {buffer : List Byte} {crc : BitVec 16}

/-- The last character of a frame of at most 160 payload bytes has it checked. -/
theorem takeCharacter_last {c0 c1 m h b : Byte} {payload : List Byte}
    (hc : buffer ++ [b] = c0 :: c1 :: m :: (payload ++ [h, b])) (hl : payload.length = m.toNat) (hn : m.toNat ≤ 160) :
    takeCharacter s buffer crc b = finishFrame s (c0 :: c1 :: m :: (payload ++ [h, b])) crc := by
  have length : (buffer ++ [b]).length = m.toNat + 5 := by rw [hc]; simp [hl]
  have field : bufferLength (buffer ++ [b]) = m.toNat := by rw [hc]; rfl
  have unmuted : mutedRegion s (buffer ++ [b]) = false := by
    refine Bool.eq_false_iff.mpr fun muted => ?_
    obtain ⟨_, _, n, r, e, hm, -⟩ := (mutedRegion_iff s _).mp muted
    have : m = n := by rw [hc] at e; simp_all
    subst this
    have four : (buffer ++ [b]).length = 4 := by rw [e]; rfl
    exact hm (BitVec.eq_of_toNat_eq (by rw [show m.toNat = 0 by omega]; rfl))
  rw [takeCharacter_taken (by omega) (by omega) unmuted]
  dsimp only
  rw [if_pos (by omega), if_neg (by omega), hc]

/-- In RECEIVING an error or a lead character ends the frame. -/
theorem deliver_receiving_ends (hr : s.fu.rx = .receiving buffer crc) :
    (c.framingError = true → deliverCharacter s c =
      let t := frameCounted { s with fu := { s.fu with rx := .idle } }
      { t with fu := { t.fu with heldFraming := some (frameErrorEvent buffer .framing) } }) ∧
    (c.framingError = false → c.parityError = true → deliverCharacter s c = frameFailed s buffer .parity) ∧
    (c.framingError = false ∧ c.parityError = false → c.lead = true →
      deliverCharacter s c = leadDecided (frameFailed (leadHeard s) buffer .lead) c.byte) := by
  refine ⟨fun h => ?_, fun hf hp => ?_, fun hc hl => ?_⟩
  · rw [deliver_framing h, truncateFraming_receiving hr]
  · rw [deliver_parity hf hp, truncate_receiving hr]
  · rw [deliver_leads hc hl, truncate_receiving (by exact hr)]

theorem deliver_receiving_takes (hr : s.fu.rx = .receiving buffer crc)
    (hc : c.framingError = false ∧ c.parityError = false) (hl : c.lead = false) :
    deliverCharacter s c = takeCharacter s buffer crc c.byte := by
  rw [deliver_follows hc hl]
  simp only [followCharacter, hr]

end

/-! ## The obligations -/

/-- Settles O50: the ends of a frame, the character with the noise state it moves, and what each character does to the
frame in reception. -/
theorem brokenFrameEndsReception : Obligations.BrokenFrameEndsReception := by
  refine ⟨fun s buffer crc hr => ⟨fun since hg => ?gap, fun v f samples hx hf hn hfe hq => ?framing⟩,
    fun s v f samples hx hf hn hfe hq => ⟨fun hr => ?startsIdle, fun k n hr => ?startsCounting⟩,
    fun s k n since hr hg => ?muted,
    fun s v f samples hx hf => ⟨fun hq hn => ?quiet, fun hq hn => ?counts, fun p hp hn => ?noisier, fun p hp hn =>
      ⟨fun ht => ?outside, fun ht => ?noise⟩⟩,
    fun s c => ⟨fun hr => deliver_idle hr, fun k n hr => deliver_counting hr, fun buffer crc hr =>
      ⟨(deliver_receiving_ends hr).1, (deliver_receiving_ends hr).2.1, (deliver_receiving_ends hr).2.2, fun hc hl => ?takes⟩⟩,
    fun c0 c1 rest => ⟨kindOf_eq c0, (nibbles_toNat c0).2, sourceOf_val c1, kindOf_eq c0, rfl, sourceOf_val c1,
      fun n r ⟨kind, hn, hr⟩ => bufferRegion_named kind hn hr, fun buffer => bufferRegion_unnamed⟩⟩
  case gap =>
    have measured : gapMeasured s = true := by
      rw [gapMeasured, (inReception_iff s).mpr (by rw [hr]; nofun), hg]; rfl
    refine (when_eq measured).trans ?_
    rw [gapTruncates, truncate_receiving (by exact hr)]
    rfl
  case muted =>
    have measured : gapMeasured s = true := by
      rw [gapMeasured, (inReception_iff s).mpr (by rw [hr]; nofun), hg]; rfl
    refine (when_eq measured).trans ?_
    rw [gapTruncates, truncate_counting (by exact hr)]
  case framing =>
    rw [character_exec hx hf, characterHeard_silent hf (.inl hq), hq,
      show noiseAfter s.line.noisy s.line.clean _ = (false, s.line.clean) by rw [hn]; rfl, characterState_framing hfe hn,
      (deliver_receiving_ends (by exact hr)).1 hfe]
    exact congrArg (fun t => Host.Outcome.next (settle s t)) (gapTimed_idle (by rfl) _)
  case startsIdle =>
    rw [character_exec hx hf, characterHeard_silent hf (.inl hq), hq,
      show noiseAfter s.line.noisy s.line.clean _ = (false, s.line.clean) by rw [hn]; rfl, characterState_framing hfe hn,
      (deliver_idle (by exact hr)).1 (.inl fun clean => by rw [hfe] at clean; exact nomatch clean.1)]
    exact congrArg (fun t => Host.Outcome.next (settle s t)) (gapTimed_idle (by exact hr) _)
  case startsCounting =>
    rw [character_exec hx hf, characterHeard_silent hf (.inl hq), hq,
      show noiseAfter s.line.noisy s.line.clean _ = (false, s.line.clean) by rw [hn]; rfl, characterState_framing hfe hn,
      (deliver_counting (by exact hr)).1 (fun clean => by rw [hfe] at clean; exact nomatch clean.1)]
    exact congrArg (fun t => Host.Outcome.next (settle s t)) (gapTimed_idle (by rfl) _)
  case quiet =>
    rw [character_exec hx hf, characterHeard_silent hf (.inl hq), hq, hn]
    rfl
  case counts =>
    rw [character_exec hx hf, characterHeard_silent hf (.inl hq), hq, hn]
    rfl
  case noisier =>
    rw [character_exec hx hf, characterHeard_silent hf (.inr hn), hp]
    rfl
  case outside =>
    rw [character_exec hx hf, characterHeard_noise hf hp hn]
    dsimp only
    rw [if_neg ht]
    rfl
  case noise =>
    rw [character_exec hx hf, characterHeard_noise hf hp hn]
    dsimp only
    rw [if_pos ht]
    rfl
  case takes =>
    rw [deliver_receiving_takes hr hc hl]
    refine ⟨takeCharacter_header, takeCharacter_long, fun muted hn => ?_, fun h hn hm hlast => ?_,
      fun c0 c1 m payload h hchars hlen hn => ?_⟩
    · exact takeCharacter_muted ((mutedRegion_iff s _).mpr muted) hn
    · rw [takeCharacter_taken h hn (Bool.eq_false_iff.mpr (mt (mutedRegion_iff s _).mp hm))]
      exact if_neg hlast
    · have field : ((buffer ++ [c.byte]).getD 2 0#8).toNat = m.toNat := by rw [hchars]; rfl
      have length : payload.length = m.toNat := hlen.trans field
      rw [takeCharacter_last hchars length (field ▸ hn), ← hchars]
      refine ⟨fun bad => ?_, fun good h => ?_, fun g good hs hg => ?_⟩
      · rw [finishFrame_crc (by rw [hchars]; exact checkFrame_crcFault length bad)]
        rfl
      · refine finishFrame_content ?_
        rw [hchars, checkFrame_judged length good]
        rcases h with hs | h
        · exact if_pos hs
        · have content : contentOf (kindOf c0) (destinationOf c0) payload = none := by
            rcases h with ⟨hk, h⟩ | h | h
            · exact contentOf_none (.inl ⟨hk, hlen ▸ h⟩)
            · exact contentOf_none (.inr h)
            · exact h
          rw [content, Option.elim_none, ite_self]
      · refine finishFrame_good ?_
        rw [hchars, checkFrame_judged length good, if_neg hs, hg]
        rfl

end Sys2Proof.Machine
end

section
/-! SUPPORT. The lead character that begins a reception, and the line reset. -/

namespace Sys2Proof.Machine

/-! ## A lead character (R134, R135, R138, R149, R150) -/

/-- The reception that a lead character begins, with the noise state it leaves. -/
def receptionBegun (s : State) (f : LineFormat) (c : VotedChar) (noisy : Bool) (clean : Nat) : State :=
  let e := s.clock.ticks + f.samplesPerBit / 2 - 1
  let h := heardAt s e
  { h with
    line := { s.line with
      rx := .idle, noisy := noisy, clean := clean, gapFrom := some e, sampling := sampledAnew s }
    fu := { s.fu with rx := .receiving [c.byte] (crcByte 0xFFFF c.byte) }
    tc := { h.tc with lost := if s.top = .running then lostRestarted s else s.tc.lost } }

section
variable {s : State} {f : LineFormat} {c : VotedChar}

theorem deliver_lead_character (h : LeadOk s c) (noisy : Bool) (clean : Nat) :
    gapTimed (s.clock.ticks + f.samplesPerBit / 2 - 1) (deliverCharacter (characterState s f c noisy clean) c) =
      receptionBegun s f c noisy clean := by
  obtain ⟨-, framed, -⟩ := id h
  have ok : LeadOk (characterState s f c noisy clean) c := h
  rw [deliver_lead ok, gapTimed_receiving (by nofun), characterState, framed]
  rfl

/-- NOISE takes its place after a lead character, which posts nothing. -/
theorem noise_after_lead (h : LeadOk s c) (x : Event) :
    gapTimed (s.clock.ticks + f.samplesPerBit / 2 - 1)
        (postAmong s.agent.events.length (deliverCharacter (characterState s f c true 0) c) x) =
      post (receptionBegun s f c true 0) x := by
  have ok : LeadOk (characterState s f c true 0) c := h
  rw [← deliver_lead_character h, deliver_lead ok, postAmong_alone x (by exact le_rfl), post_eq, post_eq]
  rfl

end

/-- Settles O49: a lead character begins its reception, whatever noise it brings. -/
theorem leadCharacterBeginsReception : Obligations.LeadCharacterBeginsReception := by
  intro s v f samples hx hf c lead framed parity idle kind destination
  have ok : LeadOk s c := ⟨lead, framed, parity, idle, kind, destination⟩
  refine ⟨fun hq hn => ?quiet, fun hq hn => ?counts, fun p hp hn => ?noisier, fun p hp hn ht => ?noise⟩
  case quiet =>
    rw [character_exec hx hf, characterHeard_silent hf (.inl hq), deliver_lead_character ok, hq, hn]
    rfl
  case counts =>
    rw [character_exec hx hf, characterHeard_silent hf (.inl hq), deliver_lead_character ok, hq, hn]
    rfl
  case noisier =>
    rw [character_exec hx hf, characterHeard_silent hf (.inr hn), deliver_lead_character ok, hp]
    rfl
  case noise =>
    rw [character_exec hx hf, characterHeard_noise hf hp hn]
    dsimp only
    rw [if_pos ht, noise_after_lead ok]
    rfl

/-! ## The line reset (R124, R136, R153) -/

theorem postRunning_line (s : State) (x : Event) : (postRunning s x).line = s.line := by
  rw [post_running]
  split
  · rw [post_eq]
  · rfl

/-- The event depends on the cycle number and the line format alone. -/
theorem lineResetEvent_eq {s t : State} {f : LineFormat} (straps : t.straps = s.straps) (cycle : t.tc.cycle = s.tc.cycle)
    (last : t.tc.lastCycle = s.tc.lastCycle) (line : t.line = s.line) (hf : s.line.format = some f) (n : Nat) :
    lineResetEvent t n = mkEvent .lineReset 15 15 (if s.straps.stn = 0 then s.tc.cycle else s.tc.lastCycle)
      (max 2 (min 255 (n / (charBits f * f.samplesPerBit)))) := by
  rw [lineResetEvent, lastCycleNumber, isMaster, straps, cycle, last, line, hf]
  simp only [decide_eq_true_eq]
  rfl

/-- Settles O51: the frame in reception ends, a turn that has not begun to send aborts, and LINE_RESET is posted. -/
theorem lineResetIsTaken : Obligations.LineResetIsTaken := by
  intro s n f hx hf hn
  have heard : breakHeard s n = true := by
    rw [breakHeard, hf, decide_eq_true hx]
    exact decide_eq_true hn
  obtain ⟨del, line, straps, top, cycle, last⟩ := resetFrame_fields s
  obtain ⟨straps', top', cycle', last', line'⟩ := resetTurn_fields (resetFrame s)
  have event := lineResetEvent_eq (straps'.trans straps) (cycle'.trans cycle) (last'.trans last) (line'.trans line) hf n
  have anew : sampledAnew (postRunning (resetTurn (resetFrame s)) (lineResetEvent (resetTurn (resetFrame s)) n)) =
      sampledAnew s := by
    rw [sampledAnew, postRunning_line, line'.trans line]
    rfl
  refine (when_eq heard).trans ?_
  rw [takeLineReset, setLineRx_idle, anew, post_running, event, top'.trans top, resetTurn_eq, del, line, resetFrame_eq]

end Sys2Proof.Machine
end

section
/-! SUPPORT. Good frames at their region: DATA and CHUNK frames against the region table. -/

namespace Sys2Proof.Machine

theorem following_of {q : SubRecord} (hu : q.state ≠ .unsynced) (ho : q.state ≠ .off) : following q = true := by
  unfold following
  cases h : q.state <;> simp_all

theorem following_not {q : SubRecord} (h : q.state = .unsynced ∨ q.state = .off) : following q = false := by
  unfold following
  rcases h with h | h <;> rw [h]

/-! ## DATA frames (R4, R71 to R76) -/

section
variable {t : State} {d : DataFrame} {q : SubRecord} {source : StationId}

theorem inboundData_absent (h : subAt t d.region = none) : inboundData t source d = t := by
  rw [inboundData, h]

theorem inboundData_wrongPublisher (h : subAt t d.region = some q) (hp : source ≠ (descAt t d.region).publisher) :
    inboundData t source d = post t (mkEvent .wrongPublisher d.region source d.seq 2) := by
  rw [inboundData, h]
  exact if_neg hp

theorem inboundData_unfollowed (h : subAt t d.region = some q) (hf : following q = false) :
    inboundData t (descAt t d.region).publisher d = t := by
  rw [inboundData_publisher h, takeData, if_neg (by rw [hf]; nofun)]

theorem inboundData_generation (h : subAt t d.region = some q) (hf : following q = true)
    (hg : d.generation ≠ q.generation) :
    inboundData t (descAt t d.region).publisher d = unsynced t d.region q .regionUnsynced 1 := by
  rw [inboundData_publisher h, takeData, if_pos hf, if_pos hg, unsync_eq _ h hf]
  rfl

theorem inOrder_iff (seq accepted : Byte) : seqClass seq accepted = .inOrder ↔ seq - accepted = 1 :=
  (seqClass_inOrder_iff seq accepted).trans ⟨fun h => BitVec.eq_of_toNat_eq h, fun h => by rw [h]; rfl⟩

/-- The seq test decides between the acceptance of a batch and nothing (R74). -/
theorem inboundData_tested (h : subAt t d.region = some q) (hf : following q = true) (hg : d.generation = q.generation) :
    inboundData t (descAt t d.region).publisher d =
      if d.seq - q.accepted = 1 then
        if t.inb.slots.length < 2 then { withSub t d.region { q with accepted := d.seq } with
          inb := { t.inb with slots := t.inb.slots ++
            [{ region := d.region, seq := d.seq, content := .data d.records, inProgress := false }] } }
        else post t (mkEvent .inboundOverrun d.region (descAt t d.region).publisher d.seq 2)
      else t := by
  rw [inboundData_publisher h, takeData_seqTest _ _ hf hg, acceptData_eq _ h]
  exact if_congr (inOrder_iff d.seq q.accepted) rfl rfl

end

theorem data_exec {s : State} {source : StationId} {d : DataFrame} (ht : s.top = .running) (hx : s.line.rx = .idle) :
    exec (.dataReceived source d) s = .next (settle s (inboundData (frameCounted (frameHeard s)) source d)) := by
  have taken : exec (.dataReceived source d) s = _ := frame_exec (source := source) (f := .data d) hx
  rw [taken, ← turnHears_eq, ← nowTick, handOn, turnHears_running, if_pos (show isRunning s = true from decide_eq_true ht)]
  dsimp only
  rw [frameHeard_eq, countFrame_eq]

theorem data_takes {s u : State} {source : StationId} {d : DataFrame} (ht : s.top = .running) (hx : s.line.rx = .idle)
    (h : inboundData (frameCounted (frameHeard s)) source d = u) :
    exec (.dataReceived source d) s = .next (settle s u) := by
  rw [data_exec ht hx, h]

/-- Settles O52: a DATA frame by its region's record, its source, its generation and its seq. -/
theorem dataFrameAtItsRegion : Obligations.DataFrameAtItsRegion := by
  intro s source d ht hx t
  have takes {u : State} (h : inboundData t source d = u) : exec (.dataReceived source d) s = .next (settle s u) :=
    data_takes ht hx h
  have sub : subAt t d.region = subAt s d.region := rfl
  have desc : descAt t d.region = descAt s d.region := rfl
  have inb : t.inb = s.inb := rfl
  clear_value t
  refine ⟨fun absent => takes (inboundData_absent (sub.trans absent)), fun q hq =>
    ⟨fun wrong => takes (inboundData_wrongPublisher (sub.trans hq) (desc ▸ wrong)), fun publisher => ?_⟩⟩
  have here : subAt t d.region = some q := sub.trans hq
  rw [← desc] at publisher
  subst publisher
  refine ⟨fun hs => takes (inboundData_unfollowed here (following_not hs)), fun hu ho => ?_⟩
  have follows := following_of hu ho
  have tested (hg : d.generation = q.generation) := inboundData_tested here follows hg
  simp only [inb] at tested
  exact ⟨fun hg => takes (inboundData_generation here follows hg),
    fun hg hseq free => takes ((tested hg).trans ((if_pos hseq).trans (if_pos free))),
    fun hg hseq full => takes ((tested hg).trans ((if_pos hseq).trans (if_neg (Nat.not_lt.mpr full)))),
    fun hg hseq => takes ((tested hg).trans (if_neg hseq))⟩

/-! ## CHUNK frames (R4, R16, R19, R21, R77, R78) -/

section
variable {t : State} {c : ChunkFrame} {q : SubRecord} {source : StationId}

theorem inboundChunk_absent (h : subAt t c.region = none) : inboundChunk t source c = t := by
  rw [inboundChunk, h]

theorem inboundChunk_wrongPublisher (h : subAt t c.region = some q) (hp : source ≠ (descAt t c.region).publisher) :
    inboundChunk t source c = post t (mkEvent .wrongPublisher c.region source c.baseSeq 3) := by
  rw [inboundChunk, h]
  exact if_neg hp

theorem inboundChunk_publisher (h : subAt t c.region = some q) :
    inboundChunk t (descAt t c.region).publisher c = takeChunk t (descAt t c.region).publisher c q := by
  rw [inboundChunk, h]
  exact if_pos rfl

/-- CHUNK 0 is for a station that it names and that is in its roster. -/
theorem takeChunk_first (hi : c.index = 0) (ht : t.top = .running) : takeChunk t source c q =
    if c.targets.getLsbD t.straps.stn.val = true ∧
        (t.straps.stn = 0 ∨ t.tc.member = .enrolled ∨ t.tc.member = .speaking) ∧ q.state ≠ .off
    then takeChunk0 t source c q else t := by
  rw [takeChunk, if_pos hi]
  refine if_congr ?_ rfl rfl
  rw [Bool.and_eq_true, Bool.and_eq_true, inRoster_iff ht, decide_eq_true_iff, and_assoc]
  rfl

theorem takeChunk_generation (h : subAt t c.region = some q) (hi : c.index ≠ 0) (hf : following q = true)
    (hg : c.generation ≠ q.generation) : takeChunk t source c q = unsynced t c.region q .regionUnsynced 1 := by
  rw [takeChunk, if_neg hi, if_pos (by rw [hf, decide_eq_true hg]; rfl), unsync_eq _ h hf]
  rfl

/-- With the stored generation a later chunk is for the stations that it names. -/
theorem takeChunk_later (hi : c.index ≠ 0) (hg : c.generation = q.generation) : takeChunk t source c q =
    if c.targets.getLsbD t.straps.stn.val = true then takeChunkNext t c q else t := by
  rw [takeChunk, if_neg hi, if_neg (by rw [decide_eq_false (not_not_intro hg), Bool.and_false]; nofun)]
  rfl

theorem takeChunk_unfollowed (hi : c.index ≠ 0) (hs : q.state = .unsynced ∨ q.state = .off) :
    takeChunk t source c q = t := by
  rw [takeChunk, if_neg hi, following_not hs]
  refine (if_neg (by nofun)).trans (ite_eq_right_iff.mpr fun _ => ?_)
  rw [takeChunkNext]
  rcases hs with hs | hs <;> rw [hs]

theorem takeChunkNext_notRefreshing (h : subAt t c.region = some q) (hf : following q = true) (hs : q.state ≠ .refreshing) :
    takeChunkNext t c q = unsynced t c.region q .refreshBroken 3 := by
  have broken : takeChunkNext t c q = unsync t c.region .notRefreshing := by
    rw [takeChunkNext]
    split
    · exact absurd ‹_› hs
    · rfl
    · rfl
    · exact absurd (following_not (.inr ‹_›)) (by rw [hf]; nofun)
    · exact absurd (following_not (.inl ‹_›)) (by rw [hf]; nofun)
  rw [broken, unsync_eq _ h hf]
  rfl

/-- A refresh goes on with the chunk that is due, into a free slot, and breaks with any other. -/
theorem takeChunkNext_refreshing (h : subAt t c.region = some q) (hs : q.state = .refreshing) : takeChunkNext t c q =
    if q.expected = some c.index.val ∧ q.baseSeq = some c.baseSeq then
      if t.inb.slots.length < 2 then { withSub t c.region { q with
          expected := some (c.index.val + 1), settle := if c.settle.isSome then c.settle else q.settle } with
        inb := { t.inb with slots := t.inb.slots ++
          [{ region := c.region, seq := c.baseSeq, content := .chunk c.index c.settle.isSome c.words
             inProgress := false }] } }
      else unsynced t c.region q .refreshBroken 2
    else unsynced t c.region q .refreshBroken 1 := by
  have hf : following q = true := by rw [following, hs]
  have next : takeChunkNext t c q =
      if q.expected = some c.index.val ∧ q.baseSeq = some c.baseSeq then
        if slotFree t then
          stage (updSub t c.region fun q =>
            { q with expected := some (c.index.val + 1), settle := c.settle <|> q.settle }) (chunkSlot c)
        else unsync t c.region .overrun
      else unsync t c.region .outOfOrder := by
    rw [takeChunkNext, hs]
  rw [next, updSub_eq _ h, unsync_eq _ h hf, unsync_eq _ h hf, ← takeChunkNext_accept]
  exact if_congr Iff.rfl (if_congr decide_eq_true_iff rfl rfl) rfl

/-- What CHUNK 0 from the region's publisher does. -/
theorem inboundChunk_first (h : subAt t c.region = some q) (hi : c.index = 0) (ht : t.top = .running) :
    inboundChunk t (descAt t c.region).publisher c =
      if c.targets.getLsbD t.straps.stn.val = true ∧
          (t.straps.stn = 0 ∨ t.tc.member = .enrolled ∨ t.tc.member = .speaking) ∧ q.state ≠ .off
      then takeChunk0 t (descAt t c.region).publisher c q else t := by
  rw [inboundChunk_publisher h, takeChunk_first hi ht]

end

theorem chunk_takes {s u : State} {source : StationId} {c : ChunkFrame} (ht : s.top = .running) (hx : s.line.rx = .idle)
    (h : inboundChunk (frameCounted (frameHeard s)) source c = u) :
    exec (.chunkReceived source c) s = .next (settle s u) := by
  rw [chunk_exec ht hx, h]

/-- Settles O54: CHUNK 0 begins a refresh, and a later chunk continues it or breaks it. -/
theorem chunkFrameAtItsRegion : Obligations.ChunkFrameAtItsRegion := by
  refine ⟨?first, ?later, ?others⟩
  case first =>
    intro s source c q ht hx hq hi t named
    have takes {u : State} (h : inboundChunk t source c = u) : exec (.chunkReceived source c) s = .next (settle s u) :=
      chunk_takes ht hx h
    have sub : subAt t c.region = some q := hq
    have desc : descAt t c.region = descAt s c.region := rfl
    have inb : t.inb = s.inb := rfl
    have straps : t.straps = s.straps := rfl
    have member : t.tc.member = s.tc.member := rfl
    have first := inboundChunk_first sub hi (by exact ht)
    have begun := takeChunk0_eq source sub
    rw [straps, member] at first
    rw [inb] at begun
    clear_value t
    refine ⟨fun wrong => takes (inboundChunk_wrongPublisher sub (desc ▸ wrong)), fun publisher => ?_⟩
    rw [desc, ← publisher] at first
    refine ⟨fun out => takes (first.trans (if_neg out)),
      fun named free => takes ((first.trans (if_pos named)).trans (begun.trans (if_pos free))),
      fun named full hu => takes ((first.trans (if_pos named)).trans ((begun.trans (if_neg (Nat.not_lt.mpr full))).trans
        (if_neg (by rw [following_not (.inl hu)]; nofun)))),
      fun named full hu => takes ((first.trans (if_pos named)).trans ((begun.trans (if_neg (Nat.not_lt.mpr full))).trans
        (if_pos (following_of hu ?_))))⟩
    obtain ⟨-, -, ho⟩ := named
    exact ho
  case later =>
    intro s c q ht hx hq hi ho hu source t named due
    have takes {u : State} (h : inboundChunk t source c = u) : exec (.chunkReceived source c) s = .next (settle s u) :=
      chunk_takes ht hx h
    have sub : subAt t c.region = some q := hq
    have inb : t.inb = s.inb := rfl
    have publisher : inboundChunk t source c = takeChunk t source c q := inboundChunk_publisher sub
    have straps : t.straps = s.straps := rfl
    have later (hg : c.generation = q.generation) := publisher.trans (takeChunk_later hi hg)
    have continued (hs : q.state = .refreshing) := takeChunkNext_refreshing sub hs
    simp only [straps] at later
    simp only [inb] at continued
    clear_value t
    have follows := following_of hu ho
    exact ⟨fun hg => takes (publisher.trans (takeChunk_generation sub hi follows hg)),
      fun hg out => takes ((later hg).trans (if_neg out)),
      fun hg named hs => takes ((later hg).trans ((if_pos named).trans (takeChunkNext_notRefreshing sub follows hs))),
      fun hg named hs notDue => takes ((later hg).trans ((if_pos named).trans ((continued hs).trans (if_neg notDue)))),
      fun hg named hs due full => takes ((later hg).trans ((if_pos named).trans ((continued hs).trans
        ((if_pos due).trans (if_neg (Nat.not_lt.mpr full)))))),
      fun hg named hs due free => takes ((later hg).trans ((if_pos named).trans ((continued hs).trans
        ((if_pos due).trans (if_pos free)))))⟩
  case others =>
    intro s source c ht hx t
    have takes {u : State} (h : inboundChunk t source c = u) : exec (.chunkReceived source c) s = .next (settle s u) :=
      chunk_takes ht hx h
    have sub : subAt t c.region = subAt s c.region := rfl
    have desc : descAt t c.region = descAt s c.region := rfl
    clear_value t
    refine ⟨fun absent => takes (inboundChunk_absent (sub.trans absent)), fun q hq hi =>
      ⟨fun wrong => takes (inboundChunk_wrongPublisher (sub.trans hq) (desc ▸ wrong)), fun publisher hs => takes ?_⟩⟩
    rw [publisher, ← desc, inboundChunk_publisher (sub.trans hq), takeChunk_unfollowed hi hs]

end Sys2Proof.Machine
end

section
/-! SUPPORT. Good frames at the turn controller: the POLL, the YIELD with its ack entries and summaries. -/

namespace Sys2Proof.Machine

/-! ## POLL (R121, R122, R139) -/

section
variable {t : State} {source : StationId} {cycle budget : Byte}

theorem poll_exec {s : State} (ht : s.top = .running) (hx : s.line.rx = .idle) :
    exec (.pollReceived source cycle budget) s = .next (settle s
      (let t := frameCounted (frameHeard s)
       if t.straps.stn = 0 then t else if source = 0 then takePoll t cycle budget else t)) := by
  have taken : exec (.pollReceived source cycle budget) s = _ :=
    frame_exec (source := source) (f := .poll s.straps.stn cycle budget) hx
  rw [taken, ← turnHears_eq, ← nowTick, handOn, turnHears_running, if_pos (show isRunning s = true from decide_eq_true ht)]
  dsimp only
  rw [frameHeard_eq, handPoll, countFrame_eq]
  exact congrArg (fun u => Host.Outcome.next (settle s u)) (if_congr decide_eq_true_iff rfl rfl)

theorem takePoll_ignored (h : t.tc.member = .speaking ∨ t.tc.member = .detached) : takePoll t cycle budget = t := by
  rw [takePoll]
  rcases h with h | h <;> rw [h]

theorem takePoll_listening (h : t.tc.member = .listening) : takePoll t cycle budget =
    if t.tc.probeReply then t else if budget = 0 then memberOpened t .probeReply 0 cycle else t := by
  rw [takePoll, h, openMemberTurn_eq]

theorem takePoll_enrolled (h : t.tc.member = .enrolled) : takePoll t cycle budget =
    if budget = 0 then memberOpened (leaveRoster t) .probeReply 0 cycle else memberOpened t .member budget.toNat cycle := by
  rw [takePoll, h]
  dsimp only
  rw [openMemberTurn_eq, openMemberTurn_eq]

end

/-- Settles O55: the POLL by the member's state and its budget. -/
theorem pollOpensTheMembersTurn : Obligations.PollOpensTheMembersTurn := by
  intro s source cycle budget ht hx t listened
  have left : leaveRoster t = unsyncNotEnrolled (suspendAll listened) := rfl
  have straps : t.straps = s.straps := rfl
  have member : t.tc.member = s.tc.member := rfl
  have reply : t.tc.probeReply = s.tc.probeReply := rfl
  have taken : exec (.pollReceived source cycle budget) s = .next (settle s
      (if t.straps.stn = 0 then t else if source = 0 then takePoll t cycle budget else t)) := poll_exec ht hx
  clear_value listened t
  rw [straps] at taken
  refine ⟨fun ignored => ?ignored, fun hm hs => ?taken⟩
  case ignored =>
    rw [taken]
    by_cases hm : s.straps.stn = 0
    · rw [if_pos hm]
    · rw [if_neg hm]
      by_cases hs : source = 0
      · rw [if_pos hs, takePoll_ignored (member ▸ ((ignored.resolve_left hm).resolve_left (not_not_intro hs)))]
      · rw [if_neg hs]
  case taken =>
    rw [if_neg hm, if_pos hs] at taken
    refine ⟨fun hl => fun out => ?out, fun hl hr hb => ?probe, fun he hb => ?turn, fun he hb => ?leaves⟩
    case out =>
      rw [taken, takePoll_listening (member.trans hl), reply]
      rcases out with hr | hb
      · rw [if_pos hr]
      · rw [if_neg hb, ite_self]
    case probe => rw [taken, takePoll_listening (member.trans hl), reply, if_neg (by rw [hr]; nofun), if_pos hb]
    case turn => rw [taken, takePoll_enrolled (member.trans he), if_neg hb]
    case leaves => rw [taken, takePoll_enrolled (member.trans he), if_pos hb, left]

/-! ## Ack entries (R50 to R53, R55, R92) -/

section
variable {s : State} {st : StationId} {a : AckEntry} {p : PubRecord} {turn : Byte}

theorem ackPasses_iff (hp : pubAt s a.region = some p) : ackPasses s st a = true ↔
    p.state = .live ∧ s.tc.roster.getLsbD st.val = true ∧ (descAt s a.region).subscribers.getLsbD st.val = true := by
  rw [ackPasses, Bool.and_eq_true, Bool.and_eq_true, isLive, hp, and_assoc]
  exact and_congr decide_eq_true_iff Iff.rfl

/-- R52: the entries that want a refresh, and the others, which are tracked. -/
theorem ackStateOf_eq : ackStateOf p turn a =
    if a.state = .unsynced ∨ a.generation ≠ p.generation ∨
        ¬ ((a.appliedSeq - p.lastReleased).toNat ≤ 127 ∧ (p.nextSeq - 1 - a.appliedSeq).toNat ≤ 127)
    then .refreshWanted else .tracking a.appliedSeq (some turn) := by
  rw [ackStateOf, ite_or, ite_or]
  exact if_congr Iff.rfl rfl (if_congr Iff.rfl rfl ((if_congr (inWindow_iff _ _ _) rfl rfl).trans (ite_not _ _ _).symm))

theorem wantsRestart_iff : wantsRestart p st a = true ↔
    a.state = .refreshing ∧ (∀ c, p.pass = some c → c.targets.getLsbD st.val = false) ∧ p.endGuard = false := by
  have pass : (!(p.pass.any fun c => member st c.targets)) = true ↔ ∀ c, p.pass = some c → c.targets.getLsbD st.val = false := by
    cases p.pass with
    | none => simp
    | some c => simp [member]
  rw [wantsRestart, Bool.and_eq_true, Bool.and_eq_true, pass, decide_eq_true_iff, Bool.not_eq_true', and_assoc]

/-- An entry that passes R51 sets its station's ack state, and the pending targets, before the release check. -/
theorem processAck_eq (hp : pubAt s a.region = some p) {x : AckState} {w : StationSet} (passes : ackPasses s st a = true)
    (hx : ackStateOf p s.del.ownTurn a = x)
    (hw : (if x = .refreshWanted ∨ wantsRestart p st a then p.pendingTargets ||| (1#16 <<< st.val) else p.pendingTargets) = w) :
    processAck s st a = releaseCheck (withPub s a.region { p with
      acks := p.acks.map fun e => if e.1 = st then (e.1, x) else e, pendingTargets := w }) a.region := by
  subst hx hw
  rw [processAck, if_pos passes, updPub_eq _ hp]
  rfl

end

/-- Settles O57: an entry is admitted by R51, and then taken by its first row of R52. -/
theorem ackEntrySetsTheAckState : Obligations.AckEntrySetsTheAckState := by
  intro s st a p hp admitted wanted restart pend set
  have passes_iff : ackPasses s st a = true ↔ admitted := ackPasses_iff hp
  have state : ackStateOf p s.del.ownTurn a = if wanted then .refreshWanted else .tracking a.appliedSeq (some s.del.ownTurn) :=
    ackStateOf_eq
  have restart_iff : wantsRestart p st a = true ↔ restart := wantsRestart_iff
  refine ⟨fun out => ?out, fun passes hw => ?wanted, fun passes hw hr => ?restart, fun passes hw hr => ?tracked⟩
  case out => exact if_neg (mt passes_iff.mp out)
  case wanted => exact processAck_eq hp (passes_iff.mpr passes) (state.trans (if_pos hw)) (if_pos (.inl rfl))
  case restart =>
    exact processAck_eq hp (passes_iff.mpr passes) (state.trans (if_neg hw)) (if_pos (.inr (restart_iff.mpr hr)))
  case tracked =>
    refine processAck_eq hp (passes_iff.mpr passes) (state.trans (if_neg hw)) (if_neg ?_)
    rintro (h | h)
    · nomatch h
    · exact hr (restart_iff.mp h)

end Sys2Proof.Machine
end

section
/-! SUPPORT. The YIELD at the turn controller, its ack entries and its summaries. -/

namespace Sys2Proof.Machine

/-! ## The turn controller's part (R110, R115, R123, R139) -/

section
variable {h : State} {source : StationId} {y : YieldFrame}

theorem turnTakesYield_counted (hm : h.straps.stn = 0)
    (out : ∀ w, h.tc.watch = some w → w.station ≠ source ∨ y.cycle ≠ h.tc.cycle) :
    turnTakesYield h source y = frameCounted h := by
  have ends : yieldEndsWatch h source y.cycle = none := by
    rw [yieldEndsWatch, Option.filter_eq_none_iff]
    intro w hw
    rcases out w hw with station | cycle
    · rw [decide_eq_false station]; nofun
    · rw [decide_eq_false cycle, Bool.and_false]; nofun
  rw [turnTakesYield, if_pos (show isMaster h = true from decide_eq_true hm), ends, countFrame_eq]

theorem turnTakesYield_ends {w : Watch} (hm : h.straps.stn = 0) (hw : h.tc.watch = some w) (station : w.station = source)
    (cycle : y.cycle = h.tc.cycle) : turnTakesYield h source y = endWatch h w true := by
  have ends : yieldEndsWatch h source y.cycle = some w := by
    rw [yieldEndsWatch, hw, Option.filter_some, decide_eq_true station, decide_eq_true cycle]
    rfl
  rw [turnTakesYield, if_pos (show isMaster h = true from decide_eq_true hm), ends]

theorem not_isMaster (hm : h.straps.stn ≠ 0) : ¬ isMaster h = true := fun master => hm (of_decide_eq_true master)

theorem turnTakesYield_ignored (hm : h.straps.stn ≠ 0) (out : y.roster = none ∨ source ≠ 0) :
    turnTakesYield h source y = h := by
  rw [turnTakesYield, if_neg (not_isMaster hm)]
  rcases out with hr | hs
  · rw [hr]
  · split
    · exact if_neg hs
    · rfl

/-- A member outside its own turn takes the master's roster, and then moves by it. -/
theorem turnTakesYield_roster {ro : StationSet} (hm : h.straps.stn ≠ 0) (hr : y.roster = some ro) (hs : source = 0)
    (reply : h.tc.probeReply = false) (member : h.tc.member = .listening ∨ h.tc.member = .enrolled) :
    turnTakesYield h source y =
      rosterChanged (memberAfterYield { h with tc := { h.tc with roster := ro, lastCycle := y.cycle } }) := by
  have taken : ¬ (h.tc.member = .detached ∨ h.tc.member = .speaking ∨ h.tc.probeReply = true) := by
    rw [reply]
    rcases member with member | member <;> rw [member] <;> simp
  rw [turnTakesYield, if_neg (not_isMaster hm), hr]
  exact (if_pos hs).trans (if_neg taken)

end

section
variable {c : State}

theorem memberAfterYield_enters (h : c.tc.member = .listening) (own : c.tc.roster.getLsbD c.straps.stn.val = true) :
    memberAfterYield c = updAllPubs { c with tc := { c.tc with member := .enrolled } } fun p =>
      if p.state = .suspended then { p with state := .live } else p := by
  rw [memberAfterYield, h]
  exact if_pos own

theorem memberAfterYield_leaves (h : c.tc.member = .enrolled) (own : ¬ c.tc.roster.getLsbD c.straps.stn.val = true) :
    memberAfterYield c = unsyncNotEnrolled (suspendAll { c with tc := { c.tc with member := .listening } }) := by
  rw [memberAfterYield, h]
  exact if_neg own

theorem memberAfterYield_listens (h : c.tc.member = .listening) (own : ¬ c.tc.roster.getLsbD c.straps.stn.val = true) :
    memberAfterYield c = c := by
  rw [memberAfterYield, h]
  exact if_neg own

theorem memberAfterYield_stays (h : c.tc.member = .enrolled) (own : c.tc.roster.getLsbD c.straps.stn.val = true) :
    memberAfterYield c = c := by
  rw [memberAfterYield, h]
  exact if_pos own

end

/-! ## Summaries (R4, R19) -/

section
variable {s : State} {source : StationId} {x : Summary} {q : SubRecord}

theorem unsync_unfollowed {r : RegionId} (h : subAt s r = some q) (hf : following q = false) (c : UnsyncCause) :
    unsync s r c = s := by
  rw [unsync, h]
  exact if_neg (by rw [hf]; nofun)

theorem takeSummary_absent (h : subAt s x.region = none) : takeSummary s source x = s := by
  rw [takeSummary, h]

/-- A summary is taken from the region's publisher, with another generation than the stored one. -/
theorem takeSummary_eq (h : subAt s x.region = some q) : takeSummary s source x =
    if source = (descAt s x.region).publisher ∧ x.generation ≠ q.generation then unsync s x.region .generation else s := by
  rw [takeSummary, h]

theorem takeSummary_ignored (h : subAt s x.region = some q)
    (out : source ≠ (descAt s x.region).publisher ∨ x.generation = q.generation ∨ q.state = .unsynced ∨ q.state = .off) :
    takeSummary s source x = s := by
  rw [takeSummary_eq h]
  rcases out with wrong | same | hs
  · exact if_neg fun taken => wrong taken.1
  · exact if_neg fun taken => taken.2 same
  · rw [unsync_unfollowed h (following_not hs), ite_self]

end

/-- Settles O56: the YIELD at the master, at a member, and its summaries. -/
theorem yieldIsTakenByThreeBlocks : Obligations.YieldIsTakenByThreeBlocks := by
  refine ⟨?taken, fun s source x => ⟨takeSummary_absent, fun q hq => ⟨takeSummary_ignored hq, fun publisher hg hu ho => ?summary⟩⟩⟩
  case summary =>
    rw [takeSummary_eq hq, if_pos ⟨publisher, hg⟩, unsync_eq _ hq (following_of hu ho)]
    rfl
  case taken =>
    intro s source y ht hx h goesOn
    have takes {a : State} (ha : turnTakesYield h source y = a) : exec (.yieldReceived source y) s = goesOn a := by
      rw [yield_exec ht hx, ha]
    have watch : h.tc.watch = s.tc.watch.map fun w => { w with reply := none, silence := some s.clock.ticks } := if_pos ht
    have rest : h.straps = s.straps ∧ h.tc.cycle = s.tc.cycle ∧ h.tc.member = s.tc.member ∧ h.tc.probeReply = s.tc.probeReply ∧
      h.tc.additions = s.tc.additions ∧ h.tc.misses = s.tc.misses ∧ h.tc.pollPos = s.tc.pollPos ∧
      h.tc.pollList = s.tc.pollList := ⟨rfl, rfl, rfl, rfl, rfl, rfl, rfl, rfl⟩
    clear_value goesOn h
    obtain ⟨straps, cycle, member, reply, additions, misses, pollPos, pollList⟩ := rest
    refine ⟨fun hm out => ?counted, fun w hm hw station hc => ?ended, fun hm out => ?ignored, fun ro hm hr hs => ?roster⟩
    case counted =>
      refine takes (turnTakesYield_counted (by rw [straps, hm]) fun w' hw' => ?_)
      rw [watch, Option.map_eq_some_iff] at hw'
      obtain ⟨w, hw, rfl⟩ := hw'
      rw [cycle]
      exact out w hw
    case ended =>
      subst station
      have heard : h.tc.watch = some { w with reply := none, silence := some s.clock.ticks } := by rw [watch, hw]; rfl
      refine takes ?_
      rw [turnTakesYield_ends (by rw [straps, hm]) heard rfl (hc.trans cycle.symm), endWatch_success,
        additions, misses, pollPos, pollList]
    case ignored => exact takes (turnTakesYield_ignored (by rwa [straps]) out)
    case roster =>
      have taken (hp : s.tc.probeReply = false) (hmem : s.tc.member = .listening ∨ s.tc.member = .enrolled) :=
        turnTakesYield_roster (y := y) (by rwa [straps]) hr hs (reply.trans hp) (by rwa [member])
      rw [← straps, ← member]
      refine ⟨fun hp hl own => ?enters, fun hp hl own => ?listens, fun hp he own => ?stays, fun hp he own => ?leaves⟩
      case enters => exact takes ((taken hp (.inl (member ▸ hl))).trans (congrArg _ (memberAfterYield_enters hl own)))
      case listens => exact takes ((taken hp (.inl (member ▸ hl))).trans (congrArg _ (memberAfterYield_listens hl own)))
      case stays => exact takes ((taken hp (.inr (member ▸ he))).trans (congrArg _ (memberAfterYield_stays he own)))
      case leaves => exact takes ((taken hp (.inr (member ▸ he))).trans (congrArg _ (memberAfterYield_leaves he own)))

end Sys2Proof.Machine
end

section
/-! SUPPORT. What the payload of each kind carries: the content taken from it, field by field. -/

namespace Sys2Proof.Machine

theorem eq_byteOf {b : Byte} {n : Nat} (h : n = b.toNat) : b = byteOf n := by
  rw [h, byteOf, BitVec.ofNat_toNat, BitVec.setWidth_eq]

/-! ## DATA (R131, R137) -/

/-- A payload is a DATA frame's, by its header and by its records with the bits that reception ignores. -/
theorem dataContent_iff {payload : List Byte} {x : DataFrame} : dataContent payload = some x ↔
    (1 ≤ x.records.length ∧ x.records.length ≤ 16) ∧
      (∀ r ∈ x.records, r.lanes ≠ 0 ∧ ∀ k, k < 4 → r.lanes.getLsbD k = false → r.data.extractLsb' (8 * k) 8 = 0) ∧
      ∃ ignored : List (BitVec 4), ignored.length = x.records.length ∧
        payload = [byteOf x.region.val, x.generation, x.seq, byteOf x.records.length] ++
          (List.zipWith receivedRecord ignored x.records).flatten := by
  constructor
  · intro h
    unfold dataContent at h
    split at h
    · rename_i r g q n bs
      split at h
      · rename_i count
        split at h
        · rename_i region rs hregion hrs
          obtain ⟨length, lanes, ignored, hi, rfl⟩ := take_records_iff.mp (whole_iff.mp hrs)
          cases h
          refine ⟨length ▸ count, lanes, ignored, hi, ?_⟩
          rw [region_of_byte.mp hregion, eq_byteOf length, List.append_nil]
          rfl
        · nomatch h
      · nomatch h
    · nomatch h
  · rintro ⟨count, lanes, ignored, hi, rfl⟩
    have number : (byteOf x.records.length).toNat = x.records.length := byte_nat (by omega)
    have records : whole (takeRecords x.records.length (List.zipWith receivedRecord ignored x.records).flatten) =
        some x.records :=
      whole_iff.mpr (take_records_iff.mpr ⟨rfl, lanes, ignored, hi, (List.append_nil _).symm⟩)
    simp only [List.cons_append, List.nil_append]
    rw [dataContent, number, if_pos count, region_byte, records]

/-! ## CHUNK (R132, R137, R193) -/

theorem chunkContentFrom_some {region : RegionId} {g base : Byte} {targets : StationSet} {index : Fin 16}
    {settle : Option Byte} {bs : List Byte} {c : ChunkFrame}
    (h : chunkContentFrom region g targets base index settle bs = some c) :
    (1 ≤ c.words.length ∧ c.words.length ≤ 16) ∧ bs = byteOf c.words.length :: c.words.flatMap wordBytes ∧
      c = { region := region, generation := g, targets := targets, baseSeq := base, index := index, settle := settle
            words := c.words } := by
  unfold chunkContentFrom at h
  split at h
  · rename_i n bs
    split at h
    · rename_i count
      obtain ⟨ws, hws, rfl⟩ := Option.map_eq_some_iff.mp h
      obtain ⟨length, rfl⟩ := take_words_iff.mp (whole_iff.mp hws)
      refine ⟨length ▸ count, ?_, rfl⟩
      rw [eq_byteOf length, List.append_nil]
    · nomatch h
  · nomatch h

/-- Character 5 of a CHUNK's payload: the index in its low bits, the LAST flag in bit 7. -/
theorem indexByte_eq {x : Byte} {index : Fin 16} (h : regionByte (x &&& 0x7F#8) = some index) :
    x = byteOf (index.val + 128 * flag (x.getLsbD 7)) := by
  have halves : ∀ x : Byte, x = (x &&& 0x7F#8) + byteOf (128 * flag (x.getLsbD 7)) := by decide
  calc x = (x &&& 0x7F#8) + byteOf (128 * flag (x.getLsbD 7)) := halves x
    _ = byteOf index.val + byteOf (128 * flag (x.getLsbD 7)) := by rw [region_of_byte.mp h]
    _ = byteOf (index.val + 128 * flag (x.getLsbD 7)) := (BitVec.ofNat_add ..).symm

theorem twoBytes_append (h l : Byte) : twoBytes (h ++ l) = [h, l] := ((eq_twoBytes_iff h l _).mpr rfl).symm

/-- A payload that a CHUNK is taken from is the payload that it is sent with. -/
theorem chunkContent_some {payload : List Byte} {c : ChunkFrame} (h : chunkContent payload = some c) :
    c.wf = true ∧ payload = payloadOf (.chunk c) := by
  unfold chunkContent at h
  split at h
  · rename_i r g t1 t0 base x bs
    split at h
    · rename_i region index hregion hindex
      split at h
      · rename_i targets
        have taken {settle : Option Byte} {rest : List Byte} (hs : x.getLsbD 7 = settle.isSome)
            (hb : bs = settle.toList ++ rest)
            (h : chunkContentFrom region g (t1 ++ t0) base index settle rest = some c) :
            c.wf = true ∧ r :: g :: t1 :: t0 :: base :: x :: bs = payloadOf (.chunk c) := by
          obtain ⟨count, rfl, hc⟩ := chunkContentFrom_some h
          rw [hc]
          refine ⟨by rw [ChunkFrame.wf, decide_eq_true count.1, decide_eq_true count.2]; exact targets, ?_⟩
          rw [payloadOf, twoBytes_append, ← hs, ← indexByte_eq hindex, region_of_byte.mp hregion, hb]
          simp
        split at h
        · rename_i last
          split at h
          · exact taken (settle := some _) last rfl h
          · nomatch h
        · rename_i notLast
          exact taken (settle := none) (Bool.eq_false_iff.mpr notLast) rfl h
      · nomatch h
    · nomatch h
  · nomatch h

/-! ## YIELD (R133, R137, R193) -/

theorem yieldContentFrom_some {cycle : Byte} {roster : Option StationSet} {a n : Nat} {bs : List Byte} {y : YieldFrame}
    (h : yieldContentFrom cycle roster a n bs = some y) :
    y.cycle = cycle ∧ y.roster = roster ∧ y.acks.length = a ∧ y.summaries.length = n ∧
      bs = y.acks.flatMap ackBytes ++ y.summaries.flatMap summaryBytes := by
  unfold yieldContentFrom at h
  split at h
  · nomatch h
  · rename_i acks rest hacks
    obtain ⟨xs, hxs, rfl⟩ := Option.map_eq_some_iff.mp h
    obtain ⟨hn, rfl⟩ := take_summaries_iff.mp (whole_iff.mp hxs)
    obtain ⟨ha, rfl⟩ := take_acks_iff.mp hacks
    exact ⟨rfl, rfl, ha, hn, by rw [List.append_nil]⟩

theorem yieldContentFrom_eq (y : YieldFrame) (roster : Option StationSet) :
    yieldContentFrom y.cycle roster y.acks.length y.summaries.length
      (y.acks.flatMap ackBytes ++ y.summaries.flatMap summaryBytes) = some { y with roster := roster } := by
  have summaries : whole (takeSummaries y.summaries.length (y.summaries.flatMap summaryBytes)) = some y.summaries :=
    whole_iff.mpr (take_summaries_iff.mpr ⟨rfl, (List.append_nil _).symm⟩)
  rw [yieldContentFrom, take_acks]
  dsimp only
  rw [summaries]
  rfl

theorem flagByte_eq : ∀ b : Byte, b = (b.extractLsb' 1 7 ++ BitVec.ofBool (b.getLsbD 0) : BitVec 8) := by decide

theorem flagByte_flag (ignored : BitVec 7) (b : Bool) : (ignored ++ BitVec.ofBool b : BitVec 8).getLsbD 0 = b := by
  rw [BitVec.getLsbD_append]
  cases b <;> rfl

/-- The payload of a YIELD, its flag byte with the bits that reception ignores. -/
def receivedYield (ignored : BitVec 7) (y : YieldFrame) : List Byte :=
  [y.cycle, ignored ++ BitVec.ofBool y.roster.isSome, byteOf y.acks.length, byteOf y.summaries.length] ++
    y.roster.elim [] twoBytes ++ y.acks.flatMap ackBytes ++ y.summaries.flatMap summaryBytes

theorem yieldContent_some {payload : List Byte} {y : YieldFrame} (h : yieldContent payload = some y) :
    y.wf = true ∧ ∃ ignored, payload = receivedYield ignored y := by
  unfold yieldContent at h
  split at h
  · rename_i c fl a n bs
    split at h
    · rename_i count
      have taken {roster : Option StationSet} {rest : List Byte} (hr : fl.getLsbD 0 = roster.isSome)
          (hw : roster.all stationSetWf = true) (hb : bs = roster.elim [] twoBytes ++ rest)
          (h : yieldContentFrom c roster a.toNat n.toNat rest = some y) :
          y.wf = true ∧ c :: fl :: a :: n :: bs = receivedYield (fl.extractLsb' 1 7) y := by
        obtain ⟨rfl, rfl, ha, hn, rfl⟩ := yieldContentFrom_some h
        refine ⟨by rw [YieldFrame.wf, hw, Bool.and_true, decide_eq_true_iff]; omega, ?_⟩
        rw [receivedYield, ← hr, ← flagByte_eq, ← eq_byteOf ha, ← eq_byteOf hn, hb]
        simp
      split at h
      · rename_i hfl
        split at h
        · rename_i r1 r0 rest
          split at h
          · rename_i hw
            obtain ⟨wf, e⟩ := taken (roster := some (r1 ++ r0)) hfl hw (by rw [Option.elim_some, twoBytes_append]; rfl) h
            exact ⟨wf, _, e⟩
          · nomatch h
        · nomatch h
      · rename_i hfl
        obtain ⟨wf, e⟩ := taken (roster := none) (Bool.eq_false_iff.mpr hfl) rfl rfl h
        exact ⟨wf, _, e⟩
    · nomatch h
  · nomatch h

theorem yieldContent_received {ignored : BitVec 7} {y : YieldFrame} (h : y.wf = true) :
    yieldContent (receivedYield ignored y) = some y := by
  obtain ⟨count, sets⟩ : y.acks.length + y.summaries.length ≤ 16 ∧ y.roster.all stationSetWf = true := by
    rwa [YieldFrame.wf, Bool.and_eq_true, decide_eq_true_iff] at h
  have acks : (byteOf y.acks.length).toNat = y.acks.length := byte_nat (by omega)
  have summaries : (byteOf y.summaries.length).toNat = y.summaries.length := byte_nat (by omega)
  have written : receivedYield ignored y = y.cycle :: (ignored ++ BitVec.ofBool y.roster.isSome : BitVec 8) ::
      byteOf y.acks.length :: byteOf y.summaries.length ::
        (y.roster.elim [] twoBytes ++ (y.acks.flatMap ackBytes ++ y.summaries.flatMap summaryBytes)) := by
    simp [receivedYield]
  rw [written]
  unfold yieldContent
  dsimp only
  rw [acks, summaries, if_pos count, flagByte_flag]
  cases hr : y.roster with
  | none =>
    rw [if_neg (by nofun), Option.elim_none, List.nil_append, yieldContentFrom_eq, ← hr]
  | some ro =>
    rw [hr] at sets
    rw [if_pos (by rfl), Option.elim_some, twoBytes]
    dsimp only [List.cons_append, List.nil_append]
    rw [twoBytes_back, if_pos (by exact sets), yieldContentFrom_eq, ← hr]

end Sys2Proof.Machine
end

section
/-! SUPPORT. Frames as characters: the content by kind, the whole-frame check, the CRC, and the place of every field. -/

namespace Sys2Proof.Machine

/-- The content taken from a payload is the one that it carries (R137, R187). -/
theorem contentOf_iff {kind : Nat} {destination : StationId} {payload : List Byte} {f : Frame} :
    contentOf kind destination payload = some f ↔ Carries kind destination payload f := by
  constructor
  · intro h
    unfold contentOf at h
    split at h <;> try split at h
    case h_1.isFalse hd =>
      unfold pollContent at h
      split at h
      · split at h
        · cases h
          exact ⟨rfl, rfl, hd, ‹_›, rfl⟩
        · nomatch h
      · nomatch h
    case h_2.isTrue hd =>
      obtain ⟨x, hx, rfl⟩ := Option.map_eq_some_iff.mp h
      exact ⟨rfl, hd, dataContent_iff.mp hx⟩
    case h_3.isTrue hd =>
      obtain ⟨c, hc, rfl⟩ := Option.map_eq_some_iff.mp h
      obtain ⟨wf, rfl⟩ := chunkContent_some hc
      rw [ChunkFrame.wf, Bool.and_eq_true, Bool.and_eq_true, decide_eq_true_iff, decide_eq_true_iff, stationSetWf,
        Bool.not_eq_true'] at wf
      exact ⟨rfl, hd, wf.1, wf.2, rfl⟩
    case h_4.isTrue hd =>
      obtain ⟨y, hy, rfl⟩ := Option.map_eq_some_iff.mp h
      obtain ⟨wf, ignored, rfl⟩ := yieldContent_some hy
      rw [YieldFrame.wf, Bool.and_eq_true, decide_eq_true_iff, Option.all_eq_true] at wf
      exact ⟨rfl, hd, wf.1, fun r hr => by simpa [stationSetWf] using wf.2 r hr, ignored, rfl⟩
    all_goals nomatch h
  · intro h
    cases f with
    | poll d cycle budget =>
      obtain ⟨rfl, rfl, hd, hb, rfl⟩ := h
      exact (if_neg hd).trans (if_pos hb)
    | data x =>
      obtain ⟨rfl, rfl, h⟩ := h
      exact congrArg (Option.map Frame.data) (dataContent_iff.mpr h)
    | chunk c =>
      obtain ⟨rfl, rfl, count, targets, rfl⟩ := h
      refine content_back (.chunk c) ?_
      show ChunkFrame.wf c = true
      rw [ChunkFrame.wf, decide_eq_true count.1, decide_eq_true count.2, stationSetWf, targets]
      rfl
    | yield y =>
      obtain ⟨rfl, rfl, count, roster, ignored, rfl⟩ := h
      refine congrArg (Option.map Frame.yield) (yieldContent_received (ignored := ignored) ?_)
      rw [YieldFrame.wf, decide_eq_true count, Bool.true_and, Option.all_eq_true]
      exact fun r hr => by rw [stationSetWf, roster r hr]; rfl

/-! ## The header (R128, R193) -/

theorem nibbles_join (b : Byte) (d : Fin 16) (h : (b.extractLsb' 0 4).toNat = d.val) :
    b = (b.extractLsb' 4 4 ++ BitVec.ofNat 4 d.val : BitVec 8) := by
  rw [← h, BitVec.ofNat_toNat, BitVec.setWidth_eq]
  exact split_lanes b

theorem kindOf_append (k : BitVec 4) (d : BitVec 4) : kindOf (k ++ d) = k.toNat := by
  rw [kindOf, BitVec.extractLsb'_append_eq_left]

theorem sourceOf_append (k : BitVec 4) (d : Fin 16) : sourceOf (k ++ BitVec.ofNat 4 d.val) = d := by
  refine Fin.ext ?_
  show ((k ++ BitVec.ofNat 4 d.val : BitVec 8).extractLsb' 0 4).toNat = d.val
  rw [BitVec.extractLsb'_append_eq_right, BitVec.toNat_ofNat]
  exact Nat.mod_eq_of_lt d.isLt

theorem destinationOf_append (k : BitVec 4) (d : Fin 16) : destinationOf (k ++ BitVec.ofNat 4 d.val) = d :=
  sourceOf_append k d

/-! ## The whole-frame check (R129, R137) -/

/-- A frame is good with its CRC after a content that its payload carries, from a station. -/
theorem checkFrame_good_iff {chars : List Byte} {crc : BitVec 16} {source : StationId} {f : Frame} :
    checkFrame chars crc = .good source f ↔
      source ≠ 15 ∧ ∃ (kind ignored : BitVec 4) (destination : StationId) (payload : List Byte), payload.length < 256 ∧
        Carries kind.toNat destination payload f ∧
        chars = (kind ++ BitVec.ofNat 4 destination.val) :: (ignored ++ BitVec.ofNat 4 source.val) ::
          BitVec.ofNat 8 payload.length :: (payload ++ [crc.extractLsb' 8 8, crc.extractLsb' 0 8]) := by
  constructor
  · intro h
    unfold checkFrame at h
    split at h
    · rename_i c0 c1 n rest
      split at h
      · rename_i hcrc
        split at h
        · nomatch h
        · rename_i hsource
          split at h
          · rename_i g content
            cases h
            have length : (rest.take n.toNat).length = n.toNat := by
              have two : (rest.drop n.toNat).length = 2 := by rw [hcrc]; rfl
              rw [List.length_drop] at two
              rw [List.length_take]
              omega
            refine ⟨hsource, c0.extractLsb' 4 4, c1.extractLsb' 4 4, destinationOf c0, rest.take n.toNat,
              by rw [length]; exact n.isLt, contentOf_iff.mp content, ?_⟩
            rw [← nibbles_join c0 (destinationOf c0) rfl, ← nibbles_join c1 (sourceOf c1) rfl, ← byteOf, ← eq_byteOf length, ← twoBytes, ← hcrc,
              List.take_append_drop]
          · nomatch h
      · nomatch h
    · nomatch h
  · rintro ⟨hs, kind, ignored, destination, payload, hl, carries, rfl⟩
    show checkFrame (_ :: _ :: byteOf payload.length :: _) _ = _
    rw [checkFrame_judged (byte_nat hl).symm (twoBytes_back crc), sourceOf_append, kindOf_append, destinationOf_append,
      if_neg hs, contentOf_iff.mpr carries]
    rfl

theorem checkFrame_crcFault_iff {c0 c1 n h l : Byte} {payload : List Byte} {crc : BitVec 16}
    (hl : payload.length = n.toNat) : checkFrame (c0 :: c1 :: n :: (payload ++ [h, l])) crc = .crcFault ↔ h ++ l ≠ crc := by
  refine ⟨fun fault good => ?_, checkFrame_crcFault hl⟩
  rw [checkFrame_judged hl good] at fault
  split at fault
  · nomatch fault
  · cases e : contentOf (kindOf c0) (destinationOf c0) payload <;> rw [e] at fault <;> nomatch fault

/-- A well-formed frame from a station passes the check (R137). -/
theorem checkFrame_frameBytes {source : StationId} {f : Frame} (hs : source ≠ 15) (hw : f.wf = true) :
    checkFrame (frameBytes source f) (crc16 (bodyOf source f)) = .good source f := by
  obtain ⟨-, length⟩ := payload_len f hw
  rw [frameBytes_eq, twoBytes, checkFrame_judged (byte_nat (by omega)).symm (twoBytes_back _), station_of_nibble, kind_byte,
    dest_byte, content_back f hw, if_neg hs]
  rfl

/-- A bit taken into the CRC's register (R129). -/
theorem crcBit_eq (r : BitVec 16) (bit : Bool) :
    crcBit r bit = if r.getLsbD 15 = bit then r <<< 1 else (r <<< 1) ^^^ 0x1021#16 := by
  unfold crcBit
  cases r.getLsbD 15 <;> cases bit <;> rfl

/-! ## The place of every field (R128, R130 to R133, R193) -/

theorem twoBytes_toNat (x : BitVec 16) : (twoBytes x).map BitVec.toNat = [x.toNat / 256, x.toNat % 256] := by
  have := x.isLt
  simp only [twoBytes, List.map_cons, List.map_nil, BitVec.extractLsb'_toNat, Nat.shiftRight_eq_div_pow, List.cons.injEq,
    and_true]
  omega

theorem recordBytes_toNat (x : UpdateRecord) : (recordBytes x).map BitVec.toNat = [x.offset.toNat, x.lanes.toNat] ++
    (([0, 1, 2, 3] : List Nat).filter fun k => x.lanes.getLsbD k).map fun k => x.data.toNat / 2 ^ (8 * k) % 256 := by
  have lanes : (x.lanes.zeroExtend 8).toNat = x.lanes.toNat := by
    rw [BitVec.zeroExtend, BitVec.toNat_setWidth]
    exact Nat.mod_eq_of_lt (by have := x.lanes.isLt; omega)
  have data : BitVec.toNat ∘ laneByte x.data = fun k => x.data.toNat / 2 ^ (8 * k) % 256 :=
    funext fun k => laneByte_toNat x.data k
  rw [recordBytes, List.map_cons, List.map_cons, List.map_map, lanes, data]
  rfl

theorem wordBytes_toNat (x : Word) :
    (wordBytes x).map BitVec.toNat = ([0, 1, 2, 3] : List Nat).map fun k => x.toNat / 2 ^ (8 * k) % 256 := by
  simp only [wordBytes, List.map_cons, List.map_nil, laneByte_toNat]

end Sys2Proof.Machine
end

section
/-! SUPPORT. Each kind's payload in numbers, and the check of what was sent. -/

namespace Sys2Proof.Machine

theorem byteOf_fin (r : Fin 16) : (byteOf r.val).toNat = r.val := byte_nat (by omega)

theorem ackBytes_toNat (x : AckEntry) : (ackBytes x).map BitVec.toNat =
    [x.region.val, x.generation.toNat, x.appliedSeq.toNat,
      match x.state with | .unsynced => 1 | .refreshing => 2 | .settling => 3 | .current => 4] := by
  simp only [ackBytes, List.map_cons, List.map_nil, byteOf_fin]
  cases x.state <;> rfl

theorem summaryBytes_toNat (x : Summary) : (summaryBytes x).map BitVec.toNat = [x.region.val, x.generation.toNat] := by
  simp only [summaryBytes, List.map_cons, List.map_nil, byteOf_fin]

theorem payloadOf_data_toNat {x : DataFrame} (h : (Frame.data x).wf = true) : (payloadOf (.data x)).map BitVec.toNat =
    [x.region.val, x.generation.toNat, x.seq.toNat, x.records.length] ++
      x.records.flatMap fun r => (recordBytes r).map BitVec.toNat := by
  have count : x.records.length ≤ 16 := by
    rw [Frame.wf, DataFrame.wf, Bool.and_eq_true, Bool.and_eq_true, decide_eq_true_iff, decide_eq_true_iff] at h
    exact h.1.2
  rw [payloadOf, List.map_append, List.map_flatMap]
  simp only [List.map_cons, List.map_nil, byteOf_fin, byte_nat (show x.records.length < 256 by omega)]

theorem payloadOf_chunk_toNat {x : ChunkFrame} (h : (Frame.chunk x).wf = true) : (payloadOf (.chunk x)).map BitVec.toNat =
    [x.region.val, x.generation.toNat] ++ (twoBytes x.targets).map BitVec.toNat ++
      [x.baseSeq.toNat, x.index.val + 128 * (if x.settle.isSome then 1 else 0)] ++ x.settle.elim [] (fun z => [z.toNat]) ++
      [x.words.length] ++ x.words.flatMap fun w => (wordBytes w).map BitVec.toNat := by
  have count : x.words.length ≤ 16 := by
    rw [Frame.wf, ChunkFrame.wf, Bool.and_eq_true, Bool.and_eq_true, decide_eq_true_iff, decide_eq_true_iff] at h
    exact h.1.2
  have last : flag x.settle.isSome ≤ 1 := by cases x.settle.isSome <;> decide
  have settle : x.settle.toList.map BitVec.toNat = x.settle.elim [] (fun z => [z.toNat]) := by cases x.settle <;> rfl
  simp only [payloadOf, List.map_append, List.map_flatMap, List.map_cons, List.map_nil, byteOf_fin, settle,
    byte_nat (show x.words.length < 256 by omega), byte_nat (show x.index.val + 128 * flag x.settle.isSome < 256 by omega)]
  rfl

theorem payloadOf_yield_toNat {x : YieldFrame} (h : (Frame.yield x).wf = true) : (payloadOf (.yield x)).map BitVec.toNat =
    [x.cycle.toNat, if x.roster.isSome then 1 else 0, x.acks.length, x.summaries.length] ++
      x.roster.elim [] (fun r => (twoBytes r).map BitVec.toNat) ++
      x.acks.flatMap (fun a => (ackBytes a).map BitVec.toNat) ++
      x.summaries.flatMap fun z => (summaryBytes z).map BitVec.toNat := by
  have count : x.acks.length + x.summaries.length ≤ 16 := by
    rw [Frame.wf, YieldFrame.wf, Bool.and_eq_true, decide_eq_true_iff] at h
    exact h.1
  have named : (byteOf (flag x.roster.isSome)).toNat = if x.roster.isSome then 1 else 0 := by
    cases x.roster.isSome <;> rfl
  have roster : (x.roster.elim [] twoBytes).map BitVec.toNat = x.roster.elim [] (fun r => (twoBytes r).map BitVec.toNat) := by
    cases x.roster <;> rfl
  simp only [payloadOf, List.map_append, List.map_flatMap, List.map_cons, List.map_nil, named, roster,
    byte_nat (show x.acks.length < 256 by omega), byte_nat (show x.summaries.length < 256 by omega)]

/-- The characters of a frame: its header, its payload, and the CRC of both, high byte first (R128). -/
theorem frameBytes_sent {source : StationId} {f : Frame} {payload : List Nat} (hw : f.wf = true)
    (hp : (payloadOf f).map BitVec.toNat = payload) :
    ∃ body : List Byte,
      body.map BitVec.toNat = [16 * frameKind f + (frameDestination f).val, source.val, payload.length] ++ payload ∧
        (frameBytes source f).map BitVec.toNat =
          body.map BitVec.toNat ++ [(crc16 body).toNat / 256, (crc16 body).toNat % 256] := by
  subst hp
  obtain ⟨-, length⟩ := payload_len f hw
  have kind : 16 * frameKind f + (frameDestination f).val < 256 := by
    have := (frameDestination f).isLt
    have : frameKind f ≤ 4 := by cases f <;> simp [frameKind]
    omega
  refine ⟨bodyOf source f, ?_, ?_⟩
  · rw [bodyOf, List.map_append, List.length_map]
    simp only [List.map_cons, List.map_nil, byteOf_fin, byte_nat kind,
      byte_nat (show (payloadOf f).length < 256 by omega)]
  · rw [frameBytes, List.map_append, twoBytes_toNat]

/-- Settles O58: what is sent passes the check, and nothing passes that no payload carries. -/
theorem checkedFrameIsTheFrameSent : Obligations.CheckedFrameIsTheFrameSent := by
  refine ⟨fun source f => checkFrame_frameBytes, fun source f hw => ?sent, fun body crc b => ⟨rfl, ?appended, ?bits⟩,
    fun kind destination payload f => contentOf_iff, fun chars crc source f => checkFrame_good_iff,
    fun c0 c1 n h l payload crc => checkFrame_crcFault_iff⟩
  case appended =>
    rw [crc16, List.foldl_append]
    rfl
  case bits => simp only [crcByte, List.foldl_cons, List.foldl_nil, crcBit_eq]
  case sent =>
    intro bytes record word entry sent
    have set (x : BitVec 16) : (twoBytes x).map BitVec.toNat = bytes x := twoBytes_toNat x
    have records (x : UpdateRecord) : (recordBytes x).map BitVec.toNat = record x := recordBytes_toNat x
    have words (x : Word) : (wordBytes x).map BitVec.toNat = word x := wordBytes_toNat x
    have entries (x : AckEntry) : (ackBytes x).map BitVec.toNat = entry x := ackBytes_toNat x
    cases f with
    | poll d cycle budget => exact frameBytes_sent hw rfl
    | data x =>
      refine frameBytes_sent hw ((payloadOf_data_toNat hw).trans ?_)
      simp only [records]
    | chunk x =>
      refine frameBytes_sent hw ((payloadOf_chunk_toNat hw).trans ?_)
      simp only [set, words]
    | yield x =>
      refine frameBytes_sent hw ((payloadOf_yield_toNat hw).trans ?_)
      simp only [set, entries, summaryBytes_toNat]

end Sys2Proof.Machine
end

section
/-! SUPPORT. The characters of a frame, taken one by one, up to the hand-on of the frame. -/

namespace Sys2Proof.Machine

/-- A receiver that has taken the characters `buffer` of a frame with `n` payload bytes, with the CRC of those it covers. -/
def receivingState (s : State) (n : Nat) (buffer : List Byte) : State :=
  { s with fu := { s.fu with rx := .receiving buffer (crc16 (buffer.take (n + 3))) } }

section
variable {s : State} {source : StationId} {f : Frame}

theorem bufferLength_taken {buffer rest : List Byte} (hw : f.wf = true) (h : frameBytes source f = buffer ++ rest)
    (hl : 2 < buffer.length) : bufferLength buffer = (payloadOf f).length := by
  obtain ⟨-, length⟩ := payload_len f hw
  match buffer, hl with
  | _ :: _ :: n :: _, _ =>
    rw [frameBytes_eq] at h
    simp only [List.cons_append, List.cons.injEq] at h
    obtain ⟨-, -, hn, -⟩ := h
    exact (congrArg BitVec.toNat hn.symm).trans (byte_nat (by omega))

/-- The next character of a well-formed frame, for a region subscribed here, is taken; the last one has the frame checked. -/
theorem deliver_next {buffer rest : List Byte} {b : Byte} (hw : f.wf = true)
    (hr : frameKind f = 2 ∨ frameKind f = 3 → (subAt s (frameRegion f)).isSome = true)
    (h : frameBytes source f = (buffer ++ [b]) ++ rest) :
    deliverCharacter (receivingState s (payloadOf f).length buffer) (cleanCharacter b false) =
      if rest = [] then
        finishFrame (receivingState s (payloadOf f).length buffer) (buffer ++ [b])
          (crc16 ((buffer ++ [b]).take ((payloadOf f).length + 3)))
      else receivingState s (payloadOf f).length (buffer ++ [b]) := by
  have total : (buffer ++ [b]).length + rest.length = (payloadOf f).length + 5 := by
    rw [← List.length_append, ← h, frame_len]
  have last : (buffer ++ [b]).length = (payloadOf f).length + 5 ↔ rest = [] := by
    rw [← List.length_eq_zero_iff]
    omega
  obtain ⟨-, limit⟩ := payload_len f hw
  rw [deliver_receiving_takes (s := receivingState s (payloadOf f).length buffer) rfl ⟨rfl, rfl⟩ rfl, ← if_congr last rfl rfl, crc_take]
  show takeCharacter (receivingState s _ buffer) buffer (crc16 _) b = _
  by_cases header : (buffer ++ [b]).length ≤ 2
  · rw [takeCharacter_header header, if_neg (by omega)]
    unfold receivingState
    rw [crc_take, if_pos (by omega)]
  · have field := bufferLength_taken hw h (by omega)
    rw [takeCharacter_taken (by omega) (by omega) (muted_no rest h (by exact hr)), field]
    dsimp only
    refine if_congr Iff.rfl rfl ?_
    unfold receivingState
    rw [crc_take]

/-- The rest of a frame, taken from its first character on, hands the frame on. -/
theorem deliver_rest (hs : source ≠ 15) (hw : f.wf = true)
    (hr : frameKind f = 2 ∨ frameKind f = 3 → (subAt s (frameRegion f)).isSome = true) :
    ∀ (rest buffer : List Byte), frameBytes source f = buffer ++ rest → rest ≠ [] →
      rest.foldl (fun t b => deliverCharacter t (cleanCharacter b false)) (receivingState s (payloadOf f).length buffer) =
        handOn { s with fu := { s.fu with rx := .idle } } source f := by
  intro rest
  induction rest with
  | nil => intro buffer _ h; exact absurd rfl h
  | cons b rest ih =>
    intro buffer h _
    have next : frameBytes source f = (buffer ++ [b]) ++ rest := by rw [h, List.append_assoc]; rfl
    rw [List.foldl_cons, deliver_next hw hr next]
    by_cases hrest : rest = []
    · subst hrest
      rw [List.append_nil] at next
      rw [if_pos rfl, ← next, frame_take, List.foldl_nil]
      exact finishFrame_good (checkFrame_frameBytes hs hw)
    · rw [if_neg hrest]
      exact ih _ next hrest

/-- The first character of a frame for this station, or for all, begins its reception. -/
theorem deliver_first (hr : s.fu.rx = .idle) (hd : frameDestination f = s.straps.stn ∨ frameDestination f = 15) :
    deliverCharacter s (cleanCharacter (byteOf (16 * frameKind f + (frameDestination f).val)) true) =
      receivingState (leadHeard s) (payloadOf f).length [byteOf (16 * frameKind f + (frameDestination f).val)] := by
  have kind : 1 ≤ frameKind f ∧ frameKind f ≤ 4 := by cases f <;> simp [frameKind]
  have accepted : ¬ (frameDestination f ≠ (leadHeard s).straps.stn ∧ frameDestination f ≠ 15) :=
    fun ⟨other, notAll⟩ => hd.elim other notAll
  rw [(deliver_idle hr).2 ⟨rfl, rfl⟩ rfl, ← begin_eq]
  show beginReception (leadHeard s) (byteOf _) = _
  rw [beginReception, dest_byte, kind_byte, if_neg accepted, if_pos kind]
  rfl

end

/-- Settles O59: the frame's characters end in its hand-on, as does a frame received as one event. -/
theorem deliveredFrameIsHandedOn : Obligations.DeliveredFrameIsHandedOn := by
  refine ⟨fun s source f hr hs hw poll data chunk => ?characters, fun s source f => handOn_outside source f,
    fun s source hx => ⟨fun _ _ => frame_exec hx, fun _ => frame_exec hx, fun _ => frame_exec hx, fun _ => frame_exec hx⟩⟩
  case characters =>
    have destination : frameDestination f = s.straps.stn ∨ frameDestination f = 15 := by
      cases f with
      | poll d cycle budget => exact .inl (poll d cycle budget rfl)
      | _ => exact .inr rfl
    have region : frameKind f = 2 ∨ frameKind f = 3 → (subAt s (frameRegion f)).isSome = true := by
      intro kind
      cases f with
      | data d => exact data d rfl
      | chunk c => exact chunk c rfl
      | poll _ _ _ => exact absurd kind (by simp [frameKind])
      | yield _ => exact absurd kind (by simp [frameKind])
    have listening : { leadHeard s with fu := { (leadHeard s).fu with rx := .idle } } = leadHeard s := by
      rw [← hr]
      rfl
    rw [frameBytes_eq, frameDelivered, deliver_first hr destination]
    exact (deliver_rest (s := leadHeard s) hs hw region _ [_] (frameBytes_eq source f) (List.cons_ne_nil _ _)).trans
      (congrArg (fun t => handOn t source f) listening)

end Sys2Proof.Machine
end

section
/-! SUPPORT. The votes of a character, and the levels that a transmitter sends. -/

namespace Sys2Proof.Machine

/-! ## The voted byte (R146, R149) -/

theorem shiftIn_zero (b : Byte) (m : Bool) : ((b <<< 1) ||| (if m then 1#8 else 0#8)).getLsbD 0 = m := by
  cases m <;> simp

theorem shiftIn_succ (b : Byte) (m : Bool) {i : Nat} (h : i + 1 < 8) :
    ((b <<< 1) ||| (if m then 1#8 else 0#8)).getLsbD (i + 1) = b.getLsbD i := by
  have one : (if m then 1#8 else 0#8 : Byte).getLsbD (i + 1) = false := by cases m <;> simp
  rw [BitVec.getLsbD_or, one, Bool.or_false, BitVec.getLsbD_shiftLeft]
  simp [h]

theorem votedByte_get (start : Vote) (samples : List Vote) {p : Nat} (hp : p < 8) :
    (votedByte start samples).getLsbD p = majority (votesAt start samples (p + 1)) := by
  simp only [votedByte, List.foldl_cons, List.foldl_nil]
  interval_cases p <;> simp only [shiftIn_zero, shiftIn_succ, Nat.reduceAdd, Nat.reduceLT]

theorem charBits_eq (f : LineFormat) : charBits f =
    11 + (if f.parity = .none then 0 else 1) + (if f.twoStops = true then 1 else 0) := by
  rw [charBits, hasParity]
  simp only [decide_eq_true_eq, ne_eq, ite_not]

/-- The data, lead and parity bits, and the first stop bit, are positions of the character; so is a second stop bit. -/
theorem stopPosition_lt (f : LineFormat) : 10 ≤ stopPosition f ∧ stopPosition f < charBits f ∧
    (f.twoStops = true → stopPosition f + 1 < charBits f) := by
  rw [stopPosition_eq, charBits_eq]
  split <;> split <;> simp_all

/-! ## The levels of a character (R146) -/

theorem charLevel_parity (f : LineFormat) (b : Byte) (lead : Bool) :
    charLevel f b lead 10 = if hasParity f then parityBit f b lead else true := by
  show (if 10 = 10 ∧ hasParity f = true then parityBit f b lead else true) = _
  exact if_congr (and_iff_right rfl) rfl rfl

theorem charLevel_stop {f : LineFormat} {p : Nat} (b : Byte) (lead : Bool) (h : stopPosition f ≤ p) :
    charLevel f b lead p = true := by
  obtain ⟨low, -, -⟩ := stopPosition_lt f
  rw [charLevel, if_neg (by omega), if_neg (by omega), if_neg (by omega), if_neg]
  rintro ⟨rfl, parity⟩
  rw [stopPosition, if_pos parity] at h
  omega

/-- Whether the data and lead bits hold an odd number of 1s. -/
theorem parity_fold (b : Byte) (lead : Bool) :
    ([0, 1, 2, 3, 4, 5, 6, 7] : List Nat).foldl (fun x i => x != b.getLsbD i) lead =
      (b.getLsbD 0 ^^ b.getLsbD 1 ^^ b.getLsbD 2 ^^ b.getLsbD 3 ^^ b.getLsbD 4 ^^ b.getLsbD 5 ^^ b.getLsbD 6 ^^
        b.getLsbD 7 ^^ lead) := by
  show ((((((((lead ^^ b.getLsbD 0) ^^ b.getLsbD 1) ^^ b.getLsbD 2) ^^ b.getLsbD 3) ^^ b.getLsbD 4) ^^ b.getLsbD 5) ^^
    b.getLsbD 6) ^^ b.getLsbD 7) = _
  simp only [Bool.xor_assoc]
  rw [Bool.xor_comm lead]
  simp only [Bool.xor_assoc]

/-! ## A voted character (R149 to R152) -/

section
variable (f : LineFormat) (start : Vote) (samples : List Vote)

theorem voteChar_framingError : (voteChar f start samples).framingError = true ↔
    majority (votesAt start samples (stopPosition f)) = false ∨
      (f.twoStops = true ∧ majority (votesAt start samples (stopPosition f + 1)) = false) := by
  simp [voteChar]

theorem voteChar_parityError : (voteChar f start samples).parityError = true ↔
    (voteChar f start samples).framingError = false ∧ hasParity f = true ∧
      majority (votesAt start samples 10) ≠
        parityBit f (voteChar f start samples).byte (voteChar f start samples).lead := by
  show (_ && !(voteChar f start samples).framingError) = true ↔ _
  rw [Bool.and_eq_true, Bool.and_eq_true, Bool.not_eq_true', bne_iff_ne, and_comm]
  rfl

end

/-- The votes of the levels that a character is sent with give that character back. -/
theorem voteChar_sent {f : LineFormat} {b : Byte} {lead : Bool} {start : Vote} {samples : List Vote}
    (h : ∀ p, p < charBits f → majority (votesAt start samples p) = charLevel f b lead p) :
    let c := voteChar f start samples
    c.byte = b ∧ c.lead = lead ∧ c.parityError = false ∧ c.framingError = false := by
  obtain ⟨low, stop, second⟩ := stopPosition_lt f
  have byte : (voteChar f start samples).byte = b := by
    refine BitVec.eq_of_getLsbD_eq fun i hi => ?_
    rw [voteChar, votedByte_get start samples hi, h _ (by omega), charLevel_byte f b lead _ (by omega) (by omega)]
    rfl
  have voted : (voteChar f start samples).lead = lead := h 9 (by omega)
  have framing : (voteChar f start samples).framingError = false := by
    refine Bool.eq_false_iff.mpr fun bad => ?_
    rcases (voteChar_framingError f start samples).mp bad with bad | ⟨two, bad⟩
    · rw [h _ stop, charLevel_stop b lead le_rfl] at bad
      nomatch bad
    · rw [h _ (second two), charLevel_stop b lead (by omega)] at bad
      nomatch bad
  refine ⟨byte, voted, Bool.eq_false_iff.mpr fun bad => ?_, framing⟩
  obtain ⟨-, parity, wrong⟩ := (voteChar_parityError f start samples).mp bad
  rw [byte, voted, h 10 (by omega), charLevel_parity, if_pos parity] at wrong
  exact wrong rfl

end Sys2Proof.Machine
end

section
/-! SUPPORT. What the votes of any character give, and the level of LTX. -/

namespace Sys2Proof.Machine

/-! ## Votes (R148, R149) -/

theorem unanimous_iff : ∀ v : Vote, unanimous v = true ↔ v.getLsbD 0 = v.getLsbD 1 ∧ v.getLsbD 1 = v.getLsbD 2 := by decide

theorem majority_iff : ∀ v : Vote,
    majority v = true ↔ 2 ≤ (([0, 1, 2] : List Nat).filter fun i => v.getLsbD i).length := by decide

theorem votesAt_succ (start : Vote) {samples : List Vote} {p : Nat} (h : p < samples.length) :
    votesAt start samples (p + 1) = samples[p] := by
  rw [votesAt, if_neg (by omega), List.getD_eq_getElem?_getD]
  simp [h]

/-! ## Parity (R146, R149) -/

theorem odd_filter_iff (g : Nat → Bool) (l : List Nat) :
    (l.filter g).length % 2 = 1 ↔ l.foldr (fun p x => g p ^^ x) false = true := by
  induction l with
  | nil => simp
  | cons p l ih =>
    rw [List.filter_cons, List.foldr_cons]
    cases g p with
    | false => simpa using ih
    | true =>
      rw [if_pos rfl, List.length_cons, Bool.true_xor, Bool.not_eq_true', ← Bool.not_eq_true, ← ih]
      omega

section
variable (f : LineFormat) (start : Vote) (samples : List Vote)

/-- Whether a voted byte with its lead bit has an odd number of 1s. -/
def votedOdd : Bool :=
  ([0, 1, 2, 3, 4, 5, 6, 7] : List Nat).foldl (fun x i => x != (votedByte start samples).getLsbD i)
    (majority (votesAt start samples 9))

/-- The ten votes from the data to the parity bit hold an odd number of 1s when the last differs from the parity of the
others. -/
theorem votes_odd_iff :
    (([1, 2, 3, 4, 5, 6, 7, 8, 9, 10] : List Nat).filter fun p => majority (votesAt start samples p)).length % 2 = 1 ↔
      majority (votesAt start samples 10) ≠ votedOdd start samples := by
  rw [odd_filter_iff, votedOdd, parity_fold]
  simp only [votedByte_get start samples (show 0 < 8 by omega), votedByte_get start samples (show 1 < 8 by omega),
    votedByte_get start samples (show 2 < 8 by omega), votedByte_get start samples (show 3 < 8 by omega),
    votedByte_get start samples (show 4 < 8 by omega), votedByte_get start samples (show 5 < 8 by omega),
    votedByte_get start samples (show 6 < 8 by omega), votedByte_get start samples (show 7 < 8 by omega),
    List.foldr_cons, List.foldr_nil, Bool.xor_false, ← Bool.xor_assoc]
  rw [← bne_iff_ne]
  show (_ ^^ _) = true ↔ (_ ^^ _) = true
  rw [Bool.xor_comm]

/-- A parity error: no framing error, and the wrong number of 1s for the parity of the format. -/
theorem voteChar_parityError_iff :
    let c := voteChar f start samples
    let ones := (([1, 2, 3, 4, 5, 6, 7, 8, 9, 10] : List Nat).filter fun p => majority (votesAt start samples p)).length
    c.parityError = true ↔
      c.framingError = false ∧ ((f.parity = .even ∧ ones % 2 = 1) ∨ (f.parity = .odd ∧ ones % 2 = 0)) := by
  intro c ones
  have odd : ones % 2 = 1 ↔ _ := votes_odd_iff start samples
  have even : ones % 2 = 0 ↔ ¬ ones % 2 = 1 := by omega
  rw [voteChar_parityError, even, odd, hasParity]
  refine and_congr Iff.rfl ?_
  show _ ∧ majority _ ≠ parityBit f (votedByte start samples) (majority (votesAt start samples 9)) ↔ _
  rw [parityBit, ← votedOdd]
  cases f.parity with
  | none => simp
  | even => simp
  | odd => simp

/-- Every data, lead and parity bit votes 0. -/
theorem voteChar_allZero_iff : (voteChar f start samples).allZero = true ↔
    ∀ p, 1 ≤ p → p < stopPosition f → majority (votesAt start samples p) = false := by
  have byte : votedByte start samples = 0#8 ↔ ∀ p, p < 8 → majority (votesAt start samples (p + 1)) = false := by
    constructor
    · intro zero p hp
      rw [← votedByte_get start samples hp, zero, BitVec.getLsbD_zero]
    · intro zero
      refine BitVec.eq_of_getLsbD_eq fun i hi => ?_
      rw [votedByte_get start samples hi, zero i hi, BitVec.getLsbD_zero]
  have parity : stopPosition f = if hasParity f then 11 else 10 := rfl
  show (votedByte start samples == 0#8 && !majority (votesAt start samples 9) &&
    !(hasParity f && majority (votesAt start samples 10))) = true ↔ _
  rw [Bool.and_eq_true, Bool.and_eq_true, beq_iff_eq, byte, Bool.not_eq_true', Bool.not_eq_true', Bool.and_eq_false_imp]
  constructor
  · rintro ⟨⟨data, lead⟩, last⟩ p low high
    by_cases h8 : p ≤ 8
    · exact Nat.sub_add_cancel low ▸ data (p - 1) (by omega)
    · by_cases h9 : p = 9
      · rw [h9, lead]
      · by_cases hp : hasParity f = true
        · rw [parity, if_pos hp] at high
          rw [show p = 10 by omega, last hp]
        · rw [parity, if_neg hp] at high
          omega
  · intro zero
    obtain ⟨low, -, -⟩ := stopPosition_lt f
    refine ⟨⟨fun p hp => zero _ (by omega) (by omega), zero 9 (by omega) (by omega)⟩, fun hp => zero 10 (by omega) ?_⟩
    rw [parity, if_pos hp]
    omega

theorem voteChar_firstNoisy_none : (voteChar f start samples).firstNoisy = none ↔
    ∀ p, p < charBits f → unanimous (votesAt start samples p) = true := by
  show (List.range _).find? _ = none ↔ _
  simp

theorem voteChar_firstNoisy_some (p : Nat) : (voteChar f start samples).firstNoisy = some p ↔
    p < charBits f ∧ ¬ unanimous (votesAt start samples p) = true ∧
      ∀ q, q < p → unanimous (votesAt start samples q) = true := by
  show (List.range _).find? _ = some p ↔ _
  rw [List.find?_range_eq_some]
  simp only [Bool.not_eq_true', Bool.not_eq_true, Bool.not_not, List.mem_range]
  exact and_left_comm

end

/-! ## The level of LTX (R142, R146, R154, R157) -/

theorem frameLevel_past {f : LineFormat} {bytes : List Byte} {i : Nat} (h : bytes.length * charBits f ≤ i) :
    frameLevel f bytes i = true := by
  have past : bytes[i / charBits f]? = none :=
    List.getElem?_eq_none ((Nat.le_div_iff_mul_le (charBits_pos f)).mpr h)
  rw [frameLevel, past]

section
variable {s : State} {f : LineFormat} {x : TxFrame}

theorem ltx_character (ht : s.line.tx = .character) (hf : s.line.format = some f) (hx : s.fu.lineBuf = some x) :
    ltx s = frameLevel f (charsSent s x) (txTicks s / f.samplesPerBit) := by
  rw [ltx, ht, hf, hx]

theorem charsSent_get {k : Nat} (h : ∀ g i, s.line.fault = some (g, i) → k ≤ i.toNat) :
    (charsSent s x)[k]? = (frameBytes s.straps.stn x.frame)[k]? := by
  rw [charsSent]
  cases e : s.line.fault with
  | none => rfl
  | some y =>
    obtain ⟨g, i⟩ := y
    rw [Option.elim_some, List.getElem?_take, if_pos]
    exact Nat.lt_succ_of_le (h g i e)

theorem charsSent_length_le : (charsSent s x).length ≤ (frameBytes s.straps.stn x.frame).length := by
  rw [charsSent]
  cases s.line.fault with
  | none => exact le_rfl
  | some y => exact List.length_take_le' _ _

theorem charsSent_fault {g : EchoFault} {i : Byte} (h : s.line.fault = some (g, i)) :
    (charsSent s x).length ≤ i.toNat + 1 := by
  rw [charsSent, h]
  exact List.length_take_le _ _

/-- After as many bit times as the characters sent have, LTX is 1. -/
theorem ltx_past {n : Nat} (ht : s.line.tx = .character) (hf : s.line.format = some f) (hx : s.fu.lineBuf = some x)
    (hN : 0 < f.samplesPerBit) (hn : (charsSent s x).length ≤ n)
    (h : s.line.txSince + n * charBits f * f.samplesPerBit ≤ s.clock.ticks) : ltx s = true := by
  rw [ltx_character ht hf hx]
  refine frameLevel_past ((Nat.mul_le_mul_right _ hn).trans ?_)
  rw [Nat.le_div_iff_mul_le hN, txTicks, nowTick]
  omega

end

/-- Settles O60: the votes of a sent character, the level of LTX, the positions of a character, and any character's votes. -/
theorem votedCharacterIsTheOneSent : Obligations.VotedCharacterIsTheOneSent := by
  refine ⟨fun f b lead start samples => voteChar_sent, fun s => ⟨fun f x ht hf hx hN => ⟨fun k b p j hk hp hj hg hticks => ?sent,
      fun g i hg h => ?fault, fun h => ?past⟩, fun ht => ?breakLow, fun ht => ?high, fun ht => ?released, fun ht => ?driven⟩,
    fun f b lead p => ⟨rfl, fun hp => ?data, rfl, ?parity, fun hp => ?stop⟩,
    fun f start samples => ?votes,
    fun f v start samples p => ⟨majority_iff v, rfl, votesAt_succ start, charBits_eq f⟩⟩
  case sent =>
    have at_bit : txTicks s / f.samplesPerBit = k * charBits f + p := by
      rw [txTicks, nowTick, hticks, Nat.add_assoc, Nat.add_sub_cancel_left, Nat.mul_comm,
        Nat.mul_add_div hN, Nat.div_eq_of_lt hj, Nat.add_zero]
    rw [ltx_character ht hf hx, at_bit]
    exact frameLevel_at hp ((charsSent_get hg).trans hk)
  case fault => exact ltx_past ht hf hx hN (charsSent_fault hg) h
  case past => exact ltx_past ht hf hx hN charsSent_length_le h
  case breakLow => rw [ltx, ht]
  case high =>
    rw [ltx]
    rcases ht with ht | ht | ht | ⟨t, ht⟩ <;> rw [ht]
  case released =>
    rw [lde]
    rcases ht with ht | ht <;> rw [ht]
  case driven =>
    rw [lde]
    rcases ht with ht | ⟨t, ht⟩ | ht | ht <;> rw [ht]
  case data => exact charLevel_byte f b lead (p + 1) (by omega) (by omega)
  case parity =>
    rw [charLevel_parity, parityBit, parity_fold, hasParity]
    cases f.parity <;> rfl
  case stop =>
    refine charLevel_stop b lead (le_trans ?_ hp)
    rw [stopPosition]
    split <;> omega
  case votes =>
    intro c bit agrees stop ones
    have stop_eq : stopPosition f = stop := stopPosition_eq f
    have agrees_iff (p : Nat) : unanimous (votesAt start samples p) = true ↔ agrees p := unanimous_iff _
    refine ⟨fun p hp => votedByte_get start samples hp, rfl, ?_, voteChar_parityError_iff f start samples, ?_, ?_, fun p => ?_⟩
    · rw [← stop_eq]
      exact voteChar_framingError f start samples
    · rw [← stop_eq]
      exact voteChar_allZero_iff f start samples
    · simp only [← agrees_iff]
      exact voteChar_firstNoisy_none f start samples
    · simp only [← agrees_iff]
      exact voteChar_firstNoisy_some f start samples p

end Sys2Proof.Machine
end

section
/-! SUPPORT. One REFCLK cycle of an idle part, and what each timer makes due. -/

namespace Sys2Proof.Machine

/-! ## The cycle (R145, R182; log 5, 10, 17) -/

section
variable {s : State} {f : LineFormat}

theorem step_idle (hp : s.pending = []) : step s = .next (idleCycle s) := by rw [step, hp]

theorem idleCycle_inReset (ht : s.top = .inReset) : idleCycle s = s := if_pos ht

theorem idleCycle_serves {c : Instr} {rest : List Instr} (ht : s.top ≠ .inReset) (hd : s.clock.due = c :: rest) :
    idleCycle s = serveDue s c rest := by
  rw [idleCycle, if_neg ht, hd]

theorem idleCycle_cycle (ht : s.top ≠ .inReset) (hd : s.clock.due = []) :
    idleCycle s = queueDue (sampleIfTick s (tickClock s)) := by
  rw [idleCycle, if_neg ht, hd]

theorem sampleIfTick_unformatted (hf : s.line.format = none) : sampleIfTick s (tickClock s) = tickClock s := by
  rw [sampleIfTick, show (tickClock s).line.format = none from hf]

theorem sampleIfTick_between (hf : s.line.format = some f) (hd : s.clock.tickPhase + 1 < f.divisor) :
    sampleIfTick s (tickClock s) = tickClock s := by
  rw [sampleIfTick, show (tickClock s).line.format = some f from hf]
  exact if_pos (tickClock_between hf hd).1

theorem sampleIfTick_tick (hf : s.line.format = some f) (hd : f.divisor ≤ s.clock.tickPhase + 1) :
    sampleIfTick s (tickClock s) = sampleLine (tickClock s) f := by
  obtain ⟨ticks, -⟩ := tickClock_ticks hf hd
  rw [sampleIfTick, show (tickClock s).line.format = some f from hf]
  exact if_neg (by omega)

theorem tickMicro_within (h : s.clock.usPhase + 1 < 40) :
    (tickMicro s.clock).us = s.clock.us ∧ (tickMicro s.clock).usPhase = s.clock.usPhase + 1 := by
  rw [tickMicro, if_pos (by exact h)]
  exact ⟨rfl, rfl⟩

theorem tickMicro_moves (h : 40 ≤ s.clock.usPhase + 1) :
    (tickMicro s.clock).us = s.clock.us + 1 ∧ (tickMicro s.clock).usPhase = 0 := by
  rw [tickMicro, if_neg (by exact Nat.not_lt.mpr h)]
  exact ⟨rfl, rfl⟩

/-- LRX reads the next level that the line holds for it, and else what the part itself sends. -/
theorem sampleLine_level (s : State) (f : LineFormat) :
    (sampleLine s f).line.sampling.level = lrxLevel s ∧ (sampleLine s f).line.lrx = s.line.lrx.tail := ⟨rfl, rfl⟩

end

/-! ## What is due, by each timer -/

theorem mem_dueQuiet_iff (s : State) (r : RegionId) : Instr.quietIntervalExpiry r ∈ dueQuiet s ↔
    quietRuns s r = true ∧ ((pubAt s r).any fun p => p.quiet.any fun t => usReached s t (descAt s r).quietInterval) = true := by
  rw [dueQuiet, List.mem_map]
  simp only [List.mem_filter, mem_allIds, true_and, Bool.and_eq_true, Instr.quietIntervalExpiry.injEq]
  exact exists_eq_right

/-- The commands that each have one timer or one condition of their own. -/
def hasOneTimer : Instr → Bool
  | .quietIntervalExpiry _ => false
  | .collision _ _ => false
  | c => !fromSampling c

/-- Such a command is due exactly when its own timer makes it so. -/
theorem mem_dueNow_timer (s : State) {c : Instr} (h : hasOneTimer c = true) : c ∈ dueNow s ↔
    (dueEscape s = true ∧ c = .escape) ∨ (dueLineLost s = true ∧ c = .lineLost) ∨ (dueReply s = true ∧ c = .replyTimeout) ∨
    (dueSilence s = true ∧ c = .turnSilenceTimeout) ∨ (framesReached s = true ∧ c = .frameCountReached) ∨
    (dueLapse s = true ∧ c = .turnLapse) ∨ (dueGap s = true ∧ c = .gap) ∨ (dueTurnaround s = true ∧ c = .turnaroundGap) ∨
    (duePause s = true ∧ c = .pollPauseEnd) ∨ (dueSilenceWait s = true ∧ c = .silenceWaitEnd) ∨
    ((decide (s.line.tx = .breakLow) && charsPassed s s.line.txSince 2) = true ∧ c = .breakLowEnd) ∨
    ((decide (s.line.tx = .breakHigh) && charsPassed s s.line.txSince 1) = true ∧ c = .breakHighEnd) ∨
    ((decide (s.line.tx = .holding true) && bitsPassed s s.line.txSince 1) = true ∧ c = .trailingBitTimeEnd) ∨
    (dueSent s = true ∧ c = .frameTransmitComplete) ∨ ((nextApply s).isSome = true ∧ c = .applyStart) ∨
    (agentReady s = true ∧ c = .agentAccessRequest) := by
  have quiet : c ∉ dueQuiet s := fun hq => by
    obtain ⟨r, rfl⟩ := mem_dueQuiet hq
    nomatch h
  have collision : c ∉ dueCollision s := fun hc => by
    obtain ⟨f, k, rfl⟩ := mem_dueCollision hc
    nomatch h
  have sampled : c ∉ dueSampled s := fun hs => by
    have from_sampling := mem_dueSampled hs
    unfold hasOneTimer at h
    split at h <;> simp_all
  simp only [dueNow, dueLine, dueOwn, List.mem_append, mem_dueIf, quiet, collision, sampled, false_or, or_false, or_assoc]

theorem mem_dueNow_quiet (s : State) (r : RegionId) :
    Instr.quietIntervalExpiry r ∈ dueNow s ↔ Instr.quietIntervalExpiry r ∈ dueQuiet s := by
  have collision : Instr.quietIntervalExpiry r ∉ dueCollision s := fun hc => by
    obtain ⟨f, k, e⟩ := mem_dueCollision hc
    nomatch e
  have sampled : Instr.quietIntervalExpiry r ∉ dueSampled s := fun hs => nomatch mem_dueSampled hs
  simp only [dueNow, dueLine, dueOwn, List.mem_append, mem_dueIf, collision, sampled, reduceCtorEq, and_false, or_false]

section
variable (s : State)

theorem dueQuiet_at (r : RegionId) : Instr.quietIntervalExpiry r ∈ dueNow s ↔ s.top = .running ∧
    ∃ p q, pubAt s r = some p ∧ p.quiet = some q ∧
      s.clock.usPhase = 0 ∧ (s.clock.us - q).toNat = (descAt s r).quietInterval := by
  rw [mem_dueNow_quiet, mem_dueQuiet_iff, quietRuns, isRunning]
  simp only [Bool.and_eq_true, decide_eq_true_eq, Option.any_eq_true, usReached_iff]
  constructor
  · rintro ⟨⟨ht, -⟩, p, hp, q, hq, reached⟩
    exact ⟨ht, p, q, hp, hq, reached⟩
  · rintro ⟨ht, p, q, hp, hq, reached⟩
    exact ⟨⟨ht, p, hp, by rw [hq]; rfl⟩, p, hp, q, hq, reached⟩

theorem dueEscape_iff : dueEscape s = true ↔ ∃ h p, s.cap.held = some h ∧ pubAt s h.region = some p ∧ p.state = .live ∧
    s.clock.usPhase = 0 ∧ (s.clock.us - h.since).toNat = (descAt s h.region).holdLimit := by
  rw [dueEscape, escaping, Bool.and_eq_true]
  cases s.cap.held with
  | none => simp
  | some h =>
    simp only [Option.any_some, usReached_iff, Option.some.injEq, exists_and_left, exists_eq_left', Option.isSome_map,
      Option.filter_some, Option.isSome_ite, isLive_iff]
    constructor
    · rintro ⟨⟨p, hp, hl⟩, reached⟩
      exact ⟨p, hp, hl, reached⟩
    · rintro ⟨p, hp, hl, reached⟩
      exact ⟨⟨p, hp, hl⟩, reached⟩

theorem dueLineLost_iff : dueLineLost s = true ↔ s.top = .running ∧ ∃ q, s.tc.lost = .running q ∧
    s.clock.usPhase = 0 ∧ (s.clock.us - q).toNat = 1000 * s.params.lostMs := by
  rw [dueLineLost, lostRuns]
  cases s.tc.lost with
  | running q => simp [usReached_iff, isRunning]
  | stopped => simp
  | held => simp
  | expired => simp

theorem dueReply_iff : dueReply s = true ↔ ∃ w q, s.tc.watch = some w ∧ w.reply = some q ∧
    ∃ f, s.line.format = some f ∧ q + s.params.reply * f.samplesPerBit ≤ s.clock.ticks := by
  simp only [dueReply, Option.any_eq_true, bitsPassed_iff, ← exists_and_left]

theorem dueSilence_iff : dueSilence s = true ↔ ∃ w q, s.tc.watch = some w ∧ w.silence = some q ∧
    ∃ f, s.line.format = some f ∧ q + s.params.silence * f.samplesPerBit ≤ s.clock.ticks := by
  simp only [dueSilence, Option.any_eq_true, bitsPassed_iff, ← exists_and_left]

theorem framesReached_iff : framesReached s = true ↔ ∃ w, s.tc.watch = some w ∧ w.budget + 1 ≤ w.frames := by
  simp only [framesReached, Option.any_eq_true, decide_eq_true_eq]

theorem dueTurnaround_iff : dueTurnaround s = true ↔ s.top = .running ∧ s.line.tx = .idle ∧
    ∃ q, s.tc.gap = .counting q ∧
      ∃ f, s.line.format = some f ∧ q + s.params.turnaround * f.samplesPerBit ≤ s.clock.ticks := by
  rw [dueTurnaround, gapRuns, isRunning]
  cases s.tc.gap with
  | counting q => simp [bitsPassed_iff, and_assoc]
  | notAwaited => simp
  | passed => simp

theorem duePause_iff : duePause s = true ↔ s.tc.phase = .pause ∧ ∃ q, s.tc.pauseFrom = some q ∧
    ∃ f, s.line.format = some f ∧ q + s.params.pause * f.samplesPerBit ≤ s.clock.ticks := by
  rw [duePause, pauseRuns]
  cases s.tc.pauseFrom with
  | none => simp
  | some q => simp [bitsPassed_iff]

theorem dueSilenceWait_iff : dueSilenceWait s = true ↔ s.tc.phase = .silenceWait ∧ ∃ q, s.tc.silenceFrom = some q ∧
    ∃ f, s.line.format = some f ∧ q + s.params.silence * f.samplesPerBit ≤ s.clock.ticks := by
  rw [dueSilenceWait, silenceWaits]
  cases s.tc.silenceFrom with
  | none => simp
  | some q => simp [bitsPassed_iff]

theorem dueLapse_iff : dueLapse s = true ↔ ∃ x, s.del.turn = some x ∧ x.kind ≠ .own ∧
    ((s.line.tx = .idle ∧
        ∃ f, s.line.format = some f ∧ x.pollEnd + s.params.reply * f.samplesPerBit ≤ s.clock.ticks) ∨
      (s.line.tx = .holding false ∧
        ∃ f, s.line.format = some f ∧ s.line.txSince + s.params.silence * f.samplesPerBit ≤ s.clock.ticks)) := by
  rw [dueLapse, mayLapse, memberTurnOpen]
  cases s.del.turn with
  | none => simp
  | some x =>
    by_cases idle : s.line.tx = .idle
    · simp [idle, bitsPassed_iff]
    · simp [idle, bitsPassed_iff, and_assoc]

theorem dueSent_iff : dueSent s = true ↔ s.line.tx = .character ∧ s.line.fault = none ∧ ∃ x, s.fu.lineBuf = some x ∧
    ∃ f, s.line.format = some f ∧ s.line.txSince +
      (frameBytes s.straps.stn x.frame).length * (charBits f * f.samplesPerBit) ≤ s.clock.ticks := by
  rw [dueSent, sending]
  by_cases h : s.line.tx = .character ∧ s.line.fault = none
  · rw [if_pos h]
    simp only [h, Option.any_eq_true, charsPassed_iff, true_and]
  · rw [if_neg h]
    simp only [Option.any_none, Bool.false_eq_true, false_iff]
    rintro ⟨ht, hf, -⟩
    exact h ⟨ht, hf⟩

theorem nextApply_iff : (nextApply s).isSome = true ↔
    s.inb.engine = none ∧ ∃ x rest, s.inb.slots = x :: rest ∧ x.inProgress = false := by
  rw [nextApply]
  cases s.inb.engine with
  | some pos => simp
  | none =>
    cases s.inb.slots with
    | nil => simp
    | cons x rest => cases h : x.inProgress <;> simp [h]

theorem agentReady_iff : agentReady s = true ↔ s.path.agent = none ∧ (chooseAccess s).isSome = true := by
  rw [agentReady, Bool.and_eq_true, Option.isNone_iff_eq_none]

end

end Sys2Proof.Machine
end

section
/-! SUPPORT. A step of a part with an empty queue. -/

namespace Sys2Proof.Machine

/-- What a REFCLK cycle does, in the terms of the state it leaves (R145, R182; log 5). -/
theorem idleCycle_leaves {s : State} (hp : s.pending = []) (ht : s.top ≠ .inReset) (hd : s.clock.due = []) :
    ∃ u : State, u = sampleIfTick s (tickClock s) ∧ idleCycle s = queueDue u ∧ u.pending = [] ∧ u.clock = (tickClock s).clock ∧
      (idleCycle s).line = u.line ∧ (idleCycle s).clock.us = (tickMicro s.clock).us ∧
      (idleCycle s).clock.usPhase = (tickMicro s.clock).usPhase ∧
      (idleCycle s).clock.ticks = (tickClock s).clock.ticks ∧ (idleCycle s).clock.tickPhase = (tickClock s).clock.tickPhase := by
  have same := sampleIfTick_same s (tickClock s)
  have cycle := idleCycle_cycle ht hd
  obtain ⟨us, phase⟩ := tickClock_micro s
  refine ⟨_, rfl, cycle, ?_⟩
  generalize sampleIfTick s (tickClock s) = u at same cycle
  have clock : u.clock = (tickClock s).clock := by rw [same]
  refine ⟨by rw [same]; exact hp, clock, by rw [cycle, queueDue_line], ?_⟩
  rw [cycle, queueDue_clock, clock]
  exact ⟨us, phase, rfl, rfl⟩

/-- Settles O2: a step of an empty queue is one REFCLK cycle or the turn of a command that fell due in one; and each
command is due by its own timer. -/
theorem emptyQueueIsOneRefclkCycle : Obligations.EmptyQueueIsOneRefclkCycle := by
  refine ⟨fun s hp => ⟨fun ht => ?reset, fun c rest ht hd => ?turn, fun ht hd => ?cycle⟩, fun s => ?due⟩
  case reset => rw [step_idle hp, idleCycle_inReset ht]
  case turn =>
    rw [step_idle hp, idleCycle_serves ht hd]
    refine ⟨fun due => ?_, fun out => ?_⟩
    · rw [serveDue, if_pos due, hp]
      rfl
    · rw [serveDue, if_neg out]
  case cycle =>
    obtain ⟨u, hu, cycle, pending, clock, line, us, phase, ticks, tickPhase⟩ := idleCycle_leaves hp ht hd
    have due : u.clock.due = [] := by rw [clock, tickClock_due, hd]
    obtain ⟨one, empty⟩ := queueDue_queue pending due
    refine ⟨idleCycle s, step_idle hp, idle_same s, cycle ▸ one, cycle ▸ empty, fun c => ?_, fun within => ?_, fun moves => ?_,
      fun hf => ?unformatted, fun f hf => ⟨fun between => ?between, fun tick => ?tick⟩⟩
    · rw [cycle, dueNow_queueDue, mem_queueDue pending due]
    · rw [us, phase]
      exact tickMicro_within within
    · rw [us, phase]
      exact tickMicro_moves moves
    case unformatted =>
      rw [line, ticks, hu, sampleIfTick_unformatted hf]
      exact ⟨(tickClock_unformatted hf).1, rfl⟩
    case between =>
      obtain ⟨still, next⟩ := tickClock_between hf between
      rw [line, ticks, tickPhase, hu, sampleIfTick_between hf between]
      exact ⟨next, still, rfl⟩
    case tick =>
      obtain ⟨next, phase⟩ := tickClock_ticks hf tick
      have sampled : (idleCycle s).line = (sampleLine (tickClock s) f).line := by rw [line, hu, sampleIfTick_tick hf tick]
      have rest := idle_same s
      refine ⟨tickPhase.trans phase, ticks.trans next, fun b rest hl => ?_, fun hl => ?_⟩
      · rw [sampled]
        exact ⟨by rw [(sampleLine_level _ f).1, lrxLevel, show (tickClock s).line.lrx = b :: rest from hl],
          by rw [(sampleLine_level _ f).2, show (tickClock s).line.lrx = b :: rest from hl, List.tail_cons]⟩
      · refine ⟨?_, by rw [sampled, (sampleLine_level _ f).2, show (tickClock s).line.lrx = [] from hl, List.tail_nil]⟩
        have level : (idleCycle s).line.sampling.level = ltx (tickClock s) := by
          rw [sampled, (sampleLine_level _ f).1, lrxLevel, show (tickClock s).line.lrx = [] from hl]
        rw [level]
        generalize idleCycle s = t at rest ticks
        refine ltx_congr ?_ ?_ ?_ ?_ ticks.symm ?_ rfl
        all_goals rw [rest]; rfl
  case due =>
    intro due us bits chars
    have timer {c : Instr} (h : hasOneTimer c = true) : due c ↔ _ := mem_dueNow_timer s h
    refine ⟨dueQuiet_at s, (timer rfl).trans ?escape, (timer rfl).trans ?lost, (timer rfl).trans ?reply, (timer rfl).trans ?silence,
      (timer rfl).trans ?frames, (timer rfl).trans ?lapse, (timer rfl).trans ?turnaround, (timer rfl).trans ?pause,
      (timer rfl).trans ?wait, (timer rfl).trans ?low, (timer rfl).trans ?high, (timer rfl).trans ?trailing,
      (timer rfl).trans ?sent, (timer rfl).trans ?apply, (timer rfl).trans ?agent⟩
    all_goals simp only [reduceCtorEq, and_false, and_true, or_false, false_or]
    case escape => exact dueEscape_iff s
    case lost => exact dueLineLost_iff s
    case reply => exact dueReply_iff s
    case silence => exact dueSilence_iff s
    case frames => exact framesReached_iff s
    case lapse => exact dueLapse_iff s
    case turnaround => exact dueTurnaround_iff s
    case pause => exact duePause_iff s
    case wait => exact dueSilenceWait_iff s
    case low => exact (Bool.and_eq_true _ _ ▸ and_congr decide_eq_true_iff (charsPassed_iff s _ _))
    case high => exact (Bool.and_eq_true _ _ ▸ and_congr decide_eq_true_iff (charsPassed_iff s _ _))
    case trailing => exact (Bool.and_eq_true _ _ ▸ and_congr decide_eq_true_iff (bitsPassed_iff s _ _))
    case sent => exact dueSent_iff s
    case apply => exact nextApply_iff s
    case agent => exact agentReady_iff s

end Sys2Proof.Machine
end
